-- ==== Sys2Proof/Word.lean ====
section
/-! DEFINITION. The word types of the core: XLEN = 32 (spec/00_scope.md R10), bytes of 8 bits (R12), and sparse
data by key, in which an unlisted key holds no value (spec/10_state.md R46). -/

namespace Sys2Proof

/-- A 32-bit register, offset, count or distance (R10, XLEN). -/
abbrev Word := BitVec 32

/-- A byte is 8 bits (R12). -/
abbrev Byte := BitVec 8

/-- Sparse data by key: keys strictly rising, an unlisted key holds no value. -/
abbrev Store (α : Type) := List (Nat × α)

end Sys2Proof
end

