-- ==== Sys2Proof/Syntax.lean ====
section
/-! DEFINITION. The commands: one constructor per row of spec/opcode_table.json (spec/30_encoding.md R105), with the
operand fields of R101 as types. Operands in ARG registers are no part of the word (R104). -/

namespace Sys2Proof

/-- The bit source of a decode command (R101, BS). -/
inductive BitSource where
  /-- BS = 0: the 8-bit-group reader. -/
  | group8
  /-- BS = 1: the 32-bit-group reader. -/
  | group32
deriving DecidableEq, Repr, Inhabited

/-- The list store of an MTF command (R101, T[0]). -/
inductive MtfStore where
  /-- MTF[0]: the selector list. -/
  | selectors
  /-- MTF[1]: the data list. -/
  | data
deriving DecidableEq, Repr, Inhabited

/-- The 51 commands of R105. -/
inductive Instr where
  | instReset
  | fcurSet
  | fcurRdb
  | fcurConsume
  | bcurSet
  | bcurRdb
  | bcurConsume
  | bitsRd8 (n : BitVec 6)
  | bitsRd32 (n : BitVec 6)
  | bitsReset (n : BitVec 6)
  | fwrSet
  | fwrWrb (b : Byte)
  | fwrCopy
  | fwrCopyh
  | fwrEof
  | fwrOff
  | bwrSet
  | bwrWrb (b : Byte)
  | bwrCopy
  | bwrEof
  | bwrOff
  | histPush
  | hufClear (t : BitVec 4)
  | hufInsert (t : BitVec 4)
  | hufBuild (t : BitVec 4)
  | hufDecode (t : BitVec 4) (bs : BitSource)
  | dhufInit
  | dhufDecode (bs : BitSource)
  | dhufUpdate
  | dhufMaxf
  | mtfInit (l : MtfStore)
  | mtfAccess (l : MtfStore)
  | lzwSetup
  | lzwRestart
  | lzwStep
  | bzStart
  | bzBlock
  | bzUnbwt
  | ariScale
  | ariGetcode (n : BitVec 6)
  | ariDecsym
  | ariUpdate
  | ariInit
  | decompressBlzw
  | decompressBzp2
  | decompressLhlb
  | decompressMash
  | decompressRake
  | decompressShri
  | decompressSmpl
  | decompressSqsh
deriving DecidableEq, Repr, Inhabited

end Sys2Proof
end

