-- ==== Sys2Proof/WellFormed.lean ====
section
/-! DEFINITION. Which commands are well-formed. The types of Syntax.lean leave one check: a bit count of an I6
command is 0..32 (spec/30_encoding.md R103, R107). -/

namespace Sys2Proof

/-- The bit count of an I6 command is legal: 0..32 (R107). -/
def legalBitCount (n : BitVec 6) : Bool := n.toNat ≤ 32

/-- The command is one that some word encodes (R107). -/
def Instr.wellFormed : Instr → Bool
  | .bitsRd8 n => legalBitCount n
  | .bitsRd32 n => legalBitCount n
  | .bitsReset n => legalBitCount n
  | .ariGetcode n => legalBitCount n
  | .instReset | .fcurSet | .fcurRdb | .fcurConsume | .bcurSet | .bcurRdb | .bcurConsume | .fwrSet | .fwrWrb _
  | .fwrCopy | .fwrCopyh | .fwrEof | .fwrOff | .bwrSet | .bwrWrb _ | .bwrCopy | .bwrEof | .bwrOff | .histPush
  | .hufClear _ | .hufInsert _ | .hufBuild _ | .hufDecode _ _ | .dhufInit | .dhufDecode _ | .dhufUpdate | .dhufMaxf
  | .mtfInit _ | .mtfAccess _ | .lzwSetup | .lzwRestart | .lzwStep | .bzStart | .bzBlock | .bzUnbwt | .ariScale
  | .ariDecsym | .ariUpdate | .ariInit | .decompressBlzw | .decompressBzp2 | .decompressLhlb | .decompressMash
  | .decompressRake | .decompressShri | .decompressSmpl | .decompressSqsh => true

end Sys2Proof
end

