-- ==== Sys2Proof/Decode.lean ====
section
/-! DEFINITION. Command words to commands and back (spec/30_encoding.md R100 to R108). Decoding is total: OPC is looked
up, then `w & mask = match` is checked with the row's mask (R106), then the bit count of an I6 command (R107). A word
that selects no command is rejected by name. -/

namespace Sys2Proof

/-- Why a word selects no command (R107). -/
inductive Reject where
  /-- OPC is not in the table of R105. -/
  | unlistedOpcode (opc : BitVec 8)
  /-- A must-be-zero bit is set (R108). -/
  | mustBeZero
  /-- The bit count of an I6 command is 33..63. -/
  | bitCount
deriving DecidableEq, Repr

/-- The command formats of R102. -/
inductive Format where
  | n | i6 | i8 | t | tb | b | l
deriving DecidableEq, Repr

/-- The mask of a format: the bits that must match (R102). -/
def Format.mask : Format → BitVec 32
  | .n => 0xFFFFFFFF#32
  | .i6 => 0xFFFFFFC0#32
  | .i8 => 0xFFFFFF00#32
  | .t => 0xFF0FFFFF#32
  | .tb => 0xFF0EFFFF#32
  | .b => 0xFFFEFFFF#32
  | .l => 0xFFEFFFFF#32

/-- Field OPC, bits 31..24 (R101). -/
def fieldOpc (w : BitVec 32) : BitVec 8 := w.extractLsb' 24 8

/-- Field T, bits 23..20 (R101). -/
def fieldT (w : BitVec 32) : BitVec 4 := w.extractLsb' 20 4

/-- Field T[0], bit 20, as a list store (R101). -/
def fieldL (w : BitVec 32) : MtfStore := if w.getLsbD 20 then .data else .selectors

/-- Field BS, bit 16 (R101). -/
def fieldBs (w : BitVec 32) : BitSource := if w.getLsbD 16 then .group32 else .group8

/-- IMM[5:0], a bit count (R103). -/
def fieldImm6 (w : BitVec 32) : BitVec 6 := w.extractLsb' 0 6

/-- IMM[7:0], a byte (R103). -/
def fieldImm8 (w : BitVec 32) : BitVec 8 := w.extractLsb' 0 8

/-- The row of R105 that an OPC names: its format, and the command with its fields taken from the word. -/
def rowOf (opc : BitVec 8) (w : BitVec 32) : Option (Format × Instr) :=
  match opc with
  | 0x01#8 => some (.n, .instReset)
  | 0x10#8 => some (.n, .fcurSet)
  | 0x11#8 => some (.n, .fcurRdb)
  | 0x12#8 => some (.n, .fcurConsume)
  | 0x14#8 => some (.n, .bcurSet)
  | 0x15#8 => some (.n, .bcurRdb)
  | 0x16#8 => some (.n, .bcurConsume)
  | 0x18#8 => some (.i6, .bitsRd8 (fieldImm6 w))
  | 0x19#8 => some (.i6, .bitsRd32 (fieldImm6 w))
  | 0x1A#8 => some (.i6, .bitsReset (fieldImm6 w))
  | 0x20#8 => some (.n, .fwrSet)
  | 0x21#8 => some (.i8, .fwrWrb (fieldImm8 w))
  | 0x22#8 => some (.n, .fwrCopy)
  | 0x23#8 => some (.n, .fwrCopyh)
  | 0x24#8 => some (.n, .fwrEof)
  | 0x25#8 => some (.n, .fwrOff)
  | 0x28#8 => some (.n, .bwrSet)
  | 0x29#8 => some (.i8, .bwrWrb (fieldImm8 w))
  | 0x2A#8 => some (.n, .bwrCopy)
  | 0x2C#8 => some (.n, .bwrEof)
  | 0x2D#8 => some (.n, .bwrOff)
  | 0x2F#8 => some (.n, .histPush)
  | 0x30#8 => some (.t, .hufClear (fieldT w))
  | 0x31#8 => some (.t, .hufInsert (fieldT w))
  | 0x32#8 => some (.t, .hufBuild (fieldT w))
  | 0x33#8 => some (.tb, .hufDecode (fieldT w) (fieldBs w))
  | 0x38#8 => some (.n, .dhufInit)
  | 0x39#8 => some (.b, .dhufDecode (fieldBs w))
  | 0x3A#8 => some (.n, .dhufUpdate)
  | 0x3B#8 => some (.n, .dhufMaxf)
  | 0x3C#8 => some (.l, .mtfInit (fieldL w))
  | 0x3D#8 => some (.l, .mtfAccess (fieldL w))
  | 0x40#8 => some (.n, .lzwSetup)
  | 0x41#8 => some (.n, .lzwRestart)
  | 0x42#8 => some (.n, .lzwStep)
  | 0x48#8 => some (.n, .bzStart)
  | 0x49#8 => some (.n, .bzBlock)
  | 0x4A#8 => some (.n, .bzUnbwt)
  | 0x50#8 => some (.n, .ariScale)
  | 0x51#8 => some (.i6, .ariGetcode (fieldImm6 w))
  | 0x52#8 => some (.n, .ariDecsym)
  | 0x53#8 => some (.n, .ariUpdate)
  | 0x54#8 => some (.n, .ariInit)
  | 0x80#8 => some (.n, .decompressBlzw)
  | 0x81#8 => some (.n, .decompressBzp2)
  | 0x82#8 => some (.n, .decompressLhlb)
  | 0x83#8 => some (.n, .decompressMash)
  | 0x84#8 => some (.n, .decompressRake)
  | 0x85#8 => some (.n, .decompressShri)
  | 0x86#8 => some (.n, .decompressSmpl)
  | 0x87#8 => some (.n, .decompressSqsh)
  | _ => none

/-- The command a word selects, or why it selects none (R106, R107). The match value of a row is `OPC << 24` (R102). -/
def decode (w : BitVec 32) : Except Reject Instr :=
  match rowOf (fieldOpc w) w with
  | none => .error (.unlistedOpcode (fieldOpc w))
  | some (f, i) =>
    if w &&& f.mask = (fieldOpc w).setWidth 32 <<< 24 then
      if i.wellFormed then .ok i else .error .bitCount
    else .error .mustBeZero

/-- The OPC of a command (R105). -/
def Instr.opcode : Instr → BitVec 8
  | .instReset => 0x01#8
  | .fcurSet => 0x10#8
  | .fcurRdb => 0x11#8
  | .fcurConsume => 0x12#8
  | .bcurSet => 0x14#8
  | .bcurRdb => 0x15#8
  | .bcurConsume => 0x16#8
  | .bitsRd8 _ => 0x18#8
  | .bitsRd32 _ => 0x19#8
  | .bitsReset _ => 0x1A#8
  | .fwrSet => 0x20#8
  | .fwrWrb _ => 0x21#8
  | .fwrCopy => 0x22#8
  | .fwrCopyh => 0x23#8
  | .fwrEof => 0x24#8
  | .fwrOff => 0x25#8
  | .bwrSet => 0x28#8
  | .bwrWrb _ => 0x29#8
  | .bwrCopy => 0x2A#8
  | .bwrEof => 0x2C#8
  | .bwrOff => 0x2D#8
  | .histPush => 0x2F#8
  | .hufClear _ => 0x30#8
  | .hufInsert _ => 0x31#8
  | .hufBuild _ => 0x32#8
  | .hufDecode _ _ => 0x33#8
  | .dhufInit => 0x38#8
  | .dhufDecode _ => 0x39#8
  | .dhufUpdate => 0x3A#8
  | .dhufMaxf => 0x3B#8
  | .mtfInit _ => 0x3C#8
  | .mtfAccess _ => 0x3D#8
  | .lzwSetup => 0x40#8
  | .lzwRestart => 0x41#8
  | .lzwStep => 0x42#8
  | .bzStart => 0x48#8
  | .bzBlock => 0x49#8
  | .bzUnbwt => 0x4A#8
  | .ariScale => 0x50#8
  | .ariGetcode _ => 0x51#8
  | .ariDecsym => 0x52#8
  | .ariUpdate => 0x53#8
  | .ariInit => 0x54#8
  | .decompressBlzw => 0x80#8
  | .decompressBzp2 => 0x81#8
  | .decompressLhlb => 0x82#8
  | .decompressMash => 0x83#8
  | .decompressRake => 0x84#8
  | .decompressShri => 0x85#8
  | .decompressSmpl => 0x86#8
  | .decompressSqsh => 0x87#8

/-- The BS bit of a bit source (R101). -/
def encodeBs : BitSource → BitVec 32
  | .group8 => 0#32
  | .group32 => 1#32 <<< 16

/-- The T[0] bit of a list store (R101). -/
def encodeL : MtfStore → BitVec 32
  | .selectors => 0#32
  | .data => 1#32 <<< 20

/-- The operand fields of a command, at their places in the word (R101). -/
def Instr.fieldBits : Instr → BitVec 32
  | .bitsRd8 n => n.setWidth 32
  | .bitsRd32 n => n.setWidth 32
  | .bitsReset n => n.setWidth 32
  | .ariGetcode n => n.setWidth 32
  | .fwrWrb b => b.setWidth 32
  | .bwrWrb b => b.setWidth 32
  | .hufClear t => t.setWidth 32 <<< 20
  | .hufInsert t => t.setWidth 32 <<< 20
  | .hufBuild t => t.setWidth 32 <<< 20
  | .hufDecode t bs => t.setWidth 32 <<< 20 ||| encodeBs bs
  | .dhufDecode bs => encodeBs bs
  | .mtfInit l => encodeL l
  | .mtfAccess l => encodeL l
  | .instReset | .fcurSet | .fcurRdb | .fcurConsume | .bcurSet | .bcurRdb | .bcurConsume | .fwrSet | .fwrCopy
  | .fwrCopyh | .fwrEof | .fwrOff | .bwrSet | .bwrCopy | .bwrEof | .bwrOff | .histPush | .dhufInit | .dhufUpdate
  | .dhufMaxf | .lzwSetup | .lzwRestart | .lzwStep | .bzStart | .bzBlock | .bzUnbwt | .ariScale | .ariDecsym
  | .ariUpdate | .ariInit | .decompressBlzw | .decompressBzp2 | .decompressLhlb | .decompressMash
  | .decompressRake | .decompressShri | .decompressSmpl | .decompressSqsh => 0#32

/-- The word of a command: OPC and the operand fields, every other bit 0 (R101, R105, R108). -/
def encode (i : Instr) : BitVec 32 := i.opcode.setWidth 32 <<< 24 ||| i.fieldBits

/-- The command the decoder reads from an instruction of spec/opcode_table.json whose bits are `w`: a command is one
32-bit word (R100), so `nbits` is 32 and `w` is that word; a number of more than 32 bits is no word. -/
def decodeTableWord (nbits w : Nat) : Option Instr :=
  if nbits ≤ 32 ∧ w < 2 ^ 32 then
    match decode (BitVec.ofNat 32 w) with
    | .ok i => some i
    | .error _ => none
  else none

end Sys2Proof
end

