-- ==== Sys2Proof/Config.lean ====
section
/-! DEFINITION. The configuration: every table and function that the spec names and leaves OPEN
(spec/00_scope.md R10, R16; spec/92_eei_decisions.md section 7). Their one value `Config.core` is opaque, so nothing
can be proved of it that is not true of every choice. `Config.Lawful` collects the properties the spec states beside
the items and that their types do not already force. -/

namespace Sys2Proof

/-- A function of the upcoming bits of the forward bit reader that depends on the bits it consumes and on nothing
else: an OPEN field decoder (spec/46_lhlb_mash_rake.md R350, a complete prefix-free set of bit strings) or the bit
dependence of an OPEN stream function (spec/47_shri.md R396). A leaf consumes no further bit. -/
inductive BitTree (α : Type) where
  /-- No further bit is wanted. -/
  | leaf (value : α)
  /-- One bit is wanted; the branch is taken on its value. -/
  | node (zero one : BitTree α)
deriving DecidableEq, Repr, Inhabited

/-- The longest bit string of a field. -/
def BitTree.depth {α : Type} : BitTree α → Nat
  | .leaf _ => 0
  | .node z o => 1 + max z.depth o.depth

/-- Every value a bit tree can deliver satisfies a property. -/
def BitTree.All {α : Type} (p : α → Prop) : BitTree α → Prop
  | .leaf v => p v
  | .node z o => z.All p ∧ o.All p

/-- One entry of a Huffman table (spec/41_huffman.md R190): the path is the low `len` bits of `code`, first bit most
significant. -/
structure HufEntry where
  len : Nat
  code : Nat
  sym : Word
deriving DecidableEq, Repr, Inhabited

/-- No path of the list is a prefix of, or equal to, the path of another entry (R190). -/
def prefixFree (es : List HufEntry) : Prop :=
  es.Pairwise (fun a b => a.code / 2 ^ (a.len - min a.len b.len) ≠ b.code / 2 ^ (b.len - min a.len b.len))

/-- The adaptive tracker's tree (spec/10_state.md R36): the frequency count of each symbol, and the code tree in a
memory whose layout is OPEN (R220). -/
structure DhufTree where
  freq : List Nat
  shape : List Word
deriving DecidableEq, Repr, Inhabited

/-- The stream registers of the arithmetic decoder (spec/47_shri.md R393). -/
structure AriRegs where
  vLen : Word
  vNext : Word
  shift : Word
deriving DecidableEq, Repr, Inhabited

/-- The arithmetic decoder's state (R393): its stream registers and the model, 999 slots; no rule indexes a slot. -/
structure Ari extends AriRegs where
  freq : Vector Word 999
deriving DecidableEq, Repr, Inhabited

/-- The causes of CorruptData (spec/60_exceptions.md R462). -/
inductive Cause where
  | range | unexpectedEnd | overrun | zeroDistance | distance | capacity | unset | walkOff | table | header | index
  | zeroDivisor | underFill | reserved | magic
deriving DecidableEq, Repr, Inhabited

/-- A (count, distance) pair of SHRI's match tiers (R401: count at least 1). -/
structure ShriMatch where
  count : ℕ+
  distance : Nat
deriving DecidableEq, Inhabited

/-- How ShriMatch reads the fields of a match: through ShriGetCode only (R401). -/
inductive MatchProg where
  /-- The new state and the match; none is ZeroDivisor (R396). -/
  | done (result : Option (Ari × ShriMatch))
  /-- `ShriGetCode(a, n, bits)`, whose new state and value decide how the reading goes on. -/
  | getCode (a : Ari) (n : Fin 33) (next : Ari → BitVec n.val → MatchProg)
deriving Inhabited

/-- The value of MASH_MATCH (spec/46_lhlb_mash_rake.md R362): the count is `countLess2 + 2`. -/
structure MashMatch where
  countLess2 : Nat
  distance : Nat
deriving DecidableEq, Inhabited

/-- What the SHRI header function gives (R392). -/
structure ShriHeader where
  fstart : Word
  seedBits : Word
  seedCount : Fin 33
deriving DecidableEq, Inhabited

/-- What the RAKE header function gives (R372). -/
structure RakeHeader where
  mid : Word
  fstart : Word
  seedBits : Word
  seedCount : Fin 33
deriving DecidableEq, Inhabited

/-- SMPL_TABLE_MODE (spec/48_smpl_sqsh.md R432). -/
inductive SmplMode where
  /-- Mode A: the code of each symbol follows its length in the stream. -/
  | explicit
  /-- Mode B: the codes are assigned canonically from the 256 lengths. -/
  | canonical
deriving DecidableEq, Repr, Inhabited

/-- The SQSH mode machine's state Q (R442); accum1 saturates at 31. -/
structure SqshQ where
  accum1 : Fin 32
  accum2 : Nat
  prevBits : Nat
deriving DecidableEq, Repr, Inhabited

/-- What SqshMode selects (R442). -/
inductive SqshMode where
  /-- A repeat: length and distance fields, then a copy. -/
  | repeated
  /-- A run of `run` literal samples of `widthLess1 + 1` bits (1..8). -/
  | literal (widthLess1 : Fin 8) (run : ℕ+)
deriving DecidableEq, Inhabited

/-- Every OPEN item of R10, and the free values of host reads (spec/10_state.md R46). -/
structure Config where
  /-- HUF_NODE_MAX, node capacity of one slot; none is unbounded (R10). -/
  hufNodeMax : Option Nat
  /-- HIST_MAX in bytes; none is unbounded (R10). -/
  histMaxBytes : Option Nat
  /-- HIST_MAX in buffers; none is unbounded (R10). -/
  histMaxBuffers : Option Nat
  /-- BZ_RAND_TABLE, 512 positive integers (spec/45_bzp2.md R312). -/
  bzRandTable : Fin 512 → ℕ+
  /-- DhufInit(nsym) (spec/42_adaptive_huffman.md R220). -/
  dhufInit : Nat → DhufTree
  /-- DhufCodes(tree) (R220). -/
  dhufCodes : DhufTree → List HufEntry
  /-- DhufUpdate(tree, symbol) (R220). -/
  dhufUpdate : DhufTree → Nat → DhufTree
  /-- DhufMaxF(tree) (R220). -/
  dhufMaxF : DhufTree → Word
  /-- LHLB_COUNT, 60 positive integers (spec/46_lhlb_mash_rake.md R352). -/
  lhlbCount : Fin 60 → ℕ+
  /-- LHLB_DIST, a positive distance (R353). -/
  lhlbDist : BitTree ℕ+
  /-- MASH_LITLEN (R362), a complete field decoder, held apart from HUF slot 0 (DESIGN CHOICE, log 36). -/
  mashLitLen : BitTree Nat
  /-- MASH_LIT (R362). -/
  mashLit : BitTree Byte
  /-- MASH_MATCH (R362). -/
  mashMatch : BitTree MashMatch
  /-- RakeHeader(CHUNK); none is the error result (R372). -/
  rakeHeader : List Byte → Option RakeHeader
  /-- RAKE_LEN_TABLE, 255 lengths of 1..32, each held less 1 (R374). -/
  rakeLenLess1 : Fin 255 → Fin 32
  /-- RAKE_TIER (R375). -/
  rakeTier : BitTree (Fin 3)
  /-- RAKE_D0_BASE (R375). -/
  rakeD0Base : Nat
  /-- RAKE_LITERAL_BIT (R373). -/
  rakeLiteralBit : Bool
  /-- ShriInit() (spec/47_shri.md R396). -/
  shriInit : Ari
  /-- ShriScale(a, b, mult); none is ZeroDivisor (R396). -/
  shriScale : Word → Word → Word → Option Word
  /-- ShriDecodeSymbol(A, bits), new stream registers and a symbol 0..498; none is ZeroDivisor (R396). It does not change
  the model frequencies (R398). -/
  shriDecodeSymbol : Ari → BitTree (Option (AriRegs × Fin 499))
  /-- ShriUpdate(A, s) (R396). -/
  shriUpdate : Ari → Fin 499 → Ari
  /-- ShriGetCode(A, n, bits), a value below 2^n; none is ZeroDivisor (R396). -/
  shriGetCode : Ari → (n : Nat) → BitTree (Option (Ari × BitVec n))
  /-- ShriMatch(A, s, bits) for 256 ≤ s ≤ 497 (R401). -/
  shriMatch : Ari → Fin 499 → MatchProg
  /-- ShriHeader(CHUNK); none is the error result (R392). -/
  shriHeader : List Byte → Option ShriHeader
  /-- SmplHeader(CHUNK), the first stream offset; none is the error result (spec/48_smpl_sqsh.md R431). -/
  smplHeader : List Byte → Option Word
  /-- SMPL_TABLE_MODE (R432). -/
  smplTableMode : SmplMode
  /-- SMPL_ACC_INIT (R431). -/
  smplAccInit : Byte
  /-- SqshHeader(CHUNK), the first stream offset; none is the error result (R442). -/
  sqshHeader : List Byte → Option Word
  /-- SQSH_FIRST (R442). -/
  sqshFirst : BitTree Byte
  /-- SQSH_LEN_BUCKET (R442): a complete field decoder, held apart from the HUF slots (DESIGN CHOICE, log 36). -/
  sqshLenBucket : BitTree (Fin 5)
  /-- SQSH_DIST_WAY (R442): a complete field decoder, held apart from the HUF slots (DESIGN CHOICE, log 36). -/
  sqshDistWay : BitTree (Fin 3)
  /-- SqshMode(Q, bits) (R442): its tables are complete, and held apart from the HUF slots (DESIGN CHOICE, log 36). -/
  sqshMode : SqshQ → BitTree (SqshQ × SqshMode)
  /-- SQSH_Q_INIT (R442). -/
  sqshQInit : SqshQ
  /-- SQSH_REPEAT_SETS_SAMPLE (R442). -/
  sqshRepeatSetsSample : Bool
  /-- The free value of the n-th host read of something that holds no value (R46, DESIGN CHOICE of the form, log 7). -/
  unsetRead : Nat → Word
  /-- The free cause of a turn of a sequencer loop that neither consumes input nor produces output, and so raises
  (spec/43_decompress_common.md R243; which cause is not stated: DESIGN CHOICE of the form, log 8). -/
  noProgressCause : Cause
deriving Inhabited

/-- The configuration of the core: no body, so a proof about the core holds for every choice of the OPEN items
(R16). -/
opaque Config.core : Config

/-- Trees that DhufInit and any number of DhufUpdates give for `nsym` symbols (R226). -/
inductive Config.DhufReach (c : Config) (nsym : Nat) : DhufTree → Prop where
  /-- The initial tree. -/
  | init : c.DhufReach nsym (c.dhufInit nsym)
  /-- One update of a symbol of the model. -/
  | update (t : DhufTree) (s : Nat) (h : c.DhufReach nsym t) (hs : s < nsym) : c.DhufReach nsym (c.dhufUpdate t s)

/-- A set of entries is complete: every bit string of the longest length has an entry as a prefix
(spec/41_huffman.md R190, said of DhufCodes in R220). -/
def completeCodes (es : List HufEntry) : Prop :=
  ∀ l v : Nat, v < 2 ^ l → (∀ e ∈ es, e.len ≤ l) → ∃ e ∈ es, v / 2 ^ (l - e.len) = e.code

/-- A turn of the SHRI loop makes progress (spec/43_decompress_common.md R243): one that decodes symbol 498 with a count of
0 has consumed a bit, or raises for its distance of 0 (spec/47_shri.md R402). Every other turn writes a byte or raises. -/
def Config.ShriProgress (c : Config) : Prop :=
  ∀ (a a1 a2 a3 : Ari) (r : AriRegs) (d : BitVec 16),
    c.shriDecodeSymbol a = .leaf (some (r, 498)) → a1 = c.shriUpdate { a with toAriRegs := r } 498 →
    c.shriGetCode a1 16 = .leaf (some (a2, 0#16)) → c.shriGetCode a2 16 = .leaf (some (a3, d)) → d = 0#16

/-- The properties the spec states beside the OPEN items and that the types above do not force: R220 (tracker; a u32
maximum bounds the counts within the 2^32 − 1 updates of R223), R243 (progress), R350 (field decoders of at most 64 bits),
R372 (RAKE header), R374 (RAKE lengths satisfy Kraft), R392 (SHRI header), R431 and R442 (headers). -/
structure Config.Lawful (c : Config) : Prop where
  codes_prefix_free : ∀ n t, 0 < n → n ≤ 1024 → c.DhufReach n t → prefixFree (c.dhufCodes t)
  codes_wf : ∀ n t, 0 < n → n ≤ 1024 → c.DhufReach n t → ∀ e ∈ c.dhufCodes t, e.code < 2 ^ e.len
  codes_symbols : ∀ n t, 0 < n → n ≤ 1024 → c.DhufReach n t → ∀ s : Word,
    ((c.dhufCodes t).filter (fun e => e.sym == s)).length = if s.toNat < n then 1 else 0
  codes_complete : ∀ n t, 2 ≤ n → n ≤ 1024 → c.DhufReach n t → completeCodes (c.dhufCodes t)
  freq_init : ∀ n, 0 < n → n ≤ 1024 → (c.dhufInit n).freq.length = n
  freq_update : ∀ n t s, 0 < n → n ≤ 1024 → c.DhufReach n t → s < n →
    (c.dhufUpdate t s).freq = t.freq.modify s (· + 1)
  maxF_mono : ∀ n t s, 0 < n → n ≤ 1024 → c.DhufReach n t → s < n →
    (c.dhufMaxF t).toNat ≤ (c.dhufMaxF (c.dhufUpdate t s)).toNat
  maxF_bound : ∀ n t, 0 < n → n ≤ 1024 → c.DhufReach n t → ∀ f ∈ t.freq, f < 2 ^ 32 → f ≤ (c.dhufMaxF t).toNat
  shri_progress : c.ShriProgress
  fields_short : c.lhlbDist.depth ≤ 64 ∧ c.mashLitLen.depth ≤ 64 ∧ c.mashLit.depth ≤ 64 ∧ c.mashMatch.depth ≤ 64 ∧
    c.rakeTier.depth ≤ 64 ∧ c.sqshFirst.depth ≤ 64 ∧ c.sqshLenBucket.depth ≤ 64 ∧ c.sqshDistWay.depth ≤ 64
  rake_header : ∀ b h, c.rakeHeader b = some h →
    4 ≤ h.mid.toNat ∧ h.mid.toNat ≤ h.fstart.toNat ∧ h.fstart.toNat ≤ b.length
  rake_kraft : (∑ i : Fin 255, (1 : ℚ) / 2 ^ ((c.rakeLenLess1 i).val + 1)) ≤ 1
  shri_header : ∀ b h, c.shriHeader b = some h → 1 ≤ h.fstart.toNat ∧ h.fstart.toNat ≤ b.length
  smpl_header : ∀ b f, c.smplHeader b = some f → f.toNat ≤ b.length
  sqsh_header : ∀ b f, c.sqshHeader b = some f → f.toNat ≤ b.length

end Sys2Proof
end

