-- ==== Sys2Proof/Machine/State.lean ====
section
/-! DEFINITION. The state of one core as plain data (spec/10_state.md R20 to R46), its value after reset (R44), and the
ways a step can stop. `none` is the spec's own "holds no value" (R46): a command that reads it raises
CorruptData(Unset). -/

namespace Sys2Proof.Machine

/-- The error kinds of STATUS.KIND (spec/60_exceptions.md R461). -/
inductive Kind where
  | ok | corruptData | wrongBlockChecksum | illegalCommand
deriving DecidableEq, Repr, Inhabited

/-- The fields of STATUS (R24); `cause` is none where CAUSE reads 0. -/
structure Status where
  kind : Kind
  cause : Option Cause
  faulted : Bool
  shriValid : Bool
  busy : Bool
deriving DecidableEq, Repr, Inhabited

/-- Forward byte cursor (R28); `stop` is the spec's `end`. -/
structure Fcur where
  pos : Word
  stop : Word
deriving DecidableEq, Repr, Inhabited

/-- Backward byte cursor (R29): `pos` is one more than the offset of the next byte to read. -/
structure Bcur where
  pos : Word
  floor : Word
deriving DecidableEq, Repr, Inhabited

/-- Forward writer (R31); `stop` is the spec's `end`. -/
structure Fwr where
  start : Word
  pos : Word
  stop : Word
deriving DecidableEq, Repr, Inhabited

/-- Backward writer (R32): `pos` is one more than the offset of the next byte to write. -/
structure Bwr where
  top : Word
  pos : Word
  floor : Word
deriving DecidableEq, Repr, Inhabited

/-- Adaptive tracker (R36): `nsym` is 0 and there is no tree when it was never initialised. -/
structure Dhuf where
  nsym : Word
  tree : Option DhufTree
deriving DecidableEq, Repr, Inhabited

/-- LZW unit (R38). The arrays are keyed by `code − 259`. -/
structure Lzw where
  maxBits : Option Nat
  stackLength : Option Word
  codeBits : Option Nat
  freeIndex : Option Nat
  prevCode : Option Word
  newCode : Option Word
  prefixes : Store Word
  suffixes : Store Byte
  stack : Store Byte
  stackPos : Option Nat
deriving DecidableEq, Repr, Inhabited

/-- BZ pipeline (R39). `values` holds nValues entries, `selectors` nSelectors entries, `blk` blkLen entries. -/
structure Bz where
  blockSize : Option Nat
  crc : Option Word
  randomised : Option Bool
  origPtr : Option (BitVec 24)
  values : Option (List Byte)
  nGroups : Option Nat
  nSelectors : Option Nat
  selectors : Option (List Nat)
  blk : Option (List Byte)
  sums : Option (List Nat)
  rank : Option (List Nat)
  fwd : Option (List Nat)
  runLength : Option Nat
  runWeight : Option Nat
  curCh : Option Byte
  curCount : Option Nat
  rNToGo : Option Nat
  rTPos : Option Nat
deriving DecidableEq, Repr, Inhabited

/-- SEQ.phase (R27): the place in a sequencer is inside one step, so only IDLE and running are told apart. -/
inductive SeqPhase where
  | idle | running
deriving DecidableEq, Repr, Inhabited

/-- A move of the host (R85): a command word, a write of a CSR (R23) or of a byte of CHUNK or LENM (R112), or a
read. -/
inductive HostMove where
  | command (w : BitVec 32)
  | writeCsr (number : Nat) (value : Word)
  | writeChunk (offset : Word) (value : Byte)
  | writeLenm (offset : Word) (value : Byte)
  | readCsr (number : Nat)
  | readRaw (offset : Word)
  | readChunk (offset : Word)
  | readLenm (offset : Word)
deriving DecidableEq, Repr, Inhabited

/-- A byte memory: the bytes that hold a value, by offset. -/
abbrev Memory := List Host.Cell

/-- The state of one core (R20), and three fields of the model's own: `port`, `hostData` and `freeReads`. -/
structure State where
  /-- STATUS (R24). -/
  status : Status
  /-- CHUNK_LEN (R25). -/
  chunkLen : Word
  /-- RAW_LEN (R25). -/
  rawLen : Word
  /-- ARG[0] (R21). -/
  arg0 : Option Word
  /-- ARG[1] (R21). -/
  arg1 : Option Word
  /-- ARG[2] (R21). -/
  arg2 : Option Word
  /-- ARG[3] (R21). -/
  arg3 : Option Word
  /-- RES[0] (R22). -/
  res0 : Option Word
  /-- RES[1] (R22). -/
  res1 : Option Word
  /-- CHUNK (spec/20_memory.md R70). -/
  chunk : Memory
  /-- RAW (R70). -/
  raw : Memory
  /-- LENM (R35, R74). -/
  lenm : Memory
  /-- HIST, oldest buffer first (R33, R73). -/
  hist : List (List Byte)
  /-- FCUR (R28). -/
  fcur : Option Fcur
  /-- BCUR (R29). -/
  bcur : Option Bcur
  /-- BITS.acc (R30). -/
  bitsAcc : Option Word
  /-- BITS.cnt (R30). -/
  bitsCnt : Option Nat
  /-- FWR (R31). -/
  fwr : Option Fwr
  /-- BWR (R32). -/
  bwr : Option Bwr
  /-- HT[0..15] (R34): each a set of entries, listed by length and then by code. -/
  ht : Vector (Option (List HufEntry)) 16
  /-- DHUF (R36). -/
  dhuf : Option Dhuf
  /-- MTF[0], the selector list (R37); n is its length. -/
  mtf0 : Option (List Nat)
  /-- MTF[1], the data list (R37); n is its length. -/
  mtf1 : Option (List Nat)
  /-- LZW (R38). -/
  lzw : Lzw
  /-- BZ (R39). -/
  bz : Bz
  /-- ARI (R40). -/
  ari : Option Ari
  /-- The running accumulator of SMPL (R41). -/
  smplAcc : Option Byte
  /-- accum1, accum2 and prevBits of SQSH (R41). -/
  sqshQ : Option SqshQ
  /-- The running sample accumulator of SQSH (R41). -/
  sqshSample : Option Byte
  /-- SEQ.phase (R27). -/
  phase : SeqPhase
  /-- The model's own: the host's moves still to come, first move first. -/
  port : List HostMove
  /-- The model's own: the last word the host read. -/
  hostData : Word
  /-- The model's own: how many host reads of something without value there have been. -/
  freeReads : Nat
deriving DecidableEq, Repr

/-- Why the machine stops. No command raises it. -/
inductive Fault where
  /-- Raised by a host access at an offset its space does not have (spec/20_memory.md R70). Safe: the machine stops. -/
  | outsideSpace
deriving DecidableEq, Repr

/-- Why the model gives a step no meaning. -/
inductive Refusal where
  /-- An instruction without a meaning yet; no arm of exec uses it. Safe. -/
  | notModelled (mnemonic : String)
  /-- Raised by step on a state whose BUSY is 1: no host move exists while a command runs (spec/20_memory.md R85). No
  run from reset reaches such a state. Safe. -/
  | coreBusy
deriving DecidableEq, Repr

/-- STATUS after reset (R44). -/
def Status.reset : Status :=
  { kind := .ok, cause := none, faulted := false, shriValid := false, busy := false }

/-- The LZW unit with every field unset (R44). -/
def Lzw.unset : Lzw :=
  { maxBits := none, stackLength := none, codeBits := none, freeIndex := none, prevCode := none, newCode := none,
    prefixes := [], suffixes := [], stack := [], stackPos := none }

/-- The BZ pipeline with every field unset (R44). -/
def Bz.unset : Bz :=
  { blockSize := none, crc := none, randomised := none, origPtr := none, values := none, nGroups := none,
    nSelectors := none, selectors := none, blk := none, sums := none, rank := none, fwd := none, runLength := none,
    runWeight := none, curCh := none, curCount := none, rNToGo := none, rTPos := none }

/-- The machine right after reset (R44, spec/70_reset_and_hazards.md R501). -/
def State.reset : State :=
  { status := Status.reset, chunkLen := 0#32, rawLen := 0#32,
    arg0 := none, arg1 := none, arg2 := none, arg3 := none, res0 := none, res1 := none,
    chunk := [], raw := [], lenm := [], hist := [],
    fcur := none, bcur := none, bitsAcc := none, bitsCnt := some 0, fwr := none, bwr := none,
    ht := Vector.replicate 16 (some []), dhuf := some { nsym := 0#32, tree := none },
    mtf0 := some [], mtf1 := some [], lzw := Lzw.unset, bz := Bz.unset, ari := none,
    smplAcc := none, sqshQ := none, sqshSample := none, phase := .idle,
    port := [], hostData := 0#32, freeReads := 0 }

end Sys2Proof.Machine
end

