-- ==== Sys2Proof/Machine/Flags.lean ====
section
/-! DEFINITION. The flags (spec/10_state.md R42): the derived end-of-span flags of the writers, and STATUS as the word
the host reads (R24, spec/60_exceptions.md R461, R462). -/

namespace Sys2Proof.Machine

/-- FWR.eof: the writer has filled its span (R42). -/
def fwrEofFlag (f : Fwr) : Bool := f.pos == f.stop

/-- BWR.eof: the backward writer has filled its span (R42). -/
def bwrEofFlag (b : Bwr) : Bool := b.pos == b.floor

/-- The number of a kind (R461). -/
def kindCode : Kind → Nat
  | .ok => 0
  | .corruptData => 1
  | .wrongBlockChecksum => 2
  | .illegalCommand => 3

/-- The number of a cause (R462). -/
def causeCode : Cause → Nat
  | .range => 1
  | .unexpectedEnd => 2
  | .overrun => 3
  | .zeroDistance => 4
  | .distance => 5
  | .capacity => 6
  | .unset => 7
  | .walkOff => 8
  | .table => 9
  | .header => 10
  | .index => 11
  | .zeroDivisor => 12
  | .underFill => 13
  | .reserved => 14
  | .magic => 15

/-- The CAUSE field: 0 where there is no cause (R24). -/
def causeField : Option Cause → Nat
  | none => 0
  | some c => causeCode c

/-- A flag as a number. -/
def flagBit (b : Bool) : Nat := if b then 1 else 0

/-- STATUS as a word: KIND [1:0], CAUSE [7:4], FAULTED [8], SHRI_VALID [9], BUSY [10], every other bit 0 (R24). -/
def statusWord (st : Status) : Word :=
  BitVec.ofNat 32 (kindCode st.kind + 2 ^ 4 * causeField st.cause + 2 ^ 8 * flagBit st.faulted
    + 2 ^ 9 * flagBit st.shriValid + 2 ^ 10 * flagBit st.busy)

end Sys2Proof.Machine
end

