-- ==== Sys2Proof/Machine/Operands.lean ====
section
/-! DEFINITION. Operand forms and the arithmetic of fields: the decided parameters of spec/00_scope.md R10, byte order
(R12), sign extension and truncation (R11), and the closed formulas that sequencers apply to fields they read. -/

namespace Sys2Proof.Machine

/-- HUF_MAX_LEN (R10). -/
def hufMaxLen : Nat := 32

/-- LENM_SIZE (R10). -/
def lenmSize : Nat := 1024

/-- BITS_MAX_N (R10). -/
def bitsMaxN : Nat := 32

/-- BLZW_MIN_BITS (R10). -/
def blzwMinBits : Nat := 9

/-- BLZW_MAX_BITS (R10). -/
def blzwMaxBits : Nat := 20

/-- BLZW_FIRST_FREE (R10). -/
def lzwFirstFree : Nat := 259

/-- BLZW_STACK_EXTRA (R10). -/
def blzwStackExtra : Nat := 5

/-- BZ_BLOCK_MAGIC (R10). -/
def bzBlockMagic : Nat := 0x314159265359

/-- BZ_END_MAGIC (R10). -/
def bzEndMagic : Nat := 0x177245385090

/-- BZ_BLOCK_UNIT (R10). -/
def bzBlockUnit : Nat := 100000

/-- DHUF_NSYM of LHLB (R10). -/
def lhlbNsym : Nat := 317

/-- The largest `nsym` of DHUF.INIT (spec/42_adaptive_huffman.md R221). -/
def dhufMaxNsym : Nat := 1024

/-- The largest `stackLength` of LZW.SETUP (spec/44_blzw.md R263). -/
def lzwMaxStack : Nat := 65540

/-- The largest block size of BZ.START (spec/45_bzp2.md R295). -/
def bzMaxBlock : Nat := 900000

/-- Symbols per selector (spec/45_bzp2.md R299). -/
def bzGroupRun : Nat := 50

/-- LHLB_FREEZE (R10). -/
def lhlbFreeze : Nat := 0x8000

/-- A number as a 32-bit register value: its value mod 2^32 (R11, R23). -/
def toWord (n : Nat) : Word := BitVec.ofNat 32 n

/-- trunc_8: the low 8 bits of a number (R11). -/
def truncByte (n : Nat) : Byte := BitVec.ofNat 8 n

/-- be16, the byte at the lower offset first (R12). -/
def be16 (b0 b1 : Byte) : Nat := b0.toNat * 2 ^ 8 + b1.toNat

/-- be32, the byte at the lowest offset first (R12). -/
def be32 (b0 b1 b2 b3 : Byte) : Nat :=
  b0.toNat * 2 ^ 24 + b1.toNat * 2 ^ 16 + b2.toNat * 2 ^ 8 + b3.toNat

/-- rotl32(v, k) (R11). -/
def rotl32 (v : Word) (k : Nat) : Word := v.rotateLeft k

/-- sext(v, w): the low `w` bits of `v` as a two's complement number (R11); 0 bits give 0. -/
def sext (v w : Nat) : Int :=
  let u := v % 2 ^ w
  if w = 0 then 0 else if u < 2 ^ (w - 1) then (u : Int) else (u : Int) - 2 ^ w

/-- The SQSH sample step: `trunc_8(sample − delta)` with delta the sign-extended field (spec/48_smpl_sqsh.md R442 (c)). -/
def sqshNextSample (sample : Byte) (v w : Nat) : Byte := BitVec.ofInt 8 ((sample.toNat : Int) - sext v w)

/-- SQSH_LEN_EXTRA (R442 (a)). -/
def sqshLenExtra (k : Fin 5) : Nat :=
  match k.val with
  | 0 => 1
  | 1 => 1
  | 2 => 1
  | 3 => 3
  | _ => 5

/-- SQSH_LEN_BASE (R442 (a)). -/
def sqshLenBase (k : Fin 5) : Nat :=
  match k.val with
  | 0 => 2
  | 1 => 4
  | 2 => 6
  | 3 => 8
  | _ => 16

/-- SQSH_DIST_BITS (R442 (b)). -/
def sqshDistBits (j : Fin 3) : Nat :=
  match j.val with
  | 0 => 12
  | 1 => 8
  | _ => 14

/-- SQSH_DIST_BASE (R442 (b)). -/
def sqshDistBase (j : Fin 3) : Nat :=
  match j.val with
  | 0 => 0x101
  | 1 => 1
  | _ => 0x1101

/-- How many forward bits a RAKE tier reads before its backward byte (spec/46_lhlb_mash_rake.md R375). -/
def rakeTierBits (t : Fin 3) : Nat :=
  match t.val with
  | 0 => 0
  | 1 => 3
  | _ => 6

/-- The distance of a RAKE tier from its bits and its backward byte (R375). -/
def rakeDistance (d0Base : Nat) (t : Fin 3) (bits : Nat) (b : Byte) : Nat :=
  match t.val with
  | 0 => b.toNat + d0Base
  | 1 => bits * 2 ^ 8 + b.toNat + 0x101
  | _ => bits * 2 ^ 8 + b.toNat + 0x901

/-- The count of a MASH match, at least 2 (R362). -/
def mashCount (m : MashMatch) : Nat := m.countLess2 + 2

/-- The code length of an SMPL symbol from its 4-bit field and, after the escape 15, four more bits
(spec/48_smpl_sqsh.md R432). -/
def smplEscape (more : Nat) : Nat := 15 + more

/-- One bit of the CRC register, most significant bit first (spec/45_bzp2.md R315). -/
def crcBit (c : Word) : Word := if c.msb then (c <<< 1) ^^^ 0x04C11DB7#32 else c <<< 1

/-- `k` bits of the CRC register. -/
def crcBits : Nat → Word → Word
  | 0, c => c
  | k + 1, c => crcBits k (crcBit c)

/-- One byte through the CRC register (R315). -/
def crcByte (c : Word) (b : Byte) : Word := crcBits 8 (c ^^^ (b.setWidth 32 <<< 24))

/-- BzCrc32 (R315). -/
def bzCrc32 (bytes : List Byte) : Word := bytes.foldl crcByte 0xFFFFFFFF#32 ^^^ 0xFFFFFFFF#32

/-- The running CRC after a block: `rotl32(crc, 1) ^ BzCrc32(bytes)` (R315). -/
def bzFoldCrc (crc : Word) (bytes : List Byte) : Word := rotl32 crc 1 ^^^ bzCrc32 bytes

/-- Bit `width − 1 − k` of a field of `width` bits: the k-th bit read, first bit first (R298). -/
def fieldBit (v width k : Nat) : Bool := v.testBit (width - 1 - k)

end Sys2Proof.Machine
end

