-- ==== Sys2Proof/Machine/Ops.lean ====
section
/-! DEFINITION. The operations that the commands share: sparse memories, the body of a command with its errors
(spec/60_exceptions.md R466 to R473), the byte cursors, the bit reader, the writers with the copy unit, the history
(spec/40_stream_primitives.md), field decoders (spec/46_lhlb_mash_rake.md R350) and the common contract of the
DECOMPRESS commands (spec/43_decompress_common.md). -/

namespace Sys2Proof.Machine

/-! ## Sparse memories -/

/-- Read the value at a key; none when it holds no value (spec/10_state.md R46). -/
def storeRead {α : Type} : Store α → Nat → Option α
  | [], _ => none
  | (k, v) :: rest, a => if k = a then some v else storeRead rest a

/-- Write a value at a key, keys kept strictly rising. -/
def storeWrite {α : Type} : Store α → Nat → α → Store α
  | [], a, v => [(a, v)]
  | (k, w) :: rest, a, v =>
    if a < k then (a, v) :: (k, w) :: rest
    else if a = k then (a, v) :: rest
    else (k, w) :: storeWrite rest a v

/-- The canonical form: keys strictly rising. An unlisted key holds no value, so no listed value equals it. -/
def storeWf {α : Type} : Store α → Bool
  | [] => true
  | [_] => true
  | (a, _) :: (b, w) :: rest => decide (a < b) && storeWf ((b, w) :: rest)

/-- The canonical form of a byte memory. -/
abbrev Memory.wf (m : Memory) : Bool := storeWf m

/-- MemRead(S:a, n), lowest offset first; none when one of the bytes holds no value (R13, R46). -/
def memBytes (m : Memory) (a : Nat) : Nat → Option (List Byte)
  | 0 => some []
  | n + 1 =>
    match storeRead m a, memBytes m (a + 1) n with
    | some b, some bs => some (b :: bs)
    | _, _ => none

/-! ## The body of a command and its errors -/

/-- What a `raise` names (R466). `noProgress` is the raise of a loop whose turn makes no progress
(spec/43_decompress_common.md R243), for which no cause is stated: its cause is the free one of the configuration (DESIGN
CHOICE of the form, log 8). -/
inductive Raise where
  | corrupt (c : Cause)
  | checksum
  | noProgress
deriving DecidableEq, Repr

/-- The body of a command: it changes the state and answers a value, or raises; the state at the raise is kept, since
nothing is rolled back (R466). -/
abbrev M := EStateM Raise State

/-- raise CorruptData(c) (spec/00_scope.md R14). -/
def raise {α : Type} (c : Cause) : M α := throw (.corrupt c)

/-- raise WrongBlockChecksum() (R473). -/
def raiseChecksum {α : Type} : M α := throw .checksum

/-- Use a value that a register, field or byte may not hold: without one, CorruptData(Unset) (spec/10_state.md R46). -/
def need {α : Type} (o : Option α) : M α :=
  match o with
  | some a => pure a
  | none => raise .unset

/-- ARG[0] (R21). -/
def readArg0 : M Word := do need (← get).arg0

/-- ARG[1] (R21). -/
def readArg1 : M Word := do need (← get).arg1

/-- ARG[2] (R21). -/
def readArg2 : M Word := do need (← get).arg2

/-- RES[0] <- v (R22). -/
def setRes0 (v : Word) : M Unit := modify fun s => { s with res0 := some v }

/-- After an error every cursor, writer, table and unit state, RES, RAW, BLK and LENM hold no value (R466). -/
def loseUnitState (s : State) : State :=
  { s with
    res0 := none, res1 := none, raw := [], lenm := [], fcur := none, bcur := none, bitsAcc := none, bitsCnt := none,
    fwr := none, bwr := none, ht := Vector.replicate 16 none, dhuf := none, mtf0 := none, mtf1 := none,
    lzw := Lzw.unset, bz := Bz.unset, smplAcc := none, sqshQ := none, sqshSample := none }

/-- After an error of DECOMPRESS.SHRI or an ARI command the persistent ARI state holds no value either (R466). -/
def loseAri (dropsAri : Bool) (s : State) : State := if dropsAri then { s with ari := none } else s

/-- The STATUS part of error entry (R466). -/
def enterFaulted (k : Kind) (c : Option Cause) (s : State) : State :=
  { s with
    status := { s.status with kind := k, cause := c, faulted := true, busy := false }, phase := .idle }

/-- Error entry: what `raise K(c)` does to the state it is raised in (R466). -/
def errorEntry (dropsAri : Bool) (k : Kind) (c : Option Cause) (s : State) : State :=
  enterFaulted k c (loseAri dropsAri (loseUnitState s))

/-- A word that matches no row (R472): error entry with KIND 3 and no other state change; while FAULTED it is refused
like any other word (R470, R467). -/
def illegalCommand (s : State) : State :=
  if s.status.faulted then s else enterFaulted .illegalCommand none s

/-- A command starts: BUSY reads 1 (R24). -/
def beginCommand (s : State) : State := { s with status := { s.status with busy := true } }

/-- A command ends without error: BUSY reads 0 (R471). -/
def endCommand (s : State) : State := { s with status := { s.status with busy := false } }

/-- One command (R467): refused without any state change while FAULTED (R470), else its body runs to its end, and an
error it raises is entered. `dropsAri` is true for DECOMPRESS.SHRI and the ARI commands. -/
def runCommand (dropsAri : Bool) (body : M Unit) (s : State) : Host.Outcome State Fault Refusal :=
  if s.status.faulted then .next s
  else
    match body (beginCommand s) with
    | .ok _ t => .next (endCommand t)
    | .error (.corrupt c) t => .next (errorEntry dropsAri .corruptData (some c) t)
    | .error .checksum t => .next (errorEntry dropsAri .wrongBlockChecksum none t)
    | .error .noProgress t => .next (errorEntry dropsAri .corruptData (some Config.core.noProgressCause) t)

/-! ## Byte cursors

An access is checked against the bound of its cursor (spec/20_memory.md R88). A cursor that the host has left beyond
CHUNK_LEN, by lowering it, is exhausted there, so that no read at an offset of CHUNK_LEN or more happens (R71). -/

/-- Where the forward cursor's bytes end: `end`, and CHUNK_LEN where the host has lowered it below `end` (R71; that
UnexpectedEnd is raised there is a DESIGN CHOICE, log 9). -/
def fcurEnd (f : Fcur) (s : State) : Nat := min f.stop.toNat s.chunkLen.toNat

/-- FCUR.SET (R140). -/
def fcurSet (start stop : Word) : M Unit := do
  let s ← get
  if start.toNat > stop.toNat ∨ stop.toNat > s.chunkLen.toNat then raise .range
  else set { s with fcur := some { pos := start, stop := stop } }

/-- FCUR.RDB (R141). -/
def fcurRdb : M Byte := do
  let s ← get
  let f ← need s.fcur
  if f.pos.toNat ≥ fcurEnd f s then raise .unexpectedEnd
  else
    let b ← need (storeRead s.chunk f.pos.toNat)
    set { s with fcur := some { f with pos := toWord (f.pos.toNat + 1) } }
    pure b

/-- FCUR.CONSUME (R142): the offset of the view, all or nothing. The empty view, which reads no byte, moves nothing; another
view ends where FCUR.RDB does. -/
def fcurConsume (n : Nat) : M Word := do
  let s ← get
  let f ← need s.fcur
  if f.pos.toNat + n > (if n = 0 then f.stop.toNat else fcurEnd f s) then raise .unexpectedEnd
  else
    set { s with fcur := some { f with pos := toWord (f.pos.toNat + n) } }
    pure f.pos

/-- BCUR.SET (R143). -/
def bcurSet (floor start : Word) : M Unit := do
  let s ← get
  if floor.toNat > start.toNat ∨ start.toNat > s.chunkLen.toNat then raise .range
  else set { s with bcur := some { pos := start, floor := floor } }

/-- BCUR.RDB (R144): the cursor decrements before it reads. Above CHUNK_LEN nothing can be read (R71; UnexpectedEnd is a
DESIGN CHOICE, log 9). -/
def bcurRdb : M Byte := do
  let s ← get
  let f ← need s.bcur
  if f.pos.toNat ≤ f.floor.toNat ∨ f.pos.toNat > s.chunkLen.toNat then raise .unexpectedEnd
  else
    let b ← need (storeRead s.chunk (f.pos.toNat - 1))
    set { s with bcur := some { f with pos := toWord (f.pos.toNat - 1) } }
    pure b

/-- BCUR.CONSUME (R145): the lowest offset of the view, all or nothing. The empty view, which reads no byte, moves nothing;
another view is taken above CHUNK_LEN no more than a byte by BCUR.RDB. -/
def bcurConsume (n : Nat) : M Word := do
  let s ← get
  let f ← need s.bcur
  if f.floor.toNat + n > f.pos.toNat ∨ n ≠ 0 ∧ f.pos.toNat > s.chunkLen.toNat then raise .unexpectedEnd
  else
    let p := toWord (f.pos.toNat - n)
    set { s with bcur := some { f with pos := p } }
    pure p

/-- One byte of CHUNK by offset, for the header reads a sequencer names (spec/20_memory.md R71). -/
def chunkByte (a : Nat) : M Byte := do need (storeRead (← get).chunk a)

/-- CHUNK[0 .. CHUNK_LEN−1], the argument of an OPEN header function (DEDUCED, log 4). -/
def chunkBytes : M (List Byte) := do
  let s ← get
  need (memBytes s.chunk 0 s.chunkLen.toNat)

/-! ## Bit reader -/

/-- refill8 (R147). -/
def refill8 : M Unit := do
  let b ← fcurRdb
  modify fun s => { s with bitsAcc := some (b.setWidth 32), bitsCnt := some 8 }

/-- refill32 (R148): four bytes, big-endian. -/
def refill32 : M Unit := do
  let o ← fcurConsume 4
  let b0 ← chunkByte o.toNat
  let b1 ← chunkByte (o.toNat + 1)
  let b2 ← chunkByte (o.toNat + 2)
  let b3 ← chunkByte (o.toNat + 3)
  modify fun s => { s with bitsAcc := some (toWord (be32 b0 b1 b2 b3)), bitsCnt := some 32 }

/-- The refill of a bit source (spec/30_encoding.md R101). -/
def refill : BitSource → M Unit
  | .group8 => refill8
  | .group32 => refill32

/-- The accumulator is refilled when it is empty and a bit is wanted (R146). -/
def refillIfEmpty (src : BitSource) : M Unit := do
  let cnt ← need (← get).bitsCnt
  if cnt = 0 then refill src else pure ()

/-- Take the next min(n, cnt) buffered bits: how many, and their value, first bit most significant (R146). -/
def takeBits (n : Nat) : M (Nat × Nat) := do
  let s ← get
  let cnt ← need s.bitsCnt
  let acc ← need s.bitsAcc
  let k := min n cnt
  set { s with bitsCnt := some (cnt - k) }
  pure (k, acc.toNat / 2 ^ (cnt - k) % 2 ^ k)

/-- The loop of ReadBits (R146). Every turn delivers at least one bit, so as many turns as bits wanted suffice. -/
def readBitsLoop (src : BitSource) : Nat → Nat → Nat → M Nat
  | 0, _, ret => pure ret
  | turns + 1, n, ret =>
    if n = 0 then pure ret
    else do
      refillIfEmpty src
      let (k, v) ← takeBits n
      readBitsLoop src turns (n - k) (ret * 2 ^ k + v)

/-- ReadBits(n, refill) (R146). -/
def readBits (src : BitSource) (n : Nat) : M Nat :=
  if n > bitsMaxN then raise .range else readBitsLoop src n n 0

/-- `rd(n)`: BITS.RD8, the bit source of every sequencer (spec/43_decompress_common.md R249). -/
def rd (n : Nat) : M Nat := readBits .group8 n

/-- BITS.RESET (R149). -/
def bitsReset (seedBits : Word) (seedCount : Nat) : M Unit :=
  modify fun s => { s with bitsAcc := some seedBits, bitsCnt := some seedCount }

/-- How many bits the forward reader can still deliver: those buffered and those of the bytes left. Every loop over the
stream is bounded by it (spec/43_decompress_common.md R243). -/
def unreadBits (s : State) : Nat :=
  s.bitsCnt.getD 0 + match s.fcur with
    | some f => 8 * (f.stop.toNat - f.pos.toNat)
    | none => 0

/-- `v <- field F` (spec/46_lhlb_mash_rake.md R350), and the bit consumption of an OPEN stream function
(spec/47_shri.md R396): one bit at a time from the forward reader (DEDUCED, log 3). -/
def runField {α : Type} : BitTree α → M α
  | .leaf v => pure v
  | .node z o => do
    let b ← rd 1
    if b = 0 then runField z else runField o

/-! ## Writers and the copy unit -/

/-- FWR.SET (R151). -/
def fwrSet (start stop : Word) : M Unit := do
  let s ← get
  if start.toNat > stop.toNat ∨ stop.toNat > s.rawLen.toNat then raise .range
  else set { s with fwr := some { start := start, pos := start, stop := stop } }

/-- RAW[FWR.pos] <- b and FWR.pos advances: the write of a checked position (R152, R153). -/
def fwrPut (f : Fwr) (b : Byte) (s : State) : State :=
  { s with
    raw := storeWrite s.raw f.pos.toNat b, fwr := some { f with pos := toWord (f.pos.toNat + 1) } }

/-- FWR.WRB (R152). -/
def fwrWrb (b : Byte) : M Unit := do
  let s ← get
  let f ← need s.fwr
  if f.pos.toNat ≥ f.stop.toNat then raise .overrun else set (fwrPut f b s)

/-- The byte-serial loop of FWR.COPY (R153, R163). -/
def fwrCopyLoop (d : Nat) : Nat → M Unit
  | 0 => pure ()
  | c + 1 => do
    let s ← get
    let f ← need s.fwr
    let b ← need (storeRead s.raw (f.pos.toNat - d))
    set (fwrPut f b s)
    fwrCopyLoop d c

/-- FWR.COPY (R153): the three checks in order, before any byte moves. -/
def fwrCopy (d c : Nat) : M Unit :=
  if d = 0 then raise .zeroDistance
  else do
    let f ← need (← get).fwr
    if d > f.pos.toNat - f.start.toNat then raise .distance
    else if f.pos.toNat + c > f.stop.toNat then raise .overrun
    else fwrCopyLoop d c

/-- The byte at logical index `i` of the history followed by the current span (R154). -/
def logicalByte (history : List Byte) (f : Fwr) (raw : Memory) (i : Nat) : Option Byte :=
  if i < history.length then history[i]? else storeRead raw (f.start.toNat + (i - history.length))

/-- The byte-serial loop of FWR.COPYH (R154): the source index is computed anew for each byte. -/
def fwrCopyhLoop (history : List Byte) (d : Nat) : Nat → M Unit
  | 0 => pure ()
  | c + 1 => do
    let s ← get
    let f ← need s.fwr
    let b ← need (logicalByte history f s.raw (history.length + (f.pos.toNat - f.start.toNat) - d))
    set (fwrPut f b s)
    fwrCopyhLoop history d c

/-- FWR.COPYH (R154); the history is the concatenation of its buffers, oldest first (spec/20_memory.md R73). -/
def fwrCopyh (d c : Nat) : M Unit :=
  if d = 0 then raise .zeroDistance
  else do
    let s ← get
    let f ← need s.fwr
    let history := s.hist.flatten
    if d > history.length + (f.pos.toNat - f.start.toNat) then raise .distance
    else if f.pos.toNat + c > f.stop.toNat then raise .overrun
    else fwrCopyhLoop history d c

/-- The flag FWR.eof (R155). -/
def fwrEof : M Bool := do
  let f ← need (← get).fwr
  pure (fwrEofFlag f)

/-- The bytes of space left to the forward writer. -/
def fwrRoom : M Nat := do
  let f ← need (← get).fwr
  pure (f.stop.toNat - f.pos.toNat)

/-- FWR.OFF: bytes written so far (R156). -/
def fwrOff : M Nat := do
  let f ← need (← get).fwr
  pure (f.pos.toNat - f.start.toNat)

/-- BWR.SET (R157). -/
def bwrSet (floor top : Word) : M Unit := do
  let s ← get
  if floor.toNat > top.toNat ∨ top.toNat > s.rawLen.toNat then raise .range
  else set { s with bwr := some { top := top, pos := top, floor := floor } }

/-- BWR.pos steps down and RAW[BWR.pos] <- b: the write of a checked position (R158, R159). -/
def bwrPut (f : Bwr) (b : Byte) (s : State) : State :=
  { s with
    raw := storeWrite s.raw (f.pos.toNat - 1) b, bwr := some { f with pos := toWord (f.pos.toNat - 1) } }

/-- BWR.WRB (R158). -/
def bwrWrb (b : Byte) : M Unit := do
  let s ← get
  let f ← need s.bwr
  if f.pos.toNat ≤ f.floor.toNat then raise .overrun else set (bwrPut f b s)

/-- The byte-serial loop of BWR.COPY (R159): the source lies at higher offsets. -/
def bwrCopyLoop (d : Nat) : Nat → M Unit
  | 0 => pure ()
  | c + 1 => do
    let s ← get
    let f ← need s.bwr
    let b ← need (storeRead s.raw (f.pos.toNat - 1 + d))
    set (bwrPut f b s)
    bwrCopyLoop d c

/-- BWR.COPY (R159). -/
def bwrCopy (d c : Nat) : M Unit :=
  if d = 0 then raise .zeroDistance
  else do
    let f ← need (← get).bwr
    if d > f.top.toNat - f.pos.toNat then raise .distance
    else if f.floor.toNat + c > f.pos.toNat then raise .overrun
    else bwrCopyLoop d c

/-- The flag BWR.eof (R160). -/
def bwrEof : M Bool := do
  let f ← need (← get).bwr
  pure (bwrEofFlag f)

/-- The bytes of space left to the backward writer. -/
def bwrRoom : M Nat := do
  let f ← need (← get).bwr
  pure (f.pos.toNat - f.floor.toNat)

/-- BWR.OFF (R161). -/
def bwrOff : M Nat := do
  let f ← need (← get).bwr
  pure (f.top.toNat - f.pos.toNat)

/-! ## History -/

/-- A number passes a capacity that may be unbounded (spec/00_scope.md R10). -/
def passes (n : Nat) (capacity : Option Nat) : Bool :=
  match capacity with
  | none => false
  | some m => decide (n > m)

/-- HIST.PUSH (R165). Unset is checked before Capacity (DESIGN CHOICE, log 15). -/
def histPush (c : Config) : M Unit := do
  let s ← get
  let buffer ← need (memBytes s.raw 0 s.rawLen.toNat)
  let hist := s.hist ++ [buffer]
  if passes hist.length c.histMaxBuffers || passes hist.flatten.length c.histMaxBytes then raise .capacity
  else set { s with hist := hist }

/-! ## The common contract of the DECOMPRESS commands -/

/-- The common setup for a forward writer (spec/43_decompress_common.md R242); BUSY is set by runCommand. -/
def commonSetup : M Unit := do
  modify fun s => { s with phase := .running }
  let s ← get
  fwrSet 0#32 s.rawLen
  fcurSet 0#32 s.chunkLen
  bitsReset 0#32 0

/-- The success end of a macro command (R243), after which RES holds no value (R242). -/
def macroEnd : M Unit :=
  modify fun s =>
    { s with
      status := { s.status with kind := .ok, cause := none }, phase := .idle, res0 := none, res1 := none }

/-- The input and the space that a sequencer has left: a turn of its loop that consumes a bit or writes a byte lowers it. -/
def workLeft (s : State) : Nat :=
  unreadBits s + (match s.fwr with | some f => f.stop.toNat - f.pos.toNat | none => 0) +
    (match s.bwr with | some f => f.pos.toNat - f.floor.toNat | none => 0)

/-- A turn of a sequencer's loop, which raises where it goes on having neither consumed input nor produced output
(spec/43_decompress_common.md R243). That such a turn raises itself, whatever turns would follow it, is a DESIGN CHOICE
(log 8); only a turn of DECOMPRESS.SHRI can be one. -/
def progressing (turn : M Bool) : M Bool := do
  let before ← get
  let goesOn ← turn
  let after ← get
  if goesOn && decide (workLeft before ≤ workLeft after) then throw .noProgress else pure goesOn

/-- The main loop of a sequencer: while the condition holds, a turn; a turn that answers false ends the loop. Every turn
makes progress or raises (R243), so the number of turns that the sequencer gives as a bound is enough and the loop never
ends at it. -/
def turnLoop (going : M Bool) (turn : M Bool) : Nat → M Unit
  | 0 => do
    if ← going then throw .noProgress else pure ()
  | turns + 1 => do
    if ← going then
      if ← progressing turn then turnLoop going turn turns else pure ()
    else pure ()

/-- `while FWR.eof = 0` (spec/43_decompress_common.md R244). -/
def whileNotEof (turn : M Bool) (turns : Nat) : M Unit :=
  turnLoop (do return !(← fwrEof)) turn turns

end Sys2Proof.Machine
end

