-- ==== Sys2Proof/Machine/Arith.lean ====
section
/-! DEFINITION. The ARI unit and DECOMPRESS.SHRI (spec/47_shri.md R391 to R412): the architecture over the OPEN
arithmetic. -/

namespace Sys2Proof.Machine

/-- Run an OPEN stream function: its bits are consumed, and a ZeroDivisor result is raised (R396). The result stands after
the bits that decide it, so where the stream ends before those bits UnexpectedEnd is raised and not ZeroDivisor (DESIGN
CHOICE, log 3). -/
def runStream {α : Type} (t : BitTree (Option α)) : M α := do
  match ← runField t with
  | some a => pure a
  | none => raise .zeroDivisor

/-- The persistent state, present iff SHRI_VALID = 1 (R393). -/
def readAri : M Ari := do
  let s ← get
  if s.status.shriValid then need s.ari else raise .unset

/-- ARI <- A. -/
def setAri (a : Ari) : M Unit := modify fun s => { s with ari := some a }

/-- ARI.INIT (R394). -/
def ariInit (c : Config) : M Unit :=
  modify fun s => { s with ari := some c.shriInit, status := { s.status with shriValid := true } }

/-- ARI.SCALE (R395). -/
def ariScale (c : Config) (a b mult : Word) : M Word :=
  match c.shriScale a b mult with
  | some r => pure r
  | none => raise .zeroDivisor

/-- ARI.GETCODE (R397). -/
def ariGetcode (c : Config) (n : Nat) : M Nat := do
  let a ← readAri
  let (a', v) ← runStream (c.shriGetCode a n)
  setAri a'
  pure v.toNat

/-- ARI.DECSYM (R398): the stream registers change, the model frequencies do not. -/
def ariDecsym (c : Config) : M (Fin 499) := do
  let a ← readAri
  let (regs, sym) ← runStream (c.shriDecodeSymbol a)
  setAri { a with toAriRegs := regs }
  pure sym

/-- ARI.UPDATE (R399). -/
def ariUpdate (c : Config) (sym : Nat) : M Unit := do
  let a ← readAri
  if h : sym < 499 then setAri (c.shriUpdate a ⟨sym, h⟩) else raise .index

/-- ShriMatch runs: its fields are read through ShriGetCode (R401). -/
def runMatch (c : Config) : MatchProg → M (Ari × ShriMatch)
  | .done none => raise .zeroDivisor
  | .done (some r) => pure r
  | .getCode a n next => do
    let (a', v) ← runStream (c.shriGetCode a n.val)
    runMatch c (next a' v)

/-- The match of a tier symbol (R401). -/
def ariMatch (c : Config) (sym : Fin 499) : M ShriMatch := do
  let a ← readAri
  let (a', m) ← runMatch c (c.shriMatch a sym)
  setAri a'
  pure m

/-! ## Commands -/

/-- ARI.SCALE (R395). -/
def execAriScale (s : State) : Host.Outcome State Fault Refusal :=
  runCommand true (do
    let a ← readArg0
    let b ← readArg1
    let mult ← readArg2
    let r ← ariScale Config.core a b mult
    setRes0 r) s

/-- ARI.GETCODE (R397). -/
def execAriGetcode (n : BitVec 6) (s : State) : Host.Outcome State Fault Refusal :=
  runCommand true (do
    let v ← ariGetcode Config.core n.toNat
    setRes0 (toWord v)) s

/-- ARI.DECSYM (R398). -/
def execAriDecsym (s : State) : Host.Outcome State Fault Refusal :=
  runCommand true (do
    let sym ← ariDecsym Config.core
    setRes0 (toWord sym.val)) s

/-- ARI.UPDATE (R399). -/
def execAriUpdate (s : State) : Host.Outcome State Fault Refusal :=
  runCommand true (do
    let sym ← readArg0
    ariUpdate Config.core sym.toNat) s

/-- ARI.INIT (R394). -/
def execAriInit (s : State) : Host.Outcome State Fault Refusal :=
  runCommand true (ariInit Config.core) s

/-- The version rule (R392). -/
def shriVersion (c : Config) : M Unit := do
  let s ← get
  if s.chunkLen.toNat = 0 then raise .unexpectedEnd
  else
    let ver ← chunkByte 0
    if ver = 1#8 then ariInit c
    else if ver = 2#8 then
      if s.status.shriValid then pure () else raise .unset
    else raise .header

/-- The match of a symbol of 256 or more (R400): the raw-field escape 498 reads count, then distance (R402); the tiers
are R401. -/
def shriFields (c : Config) (sym : Fin 499) : M (Nat × Nat) :=
  if sym.val = 498 then do
    let count ← ariGetcode c 16
    let d ← ariGetcode c 16
    pure (count, d)
  else do
    let m ← ariMatch c sym
    pure ((m.count : Nat), m.distance)

/-- One turn of the SHRI loop (R391). -/
def shriTurn (c : Config) : M Bool := do
  let sym ← ariDecsym c
  ariUpdate c sym.val
  if sym.val < 256 then
    fwrWrb (truncByte sym.val)
    pure true
  else
    let (count, d) ← shriFields c sym
    fwrCopyh d count
    pure true

/-- The SHRI sequencer (R391). A turn writes a byte or consumes a bit (spec/43_decompress_common.md R243), so the space
and the unread bits together bound the turns. -/
def shriSequence (c : Config) : M Unit := do
  commonSetup
  shriVersion c
  let bytes ← chunkBytes
  match c.shriHeader bytes with
  | none => raise .header
  | some h =>
    let s ← get
    fcurSet h.fstart s.chunkLen
    bitsReset h.seedBits h.seedCount.val
    let room ← fwrRoom
    let s ← get
    whileNotEof (shriTurn c) (room + unreadBits s + 1)
    histPush c
    macroEnd

/-- DECOMPRESS.SHRI (R391). -/
def execDecompressShri (s : State) : Host.Outcome State Fault Refusal :=
  runCommand true (shriSequence Config.core) s

end Sys2Proof.Machine
end

