-- ==== Sys2Proof/Machine/Huffman.lean ====
section
/-! DEFINITION. The HUF unit (spec/41_huffman.md): static tables, the canonical assignment of codes, and the walk that
decodes one symbol. A slot holds the set of its entries, listed by length and then by code, so that equal sets are
equal lists (R190, R199). -/

namespace Sys2Proof.Machine

/-- A static table: the set of its entries (R190). -/
abbrev Table := List HufEntry

/-- The slot's table (spec/10_state.md R34); none where it holds no value (R46). -/
def readSlot (t : Fin 16) : M Table := do need (← get).ht[t]

/-- HT[t] <- E. -/
def setSlot (t : Fin 16) (e : Table) : M Unit := modify fun s => { s with ht := s.ht.set t (some e) }

/-- HUF.CLEAR (R191). -/
def hufClear (t : Fin 16) : M Unit := setSlot t []

/-- The order in which a table lists its entries: by length, then by code. -/
def entryBefore (a b : HufEntry) : Bool := decide (a.len < b.len) || (a.len == b.len && decide (a.code < b.code))

/-- The table with one more entry. -/
def addEntry (e : HufEntry) : Table → Table
  | [] => [e]
  | x :: rest => if entryBefore e x then e :: x :: rest else x :: addEntry e rest

/-- One path is a prefix of the other, or equal to it (R192). -/
def pathsClash (a b : HufEntry) : Bool :=
  let m := min a.len b.len
  a.code / 2 ^ (a.len - m) == b.code / 2 ^ (b.len - m)

/-- The nodes below the root on the path of an entry, each as (depth, path) (R199). -/
def pathNodes (e : HufEntry) : List (Nat × Nat) :=
  (List.range e.len).map fun k => (k + 1, e.code / 2 ^ (e.len - (k + 1)))

/-- The number of nodes of the trie of a table, the root among them (R199; DEDUCED, log 22). -/
def trieNodes (t : Table) : Nat := 1 + (t.flatMap pathNodes).dedup.length

/-- The trie of the table needs more than HUF_NODE_MAX nodes (R192); the empty table fits every capacity (R193). -/
def tooManyNodes (c : Config) (t : Table) : Bool :=
  match c.hufNodeMax with
  | none => false
  | some m => !t.isEmpty && decide (trieNodes t > m)

/-- HUF.INSERT (R192). -/
def hufInsert (c : Config) (t : Fin 16) (length code : Nat) (sym : Word) : M Unit :=
  if length < 1 ∨ length > hufMaxLen then raise .range
  else do
    let e : HufEntry := { len := length, code := code % 2 ^ length, sym := sym }
    let table ← readSlot t
    if table.any (pathsClash e) then raise .table
    else if tooManyNodes c (addEntry e table) then raise .capacity
    else setSlot t (addEntry e table)

/-- `count[b]` with `count[0] = 0` (R194). -/
def lengthCount (lens : List Nat) (b : Nat) : Nat := if b = 0 then 0 else lens.count b

/-- The first code of each length (R194): `code <- (code + count[b − 1]) << 1`. -/
def firstCode (lens : List Nat) : Nat → Nat
  | 0 => 0
  | b + 1 => (firstCode lens b + lengthCount lens b) * 2

/-- The codes in symbol order, `next[len]` counting up; none when a length has more codes than fit (R194). `next` lists
next[0 .. HUF_MAX_LEN] and `i` is the symbol of the first length listed. -/
def assignCodes : List Nat → List Nat → Nat → Option (List HufEntry)
  | [], _, _ => some []
  | l :: rest, next, i =>
    if l = 0 then assignCodes rest next (i + 1)
    else
      let code := next.getD l 0
      if code ≥ 2 ^ l then none
      else
        match assignCodes rest (next.set l (code + 1)) (i + 1) with
        | none => none
        | some es => some ({ len := l, code := code, sym := toWord i } :: es)

/-- CanonicalCodes (R194), with the symbol of entry i its index i (R193); unused symbols have no entry. -/
def canonicalCodes (lens : List Nat) : Option (List HufEntry) :=
  assignCodes lens ((List.range (hufMaxLen + 1)).map (firstCode lens)) 0

/-- The set of a list of entries. -/
def tableOf (es : List HufEntry) : Table := es.foldl (fun t e => addEntry e t) []

/-- HUF.BUILD (R193). -/
def hufBuild (c : Config) (t : Fin 16) (n : Nat) : M Unit :=
  if n > lenmSize then raise .range
  else do
    let bytes ← need (memBytes (← get).lenm 0 n)
    let lens := bytes.map BitVec.toNat
    if lens.any (fun l => decide (l > hufMaxLen)) then raise .range
    else
      match canonicalCodes lens with
      | none => raise .table
      | some es =>
        if tooManyNodes c (tableOf es) then raise .capacity else setSlot t (tableOf es)

/-- The longest path of a table. -/
def longestLen (es : List HufEntry) : Nat := es.foldl (fun m e => max m e.len) 0

/-- The walk of R195 after `l` bits that read as `c`. `left` is how many bits more the walk can take, so at 0 no path
goes on. -/
def walk (src : BitSource) (es : List HufEntry) : Nat → Nat → Nat → M Word
  | 0, _, _ => raise .walkOff
  | left + 1, l, c => do
    let b ← readBits src 1
    let l := l + 1
    let c := c * 2 + b
    match es.find? (fun e => e.len == l && e.code == c) with
    | some e => pure e.sym
    | none =>
      if es.any (fun e => decide (e.len > l) && e.code / 2 ^ (e.len - l) == c) then walk src es left l c
      else raise .walkOff

/-- Decode one symbol from a set of entries (R195): an empty set fails before any bit is read, and any other reads a bit
before it looks for an entry, also where its one path has no bit (spec/42_adaptive_huffman.md R222). -/
def decodeFrom (src : BitSource) (es : List HufEntry) : M Word :=
  if es.isEmpty then raise .walkOff else walk src es (max 1 (longestLen es)) 0 0

/-- HUF.DECODE (R195). -/
def hufDecode (t : Fin 16) (src : BitSource) : M Word := do
  let es ← readSlot t
  decodeFrom src es

/-- LENM[i] <- b (spec/10_state.md R35). -/
def writeLenm (i : Nat) (b : Byte) : M Unit := modify fun s => { s with lenm := storeWrite s.lenm i b }

/-! ## Commands -/

/-- HUF.CLEAR (R191). -/
def execHufClear (t : BitVec 4) (s : State) : Host.Outcome State Fault Refusal :=
  runCommand false (hufClear t.toFin) s

/-- HUF.INSERT (R192). -/
def execHufInsert (t : BitVec 4) (s : State) : Host.Outcome State Fault Refusal :=
  runCommand false (do
    let length ← readArg0
    let code ← readArg1
    let sym ← readArg2
    hufInsert Config.core t.toFin length.toNat code.toNat sym) s

/-- HUF.BUILD (R193). -/
def execHufBuild (t : BitVec 4) (s : State) : Host.Outcome State Fault Refusal :=
  runCommand false (do
    let n ← readArg0
    hufBuild Config.core t.toFin n.toNat) s

/-- HUF.DECODE (R195). -/
def execHufDecode (t : BitVec 4) (bs : BitSource) (s : State) : Host.Outcome State Fault Refusal :=
  runCommand false (do
    let sym ← hufDecode t.toFin bs
    setRes0 sym) s

end Sys2Proof.Machine
end

