-- ==== Sys2Proof/Machine/Mtf.lean ====
section
/-! DEFINITION. The MTF unit (spec/45_bzp2.md R290 to R292): two move-to-front lists. -/

namespace Sys2Proof.Machine

/-- The list of a store (spec/10_state.md R37); none where it holds no value. -/
def mtfOf (l : MtfStore) (s : State) : Option (List Nat) :=
  match l with
  | .selectors => s.mtf0
  | .data => s.mtf1

/-- The state with the list of a store replaced. -/
def withMtf (l : MtfStore) (xs : List Nat) (s : State) : State :=
  match l with
  | .selectors => { s with mtf0 := some xs }
  | .data => { s with mtf1 := some xs }

/-- MTF.INIT (R290): the identity list. -/
def mtfInit (l : MtfStore) (n : Nat) : M Unit :=
  if n > 256 then raise .range else modify (withMtf l (List.range n))

/-- The list after an access at position `j`: the element moves to the front (R291). -/
def moveToFront (xs : List Nat) (j : Nat) (e : Nat) : List Nat := e :: xs.eraseIdx j

/-- MTF.ACCESS (R291). -/
def mtfAccess (l : MtfStore) (j : Nat) : M Nat := do
  let xs ← need (mtfOf l (← get))
  match xs[j]? with
  | none => raise .index
  | some e =>
    modify (withMtf l (moveToFront xs j e))
    pure e

/-! ## Commands -/

/-- MTF.INIT (R290). -/
def execMtfInit (l : MtfStore) (s : State) : Host.Outcome State Fault Refusal :=
  runCommand false (do
    let n ← readArg0
    mtfInit l n.toNat) s

/-- MTF.ACCESS (R291). -/
def execMtfAccess (l : MtfStore) (s : State) : Host.Outcome State Fault Refusal :=
  runCommand false (do
    let j ← readArg0
    let e ← mtfAccess l j.toNat
    setRes0 (toWord e)) s

end Sys2Proof.Machine
end

