-- ==== Sys2Proof/Machine/Bz.lean ====
section
/-! DEFINITION. The BZ pipeline and DECOMPRESS.BZP2 (spec/45_bzp2.md R293 to R317). -/

namespace Sys2Proof.Machine

/-- The slot of the selector table (spec/41_huffman.md R201). -/
def selectorSlot : Fin 16 := 6

/-- The slot of the delta table (R201). -/
def deltaSlot : Fin 16 := 7

/-- The slot of a group table (R201). -/
def groupSlot (g : Nat) : Fin 16 := Fin.ofNat 16 g

/-- The selector table (R300): six unary entries, the path 111111 missing. -/
def selectorTable : Table :=
  [⟨1, 0b0, 0#32⟩, ⟨2, 0b10, 1#32⟩, ⟨3, 0b110, 2#32⟩, ⟨4, 0b1110, 3#32⟩, ⟨5, 0b11110, 4#32⟩, ⟨6, 0b111110, 5#32⟩]

/-- The delta table (R301): 0 stops, 10 adds 1, 11 subtracts 1. -/
def deltaTable : Table := [⟨1, 0b0, 0#32⟩, ⟨2, 0b10, 1#32⟩, ⟨2, 0b11, 0xFFFFFFFF#32⟩]

/-- BZ.START (R295). -/
def bzStart (blockSize : Nat) : M Unit :=
  if blockSize = 0 ∨ blockSize > bzMaxBlock then raise .header
  else do
    modify fun s => { s with bz := { s.bz with blockSize := some blockSize, crc := some 0#32, blk := none } }
    setSlot selectorSlot selectorTable
    setSlot deltaSlot deltaTable

/-! ## The block header -/

/-- The values of one detail word, from its `left` last bits (R298). -/
def detailValues (g d : Nat) : Nat → List Byte
  | 0 => []
  | left + 1 =>
    let j := 15 - left
    if fieldBit d 16 j then truncByte (16 * g + j) :: detailValues g d left else detailValues g d left

/-- The detail words of the used groups among the `left` last ones (R298). -/
def readDetails (used : Nat) : Nat → M (List Byte)
  | 0 => pure []
  | left + 1 =>
    let g := 15 - left
    if fieldBit used 16 g then do
      let d ← rd 16
      let more ← readDetails used left
      pure (detailValues g d 16 ++ more)
    else readDetails used left

/-- The symbol map: the literal alphabet in ascending order (R298). -/
def readSymbolMap : M (List Byte) := do
  let used ← rd 16
  readDetails used 16

/-- The selectors (R300): `left` more of them. -/
def readSelectors (nGroups : Nat) : Nat → M (List Nat)
  | 0 => pure []
  | left + 1 => do
    let j ← hufDecode selectorSlot .group8
    let e ← mtfAccess .selectors j.toNat
    if e ≥ nGroups then raise .index
    else
      let more ← readSelectors nGroups left
      pure (e :: more)

/-- The deltas of one symbol, until a stop (R301); the running length. Every turn consumes at least one bit. -/
def readDeltas : Nat → Nat → M Nat
  | 0, _ => throw .noProgress
  | turns + 1, cur =>
    if cur < 1 ∨ cur > 20 then raise .range
    else do
      let dl ← hufDecode deltaSlot .group8
      if dl = 0#32 then pure cur
      else if dl = 1#32 then readDeltas turns (cur + 1)
      else readDeltas turns (cur - 1)

/-- The code lengths of a group go to LENM (R301): `left` symbols from `i` on; the running length carries over. -/
def readLengths : Nat → Nat → Nat → M Unit
  | 0, _, _ => pure ()
  | left + 1, i, cur => do
    let s ← get
    let len ← readDeltas (unreadBits s + 1) cur
    writeLenm i (truncByte len)
    readLengths left (i + 1) len

/-- The group tables (R301): `left` more, from group `t` on. -/
def readGroups (c : Config) (nItems : Nat) : Nat → Nat → M Unit
  | 0, _ => pure ()
  | left + 1, t => do
    let cur ← rd 5
    readLengths nItems 0 cur
    hufBuild c (groupSlot t) nItems
    readGroups c nItems left (t + 1)

/-! ## The block body -/

/-- The block grows past `blockSize` (R302). -/
def checkCapacity (n : Nat) : M Unit := do
  let size ← need (← get).bz.blockSize
  if n > size then raise .capacity else pure ()

/-- The bytes of a run go to the block (R296, R302): nothing where there is no run. -/
def appendRun (run : Nat) : M Unit :=
  if run > 0 then do
    let s ← get
    let blk ← need s.bz.blk
    checkCapacity (blk.length + run)
    let values ← need s.bz.values
    let front ← need s.mtf1
    let first ← need front[0]?
    let b ← need values[first]?
    modify fun s => { s with bz := { s.bz with blk := some (blk ++ List.replicate run b) } }
  else pure ()

/-- FlushRun (R296, R302). -/
def flushRun : M Unit := do
  let run ← need (← get).bz.runLength
  appendRun run
  modify fun s => { s with bz := { s.bz with runLength := some 0, runWeight := some 1 } }

/-- A run symbol of the body (R302). -/
def runSymbol (sym : Nat) : M Unit := do
  let s ← get
  let run ← need s.bz.runLength
  let weight ← need s.bz.runWeight
  let run := run + weight * 2 ^ sym
  set { s with bz := { s.bz with runLength := some run, runWeight := some (weight * 2) } }
  checkCapacity run

/-- A literal symbol of the body (R302). -/
def literalSymbol (sym : Nat) : M Unit := do
  flushRun
  let e ← mtfAccess .data (sym - 1)
  let s ← get
  let blk ← need s.bz.blk
  checkCapacity (blk.length + 1)
  let values ← need s.bz.values
  let b ← need values[e]?
  modify fun s => { s with bz := { s.bz with blk := some (blk ++ [b]) } }

/-- A symbol of the body that is not the end symbol (R302). -/
def bodySymbol (sym : Nat) : M Unit := if sym < 2 then runSymbol sym else literalSymbol sym

/-- The body (R302): `sels` are the selectors not yet used, `tbl` the current group table, `left` the symbols it still
serves. Every turn consumes at least one bit. -/
def readBody (nItems : Nat) : Nat → List Nat → Nat → Nat → M Unit
  | 0, _, _, _ => throw .noProgress
  | turns + 1, sels, tbl, left =>
    match left, sels with
    | 0, [] => raise .index
    | 0, g :: rest => do
      let sym ← hufDecode (groupSlot g) .group8
      if sym.toNat = nItems - 1 then pure ()
      else
        bodySymbol sym.toNat
        readBody nItems turns rest g (bzGroupRun - 1)
    | left + 1, _ => do
      let sym ← hufDecode (groupSlot tbl) .group8
      if sym.toNat = nItems - 1 then pure ()
      else
        bodySymbol sym.toNat
        readBody nItems turns sels tbl left

/-- The symbol map, groups and selectors (R296, R298 to R300): the number of body symbols. -/
def readBlockHeader : M Nat := do
  let _ ← rd 32
  let randomised ← rd 1
  modify fun s => { s with bz := { s.bz with randomised := some (randomised == 1) } }
  let origPtr ← rd 24
  modify fun s => { s with bz := { s.bz with origPtr := some (BitVec.ofNat 24 origPtr) } }
  let values ← readSymbolMap
  modify fun s => { s with bz := { s.bz with values := some values } }
  if values.length = 0 then raise .header
  else
    let nGroups ← rd 3
    modify fun s => { s with bz := { s.bz with nGroups := some nGroups } }
    if nGroups < 2 ∨ nGroups > 6 then raise .header
    else
      let nSelectors ← rd 15
      modify fun s => { s with bz := { s.bz with nSelectors := some nSelectors } }
      if nSelectors = 0 then raise .header
      else
        mtfInit .selectors 6
        let selectors ← readSelectors nGroups nSelectors
        modify fun s => { s with bz := { s.bz with selectors := some selectors } }
        pure (values.length + 2)

/-- A block after its marker (R296). Without BZ.START it raises Unset (spec/70_reset_and_hazards.md R506) where the block
buffer, which has BZ.blockSize bytes, is first used (DESIGN CHOICE of the place, log 13). -/
def readBlock (c : Config) : M Unit := do
  let nItems ← readBlockHeader
  let nGroups ← need (← get).bz.nGroups
  readGroups c nItems nGroups 0
  mtfInit .data (nItems - 2)
  let _ ← need (← get).bz.blockSize
  modify fun s => { s with bz := { s.bz with blk := some [], runLength := some 0, runWeight := some 1 } }
  let s ← get
  let selectors ← need s.bz.selectors
  readBody nItems (unreadBits s + 1) selectors 0 0
  flushRun
  let s ← get
  let blk ← need s.bz.blk
  let origPtr ← need s.bz.origPtr
  if blk.length > 0 ∧ origPtr.toNat ≥ blk.length then raise .index else pure ()

/-- BZ.BLOCK (R296): true when a block was read, false at the end marker. -/
def bzBlock (c : Config) : M Bool := do
  let hi ← rd 32
  let lo ← rd 16
  let m := hi * 2 ^ 16 + lo
  if m = bzEndMagic then
    let stored ← rd 32
    let crc ← need (← get).bz.crc
    if stored ≠ crc.toNat then raiseChecksum else pure false
  else if m = bzBlockMagic then
    readBlock c
    pure true
  else raise .magic

/-! ## Inverse BWT, derandomisation, final run lengths -/

/-- `sums[v]`: how many bytes of the block have value v (R311). -/
def countBytes (blk : List Byte) : List Nat :=
  blk.foldl (fun sums b => sums.modify b.toNat (· + 1)) (List.replicate 256 0)

/-- `rank[v]` before the permutation: the number of bytes smaller than v (R311). -/
def startRanks (sums : List Nat) : List Nat :=
  (List.range 256).map fun v => (sums.take v).sum

/-- One byte of the counting sort: `fwd[rank[v]] <- i; rank[v] <- rank[v] + 1` (R310). -/
def placeByte (st : List Nat × List Nat) (bi : Byte × Nat) : List Nat × List Nat :=
  let (rank, fwd) := st
  let r := rank.getD bi.1.toNat 0
  (rank.set bi.1.toNat (r + 1), fwd.set r bi.2)

/-- The rank table after, and the forward-index array of, the counting sort (R310, R311). -/
def sortBlock (blk : List Byte) : List Nat × List Nat :=
  (blk.zipIdx).foldl placeByte (startRanks (countBytes blk), List.replicate blk.length 0)

/-- Derandomise one byte leaving the inverse BWT (R312). -/
def derandomise (c : Config) (b : Byte) : M Byte := do
  let s ← get
  let randomised ← need s.bz.randomised
  if randomised then
    let nToGo ← need s.bz.rNToGo
    let tPos ← need s.bz.rTPos
    let (nToGo, tPos) :=
      if nToGo = 0 then ((c.bzRandTable (Fin.ofNat 512 tPos) : Nat), (tPos + 1) % 512) else (nToGo, tPos)
    let nToGo := nToGo - 1
    set { s with bz := { s.bz with rNToGo := some nToGo, rTPos := some tPos } }
    pure (if nToGo = 1 then b ^^^ 1#8 else b)
  else pure b

/-- Write a byte `k` times. -/
def writeTimes (b : Byte) : Nat → M Unit
  | 0 => pure ()
  | k + 1 => do
    fwrWrb b
    writeTimes b k

/-- The final run-length stage takes one byte (R313). -/
def finalRle (b : Byte) : M Unit := do
  let s ← get
  let count ← need s.bz.curCount
  if count = 4 then
    let ch ← need s.bz.curCh
    writeTimes ch b.toNat
    modify fun s => { s with bz := { s.bz with curCount := some 0 } }
  else if count > 0 ∧ s.bz.curCh = some b then
    fwrWrb b
    modify fun s => { s with bz := { s.bz with curCount := some (count + 1) } }
  else
    modify fun s => { s with bz := { s.bz with curCh := some b, curCount := some 1 } }
    fwrWrb b

/-- The walk (R311): `left` more bytes from `p` on. -/
def unbwtWalk (c : Config) (blk : List Byte) (fwd : List Nat) : Nat → Nat → M Unit
  | 0, _ => pure ()
  | left + 1, p => do
    let p ← need fwd[p]?
    let b ← need blk[p]?
    let b ← derandomise c b
    finalRle b
    unbwtWalk c blk fwd left p

/-- The stages of a block that is not empty (R310). -/
def unbwtStages (c : Config) (blk : List Byte) : M Unit := do
  let (rank, fwd) := sortBlock blk
  modify fun s =>
    { s with bz := { s.bz with sums := some (countBytes blk), rank := some rank, fwd := some fwd } }
  let origPtr ← need (← get).bz.origPtr
  modify fun s => { s with bz := { s.bz with curCount := some 0, rNToGo := some 0, rTPos := some 0 } }
  unbwtWalk c blk fwd blk.length origPtr.toNat

/-- The stages of a block (R310): an empty one has none. -/
def unbwtBlock (c : Config) (blk : List Byte) : M Unit := if blk.length > 0 then unbwtStages c blk else pure ()

/-- BZ.UNBWT (R310). -/
def bzUnbwt (c : Config) : M Unit := do
  let s ← get
  let blk ← need s.bz.blk
  let f ← need s.fwr
  unbwtBlock c blk
  let s ← get
  let f' ← need s.fwr
  let written ← need (memBytes s.raw f.pos.toNat (f'.pos.toNat - f.pos.toNat))
  let crc ← need s.bz.crc
  set { s with bz := { s.bz with crc := some (bzFoldCrc crc written), blk := none } }

/-! ## Commands -/

/-- BZ.START (R295). -/
def execBzStart (s : State) : Host.Outcome State Fault Refusal :=
  runCommand false (do
    let size ← readArg0
    bzStart size.toNat) s

/-- BZ.BLOCK (R296). -/
def execBzBlock (s : State) : Host.Outcome State Fault Refusal :=
  runCommand false (do
    let r ← bzBlock Config.core
    setRes0 (toWord (flagBit r))) s

/-- BZ.UNBWT (R310). -/
def execBzUnbwt (s : State) : Host.Outcome State Fault Refusal :=
  runCommand false (bzUnbwt Config.core) s

/-- Every slot and store that BZP2 uses is cleared (spec/43_decompress_common.md R242, spec/41_huffman.md R201;
DEDUCED, log 18). -/
def clearBzp2 (s : State) : State :=
  { s with
    ht := (List.range 8).foldl (fun h t => h.set (Fin.ofNat 16 t) (some [])) s.ht,
    mtf0 := some [], mtf1 := some [], bz := Bz.unset }

/-- The block loop of BZP2 (R293): it runs to the end marker. Every turn consumes at least 48 bits. -/
def bzp2Loop (c : Config) : Nat → M Unit
  | 0 => throw .noProgress
  | turns + 1 => do
    if ← bzBlock c then
      bzUnbwt c
      bzp2Loop c turns
    else pure ()

/-- A byte of the header that must be a given letter (R293): Header where it is not. -/
def headerLetter (a : Nat) (letter : Byte) : M Unit := do
  let b ← chunkByte a
  if b ≠ letter then raise .header else pure ()

/-- The BZP2 sequencer (R293, header layout R294). The digit is read after the letters. The letters are read one by one,
and the first wrong one ends the test, so a letter after it need not hold a value (DESIGN CHOICE, log 35). -/
def bzp2Sequence (c : Config) : M Unit := do
  commonSetup
  modify clearBzp2
  let o ← fcurConsume 4
  headerLetter o.toNat 0x42#8
  headerLetter (o.toNat + 1) 0x5A#8
  headerLetter (o.toNat + 2) 0x68#8
  let b3 ← chunkByte (o.toNat + 3)
  if b3.toNat < 0x31 ∨ b3.toNat > 0x39 then raise .header
  else
    bzStart ((b3.toNat - 0x30) * bzBlockUnit)
    let s ← get
    bzp2Loop c (unreadBits s + 1)
    if ← fwrEof then macroEnd else raise .underFill

/-- DECOMPRESS.BZP2 (R293). -/
def execDecompressBzp2 (s : State) : Host.Outcome State Fault Refusal :=
  runCommand false (bzp2Sequence Config.core) s

end Sys2Proof.Machine
end

