-- ==== Sys2Proof/Machine/Dhuf.lean ====
section
/-! DEFINITION. The DHUF unit (spec/42_adaptive_huffman.md R220 to R224): the tracker over the four OPEN functions. -/

namespace Sys2Proof.Machine

/-- DHUF.INIT (R221). -/
def dhufInit (c : Config) (nsym : Word) : M Unit :=
  if nsym.toNat = 0 ∨ nsym.toNat > dhufMaxNsym then raise .range
  else modify fun s => { s with dhuf := some { nsym := nsym, tree := some (c.dhufInit nsym.toNat) } }

/-- The tracker, initialised: with `nsym` = 0 it is unset (R222). -/
def readDhuf : M (Word × DhufTree) := do
  let d ← need (← get).dhuf
  if d.nsym.toNat = 0 then raise .unset
  else
    let t ← need d.tree
    pure (d.nsym, t)

/-- DHUF.DECODE (R222): the walk of R195 over the current code set; the model is not updated. -/
def dhufDecode (c : Config) (src : BitSource) : M Word := do
  let (_, t) ← readDhuf
  decodeFrom src (c.dhufCodes t)

/-- DHUF.UPDATE (R223). -/
def dhufUpdate (c : Config) (sym : Nat) : M Unit := do
  let (n, t) ← readDhuf
  if sym ≥ n.toNat then raise .index
  else modify fun s => { s with dhuf := some { nsym := n, tree := some (c.dhufUpdate t sym) } }

/-- DHUF.MAXF (R224). -/
def dhufMaxF (c : Config) : M Word := do
  let (_, t) ← readDhuf
  pure (c.dhufMaxF t)

/-! ## Commands -/

/-- DHUF.INIT (R221). -/
def execDhufInit (s : State) : Host.Outcome State Fault Refusal :=
  runCommand false (do
    let n ← readArg0
    dhufInit Config.core n) s

/-- DHUF.DECODE (R222). -/
def execDhufDecode (bs : BitSource) (s : State) : Host.Outcome State Fault Refusal :=
  runCommand false (do
    let sym ← dhufDecode Config.core bs
    setRes0 sym) s

/-- DHUF.UPDATE (R223). -/
def execDhufUpdate (s : State) : Host.Outcome State Fault Refusal :=
  runCommand false (do
    let sym ← readArg0
    dhufUpdate Config.core sym.toNat) s

/-- DHUF.MAXF (R224). -/
def execDhufMaxf (s : State) : Host.Outcome State Fault Refusal :=
  runCommand false (do
    let f ← dhufMaxF Config.core
    setRes0 f) s

end Sys2Proof.Machine
end

