-- ==== Sys2Proof/Machine/Instance.lean ====
section
/-! DEFINITION. INST.RESET (spec/70_reset_and_hazards.md R501). -/

namespace Sys2Proof.Machine

/-- INST.RESET (R501): every piece of the core's state takes its value of R44; the one command taken while FAULTED
(spec/60_exceptions.md R470). The host's side of the port is not the core's and stays (DESIGN CHOICE,
log 21). -/
def execInstReset (s : State) : Host.Outcome State Fault Refusal :=
  .next { State.reset with port := s.port, hostData := s.hostData, freeReads := s.freeReads }

end Sys2Proof.Machine
end

