-- ==== Sys2Proof/Machine/Lzw.lean ====
section
/-! DEFINITION. The LZW unit and DECOMPRESS.BLZW (spec/44_blzw.md R261 to R269). -/

namespace Sys2Proof.Machine

/-- LZW.SETUP (R263). -/
def lzwSetup (maxBits stackLength : Nat) : M Unit :=
  if maxBits < blzwMinBits ∨ maxBits > blzwMaxBits then raise .header
  else if stackLength < 1 ∨ stackLength > lzwMaxStack then raise .range
  else modify fun s =>
    { s with
      lzw := { s.lzw with
        maxBits := some maxBits, stackLength := some (toWord stackLength), codeBits := none, freeIndex := none,
        prevCode := none, newCode := none, prefixes := [], suffixes := [] } }

/-- `stack[stackPos] <- b; stackPos <- stackPos + 1` (R264). -/
def lzwPush (b : Byte) : M Unit := do
  let s ← get
  let p ← need s.lzw.stackPos
  set { s with lzw := { s.lzw with stack := storeWrite s.lzw.stack p b, stackPos := some (p + 1) } }

/-- The chain walk of Emit (R264): suffix bytes go onto the stack until a code below 259 is reached. `room` is
`stackLength − 1 − stackPos`, so the test `stackPos + 1 >= stackLength` holds exactly when it is 0. -/
def emitWalk (free : Nat) : Nat → Nat → M Nat
  | room, c =>
    if c < lzwFirstFree then pure c
    else if c ≥ free then raise .index
    else
      match room with
      | 0 => raise .capacity
      | room + 1 => do
        let suffix ← need (storeRead (← get).lzw.suffixes (c - lzwFirstFree))
        lzwPush suffix
        let link ← need (storeRead (← get).lzw.prefixes (c - lzwFirstFree))
        emitWalk free room link.toNat

/-- The pops of Emit (R264): the stack is written top first. -/
def emitPops : Nat → M Unit
  | 0 => pure ()
  | p + 1 => do
    modify fun s => { s with lzw := { s.lzw with stackPos := some p } }
    let b ← need (storeRead (← get).lzw.stack p)
    fwrWrb b
    emitPops p

/-- The chain of a code (R264): the suffix bytes are on the stack, and its first code, below 259, is the value. -/
def emitChain (code : Nat) : M Nat :=
  if code < lzwFirstFree then pure code
  else do
    let free ← need (← get).lzw.freeIndex
    if code ≥ free then raise .index
    else
      let len ← need (← get).lzw.stackLength
      emitWalk free (len.toNat - 1) code

/-- Emit(code) (R264): writes the string of the code in its natural order and leaves its first byte in newCode. -/
def lzwEmit (code : Nat) : M Unit := do
  modify fun s => { s with lzw := { s.lzw with stackPos := some 0 } }
  let c ← emitChain code
  if c ≥ 256 then raise .reserved
  else
    lzwPush (truncByte c)
    modify fun s => { s with lzw := { s.lzw with newCode := some (toWord c) } }
    let p ← need (← get).lzw.stackPos
    emitPops p

/-- LZW.RESTART (R265). Without LZW.SETUP it raises Unset (spec/70_reset_and_hazards.md R506), before anything else (DESIGN
CHOICE of the place, log 13). It keeps the entries above freeIndex (DEDUCED, log 25). -/
def lzwRestart : M Unit := do
  let _ ← need (← get).lzw.maxBits
  modify fun s => { s with lzw := { s.lzw with codeBits := some 9, freeIndex := some lzwFirstFree } }
  let c ← rd 9
  if 256 ≤ c ∧ c ≤ 258 then raise .reserved
  else if c ≥ 259 then raise .index
  else
    modify fun s => { s with lzw := { s.lzw with prevCode := some (toWord c) } }
    lzwEmit c

/-- The new dictionary entry of a step, if space remains (R266). -/
def lzwInsert : M Unit := do
  let s ← get
  let free ← need s.lzw.freeIndex
  let maxBits ← need s.lzw.maxBits
  if free < 2 ^ maxBits then
    let first ← need s.lzw.newCode
    let prev ← need s.lzw.prevCode
    set { s with
      lzw := { s.lzw with
        suffixes := storeWrite s.lzw.suffixes (free - lzwFirstFree) (truncByte first.toNat),
        prefixes := storeWrite s.lzw.prefixes (free - lzwFirstFree) prev,
        freeIndex := some (free + 1) } }
  else pure ()

/-- The string of a step goes to the output: the code's own, or, for the next free index, the previous string and its
first byte (R266). -/
def lzwOutput (code free : Nat) : M Unit :=
  if code = free then do
    let tmp ← need (← get).lzw.newCode
    let prev ← need (← get).lzw.prevCode
    lzwEmit prev.toNat
    fwrWrb (truncByte tmp.toNat)
  else lzwEmit code

/-- LZW.STEP (R266): one turn of the main loop; the code read. -/
def lzwStep : M Nat := do
  let n ← need (← get).lzw.codeBits
  let code ← rd n
  if code = 256 then raise .reserved
  else if code = 257 then
    lzwRestart
    pure code
  else if code = 258 then
    modify fun s => { s with lzw := { s.lzw with codeBits := some (n + 1) } }
    pure code
  else
    let free ← need (← get).lzw.freeIndex
    if code > free then raise .index
    else
      lzwOutput code free
      lzwInsert
      modify fun s => { s with lzw := { s.lzw with prevCode := some (toWord code) } }
      pure code

/-! ## Commands -/

/-- LZW.SETUP (R263). -/
def execLzwSetup (s : State) : Host.Outcome State Fault Refusal :=
  runCommand false (do
    let maxBits ← readArg0
    let stackLength ← readArg1
    lzwSetup maxBits.toNat stackLength.toNat) s

/-- LZW.RESTART (R265). -/
def execLzwRestart (s : State) : Host.Outcome State Fault Refusal :=
  runCommand false lzwRestart s

/-- LZW.STEP (R266). -/
def execLzwStep (s : State) : Host.Outcome State Fault Refusal :=
  runCommand false (do
    let code ← lzwStep
    setRes0 (toWord code)) s

/-- The BLZW sequencer (R261, header layout R262). A turn consumes at least one bit. -/
def blzwSequence : M Unit := do
  commonSetup
  modify fun s => { s with lzw := Lzw.unset }
  let o ← fcurConsume 4
  let b0 ← chunkByte o.toNat
  let b1 ← chunkByte (o.toNat + 1)
  let b2 ← chunkByte (o.toNat + 2)
  let b3 ← chunkByte (o.toNat + 3)
  lzwSetup (be16 b0 b1) (be16 b2 b3 + blzwStackExtra)
  lzwRestart
  let s ← get
  whileNotEof (do
    let _ ← lzwStep
    pure true) (unreadBits s + 1)
  macroEnd

/-- DECOMPRESS.BLZW (R261). -/
def execDecompressBlzw (s : State) : Host.Outcome State Fault Refusal :=
  runCommand false blzwSequence s

end Sys2Proof.Machine
end

