-- ==== Sys2Proof/Machine/Sequencers.lean ====
section
/-! DEFINITION. The LHLB, MASH and RAKE sequencers (spec/46_lhlb_mash_rake.md R350 to R376) and the SMPL and SQSH
sequencers (spec/48_smpl_sqsh.md R431 to R443). Each turn of a loop writes at least one byte or ends it, so the space
bounds the turns. -/

namespace Sys2Proof.Machine

/-! ## LHLB -/

/-- The update of LHLB after a symbol: none once the maximum has reached 0x8000 (spec/42_adaptive_huffman.md R225). -/
def lhlbUpdate (c : Config) (sym : Nat) : M Unit := do
  let f ← dhufMaxF c
  if f.toNat < lhlbFreeze then dhufUpdate c sym else pure ()

/-- One turn of the LHLB loop (R351, R352). A symbol above 316 is Index (DESIGN CHOICE, log 16). -/
def lhlbTurn (c : Config) : M Bool := do
  let sym ← dhufDecode c .group8
  lhlbUpdate c sym.toNat
  if sym.toNat < 256 then
    fwrWrb (truncByte sym.toNat)
    pure true
  else if sym.toNat = 316 then raise .reserved
  else if h : sym.toNat - 256 < 60 then
    let d ← runField c.lhlbDist
    fwrCopy d (c.lhlbCount ⟨sym.toNat - 256, h⟩)
    pure true
  else raise .index

/-- The LHLB sequencer (R351). -/
def lhlbSequence (c : Config) : M Unit := do
  commonSetup
  modify fun s => { s with dhuf := some { nsym := 0#32, tree := none } }
  dhufInit c (toWord lhlbNsym)
  let room ← fwrRoom
  whileNotEof (lhlbTurn c) (room + 1)
  macroEnd

/-- DECOMPRESS.LHLB (R351). -/
def execDecompressLhlb (s : State) : Host.Outcome State Fault Refusal :=
  runCommand false (lhlbSequence Config.core) s

/-! ## MASH -/

/-- The literal run of a MASH turn (R361): not clamped. -/
def mashLiterals (c : Config) : Nat → M Unit
  | 0 => pure ()
  | n + 1 => do
    let b ← runField c.mashLit
    fwrWrb b
    mashLiterals c n

/-- The match of a MASH turn (R361): the distance is tested before the copy (R365) and the count is clamped to the space
left (R366). -/
def mashMatchEnd (m : MashMatch) : M Bool := do
  let eof ← fwrEof
  if m.distance = 0 then
    if eof then pure false else raise .zeroDistance
  else
    let room ← fwrRoom
    let count := min (mashCount m) room
    if count > 0 then fwrCopy m.distance count else pure ()
    pure true

/-- One turn of the MASH loop (R361). -/
def mashTurn (c : Config) : M Bool := do
  let n ← runField c.mashLitLen
  mashLiterals c n
  let m ← runField c.mashMatch
  mashMatchEnd m

/-- The MASH sequencer (R361). Slot 0, which R362 leaves to the model, is cleared and stays empty: MASH_LITLEN is a bit tree
of the configuration (DESIGN CHOICE, log 36). -/
def mashSequence (c : Config) : M Unit := do
  commonSetup
  hufClear 0
  let room ← fwrRoom
  whileNotEof (mashTurn c) (room + 1)
  macroEnd

/-- DECOMPRESS.MASH (R361). -/
def execDecompressMash (s : State) : Host.Outcome State Fault Refusal :=
  runCommand false (mashSequence Config.core) s

/-! ## RAKE -/

/-- The common setup for RAKE: the backward writer in place of the forward one (spec/43_decompress_common.md R242;
DEDUCED, log 19). -/
def rakeSetup : M Unit := do
  modify fun s => { s with phase := .running }
  let s ← get
  bwrSet 0#32 s.rawLen
  fcurSet 0#32 s.chunkLen
  bitsReset 0#32 0
  hufClear 0

/-- The readers are placed from the header (R372). -/
def rakePlace (h : RakeHeader) : M Unit := do
  let s ← get
  bcurSet 4#32 h.mid
  fcurSet h.fstart s.chunkLen
  bitsReset h.seedBits h.seedCount.val

/-- RAKE_LEN_TABLE goes to LENM[0 .. 254] (R374): `left` more entries. -/
def rakeLengths (c : Config) : Nat → M Unit
  | 0 => pure ()
  | left + 1 => do
    let i := 254 - left
    writeLenm i (truncByte ((c.rakeLenLess1 (Fin.ofNat 255 i)).val + 1))
    rakeLengths c left

/-- The distance of a RAKE match (R375): bits first, then the backward byte. -/
def rakeReadDistance (c : Config) : M Nat := do
  let t ← runField c.rakeTier
  let bits ← rd (rakeTierBits t)
  let b ← bcurRdb
  pure (rakeDistance c.rakeD0Base t bits b)

/-- One turn of the RAKE loop (R373). -/
def rakeTurn (c : Config) : M Bool := do
  let bit ← rd 1
  if (bit == 1) = c.rakeLiteralBit then
    let b ← bcurRdb
    bwrWrb b
    pure true
  else
    let v ← hufDecode 0 .group8
    let d ← rakeReadDistance c
    bwrCopy d (v.toNat + 2)
    pure true

/-- The RAKE sequencer (R371). -/
def rakeSequence (c : Config) : M Unit := do
  rakeSetup
  let bytes ← chunkBytes
  match c.rakeHeader bytes with
  | none => raise .header
  | some h =>
    rakePlace h
    rakeLengths c 255
    hufBuild c 0 255
    let room ← bwrRoom
    turnLoop (do return !(← bwrEof)) (rakeTurn c) (room + 1)
    macroEnd

/-- DECOMPRESS.RAKE (R371). -/
def execDecompressRake (s : State) : Host.Outcome State Fault Refusal :=
  runCommand false (rakeSequence Config.core) s

/-! ## SMPL -/

/-- One code length of the SMPL table (R432). -/
def smplLength : M Nat := do
  let l ← rd 4
  if l = 15 then
    let more ← rd 4
    pure (smplEscape more)
  else pure l

/-- Mode A of the SMPL table (R432): `left` more symbols. -/
def smplExplicit (c : Config) : Nat → M Unit
  | 0 => pure ()
  | left + 1 => do
    let l ← smplLength
    if l = 0 then smplExplicit c left
    else
      let code ← rd l
      hufInsert c 0 l code (toWord (255 - left))
      smplExplicit c left

/-- The lengths of mode B go to LENM (R432): `left` more symbols. -/
def smplLengths : Nat → M Unit
  | 0 => pure ()
  | left + 1 => do
    let l ← smplLength
    writeLenm (255 - left) (truncByte l)
    smplLengths left

/-- The SMPL table (R432). -/
def smplTable (c : Config) : M Unit := do
  hufClear 0
  match c.smplTableMode with
  | .explicit => smplExplicit c 256
  | .canonical =>
    smplLengths 256
    hufBuild c 0 256

/-- One turn of the SMPL loop (R431). -/
def smplTurn : M Bool := do
  let d ← hufDecode 0 .group8
  let acc ← need (← get).smplAcc
  let acc := truncByte (acc.toNat + d.toNat)
  modify fun s => { s with smplAcc := some acc }
  fwrWrb acc
  pure true

/-- The SMPL sequencer (R431). -/
def smplSequence (c : Config) : M Unit := do
  commonSetup
  modify fun s => { s with smplAcc := none }
  let bytes ← chunkBytes
  match c.smplHeader bytes with
  | none => raise .header
  | some fstart =>
    let s ← get
    fcurSet fstart s.chunkLen
    smplTable c
    modify fun s => { s with smplAcc := some c.smplAccInit }
    let room ← fwrRoom
    whileNotEof smplTurn (room + 1)
    macroEnd

/-- DECOMPRESS.SMPL (R431). -/
def execDecompressSmpl (s : State) : Host.Outcome State Fault Refusal :=
  runCommand false (smplSequence Config.core) s

/-! ## SQSH -/

/-- A repeat of SQSH (R441, R442): length before distance. The two field decoders are complete, so they never walk off
(DESIGN CHOICE, log 36). -/
def sqshRepeat (c : Config) : M Unit := do
  let k ← runField c.sqshLenBucket
  let extra ← rd (sqshLenExtra k)
  let j ← runField c.sqshDistWay
  let bits ← rd (sqshDistBits j)
  fwrCopy (sqshDistBase j + bits) (sqshLenBase k + extra)
  if c.sqshRepeatSetsSample then
    let s ← get
    let f ← need s.fwr
    let b ← need (storeRead s.raw (f.pos.toNat - 1))
    modify fun s => { s with sqshSample := some b }
  else pure ()

/-- A literal run of SQSH (R441, R442 (c)): `left` more samples of `w` bits. -/
def sqshLiterals (w : Nat) : Nat → M Unit
  | 0 => pure ()
  | left + 1 => do
    let v ← rd w
    let sample ← need (← get).sqshSample
    let sample := sqshNextSample sample v w
    modify fun s => { s with sqshSample := some sample }
    fwrWrb sample
    sqshLiterals w left

/-- One turn of the SQSH loop (R441). -/
def sqshTurn (c : Config) : M Bool := do
  let q ← need (← get).sqshQ
  let (q', mode) ← runField (c.sqshMode q)
  modify fun s => { s with sqshQ := some q' }
  match mode with
  | .repeated =>
    sqshRepeat c
    pure true
  | .literal w run =>
    sqshLiterals (w.val + 1) run
    pure true

/-- The raw first byte of SQSH (R441). -/
def sqshFirstByte (c : Config) : M Unit := do
  if ← fwrEof then pure ()
  else
    let b ← runField c.sqshFirst
    modify fun s => { s with sqshSample := some b }
    fwrWrb b

/-- The SQSH sequencer (R441). -/
def sqshSequence (c : Config) : M Unit := do
  commonSetup
  hufClear 0
  hufClear 1
  hufClear 2
  modify fun s => { s with sqshQ := none, sqshSample := none }
  let bytes ← chunkBytes
  match c.sqshHeader bytes with
  | none => raise .header
  | some fstart =>
    let s ← get
    fcurSet fstart s.chunkLen
    sqshFirstByte c
    modify fun s => { s with sqshQ := some c.sqshQInit }
    let room ← fwrRoom
    whileNotEof (sqshTurn c) (room + 1)
    macroEnd

/-- DECOMPRESS.SQSH (R441). -/
def execDecompressSqsh (s : State) : Host.Outcome State Fault Refusal :=
  runCommand false (sqshSequence Config.core) s

end Sys2Proof.Machine
end

