-- ==== Sys2Proof/Machine/Stream.lean ====
section
/-! DEFINITION. The commands of the STREAM unit (spec/40_stream_primitives.md R140 to R165): each reads its ARG registers
at its start (spec/30_encoding.md R104), runs one operation of Ops.lean and writes the RES its rule names. -/

namespace Sys2Proof.Machine

/-- FCUR.SET (R140). -/
def execFcurSet (s : State) : Host.Outcome State Fault Refusal :=
  runCommand false (do
    let start ← readArg0
    let stop ← readArg1
    fcurSet start stop) s

/-- FCUR.RDB (R141): the byte zero-extended. -/
def execFcurRdb (s : State) : Host.Outcome State Fault Refusal :=
  runCommand false (do
    let b ← fcurRdb
    setRes0 (b.setWidth 32)) s

/-- FCUR.CONSUME (R142). -/
def execFcurConsume (s : State) : Host.Outcome State Fault Refusal :=
  runCommand false (do
    let n ← readArg0
    let o ← fcurConsume n.toNat
    setRes0 o) s

/-- BCUR.SET (R143). -/
def execBcurSet (s : State) : Host.Outcome State Fault Refusal :=
  runCommand false (do
    let floor ← readArg0
    let start ← readArg1
    bcurSet floor start) s

/-- BCUR.RDB (R144): the byte zero-extended. -/
def execBcurRdb (s : State) : Host.Outcome State Fault Refusal :=
  runCommand false (do
    let b ← bcurRdb
    setRes0 (b.setWidth 32)) s

/-- BCUR.CONSUME (R145). -/
def execBcurConsume (s : State) : Host.Outcome State Fault Refusal :=
  runCommand false (do
    let n ← readArg0
    let o ← bcurConsume n.toNat
    setRes0 o) s

/-- BITS.RD8 (R147). -/
def execBitsRd8 (n : BitVec 6) (s : State) : Host.Outcome State Fault Refusal :=
  runCommand false (do
    let v ← readBits .group8 n.toNat
    setRes0 (toWord v)) s

/-- BITS.RD32 (R148). -/
def execBitsRd32 (n : BitVec 6) (s : State) : Host.Outcome State Fault Refusal :=
  runCommand false (do
    let v ← readBits .group32 n.toNat
    setRes0 (toWord v)) s

/-- BITS.RESET (R149). -/
def execBitsReset (n : BitVec 6) (s : State) : Host.Outcome State Fault Refusal :=
  runCommand false (do
    let seed ← readArg0
    bitsReset seed n.toNat) s

/-- FWR.SET (R151). -/
def execFwrSet (s : State) : Host.Outcome State Fault Refusal :=
  runCommand false (do
    let start ← readArg0
    let stop ← readArg1
    fwrSet start stop) s

/-- FWR.WRB (R152). -/
def execFwrWrb (b : Byte) (s : State) : Host.Outcome State Fault Refusal :=
  runCommand false (fwrWrb b) s

/-- FWR.COPY (R153). -/
def execFwrCopy (s : State) : Host.Outcome State Fault Refusal :=
  runCommand false (do
    let d ← readArg0
    let c ← readArg1
    fwrCopy d.toNat c.toNat) s

/-- FWR.COPYH (R154). -/
def execFwrCopyh (s : State) : Host.Outcome State Fault Refusal :=
  runCommand false (do
    let d ← readArg0
    let c ← readArg1
    fwrCopyh d.toNat c.toNat) s

/-- FWR.EOF (R155). -/
def execFwrEof (s : State) : Host.Outcome State Fault Refusal :=
  runCommand false (do
    let e ← fwrEof
    setRes0 (toWord (flagBit e))) s

/-- FWR.OFF (R156). -/
def execFwrOff (s : State) : Host.Outcome State Fault Refusal :=
  runCommand false (do
    let n ← fwrOff
    setRes0 (toWord n)) s

/-- BWR.SET (R157). -/
def execBwrSet (s : State) : Host.Outcome State Fault Refusal :=
  runCommand false (do
    let floor ← readArg0
    let top ← readArg1
    bwrSet floor top) s

/-- BWR.WRB (R158). -/
def execBwrWrb (b : Byte) (s : State) : Host.Outcome State Fault Refusal :=
  runCommand false (bwrWrb b) s

/-- BWR.COPY (R159). -/
def execBwrCopy (s : State) : Host.Outcome State Fault Refusal :=
  runCommand false (do
    let d ← readArg0
    let c ← readArg1
    bwrCopy d.toNat c.toNat) s

/-- BWR.EOF (R160). -/
def execBwrEof (s : State) : Host.Outcome State Fault Refusal :=
  runCommand false (do
    let e ← bwrEof
    setRes0 (toWord (flagBit e))) s

/-- BWR.OFF (R161). -/
def execBwrOff (s : State) : Host.Outcome State Fault Refusal :=
  runCommand false (do
    let n ← bwrOff
    setRes0 (toWord n)) s

/-- HIST.PUSH (R165). -/
def execHistPush (s : State) : Host.Outcome State Fault Refusal :=
  runCommand false (histPush Config.core) s

end Sys2Proof.Machine
end

