-- ==== Sys2Proof/Machine/Dispatch.lean ====
section
/-! DEFINITION. One arm per command of Instr (spec/30_encoding.md R105), each one direct call of the command's meaning. -/

namespace Sys2Proof.Machine

/-- The meaning of a command. -/
def exec (i : Instr) (s : State) : Host.Outcome State Fault Refusal :=
  match i with
  | .instReset => Sys2Proof.Machine.execInstReset s
  | .fcurSet => Sys2Proof.Machine.execFcurSet s
  | .fcurRdb => Sys2Proof.Machine.execFcurRdb s
  | .fcurConsume => Sys2Proof.Machine.execFcurConsume s
  | .bcurSet => Sys2Proof.Machine.execBcurSet s
  | .bcurRdb => Sys2Proof.Machine.execBcurRdb s
  | .bcurConsume => Sys2Proof.Machine.execBcurConsume s
  | .bitsRd8 n => Sys2Proof.Machine.execBitsRd8 n s
  | .bitsRd32 n => Sys2Proof.Machine.execBitsRd32 n s
  | .bitsReset n => Sys2Proof.Machine.execBitsReset n s
  | .fwrSet => Sys2Proof.Machine.execFwrSet s
  | .fwrWrb b => Sys2Proof.Machine.execFwrWrb b s
  | .fwrCopy => Sys2Proof.Machine.execFwrCopy s
  | .fwrCopyh => Sys2Proof.Machine.execFwrCopyh s
  | .fwrEof => Sys2Proof.Machine.execFwrEof s
  | .fwrOff => Sys2Proof.Machine.execFwrOff s
  | .bwrSet => Sys2Proof.Machine.execBwrSet s
  | .bwrWrb b => Sys2Proof.Machine.execBwrWrb b s
  | .bwrCopy => Sys2Proof.Machine.execBwrCopy s
  | .bwrEof => Sys2Proof.Machine.execBwrEof s
  | .bwrOff => Sys2Proof.Machine.execBwrOff s
  | .histPush => Sys2Proof.Machine.execHistPush s
  | .hufClear t => Sys2Proof.Machine.execHufClear t s
  | .hufInsert t => Sys2Proof.Machine.execHufInsert t s
  | .hufBuild t => Sys2Proof.Machine.execHufBuild t s
  | .hufDecode t bs => Sys2Proof.Machine.execHufDecode t bs s
  | .dhufInit => Sys2Proof.Machine.execDhufInit s
  | .dhufDecode bs => Sys2Proof.Machine.execDhufDecode bs s
  | .dhufUpdate => Sys2Proof.Machine.execDhufUpdate s
  | .dhufMaxf => Sys2Proof.Machine.execDhufMaxf s
  | .mtfInit l => Sys2Proof.Machine.execMtfInit l s
  | .mtfAccess l => Sys2Proof.Machine.execMtfAccess l s
  | .lzwSetup => Sys2Proof.Machine.execLzwSetup s
  | .lzwRestart => Sys2Proof.Machine.execLzwRestart s
  | .lzwStep => Sys2Proof.Machine.execLzwStep s
  | .bzStart => Sys2Proof.Machine.execBzStart s
  | .bzBlock => Sys2Proof.Machine.execBzBlock s
  | .bzUnbwt => Sys2Proof.Machine.execBzUnbwt s
  | .ariScale => Sys2Proof.Machine.execAriScale s
  | .ariGetcode n => Sys2Proof.Machine.execAriGetcode n s
  | .ariDecsym => Sys2Proof.Machine.execAriDecsym s
  | .ariUpdate => Sys2Proof.Machine.execAriUpdate s
  | .ariInit => Sys2Proof.Machine.execAriInit s
  | .decompressBlzw => Sys2Proof.Machine.execDecompressBlzw s
  | .decompressBzp2 => Sys2Proof.Machine.execDecompressBzp2 s
  | .decompressLhlb => Sys2Proof.Machine.execDecompressLhlb s
  | .decompressMash => Sys2Proof.Machine.execDecompressMash s
  | .decompressRake => Sys2Proof.Machine.execDecompressRake s
  | .decompressShri => Sys2Proof.Machine.execDecompressShri s
  | .decompressSmpl => Sys2Proof.Machine.execDecompressSmpl s
  | .decompressSqsh => Sys2Proof.Machine.execDecompressSqsh s

end Sys2Proof.Machine
end

