-- ==== Sys2Proof/Machine/HostPort.lean ====
section
/-! DEFINITION. The host's accesses (spec/10_state.md R23, R46; spec/20_memory.md R70, R85; spec/30_encoding.md R112):
the CSR map, host writes, and host reads, which answer a free value where the thing read holds no value. -/

namespace Sys2Proof.Machine

/-- What a CSR holds (R23); none where it holds no value. A number not in the table reads 0. -/
def csrValue (c : Config) (s : State) (number : Nat) : Option Word :=
  match number with
  | 0x00 => some (statusWord s.status)
  | 0x01 => some s.chunkLen
  | 0x02 => some s.rawLen
  | 0x03 => some (toWord s.hist.length)
  | 0x04 => some (toWord s.hist.flatten.length)
  | 0x08 => s.arg0
  | 0x09 => s.arg1
  | 0x0A => s.arg2
  | 0x0B => s.arg3
  | 0x0C => s.res0
  | 0x0D => s.res1
  | 0x10 => s.fcur.map (·.pos)
  | 0x11 => s.fcur.map (·.stop)
  | 0x12 => s.bcur.map (·.pos)
  | 0x13 => s.bcur.map (·.floor)
  | 0x14 => s.bitsAcc
  | 0x15 => s.bitsCnt.map toWord
  | 0x18 => s.fwr.map (·.start)
  | 0x19 => s.fwr.map (·.pos)
  | 0x1A => s.fwr.map (·.stop)
  | 0x1B => s.bwr.map (·.top)
  | 0x1C => s.bwr.map (·.pos)
  | 0x1D => s.bwr.map (·.floor)
  | 0x20 => s.lzw.maxBits.map toWord
  | 0x21 => s.lzw.stackLength
  | 0x22 => s.lzw.codeBits.map toWord
  | 0x23 => s.lzw.freeIndex.map toWord
  | 0x24 => s.lzw.prevCode
  | 0x25 => s.lzw.newCode
  | 0x28 => s.bz.blockSize.map toWord
  | 0x29 => s.bz.crc
  | 0x2A => s.bz.origPtr.map (·.setWidth 32)
  | 0x2B => s.bz.blk.map fun b => toWord b.length
  | 0x2C => s.bz.randomised.map fun r => toWord (flagBit r)
  | 0x30 => s.ari.map (·.vLen)
  | 0x31 => s.ari.map (·.vNext)
  | 0x32 => s.ari.map (·.shift)
  | 0x38 => s.dhuf.map (·.nsym)
  | 0x39 => (s.dhuf.bind (·.tree)).map c.dhufMaxF
  | _ => some 0#32

/-- A host write of a CSR (R23): only CHUNK_LEN, RAW_LEN and ARG take it, any other number ignores it. -/
def hostWriteCsr (number : Nat) (v : Word) (s : State) : State :=
  match number with
  | 0x01 => { s with chunkLen := v }
  | 0x02 => { s with rawLen := v }
  | 0x08 => { s with arg0 := some v }
  | 0x09 => { s with arg1 := some v }
  | 0x0A => { s with arg2 := some v }
  | 0x0B => { s with arg3 := some v }
  | _ => s

/-- A host read delivers a word; without a value, the free value of this read (R46; DESIGN CHOICE of
the form, log 7). -/
def hostDeliver (c : Config) (v : Option Word) (s : State) : State :=
  match v with
  | some w => { s with hostData := w }
  | none => { s with hostData := c.unsetRead s.freeReads, freeReads := s.freeReads + 1 }

/-- A host read of one byte, zero-extended; without a value, the low byte of the free value of this read (R46). -/
def hostDeliverByte (c : Config) (v : Option Byte) (s : State) : State :=
  match v with
  | some b => { s with hostData := b.setWidth 32 }
  | none =>
    { s with hostData := ((c.unsetRead s.freeReads).setWidth 8).setWidth 32, freeReads := s.freeReads + 1 }

/-- An access at an offset that its space has, else the fault of an offset that does not exist (R70;
DESIGN CHOICE, log 11). -/
def insideSpace (offset : Word) (size : Nat) (t : State) : Host.Outcome State Fault Refusal :=
  if offset.toNat < size then .next t else .fault .outsideSpace

/-- A host move other than a command (R85). A write of CHUNK is taken at any offset (DEDUCED, log 33). -/
def hostAccess (c : Config) (m : HostMove) (s : State) : Host.Outcome State Fault Refusal :=
  match m with
  | .command _ => .next s
  | .writeCsr n v => .next (hostWriteCsr n v s)
  | .writeChunk a b => .next { s with chunk := storeWrite s.chunk a.toNat b }
  | .writeLenm a b => insideSpace a lenmSize { s with lenm := storeWrite s.lenm a.toNat b }
  | .readCsr n => .next (hostDeliver c (csrValue c s n) s)
  | .readRaw a => insideSpace a s.rawLen.toNat (hostDeliverByte c (storeRead s.raw a.toNat) s)
  | .readChunk a => insideSpace a s.chunkLen.toNat (hostDeliverByte c (storeRead s.chunk a.toNat) s)
  | .readLenm a => insideSpace a lenmSize (hostDeliverByte c (storeRead s.lenm a.toNat) s)

end Sys2Proof.Machine
end

