-- ==== Sys2Proof/Machine/Step.lean ====
section
/-! DEFINITION. One step of the machine: the host's next move (spec/20_memory.md R85). A command word is decoded and run to
its end (spec/10_state.md R26, spec/60_exceptions.md R467). -/

namespace Sys2Proof.Machine

/-- Issue a command word: the command it selects, or IllegalCommand (R467, R472). -/
def issue (w : BitVec 32) (s : State) : Host.Outcome State Fault Refusal :=
  match decode w with
  | .ok i => exec i s
  | .error _ => .next (illegalCommand s)

/-- One step: the first move of the port is taken off it and made. With no move to make the core waits
(spec/70_reset_and_hazards.md R500; DESIGN CHOICE, log 12). -/
def step (s : State) : Host.Outcome State Fault Refusal :=
  if s.status.busy then .refused .coreBusy
  else
    match s.port with
    | [] => .next s
    | .command w :: rest => issue w { s with port := rest }
    | m :: rest => hostAccess Config.core m { s with port := rest }

/-- The state with an instruction of spec/opcode_table.json placed as the host's next move: the command port is where the
core gets its commands (R26). A command is one 32-bit word (R100), so its bits are that word (log 5). -/
def State.withFetchWord (s : State) (_nbits w : Nat) : State :=
  { s with port := .command (BitVec.ofNat 32 w) :: s.port }

end Sys2Proof.Machine
end

