-- ==== Sys2Proof/Safety.lean ====
section
/-! DEFINITION. The vocabulary of the statements: a ready core and a clean end, the bit string a stream stands for,
the meaning of tables, dictionaries, block transforms and field decoders as plain functions over lists, and the
invariants of the state. -/

namespace Sys2Proof.Machine

/-! ## A ready core -/

/-- The core is idle and not FAULTED: it takes a command (spec/43_decompress_common.md R241). -/
def State.Ready (s : State) : Prop :=
  s.status.faulted = false ∧ s.status.busy = false ∧ s.phase = .idle

/-- The last command ended without error (spec/60_exceptions.md R471). -/
def State.Clean (s : State) : Prop :=
  s.status.kind = .ok ∧ s.status.cause = none ∧ s.Ready

/-- The state after a command that is not an ARI command raised CorruptData(c) (R466). -/
def State.corrupted (s : State) (c : Cause) : State := errorEntry false .corruptData (some c) s

/-- The state after DECOMPRESS.SHRI or an ARI command raised CorruptData(c) (R466). -/
def State.corruptedAri (s : State) (c : Cause) : State := errorEntry true .corruptData (some c) s

/-- Every cursor, writer, table and unit state, RES, RAW, BLK and LENM hold no value (R466). -/
def State.LostUnits (s : State) : Prop :=
  s.res0 = none ∧ s.res1 = none ∧ s.raw = [] ∧ s.lenm = [] ∧ s.fcur = none ∧ s.bcur = none ∧ s.bitsAcc = none ∧
  s.bitsCnt = none ∧ s.fwr = none ∧ s.bwr = none ∧ (∀ k : Fin 16, s.ht[k] = none) ∧ s.dhuf = none ∧ s.mtf0 = none ∧
  s.mtf1 = none ∧ s.lzw = Lzw.unset ∧ s.bz = Bz.unset ∧ s.smplAcc = none ∧ s.sqshQ = none ∧ s.sqshSample = none

/-- The ARI commands and DECOMPRESS.SHRI, after whose errors the persistent ARI state holds no value (R466). -/
def usesAri : Instr → Bool
  | .ariScale | .ariGetcode _ | .ariDecsym | .ariUpdate | .ariInit | .decompressShri => true
  | _ => false

/-- The macro commands of the seven stateless formats (spec/10_state.md R45). -/
def statelessMacros : List Instr :=
  [.decompressBlzw, .decompressBzp2, .decompressLhlb, .decompressMash, .decompressRake, .decompressSmpl,
    .decompressSqsh]

/-- The macro commands (spec/43_decompress_common.md R240). -/
def macros : List Instr := .decompressShri :: statelessMacros

/-- What a macro command's result is (R240, R507): STATUS, and RAW[0 .. RAW_LEN−1] where it ended without error. -/
def State.SameResult (s t : State) : Prop :=
  s.status.kind = t.status.kind ∧ s.status.cause = t.status.cause ∧ s.status.faulted = t.status.faulted ∧
  s.rawLen = t.rawLen ∧ ∀ k, k < s.rawLen.toNat → storeRead s.raw k = storeRead t.raw k

/-- The state after a macro command that ended without error, but for what the command itself wrote (R243, R242). -/
def State.ended (s : State) : State :=
  { s with
    status := { s.status with kind := .ok, cause := none, busy := false }, phase := .idle, res0 := none, res1 := none }

/-! ## What a command may change -/

/-- A body raises CorruptData(c), having written what it had written before. -/
def Raises {α : Type} (m : M α) (s : State) (c : Cause) : Prop := ∃ t, m s = .error (.corrupt c) t

/-- A body never ends in the raise of a loop without progress: its loops end by themselves, or in a raise whose cause is
stated (spec/43_decompress_common.md R243). -/
def NeverStuck {α : Type} (m : M α) : Prop := ∀ s t, m s ≠ .error .noProgress t

/-- The parts of the state, one for each piece of state that commands write together. -/
inductive Part where
  /-- CHUNK, CHUNK_LEN, RAW_LEN, ARG, the host's side of the port, FAULTED and BUSY. -/
  | host
  /-- HIST. -/
  | history
  /-- ARI. -/
  | arith
  /-- STATUS.SHRI_VALID. -/
  | shriFlag
  /-- RES[0]. -/
  | result
  /-- RES[1]. -/
  | otherResult
  /-- STATUS.KIND and CAUSE. -/
  | code
  /-- SEQ.phase. -/
  | phase
  /-- FCUR and BITS. -/
  | reader
  /-- BCUR. -/
  | backCursor
  /-- FWR. -/
  | writer
  /-- BWR. -/
  | backWriter
  /-- RAW. -/
  | output
  /-- LENM. -/
  | lengths
  /-- HT. -/
  | tables
  /-- DHUF. -/
  | tracker
  /-- MTF. -/
  | lists
  /-- LZW. -/
  | dictionary
  /-- BZ. -/
  | block
  /-- The SMPL accumulator. -/
  | smpl
  /-- The SQSH state machine and sample. -/
  | sqsh
deriving DecidableEq, Repr

/-- Two states hold the same in a part. -/
def Part.Agree (p : Part) (s t : State) : Prop :=
  match p with
  | .host =>
    (s.chunk, s.chunkLen, s.rawLen, s.arg0, s.arg1, s.arg2, s.arg3, s.port, s.hostData, s.freeReads, s.status.faulted,
      s.status.busy) =
    (t.chunk, t.chunkLen, t.rawLen, t.arg0, t.arg1, t.arg2, t.arg3, t.port, t.hostData, t.freeReads, t.status.faulted,
      t.status.busy)
  | .history => s.hist = t.hist
  | .arith => s.ari = t.ari
  | .shriFlag => s.status.shriValid = t.status.shriValid
  | .result => s.res0 = t.res0
  | .otherResult => s.res1 = t.res1
  | .code => (s.status.kind, s.status.cause) = (t.status.kind, t.status.cause)
  | .phase => s.phase = t.phase
  | .reader => (s.fcur, s.bitsAcc, s.bitsCnt) = (t.fcur, t.bitsAcc, t.bitsCnt)
  | .backCursor => s.bcur = t.bcur
  | .writer => s.fwr = t.fwr
  | .backWriter => s.bwr = t.bwr
  | .output => s.raw = t.raw
  | .lengths => s.lenm = t.lenm
  | .tables => s.ht = t.ht
  | .tracker => s.dhuf = t.dhuf
  | .lists => (s.mtf0, s.mtf1) = (t.mtf0, t.mtf1)
  | .dictionary => s.lzw = t.lzw
  | .block => s.bz = t.bz
  | .smpl => s.smplAcc = t.smplAcc
  | .sqsh => (s.sqshQ, s.sqshSample) = (t.sqshQ, t.sqshSample)

/-- Nothing but the listed parts differs. -/
def Changes (ps : List Part) (s t : State) : Prop := ∀ p, p ∉ ps → p.Agree s t

/-- The parts a command may write when it ends without error, from the rule of each command (spec/30_encoding.md
R105). -/
def writesOf (i : Instr) : List Part :=
  match i with
  | .instReset =>
    [.host, .history, .arith, .shriFlag, .result, .otherResult, .code, .phase, .reader, .backCursor, .writer, .backWriter,
      .output, .lengths, .tables, .tracker, .lists, .dictionary, .block, .smpl, .sqsh]
  | .fcurSet | .bitsReset _ => [.reader]
  | .fcurRdb | .fcurConsume | .bitsRd8 _ | .bitsRd32 _ => [.reader, .result]
  | .bcurSet => [.backCursor]
  | .bcurRdb | .bcurConsume => [.backCursor, .result]
  | .fwrSet => [.writer]
  | .fwrWrb _ | .fwrCopy | .fwrCopyh => [.writer, .output]
  | .fwrEof | .fwrOff | .bwrEof | .bwrOff => [.result]
  | .bwrSet => [.backWriter]
  | .bwrWrb _ | .bwrCopy => [.backWriter, .output]
  | .histPush => [.history]
  | .hufClear _ | .hufInsert _ | .hufBuild _ => [.tables]
  | .hufDecode _ _ | .dhufDecode _ => [.reader, .result]
  | .dhufInit | .dhufUpdate => [.tracker]
  | .dhufMaxf => [.result]
  | .mtfInit _ => [.lists]
  | .mtfAccess _ => [.lists, .result]
  | .lzwSetup => [.dictionary]
  | .lzwRestart => [.dictionary, .reader, .writer, .output]
  | .lzwStep => [.dictionary, .reader, .writer, .output, .result]
  | .bzStart => [.block, .tables]
  | .bzBlock => [.block, .tables, .lists, .lengths, .reader, .result]
  | .bzUnbwt => [.block, .writer, .output]
  | .ariScale => [.result]
  | .ariGetcode _ | .ariDecsym => [.arith, .reader, .result]
  | .ariUpdate => [.arith]
  | .ariInit => [.arith, .shriFlag]
  | .decompressBlzw => [.code, .result, .otherResult, .reader, .writer, .output, .dictionary]
  | .decompressBzp2 => [.code, .result, .otherResult, .reader, .writer, .output, .block, .tables, .lists, .lengths]
  | .decompressLhlb => [.code, .result, .otherResult, .reader, .writer, .output, .tracker]
  | .decompressMash => [.code, .result, .otherResult, .reader, .writer, .output, .tables]
  | .decompressRake => [.code, .result, .otherResult, .reader, .backCursor, .backWriter, .output, .tables, .lengths]
  | .decompressShri => [.code, .result, .otherResult, .reader, .writer, .output, .history, .arith, .shriFlag]
  | .decompressSmpl => [.code, .result, .otherResult, .reader, .writer, .output, .tables, .lengths, .smpl]
  | .decompressSqsh => [.code, .result, .otherResult, .reader, .writer, .output, .tables, .sqsh]

/-! ## Host reads (spec/10_state.md R46) -/

/-- The host has made its move and read a register; without a value, the free value of this read (log 7). -/
def State.hostRead (s : State) (rest : List HostMove) (v : Option Word) : State :=
  match v with
  | some w => { s with port := rest, hostData := w }
  | none =>
    { s with port := rest, hostData := Config.core.unsetRead s.freeReads, freeReads := s.freeReads + 1 }

/-- The host has made its move and read a byte, zero-extended; without a value, the low byte of the free value of this
read (log 7). -/
def State.hostReadByte (s : State) (rest : List HostMove) (v : Option Byte) : State :=
  match v with
  | some b => { s with port := rest, hostData := b.setWidth 32 }
  | none =>
    { s with
      port := rest, hostData := ((Config.core.unsetRead s.freeReads).setWidth 8).setWidth 32,
      freeReads := s.freeReads + 1 }

/-! ## Bit strings (spec/20_memory.md R77) -/

/-- The low `n` bits of a number, most significant first. -/
def bitsOf : Nat → Nat → List Bool
  | 0, _ => []
  | n + 1, v => v.testBit n :: bitsOf n v

/-- The number whose bits a string lists, most significant first. -/
def bitsValue (bits : List Bool) : Nat := bits.foldl (fun v b => 2 * v + b.toNat) 0

/-- The bit string of bytes, each byte bit 7 first. -/
def byteBits (bytes : List Byte) : List Bool := bytes.flatMap fun b => bitsOf 8 b.toNat

/-- At most `n` bytes from `a` on, up to the first that holds no value. -/
def knownBytes (m : Memory) : Nat → Nat → List Byte
  | _, 0 => []
  | a, n + 1 =>
    match storeRead m a with
    | none => []
    | some b => b :: knownBytes m (a + 1) n

/-- The bytes of the forward cursor still to be read: up to its `end`, and none at an offset of CHUNK_LEN or more
(spec/20_memory.md R71). -/
def State.unreadBytes (s : State) : List Byte :=
  match s.fcur with
  | none => []
  | some f => knownBytes s.chunk f.pos.toNat (min f.stop.toNat s.chunkLen.toNat - f.pos.toNat)

/-- The bits still to be delivered: those buffered (spec/10_state.md R30), then those of the bytes to be read. -/
def State.bitStream (s : State) : List Bool :=
  bitsOf (s.bitsCnt.getD 0) ((s.bitsAcc.getD 0#32).toNat) ++ byteBits s.unreadBytes

/-- Every byte the cursor still spans holds a value: where the bit stream ends, the cursor is exhausted. -/
def State.WholeStream (s : State) : Prop :=
  ∃ f, s.fcur = some f ∧ s.unreadBytes.length = min f.stop.toNat s.chunkLen.toNat - f.pos.toNat

/-- The reader is set: BITS.cnt holds a value, and so does BITS.acc where bits are buffered. -/
def State.ReaderSet (s : State) : Prop :=
  ∃ n, s.bitsCnt = some n ∧ (n = 0 ∨ ∃ a, s.bitsAcc = some a)

/-- How many bytes a refill takes (spec/40_stream_primitives.md R147, R148). -/
def groupBytes : BitSource → Nat
  | .group8 => 1
  | .group32 => 4

/-- How many refills a read of `n` bits needs: the reader refills only when it is empty and a bit is wanted (R146). -/
def State.refills (src : BitSource) (n : Nat) (s : State) : Nat :=
  (n - s.bitsCnt.getD 0 + (8 * groupBytes src - 1)) / (8 * groupBytes src)

/-- The reader can deliver `n` bits: the bytes its refills take are there. -/
def State.CanRead (src : BitSource) (n : Nat) (s : State) : Prop :=
  s.ReaderSet ∧ groupBytes src * s.refills src n ≤ s.unreadBytes.length

/-- The bits that the reader can still deliver with a bit source: those buffered, and those of the whole groups of bytes
to be read (R147, R148). -/
def State.deliverable (src : BitSource) (s : State) : List Bool :=
  s.bitStream.take (s.bitsCnt.getD 0 + 8 * (groupBytes src * (s.unreadBytes.length / groupBytes src)))

/-- The state after the reader has delivered `n` bits: the refills move the cursor, the last of them is the
accumulator. -/
def State.afterBits (src : BitSource) (n : Nat) (s : State) : State :=
  let g := groupBytes src
  let r := s.refills src n
  let cnt := s.bitsCnt.getD 0
  if r = 0 then { s with bitsCnt := some (cnt - n) }
  else
    { s with
      bitsCnt := some (cnt + 8 * g * r - n),
      bitsAcc := some (toWord (bitsValue (byteBits ((s.unreadBytes.drop (g * (r - 1))).take g)))),
      fcur := s.fcur.map fun f => { f with pos := toWord (f.pos.toNat + g * r) } }

/-- The bit read command of a bit source. -/
def readCommand : BitSource → BitVec 6 → Instr
  | .group8, n => .bitsRd8 n
  | .group32, n => .bitsRd32 n

/-- The bits that a sequence of bit reads delivers, each result as a bit string, first bit first; none where one of
them fails (spec/40_stream_primitives.md R150). -/
def readAll : List (BitSource × BitVec 6) → State → Option (List Bool)
  | [], _ => some []
  | (src, n) :: rest, s =>
    match exec (readCommand src n) s with
    | .next t =>
      if t.status.faulted then none
      else
        match t.res0 with
        | none => none
        | some v => (readAll rest t).map (bitsOf n.toNat v.toNat ++ ·)
    | .fault _ => none
    | .refused _ => none

/-- The value a bit tree reads from a bit string, and how many bits it takes; none where the string ends first
(spec/46_lhlb_mash_rake.md R350, spec/47_shri.md R396). -/
def treeRead {α : Type} : BitTree α → List Bool → Option (α × Nat)
  | .leaf v, _ => some (v, 0)
  | .node _ _, [] => none
  | .node z o, b :: bits =>
    match treeRead (if b then o else z) bits with
    | none => none
    | some (v, k) => some (v, k + 1)

/-! ## Tables (spec/41_huffman.md R190) -/

/-- The path of an entry, as a bit string. -/
def pathBits (e : HufEntry) : List Bool := bitsOf e.len e.code

/-- A table as R34 and R190 describe it. -/
def LawfulTable (es : Table) : Prop :=
  prefixFree es ∧ ∀ e ∈ es, 1 ≤ e.len ∧ e.len ≤ 32 ∧ e.code < 2 ^ e.len

/-- The entry whose path is the first `l` bits of a string. -/
def entryAt (es : List HufEntry) (bits : List Bool) (l : Nat) : Option HufEntry :=
  es.find? fun e => e.len == l && e.code == bitsValue (bits.take l)

/-- The whole of a bit string is a proper prefix of the path of some entry. -/
def goesOn (es : List HufEntry) (bits : List Bool) : Bool :=
  es.any fun e => decide (e.len > bits.length) && e.code / 2 ^ (e.len - bits.length) == bitsValue bits

/-- The walk of R195 over a bit string: the symbol and the number of bits taken, or the cause of the failure. The empty set
fails at once; any other wants a bit first. -/
def walkBits (es : List HufEntry) (bits : List Bool) : Except Cause (Word × Nat) :=
  if es.isEmpty then .error .walkOff
  else
    match (List.range bits.length).findSome? fun k => entryAt es bits (k + 1) with
    | some e => .ok (e.sym, e.len)
    | none => if bits.isEmpty || goesOn es bits then .error .unexpectedEnd else .error .walkOff

/-- The sum of 2^(32 − len) over the used lengths: the Kraft inequality says it is at most 2^32 (R194). -/
def kraftSum (lens : List Nat) : Nat := (lens.map fun l => if l = 0 then 0 else 2 ^ (32 - l)).sum

/-! ## The LZW dictionary (spec/44_blzw.md R264) -/

/-- The string of a code: a literal's byte, or the string of the prefix and then the suffix. `fuel` bounds the chain. -/
def lzwString (l : Lzw) : Nat → Nat → Option (List Byte)
  | 0, _ => none
  | fuel + 1, code =>
    if code < 256 then some [truncByte code]
    else if code < lzwFirstFree then none
    else
      match storeRead l.prefixes (code - lzwFirstFree), storeRead l.suffixes (code - lzwFirstFree) with
      | some p, some b => (lzwString l fuel p.toNat).map (· ++ [b])
      | _, _ => none

/-- The dictionary invariants of R267, with the ranges of R38. -/
def LzwForm (l : Lzw) : Prop :=
  (∀ m, l.maxBits = some m → 9 ≤ m ∧ m ≤ 20) ∧
  (∀ n, l.stackLength = some n → 1 ≤ n.toNat ∧ n.toNat ≤ 65540) ∧
  (∀ c, l.codeBits = some c → 9 ≤ c) ∧
  (∀ w, l.newCode = some w → w.toNat < 256) ∧
  (∀ f, l.freeIndex = some f → 259 ≤ f ∧ (∀ m, l.maxBits = some m → f ≤ 2 ^ m) ∧
    ∀ i, 259 ≤ i → i < f → ∃ p b, storeRead l.prefixes (i - 259) = some p ∧ storeRead l.suffixes (i - 259) = some b ∧
      (p.toNat < 256 ∨ (259 ≤ p.toNat ∧ p.toNat < i)))

/-! ## The block transforms (spec/45_bzp2.md) -/

/-- The forward-index array of R311: the positions of the block in the order of their bytes, equal bytes in block
order. -/
def sortedPositions (blk : List Byte) : List Nat :=
  (List.range 256).flatMap fun v => (List.range blk.length).filter fun i => (blk.getD i 0#8).toNat == v

/-- The inverse BWT as R311 reads it: `p <- fwd[p]; emit BLK[p]`. -/
def inverseBwt (blk : List Byte) (fwd : List Nat) : Nat → Nat → List Byte
  | 0, _ => []
  | n + 1, p => blk.getD (fwd.getD p 0) 0#8 :: inverseBwt blk fwd n (fwd.getD p 0)

/-- The final run-length stage (R313): `count` times `ch` have been seen in a row. -/
def expandRuns : List Byte → Byte → Nat → List Byte
  | [], _, _ => []
  | b :: rest, ch, count =>
    if count = 4 then List.replicate b.toNat ch ++ expandRuns rest ch 0
    else if count > 0 ∧ b = ch then b :: expandRuns rest ch (count + 1)
    else b :: expandRuns rest b 1

/-- The bytes of a randomised block after R312: `count` bytes are still to come before the table entry `place` is loaded, and
a byte is flipped where the countdown stands at 1. -/
def derandomised (table : Fin 512 → ℕ+) : List Byte → Nat → Nat → List Byte
  | [], _, _ => []
  | b :: rest, 0, place =>
    (if (table (Fin.ofNat 512 place) : Nat) = 2 then b ^^^ 1#8 else b) ::
      derandomised table rest ((table (Fin.ofNat 512 place) : Nat) - 1) (place + 1)
  | b :: rest, count + 1, place => (if count = 1 then b ^^^ 1#8 else b) :: derandomised table rest count place

/-- The bytes BZ.UNBWT writes for a block (R310 to R313). -/
def unbwtBytes (table : Fin 512 → ℕ+) (randomised : Bool) (blk : List Byte) (origPtr : Nat) : List Byte :=
  let bytes := inverseBwt blk (sortedPositions blk) blk.length origPtr
  expandRuns (if randomised then derandomised table bytes 0 0 else bytes) 0#8 0

/-- One bit of a message through a 32-bit CRC register, most significant bit first, with the polynomial of R315. -/
def crcFeed (c : Word) (bit : Bool) : Word := if c.msb != bit then (c <<< 1) ^^^ 0x04C11DB7#32 else c <<< 1

/-- The CRC of R315: start value 0xFFFFFFFF, the bits of the bytes in stream order, the result complemented. -/
def messageCrc (bytes : List Byte) : Word := ~~~ ((byteBits bytes).foldl crcFeed 0xFFFFFFFF#32)

/-- The run length that run symbols stand for: the k-th symbol adds (sym + 1) · 2^k (R302). -/
def runLengthOf : List Bool → Nat
  | [] => 0
  | d :: rest => (if d then 2 else 1) + 2 * runLengthOf rest

/-- The bit string of a block whose alphabet is the one byte `v` and whose body is the run digits `digits` and the end
symbol, with two groups, one selector and the code lengths 2, 2, 2 in both (R297 to R302). -/
def runBlockBits (crc : Word) (randomised : Bool) (origPtr : BitVec 24) (v : Byte) (digits : List Bool) : List Bool :=
  bitsOf 48 bzBlockMagic ++ bitsOf 32 crc.toNat ++ [randomised] ++ bitsOf 24 origPtr.toNat ++
  bitsOf 16 (2 ^ (15 - v.toNat / 16)) ++ bitsOf 16 (2 ^ (15 - v.toNat % 16)) ++ bitsOf 3 2 ++ bitsOf 15 1 ++ [false] ++
  bitsOf 5 2 ++ [false, false, false] ++ bitsOf 5 2 ++ [false, false, false] ++
  (digits.flatMap fun d => [false, d]) ++ [true, false]

/-- The group table of such a block: the codes of lengths 2, 2, 2. -/
def runBlockTable : List HufEntry := [⟨2, 0b00, 0#32⟩, ⟨2, 0b01, 1#32⟩, ⟨2, 0b10, 2#32⟩]

/-! ## Samples (spec/48_smpl_sqsh.md) -/

/-- The bytes of SMPL: each the sum so far, modulo 256 (R433). -/
def runningSums : Byte → List Byte → List Byte
  | _, [] => []
  | acc, d :: rest => (acc + d) :: runningSums (acc + d) rest

/-- The sample after a literal of SQSH (R442 (c)): the last one less the field of `w` bits, the field read as a two's
complement number, modulo 256. -/
def sampleAfter (w : Nat) (sample : Byte) (v : Nat) : Byte :=
  BitVec.ofInt 8 ((sample.toNat : Int) - (BitVec.ofNat w v).toInt)

/-- The bytes of a literal run of SQSH (R442 (c)). -/
def sampleRun (w : Nat) : Byte → List Nat → List Byte
  | _, [] => []
  | sample, v :: rest => sampleAfter w sample v :: sampleRun w (sampleAfter w sample v) rest

/-- The symbols that `n` walks in a row read from a bit string, and the bits left; none where one of them fails. -/
def walkMany (es : List HufEntry) : Nat → List Bool → Option (List Word × List Bool)
  | 0, bits => some ([], bits)
  | n + 1, bits =>
    match walkBits es bits with
    | .error _ => none
    | .ok (sym, k) => (walkMany es n (bits.drop k)).map fun r => (sym :: r.1, r.2)

/-! ## Turns of the sequencers

What a turn reads from the bit string that lies before it, and what it then writes. -/

/-- A reading of a bit string: a value and the bits left, or the cause of the failure. -/
abbrev Reading := StateT (List Bool) (Except Cause)

/-- A failed reading. -/
def failed {α : Type} (c : Cause) : Reading α := fun _ => .error c

/-- A field of `w` bits. -/
def fixedField (w : Nat) : Reading Nat := fun bits =>
  if bits.length < w then .error .unexpectedEnd else .ok (bitsValue (bits.take w), bits.drop w)

/-- A field of an OPEN decoder (R350). -/
def treeField {α : Type} (t : BitTree α) : Reading α := fun bits =>
  match treeRead t bits with
  | none => .error .unexpectedEnd
  | some (v, k) => .ok (v, bits.drop k)

/-- A symbol of a set of entries (R195). -/
def symbolField (es : List HufEntry) : Reading Word := fun bits =>
  match walkBits es bits with
  | .error c => .error c
  | .ok (sym, k) => .ok (sym, bits.drop k)

/-- The result of an OPEN stream function (R396). -/
def streamField {α : Type} (t : BitTree (Option α)) : Reading α := do
  match ← treeField t with
  | some a => pure a
  | none => failed .zeroDivisor

/-- What a turn puts into the output. -/
inductive Token where
  /-- A byte. -/
  | literal (b : Byte)
  /-- `count` bytes from `distance` bytes back. -/
  | copy (count distance : Nat)
deriving DecidableEq, Repr

/-- The bytes of a token; `reach` are the bytes that a copy can reach, the last one written last. -/
def Token.bytes (reach : List Byte) : Token → List Byte
  | .literal b => [b]
  | .copy count d => (List.range count).map fun i => reach.getD (reach.length - d + i % d) 0#8

/-- Why a token cannot be written, in the order of R153, where `room` bytes are left. -/
def Token.refusal (reach : List Byte) (room : Nat) : Token → Option Cause
  | .literal _ => if room = 0 then some .overrun else none
  | .copy count d =>
    if d = 0 then some .zeroDistance
    else if reach.length < d then some .distance
    else if room < count then some .overrun
    else none

/-- The forward writer has written these bytes and RAW holds nothing else new. -/
def WroteForward (f : Fwr) (bytes : List Byte) (s t : State) : Prop :=
  t.fwr = some { start := f.start, pos := f.pos + toWord bytes.length, stop := f.stop } ∧
  memBytes t.raw f.pos.toNat bytes.length = some bytes ∧
  ∀ k, k < f.pos.toNat ∨ f.pos.toNat + bytes.length ≤ k → storeRead t.raw k = storeRead s.raw k

/-- The backward writer has written these bytes, the first at the highest offset, and RAW holds nothing else new. -/
def WroteBackward (f : Bwr) (bytes : List Byte) (s t : State) : Prop :=
  t.bwr = some { top := f.top, pos := f.pos - toWord bytes.length, floor := f.floor } ∧
  memBytes t.raw (f.pos.toNat - bytes.length) bytes.length = some bytes.reverse ∧
  ∀ k, k < f.pos.toNat - bytes.length ∨ f.pos.toNat ≤ k → storeRead t.raw k = storeRead s.raw k

/-- A turn of LHLB over a tree (R351, R352): the tree after it, not updated once its maximum is 0x8000 or more (R225). -/
def lhlbToken (c : Config) (t : DhufTree) : Reading (DhufTree × Token) := do
  let sym ← symbolField (c.dhufCodes t)
  let t' := if (c.dhufMaxF t).toNat < 0x8000 then c.dhufUpdate t sym.toNat else t
  if sym.toNat < 256 then pure (t', .literal (truncByte sym.toNat))
  else if sym.toNat = 316 then failed .reserved
  else if h : sym.toNat - 256 < 60 then
    let d ← treeField c.lhlbDist
    pure (t', .copy (c.lhlbCount ⟨sym.toNat - 256, h⟩) d)
  else failed .index

/-- The fields of a match of SHRI (R401): all of them are codes of the arithmetic decoder. -/
def matchFields (c : Config) : MatchProg → Reading (Ari × ShriMatch)
  | .done none => failed .zeroDivisor
  | .done (some r) => pure r
  | .getCode a n next => do
    let (a', v) ← streamField (c.shriGetCode a n.val)
    matchFields c (next a' v)

/-- A turn of SHRI (R391, R400, R402): the arithmetic state after it. -/
def shriToken (c : Config) (a : Ari) : Reading (Ari × Token) := do
  let (regs, sym) ← streamField (c.shriDecodeSymbol a)
  let a1 := c.shriUpdate { vLen := regs.vLen, vNext := regs.vNext, shift := regs.shift, freq := a.freq } sym
  if sym.val < 256 then pure (a1, .literal (truncByte sym.val))
  else if sym.val = 498 then
    let (a2, count) ← streamField (c.shriGetCode a1 16)
    let (a3, d) ← streamField (c.shriGetCode a2 16)
    pure (a3, .copy count.toNat d.toNat)
  else
    let (a2, m) ← matchFields c (c.shriMatch a1 sym)
    pure (a2, .copy m.count m.distance)

/-- The byte that the backward cursor delivers, or why it delivers none (spec/40_stream_primitives.md R144,
spec/20_memory.md R71). -/
def State.backByte (s : State) : Except Cause Byte :=
  match s.bcur with
  | none => .error .unset
  | some f =>
    if f.pos.toNat ≤ f.floor.toNat ∨ s.chunkLen.toNat < f.pos.toNat then .error .unexpectedEnd
    else
      match storeRead s.chunk (f.pos.toNat - 1) with
      | none => .error .unset
      | some b => .ok b

/-- A turn of RAKE over its length table (R373, R375); `back` is what the backward stream gives for the one byte that every
turn takes from it. -/
def rakeToken (c : Config) (es : List HufEntry) (back : Except Cause Byte) : Reading Token := do
  let bit ← fixedField 1
  if (bit == 1) = c.rakeLiteralBit then
    match back with
    | .error e => failed e
    | .ok b => pure (.literal b)
  else
    let v ← symbolField es
    let tier ← treeField c.rakeTier
    let extra ← fixedField ([0, 3, 6].getD tier.val 0)
    match back with
    | .error e => failed e
    | .ok b => pure (.copy (v.toNat + 2) ([c.rakeD0Base, 0x101, 0x901].getD tier.val 0 + extra * 256 + b.toNat))

/-- A repeat of SQSH (R442 (a), (b)). -/
def sqshRepeatToken (c : Config) : Reading Token := do
  let k ← treeField c.sqshLenBucket
  let more ← fixedField ([1, 1, 1, 3, 5].getD k.val 0)
  let j ← treeField c.sqshDistWay
  let bits ← fixedField ([12, 8, 14].getD j.val 0)
  pure (.copy ([2, 4, 6, 8, 16].getD k.val 0 + more) ([0x101, 1, 0x1101].getD j.val 0 + bits))

/-- Up to `n` fields, each of them written where the output has room for it: a field that finds no room is Overrun. -/
def writtenFields {α : Type} (field : Reading α) : Nat → Nat → Reading (List α)
  | 0, _ => pure []
  | n + 1, room => do
    let v ← field
    if room = 0 then failed .overrun
    else
      let more ← writtenFields field n (room - 1)
      pure (v :: more)

/-- A turn of MASH with `room` bytes left (R361, R362): whether the loop goes on, and the bytes written, those of the literal
run and those of the match. A distance of 0 ends a full output (R365), and the count is clamped to the space left (R366). -/
def mashBytes (c : Config) (reach : List Byte) (room : Nat) : Reading (Bool × List Byte) := do
  let n ← treeField c.mashLitLen
  let literals ← writtenFields (treeField c.mashLit) n room
  let m ← treeField c.mashMatch
  let reach := reach ++ literals
  let room := room - literals.length
  if m.distance = 0 then
    if room = 0 then pure (false, literals) else failed .zeroDistance
  else if room ≠ 0 ∧ reach.length < m.distance then failed .distance
  else pure (true, literals ++ (Token.copy (min (m.countLess2 + 2) room) m.distance).bytes reach)

/-- A turn of SQSH with `room` bytes left (R441, R442): the new state of the mode machine, the sample after it, and the bytes
written, those of a repeat or those of a literal run. -/
def sqshBytes (c : Config) (q : SqshQ) (sample : Byte) (reach : List Byte) (room : Nat) :
    Reading (SqshQ × Byte × List Byte) := do
  let (q', mode) ← treeField (c.sqshMode q)
  match mode with
  | .repeated =>
    let token ← sqshRepeatToken c
    match token.refusal reach room with
    | some e => failed e
    | none =>
      let bytes := token.bytes reach
      pure (q', if c.sqshRepeatSetsSample then bytes.getLastD sample else sample, bytes)
  | .literal w run =>
    let fields ← writtenFields (fixedField (w.val + 1)) run room
    let bytes := sampleRun (w.val + 1) sample fields
    pure (q', bytes.getLastD sample, bytes)

/-! ## The table of SMPL (spec/48_smpl_sqsh.md R432) -/

/-- One length: four bits, or four bits more than 15. -/
def smplLengthField : Reading Nat := do
  let l ← fixedField 4
  if l = 15 then
    let more ← fixedField 4
    pure (15 + more)
  else pure l

/-- One path begins the other. -/
def clashes (x y : HufEntry) : Bool := (pathBits x).isPrefixOf (pathBits y) || (pathBits y).isPrefixOf (pathBits x)

/-- Mode A: a symbol of length above 0 has its code after its length. `es` are the entries so far. -/
def smplCodes (c : Config) : List Nat → List HufEntry → Reading (List HufEntry)
  | [], es => pure es
  | i :: symbols, es => do
    let l ← smplLengthField
    if l = 0 then smplCodes c symbols es
    else
      let code ← fixedField l
      let e : HufEntry := { len := l, code := code, sym := BitVec.ofNat 32 i }
      if es.any (clashes e) then failed .table
      else if tooManyNodes c (e :: es) then failed .capacity
      else smplCodes c symbols (e :: es)

/-- The canonical codes of a row of lengths as a build gives them, HUF_NODE_MAX being OPEN (spec/41_huffman.md R193). -/
def builtTable (c : Config) (lens : List Nat) : Reading (List HufEntry) :=
  match canonicalCodes lens with
  | none => failed .table
  | some es => if tooManyNodes c es then failed .capacity else pure es

/-- `n` readings in a row. -/
def fieldsOf {α : Type} (field : Reading α) : Nat → Reading (List α)
  | 0 => pure []
  | n + 1 => do
    let v ← field
    let more ← fieldsOf field n
    pure (v :: more)

/-- The table of SMPL: the lengths that mode B writes to LENM, none in mode A, and the entries. -/
def smplTableFields (c : Config) : Reading (List Nat × List HufEntry) :=
  match c.smplTableMode with
  | .explicit => do
    let es ← smplCodes c (List.range 256) []
    pure ([], es)
  | .canonical => do
    let lens ← fieldsOf smplLengthField 256
    let es ← builtTable c lens
    pure (lens, es)

/-! ## A block of BZ.BLOCK (spec/45_bzp2.md R296 to R303) -/

/-- `w` bits as they stand, the first one read first. -/
def bitsField (w : Nat) : Reading (List Bool) := fun bits =>
  if bits.length < w then .error .unexpectedEnd else .ok (bits.take w, bits.drop w)

/-- The numbers below 16 whose bit is 1 in a map of 16 bits, the first bit read for 0 (R297). -/
def markedPlaces (map : List Bool) : List Nat := (List.range 16).filter fun j => map.getD j false

/-- The detail words of the used groups (R298). -/
def detailFields : List Nat → Reading (List Byte)
  | [] => pure []
  | g :: groups => do
    let map ← bitsField 16
    let more ← detailFields groups
    pure ((markedPlaces map).map (fun j => truncByte (16 * g + j)) ++ more)

/-- The unary number of a selector (R300): six 1 bits in a row are no code. -/
def unaryField : Nat → Reading Nat
  | 0 => failed .walkOff
  | n + 1 => do
    let bit ← fixedField 1
    if bit = 0 then pure 0
    else
      let more ← unaryField n
      pure (more + 1)

/-- The selectors (R300): each names a place of the list `front`, whose element moves to the front. -/
def selectorFields (nGroups : Nat) : Nat → List Nat → Reading (List Nat)
  | 0, _ => pure []
  | n + 1, front => do
    let j ← unaryField 6
    let e := front.getD j 0
    if nGroups ≤ e then failed .index
    else
      let more ← selectorFields nGroups n (e :: front.erase e)
      pure (e :: more)

/-- The deltas of one code length (R301): 0 stops, 10 adds one, 11 subtracts one, and the length is 1..20 before each. -/
def deltaField : List Bool → Nat → Except Cause (Nat × List Bool)
  | false :: rest, cur => if 1 ≤ cur ∧ cur ≤ 20 then .ok (cur, rest) else .error .range
  | true :: minus :: rest, cur =>
    if 1 ≤ cur ∧ cur ≤ 20 then deltaField rest (if minus then cur - 1 else cur + 1) else .error .range
  | _, cur => if 1 ≤ cur ∧ cur ≤ 20 then .error .unexpectedEnd else .error .range

/-- The code lengths of one group (R301): the running length carries over. -/
def groupLengths : Nat → Nat → Reading (List Nat)
  | 0, _ => pure []
  | n + 1, cur => do
    let l ← fun bits => deltaField bits cur
    let more ← groupLengths n l
    pure (l :: more)

/-- The table of one group (R301). -/
def groupField (c : Config) (nItems : Nat) : Reading (List HufEntry) := do
  let cur ← fixedField 5
  let lens ← groupLengths nItems cur
  builtTable c lens

/-- The body (R302, R303) with a block of at most `size` bytes: one table for each symbol still allowed, the bytes of the
alphabet with the most recent first, the block so far, and the run digits so far. -/
def bodyField (size endSymbol : Nat) : List (List HufEntry) → List Byte → List Byte → List Bool → Reading (List Byte)
  | [], _, _, _ => failed .index
  | es :: tables, front, block, digits => do
    let sym ← symbolField es
    if sym.toNat < 2 then
      let digits := digits ++ [sym.toNat == 1]
      if size < runLengthOf digits then failed .capacity else bodyField size endSymbol tables front block digits
    else
      let block := block ++ List.replicate (runLengthOf digits) (front.headD 0#8)
      if size < block.length then failed .capacity
      else if sym.toNat = endSymbol then pure block
      else
        let b := front.getD (sym.toNat - 1) 0#8
        if size < block.length + 1 then failed .capacity
        else bodyField size endSymbol tables (b :: front.erase b) (block ++ [b]) []

/-- What BZ.BLOCK reads of a block. -/
structure BlockFields where
  randomised : Bool
  origPtr : BitVec 24
  values : List Byte
  nSelectors : Nat
  selectors : List Nat
  tables : List (List HufEntry)
  block : List Byte
deriving DecidableEq, Repr

/-- A block after its marker (R296 to R303): every selector serves 50 symbols (R299). -/
def blockFields (c : Config) (size : Nat) : Reading BlockFields := do
  let _ ← fixedField 32
  let randomised ← fixedField 1
  let origPtr ← fixedField 24
  let used ← bitsField 16
  let values ← detailFields (markedPlaces used)
  if values = [] then failed .header
  else
    let nGroups ← fixedField 3
    if nGroups < 2 ∨ 6 < nGroups then failed .header
    else
      let nSelectors ← fixedField 15
      if nSelectors = 0 then failed .header
      else
        let selectors ← selectorFields nGroups nSelectors [0, 1, 2, 3, 4, 5]
        let tables ← fieldsOf (groupField c (values.length + 2)) nGroups
        let block ← bodyField size (values.length + 1)
          (selectors.flatMap fun g => List.replicate 50 (tables.getD g [])) values [] []
        if block ≠ [] ∧ block.length ≤ origPtr then failed .index
        else
          pure
            { randomised := randomised == 1, origPtr := BitVec.ofNat 24 origPtr, values := values,
              nSelectors := nSelectors, selectors := selectors, tables := tables, block := block }

/-! ## The registers of the host (spec/10_state.md R23) -/

/-- The table of R23: each register's number and what it holds, none where that holds no value (R46). -/
def csrTable (c : Config) (s : State) : List (Nat × Option Word) :=
  [(0x00, some (statusWord s.status)), (0x01, some s.chunkLen), (0x02, some s.rawLen),
    (0x03, some (BitVec.ofNat 32 s.hist.length)), (0x04, some (BitVec.ofNat 32 (s.hist.map List.length).sum)),
    (0x08, s.arg0), (0x09, s.arg1), (0x0A, s.arg2), (0x0B, s.arg3), (0x0C, s.res0), (0x0D, s.res1),
    (0x10, s.fcur.map Fcur.pos), (0x11, s.fcur.map Fcur.stop), (0x12, s.bcur.map Bcur.pos),
    (0x13, s.bcur.map Bcur.floor), (0x14, s.bitsAcc), (0x15, s.bitsCnt.map (BitVec.ofNat 32)),
    (0x18, s.fwr.map Fwr.start), (0x19, s.fwr.map Fwr.pos), (0x1A, s.fwr.map Fwr.stop), (0x1B, s.bwr.map Bwr.top),
    (0x1C, s.bwr.map Bwr.pos), (0x1D, s.bwr.map Bwr.floor)] ++
  [(0x20, s.lzw.maxBits.map (BitVec.ofNat 32)), (0x21, s.lzw.stackLength), (0x22, s.lzw.codeBits.map (BitVec.ofNat 32)),
    (0x23, s.lzw.freeIndex.map (BitVec.ofNat 32)), (0x24, s.lzw.prevCode), (0x25, s.lzw.newCode),
    (0x28, s.bz.blockSize.map (BitVec.ofNat 32)), (0x29, s.bz.crc), (0x2A, s.bz.origPtr.map fun p => p.setWidth 32),
    (0x2B, s.bz.blk.map fun b => BitVec.ofNat 32 b.length),
    (0x2C, s.bz.randomised.map fun r => if r then 1#32 else 0#32), (0x30, s.ari.map fun a => a.vLen),
    (0x31, s.ari.map fun a => a.vNext), (0x32, s.ari.map fun a => a.shift), (0x38, s.dhuf.map Dhuf.nsym),
    (0x39, (s.dhuf.bind Dhuf.tree).map c.dhufMaxF)]

/-! ## Invariants -/

/-- Every memory is in canonical form and lists only offsets its space can have (spec/20_memory.md R70, R74). -/
def State.MemoryForm (s : State) : Prop :=
  s.chunk.wf ∧ s.raw.wf ∧ s.lenm.wf ∧ storeWf s.lzw.prefixes ∧ storeWf s.lzw.suffixes ∧ storeWf s.lzw.stack ∧
  (∀ a b, storeRead s.chunk a = some b → a < 2 ^ 32) ∧ (∀ a b, storeRead s.raw a = some b → a < 2 ^ 32) ∧
  (∀ a b, storeRead s.lenm a = some b → a < lenmSize)

/-- The cursors, the bit reader and the writers are ordered as R28 to R32 of spec/10_state.md say. -/
def State.ReaderForm (s : State) : Prop :=
  (∀ f, s.fcur = some f → f.pos.toNat ≤ f.stop.toNat) ∧
  (∀ f, s.bcur = some f → f.floor.toNat ≤ f.pos.toNat) ∧
  (∀ n, s.bitsCnt = some n → n ≤ 32 ∧ (n = 0 ∨ ∃ a, s.bitsAcc = some a)) ∧
  (∀ f, s.fwr = some f → f.start.toNat ≤ f.pos.toNat ∧ f.pos.toNat ≤ f.stop.toNat) ∧
  (∀ f, s.bwr = some f → f.floor.toNat ≤ f.pos.toNat ∧ f.pos.toNat ≤ f.top.toNat)

/-- Every slot holds a lawful table (R34) and every move-to-front list is a permutation of its initial set (R37). -/
def State.TableForm (s : State) : Prop :=
  (∀ (t : Fin 16) es, s.ht[t] = some es → LawfulTable es) ∧
  (∀ l xs, mtfOf l s = some xs → xs.length ≤ 256 ∧ xs.Perm (List.range xs.length))

/-- STATUS between commands (R24, spec/60_exceptions.md R461, R471): the core is idle, KIND tells whether it is FAULTED,
CAUSE is there exactly for CorruptData; and ARI is present only with SHRI_VALID (R40). -/
def State.StatusForm (s : State) : Prop :=
  s.status.busy = false ∧ s.phase = .idle ∧ (s.status.kind = .ok ↔ s.status.faulted = false) ∧
  (s.status.cause = none ↔ s.status.kind ≠ .corruptData) ∧ (s.status.shriValid = false → s.ari = none)

/-- The units within their ranges: the LZW dictionary (R267), the previous code, the block buffer (R302) and the tracker
(spec/42_adaptive_huffman.md R221). -/
def State.UnitForm (s : State) : Prop :=
  LzwForm s.lzw ∧
  (∀ f p, s.lzw.freeIndex = some f → s.lzw.prevCode = some p →
    p.toNat < 256 ∨ (259 ≤ p.toNat ∧ (p.toNat < f ∨ (p.toNat = f ∧ ∃ m, s.lzw.maxBits = some m ∧ f = 2 ^ m)))) ∧
  (∀ n, s.bz.blockSize = some n → 1 ≤ n ∧ n ≤ bzMaxBlock ∧ ∀ blk, s.bz.blk = some blk → blk.length ≤ n) ∧
  (∀ d, s.dhuf = some d → d.nsym.toNat ≤ dhufMaxNsym)

end Sys2Proof.Machine
end

