-- ==== Sys2Proof/Certificates/Slice0/Obligations.lean ====
section
/-! DEFINITION. The statements for the provers. The vocabulary is that of Safety.lean. Each docstring names the rule of
spec/ that a statement formalises. -/

open Sys2Proof Sys2Proof.Machine

/-! ## Encoding -/

/-- Decoding the word of a well-formed command gives the command back (spec/30_encoding.md R101 to R108). -/
def Obligations.DecodeOfEncode : Prop := ∀ i : Instr, i.wellFormed = true → decode (encode i) = .ok i

/-- A word that decodes is the word of its command: no two words select one command, and every bit outside the fields
is 0 (R106, R108). -/
def Obligations.EncodeOfDecode : Prop :=
  ∀ (w : BitVec 32) (i : Instr), decode w = .ok i → i.wellFormed = true ∧ encode i = w

/-- Words written out from the tables of R101, R102 and R105, at least one of each format; four of them select no command
(R106, R107). -/
def Obligations.DecodedWords : Prop :=
  decode 0x01000000#32 = .ok .instReset ∧ decode 0x12000000#32 = .ok .fcurConsume ∧
  decode 0x18000020#32 = .ok (.bitsRd8 32#6) ∧ decode 0x18000021#32 = .error .bitCount ∧
  decode 0x21000041#32 = .ok (.fwrWrb 0x41#8) ∧ decode 0x2C000000#32 = .ok .bwrEof ∧
  decode 0x31F00000#32 = .ok (.hufInsert 15#4) ∧
  decode 0x33510000#32 = .ok (.hufDecode 5#4 .group32) ∧ decode 0x33500000#32 = .ok (.hufDecode 5#4 .group8) ∧
  decode 0x33520000#32 = .error .mustBeZero ∧ decode 0x39010000#32 = .ok (.dhufDecode .group32) ∧
  decode 0x3D100000#32 = .ok (.mtfAccess .data) ∧ decode 0x3D200000#32 = .error .mustBeZero ∧
  decode 0x41000000#32 = .ok .lzwRestart ∧ decode 0x4A000000#32 = .ok .bzUnbwt ∧
  decode 0x51000010#32 = .ok (.ariGetcode 16#6) ∧ decode 0x87000000#32 = .ok .decompressSqsh ∧
  decode 0x00000000#32 = .error (.unlistedOpcode 0#8)

/-! ## The step -/

/-- A step whose next move is a command word runs the command the word selects, on the state with the move taken off the
port (spec/10_state.md R26, spec/60_exceptions.md R467; the port and its moves are the model's choice, log 5). -/
def Obligations.StepRunsCommand : Prop :=
  ∀ (s : State) (w : BitVec 32) (rest : List HostMove) (i : Instr),
    s.status.busy = false → s.port = .command w :: rest → decode w = .ok i → step s = exec i { s with port := rest }

/-- A word that matches no row raises IllegalCommand: KIND 3, CAUSE 0, FAULTED, the core idle, and no other state changes;
while FAULTED it is refused and nothing changes (spec/30_encoding.md R107, spec/60_exceptions.md R467, R470, R472). That the
move is taken off the port is the model's choice (log 5), and that both are next states its reading (log 6). -/
def Obligations.StepIllegalWord : Prop :=
  ∀ (s : State) (w : BitVec 32) (rest : List HostMove) (r : Reject),
    s.status.busy = false → s.port = .command w :: rest → decode w = .error r →
    (s.status.faulted = false → step s = .next
      { s with
        port := rest, phase := .idle,
        status := { kind := .illegalCommand, cause := none, faulted := true, shriValid := s.status.shriValid,
                    busy := false } }) ∧
    (s.status.faulted = true → step s = .next { s with port := rest })

/-- A command word issued while FAULTED, other than the word 0x01000000, changes no state of the core at all (R470). That the
move is taken off the port is the model's choice (log 5), and that the refusal is a next state its reading (log 6). -/
def Obligations.StepRefusesWhileFaulted : Prop :=
  ∀ (s : State) (w : BitVec 32) (rest : List HostMove),
    s.status.busy = false → s.status.faulted = true → s.port = .command w :: rest → w ≠ 0x01000000#32 →
    step s = .next { s with port := rest }

/-- The host's writes: CHUNK_LEN, RAW_LEN and ARG by number, every other register number ignored
(spec/10_state.md R23); a byte of CHUNK, at any offset, also at CHUNK_LEN or above (the model's reading, log 33); a byte of
LENM inside its 1024 bytes (spec/20_memory.md R74). A write of LENM outside it stops with outsideSpace (log 11). That a move
is taken off the port is log 5. -/
def Obligations.StepHostWrites : Prop :=
  ∀ (s : State) (rest : List HostMove), s.status.busy = false →
    (∀ n v, s.port = .writeCsr n v :: rest → step s = .next
      { s with
        port := rest,
        chunkLen := if n = 0x01 then v else s.chunkLen, rawLen := if n = 0x02 then v else s.rawLen,
        arg0 := if n = 0x08 then some v else s.arg0, arg1 := if n = 0x09 then some v else s.arg1,
        arg2 := if n = 0x0A then some v else s.arg2, arg3 := if n = 0x0B then some v else s.arg3 }) ∧
    (∀ a b, s.port = .writeChunk a b :: rest → ∃ m, step s = .next { s with port := rest, chunk := m } ∧
      ∀ k, storeRead m k = if k = a.toNat then some b else storeRead s.chunk k) ∧
    (∀ a b, s.port = .writeLenm a b :: rest → a.toNat < 1024 → ∃ m, step s = .next { s with port := rest, lenm := m } ∧
      ∀ k, storeRead m k = if k = a.toNat then some b else storeRead s.lenm k) ∧
    (∀ a b, s.port = .writeLenm a b :: rest → 1024 ≤ a.toNat → step s = .fault .outsideSpace)

/-- The host's reads change nothing but the word delivered (R85): a register of the table of R23 delivers what it holds
(`csrTable`, one entry for each row), any other number 0; a byte of RAW, CHUNK or LENM inside its space is delivered
zero-extended. Where the register or byte holds no value, the free value of this read (R46; its form is log 7). A read at an
offset that its space does not have stops with outsideSpace (log 11). That a move is taken off the port is log 5. -/
def Obligations.StepHostReads : Prop :=
  ∀ (s : State) (rest : List HostMove), s.status.busy = false →
    (∀ n, s.port = .readCsr n :: rest → step s = .next (match (csrTable Config.core s).lookup n with
      | some v => s.hostRead rest v
      | none => { s with port := rest, hostData := 0#32 })) ∧
    (∀ a, s.port = .readRaw a :: rest → step s =
      if a.toNat < s.rawLen.toNat then .next (s.hostReadByte rest (storeRead s.raw a.toNat)) else .fault .outsideSpace) ∧
    (∀ a, s.port = .readChunk a :: rest → step s =
      if a.toNat < s.chunkLen.toNat then .next (s.hostReadByte rest (storeRead s.chunk a.toNat))
      else .fault .outsideSpace) ∧
    (∀ a, s.port = .readLenm a :: rest → step s =
      if a.toNat < 1024 then .next (s.hostReadByte rest (storeRead s.lenm a.toNat)) else .fault .outsideSpace)

/-- The fields of STATUS: KIND in bits 1..0, CAUSE in bits 7..4, FAULTED, SHRI_VALID and BUSY in bits 8, 9 and 10, every
other bit 0 (spec/10_state.md R24), with the numbers of R461 and R462. -/
def Obligations.StatusFields : Prop :=
  ∀ st : Status,
    (statusWord st).extractLsb' 0 2 = (match st.kind with
      | .ok => 0#2 | .corruptData => 1#2 | .wrongBlockChecksum => 2#2 | .illegalCommand => 3#2) ∧
    (statusWord st).extractLsb' 4 4 = (match st.cause with
      | none => 0#4 | some .range => 1#4 | some .unexpectedEnd => 2#4 | some .overrun => 3#4
      | some .zeroDistance => 4#4 | some .distance => 5#4 | some .capacity => 6#4 | some .unset => 7#4
      | some .walkOff => 8#4 | some .table => 9#4 | some .header => 10#4 | some .index => 11#4
      | some .zeroDivisor => 12#4 | some .underFill => 13#4 | some .reserved => 14#4 | some .magic => 15#4) ∧
    (statusWord st).getLsbD 8 = st.faulted ∧ (statusWord st).getLsbD 9 = st.shriValid ∧
    (statusWord st).getLsbD 10 = st.busy ∧ (statusWord st).extractLsb' 2 2 = 0#2 ∧
    (statusWord st).extractLsb' 11 21 = 0#21

/-! ## Errors and the ends of commands -/

/-- Error entry (spec/60_exceptions.md R466): whatever command fails, KIND and CAUSE tell the error
(WrongBlockChecksum only from BZ.BLOCK and from DECOMPRESS.BZP2 through it, R473), the core is FAULTED and idle, RES, RAW, LENM, BLK and every cursor, writer, table and unit hold no value, and CHUNK, CHUNK_LEN, RAW_LEN, ARG and
HIST keep theirs; ARI loses its value exactly when an ARI command (ARI.SCALE among them, log 30) or DECOMPRESS.SHRI failed, and only
DECOMPRESS.SHRI can have set SHRI_VALID before it failed. -/
def Obligations.ErrorEntry : Prop :=
  ∀ (i : Instr) (s t : State), s.status.faulted = false → exec i s = .next t → t.status.faulted = true →
    (t.status.kind = .wrongBlockChecksum ∧ t.status.cause = none ∧ (i = .bzBlock ∨ i = .decompressBzp2) ∨
      t.status.kind = .corruptData ∧ ∃ c, t.status.cause = some c) ∧
    t.status.busy = false ∧ t.phase = .idle ∧ t.LostUnits ∧
    t.chunk = s.chunk ∧ t.chunkLen = s.chunkLen ∧ t.rawLen = s.rawLen ∧ t.arg0 = s.arg0 ∧ t.arg1 = s.arg1 ∧
    t.arg2 = s.arg2 ∧ t.arg3 = s.arg3 ∧ t.hist = s.hist ∧
    t.ari = (if usesAri i then none else s.ari) ∧ (i ≠ .decompressShri → t.status.shriValid = s.status.shriValid)

/-- Every command ends (spec/43_decompress_common.md R243): it gives a next state from every state. Its loops end by
themselves or in a raise whose cause is stated, for every choice of the OPEN items: every turn of the loops of BZ.BLOCK and of
the sequencers consumes input, or produces output, or raises. In DECOMPRESS.SHRI that is a property of its OPEN functions
(`ShriProgress`); functions without it make a turn without progress raise with the free cause of log 8. -/
def Obligations.EveryCommandEnds : Prop :=
  (∀ (i : Instr) (s : State), ∃ t, exec i s = .next t) ∧
  ∀ c : Config,
    NeverStuck (bzBlock c) ∧ NeverStuck blzwSequence ∧ NeverStuck (bzp2Sequence c) ∧ NeverStuck (lhlbSequence c) ∧
    NeverStuck (mashSequence c) ∧ NeverStuck (rakeSequence c) ∧ NeverStuck (smplSequence c) ∧
    NeverStuck (sqshSequence c) ∧ (c.ShriProgress → NeverStuck (shriSequence c))

/-- A command that ends without error changes only the parts that its rule writes (`writesOf`, one line for each command of
spec/30_encoding.md R105), and what is no part of them keeps its value (spec/70_reset_and_hazards.md R503). -/
def Obligations.FrameOfEveryCommand : Prop :=
  ∀ (i : Instr) (s t : State), s.Ready → exec i s = .next t → t.status.faulted = false → Changes (writesOf i) s t

/-- The seven stateless formats decode one chunk independently (spec/10_state.md R45, spec/47_shri.md R411): what such a
command answers depends on CHUNK, CHUNK_LEN and RAW_LEN alone, whatever the cursors, tables, units, RAW, ARI and HIST
hold before it. -/
def Obligations.StatelessFormats : Prop :=
  ∀ (i : Instr) (s s' : State), i ∈ statelessMacros → s.Ready → s'.Ready → s'.chunk = s.chunk →
    s'.chunkLen = s.chunkLen → s'.rawLen = s.rawLen →
    ∃ t t', exec i s = .next t ∧ exec i s' = .next t' ∧ t.SameResult t'

/-- A macro command that ends without error has filled its writer, so every byte of RAW[0 .. RAW_LEN−1] holds a value, has
written nothing outside that range, and leaves STATUS clean, the core idle and RES without value
(spec/43_decompress_common.md R242 to R247). -/
def Obligations.MacroFillsOutput : Prop :=
  ∀ (i : Instr) (s t : State), i ∈ macros → s.Ready → exec i s = .next t → t.status.faulted = false →
    t.Clean ∧ t.res0 = none ∧ t.res1 = none ∧ t.rawLen = s.rawLen ∧
    (i ≠ .decompressRake → t.fwr = some { start := 0#32, pos := s.rawLen, stop := s.rawLen }) ∧
    (i = .decompressRake → t.bwr = some { top := s.rawLen, pos := 0#32, floor := 0#32 }) ∧
    (∀ k, k < s.rawLen.toNat → ∃ b, storeRead t.raw k = some b) ∧
    (∀ k, s.rawLen.toNat ≤ k → storeRead t.raw k = storeRead s.raw k)

/-- The history is only ever appended to, but for INST.RESET (spec/10_state.md R33): HIST.PUSH and DECOMPRESS.SHRI, ending
without error, append the bytes RAW[0 .. RAW_LEN−1] as the newest buffer, and no other command appends
(spec/47_shri.md R410, R412). -/
def Obligations.HistoryGrows : Prop :=
  ∀ (i : Instr) (s t : State), i ≠ .instReset → exec i s = .next t →
    (s.status.faulted = false ∧ t.status.faulted = false ∧ (i = .histPush ∨ i = .decompressShri) →
      ∃ buffer, memBytes t.raw 0 t.rawLen.toNat = some buffer ∧ t.hist = s.hist ++ [buffer]) ∧
    (s.status.faulted = true ∨ t.status.faulted = true ∨ (i ≠ .histPush ∧ i ≠ .decompressShri) → t.hist = s.hist)

/-! ## Invariants that every step keeps -/

/-- Every memory stays in canonical form and inside its space (spec/20_memory.md R70, R74). -/
def Obligations.StepKeepsMemoryForm : Prop := ∀ s t : State, s.MemoryForm → step s = .next t → t.MemoryForm

/-- Cursors and writers stay inside their spans, and the reader has at most 32 bits buffered (spec/10_state.md R28 to
R32). -/
def Obligations.StepKeepsReaderForm : Prop := ∀ s t : State, s.ReaderForm → step s = .next t → t.ReaderForm

/-- Every table stays prefix-free with lengths 1..32 (spec/41_huffman.md R190), and every move-to-front list a permutation of
its initial symbol set (spec/45_bzp2.md R292). -/
def Obligations.StepKeepsTableForm : Prop := ∀ s t : State, s.TableForm → step s = .next t → t.TableForm

/-- The core is idle after every step, KIND says whether it is FAULTED, CAUSE belongs to CorruptData, and ARI is present only
with SHRI_VALID (spec/10_state.md R24, R40, spec/60_exceptions.md R461, R462, R471). -/
def Obligations.StepKeepsStatusForm : Prop := ∀ s t : State, s.StatusForm → step s = .next t → t.StatusForm

/-- The dictionary invariants (spec/44_blzw.md R267), the bound of the block buffer (spec/45_bzp2.md R302) and the bound of the
tracker (spec/42_adaptive_huffman.md R221). -/
def Obligations.StepKeepsUnitForm : Prop := ∀ s t : State, s.UnitForm → step s = .next t → t.UnitForm

/-- The machine after reset meets every invariant. -/
def Obligations.ResetMeetsInvariants : Prop :=
  State.reset.MemoryForm ∧ State.reset.ReaderForm ∧ State.reset.TableForm ∧ State.reset.StatusForm ∧
  State.reset.UnitForm

/-- INST.RESET gives every piece of state its value of spec/10_state.md R44, FAULTED or not
(spec/70_reset_and_hazards.md R501); that the host's side of the port, the model's own, stays is its choice (log 21). -/
def Obligations.InstReset : Prop :=
  ∀ s : State, ∃ t, exec .instReset s = .next t ∧
    t.status = { kind := .ok, cause := none, faulted := false, shriValid := false, busy := false } ∧
    t.chunkLen = 0#32 ∧ t.rawLen = 0#32 ∧ t.arg0 = none ∧ t.arg1 = none ∧ t.arg2 = none ∧ t.arg3 = none ∧
    t.res0 = none ∧ t.res1 = none ∧ (∀ k, storeRead t.chunk k = none) ∧ (∀ k, storeRead t.raw k = none) ∧
    (∀ k, storeRead t.lenm k = none) ∧ t.hist = [] ∧ t.fcur = none ∧ t.bcur = none ∧ t.bitsAcc = none ∧
    t.bitsCnt = some 0 ∧ t.fwr = none ∧ t.bwr = none ∧ (∀ k : Fin 16, t.ht[k] = some []) ∧
    t.dhuf = some { nsym := 0#32, tree := none } ∧ t.mtf0 = some [] ∧ t.mtf1 = some [] ∧ t.lzw = Lzw.unset ∧
    t.bz = Bz.unset ∧ t.ari = none ∧ t.smplAcc = none ∧ t.sqshQ = none ∧ t.sqshSample = none ∧ t.phase = .idle ∧
    t.port = s.port ∧ t.hostData = s.hostData ∧ t.freeReads = s.freeReads

/-! ## The stream unit -/

/-- FCUR.SET, BCUR.SET, FWR.SET and BWR.SET place a span inside their memory and change nothing else; a span that is not
inside it raises Range (spec/40_stream_primitives.md R140, R143, R151, R157). -/
def Obligations.SpansSet : Prop :=
  ∀ (s : State) (a b : Word), s.Ready → s.arg0 = some a → s.arg1 = some b →
    (a.toNat ≤ b.toNat → b.toNat ≤ s.chunkLen.toNat →
      exec .fcurSet s = .next { s with fcur := some { pos := a, stop := b } } ∧
      exec .bcurSet s = .next { s with bcur := some { pos := b, floor := a } }) ∧
    (b.toNat < a.toNat ∨ s.chunkLen.toNat < b.toNat →
      exec .fcurSet s = .next (s.corrupted .range) ∧ exec .bcurSet s = .next (s.corrupted .range)) ∧
    (a.toNat ≤ b.toNat → b.toNat ≤ s.rawLen.toNat →
      exec .fwrSet s = .next { s with fwr := some { start := a, pos := a, stop := b } } ∧
      exec .bwrSet s = .next { s with bwr := some { top := b, pos := b, floor := a } }) ∧
    (b.toNat < a.toNat ∨ s.rawLen.toNat < b.toNat →
      exec .fwrSet s = .next (s.corrupted .range) ∧ exec .bwrSet s = .next (s.corrupted .range))

/-- FCUR.RDB delivers the byte at the position and moves up; BCUR.RDB moves down and delivers the byte it reaches; an
exhausted cursor raises UnexpectedEnd (R141, R144); a cursor that was never set, or a byte that holds no value, Unset
(spec/10_state.md R46). No byte at an offset of CHUNK_LEN or more is read (spec/20_memory.md R71): a cursor that the host has
left there, by lowering CHUNK_LEN, raises UnexpectedEnd too, which is the model's choice of the error (log 9). -/
def Obligations.CursorReadByte : Prop :=
  ∀ s : State, s.Ready →
    (s.fcur = none → exec .fcurRdb s = .next (s.corrupted .unset)) ∧
    (s.bcur = none → exec .bcurRdb s = .next (s.corrupted .unset)) ∧
    (∀ f, s.fcur = some f → f.pos.toNat < f.stop.toNat → f.pos.toNat < s.chunkLen.toNat →
      storeRead s.chunk f.pos.toNat = none → exec .fcurRdb s = .next (s.corrupted .unset)) ∧
    (∀ f, s.bcur = some f → f.floor.toNat < f.pos.toNat → f.pos.toNat ≤ s.chunkLen.toNat →
      storeRead s.chunk (f.pos.toNat - 1) = none → exec .bcurRdb s = .next (s.corrupted .unset)) ∧
    (∀ f b, s.fcur = some f → f.pos.toNat < f.stop.toNat → f.pos.toNat < s.chunkLen.toNat →
      storeRead s.chunk f.pos.toNat = some b →
      exec .fcurRdb s = .next
        { s with fcur := some { pos := f.pos + 1, stop := f.stop }, res0 := some (b.setWidth 32) }) ∧
    (∀ f, s.fcur = some f → f.stop.toNat ≤ f.pos.toNat ∨ s.chunkLen.toNat ≤ f.pos.toNat →
      exec .fcurRdb s = .next (s.corrupted .unexpectedEnd)) ∧
    (∀ f b, s.bcur = some f → f.floor.toNat < f.pos.toNat → f.pos.toNat ≤ s.chunkLen.toNat →
      storeRead s.chunk (f.pos.toNat - 1) = some b →
      exec .bcurRdb s = .next
        { s with bcur := some { pos := f.pos - 1, floor := f.floor }, res0 := some (b.setWidth 32) }) ∧
    (∀ f, s.bcur = some f → f.pos.toNat ≤ f.floor.toNat ∨ s.chunkLen.toNat < f.pos.toNat →
      exec .bcurRdb s = .next (s.corrupted .unexpectedEnd))

/-- FCUR.CONSUME and BCUR.CONSUME take `n` bytes at once, all or nothing, and deliver the lowest offset of the view; the sums
are not truncated (R142, R145, spec/20_memory.md R88); without ARG[0] or without a cursor they raise Unset. The empty view
moves nothing, wherever the cursor stands. Another view has no byte at CHUNK_LEN or beyond (R71), which after the host has
lowered it is UnexpectedEnd by the model's choice (log 9). -/
def Obligations.CursorConsume : Prop :=
  (∀ s : State, s.Ready → s.arg0 = none →
    exec .fcurConsume s = .next (s.corrupted .unset) ∧ exec .bcurConsume s = .next (s.corrupted .unset)) ∧
  ∀ (s : State) (n : Word), s.Ready → s.arg0 = some n →
    (s.fcur = none → exec .fcurConsume s = .next (s.corrupted .unset)) ∧
    (s.bcur = none → exec .bcurConsume s = .next (s.corrupted .unset)) ∧
    (∀ f, s.fcur = some f → f.pos.toNat + n.toNat ≤ f.stop.toNat →
      n = 0#32 ∨ f.pos.toNat + n.toNat ≤ s.chunkLen.toNat →
      exec .fcurConsume s = .next { s with fcur := some { pos := f.pos + n, stop := f.stop }, res0 := some f.pos }) ∧
    (∀ f, s.fcur = some f → f.stop.toNat < f.pos.toNat + n.toNat ∨
        n ≠ 0#32 ∧ s.chunkLen.toNat < f.pos.toNat + n.toNat →
      exec .fcurConsume s = .next (s.corrupted .unexpectedEnd)) ∧
    (∀ f, s.bcur = some f → f.floor.toNat + n.toNat ≤ f.pos.toNat → n = 0#32 ∨ f.pos.toNat ≤ s.chunkLen.toNat →
      exec .bcurConsume s = .next
        { s with bcur := some { pos := f.pos - n, floor := f.floor }, res0 := some (f.pos - n) }) ∧
    (∀ f, s.bcur = some f → f.pos.toNat < f.floor.toNat + n.toNat ∨ n ≠ 0#32 ∧ s.chunkLen.toNat < f.pos.toNat →
      exec .bcurConsume s = .next (s.corrupted .unexpectedEnd))

/-- BITS.RD8 and BITS.RD32 deliver the next `n` bits of the stream, most significant first, and move the reader by whole
groups; where the cursor is exhausted they raise UnexpectedEnd. BITS.RESET replaces what is buffered
(spec/40_stream_primitives.md R146 to R149). A reader without its count, an empty one without its cursor, BITS.RESET
without ARG[0], and a byte without value that the one-byte refill comes to raise Unset (spec/10_state.md R46). -/
def Obligations.BitReads : Prop :=
  ∀ (s : State) (n : BitVec 6) (src : BitSource), s.Ready → n.toNat ≤ 32 →
    (s.CanRead src n.toNat → exec (readCommand src n) s = .next
      { s.afterBits src n.toNat with res0 := some (toWord (bitsValue (s.bitStream.take n.toNat))) }) ∧
    (s.ReaderSet → s.WholeStream → ¬ s.CanRead src n.toNat →
      exec (readCommand src n) s = .next (s.corrupted .unexpectedEnd)) ∧
    (n ≠ 0#6 → s.bitsCnt = none ∨ s.bitsCnt = some 0 ∧ s.fcur = none →
      exec (readCommand src n) s = .next (s.corrupted .unset)) ∧
    (∀ f, s.fcur = some f → src = .group8 → s.ReaderSet → ¬ s.WholeStream → ¬ s.CanRead src n.toNat →
      exec (readCommand src n) s = .next (s.corrupted .unset)) ∧
    (s.arg0 = none → exec (.bitsReset n) s = .next (s.corrupted .unset)) ∧
    (∀ seed, s.arg0 = some seed → exec (.bitsReset n) s = .next { s with bitsAcc := some seed, bitsCnt := some n.toNat })

/-- The bit-order law (R150): from an empty reader, any sequence of bit reads of either group size none of which fails
delivers, one after the other, the first bits of the bytes from the cursor on, each byte bit 7 first. -/
def Obligations.BitOrderLaw : Prop :=
  ∀ (s : State) (reads : List (BitSource × BitVec 6)) (bits : List Bool),
    s.Ready → s.bitsCnt = some 0 → (∀ r ∈ reads, r.2.toNat ≤ 32) → readAll reads s = some bits →
    bits = (byteBits s.unreadBytes).take (reads.map fun r => r.2.toNat).sum ∧
    bits.length = (reads.map fun r => r.2.toNat).sum

/-- FWR.WRB writes its byte at the position and moves up; BWR.WRB moves down and writes there; past the span they raise
Overrun (R152, R158), and Unset where the writer was never set (spec/10_state.md R46). -/
def Obligations.WriteByte : Prop :=
  ∀ (s : State) (b : Byte), s.Ready →
    (s.fwr = none → exec (.fwrWrb b) s = .next (s.corrupted .unset)) ∧
    (s.bwr = none → exec (.bwrWrb b) s = .next (s.corrupted .unset)) ∧
    (∀ f, s.fwr = some f → f.pos.toNat < f.stop.toNat → ∃ m,
      exec (.fwrWrb b) s = .next
        { s with raw := m, fwr := some { start := f.start, pos := f.pos + 1, stop := f.stop } } ∧
      ∀ k, storeRead m k = if k = f.pos.toNat then some b else storeRead s.raw k) ∧
    (∀ f, s.fwr = some f → f.stop.toNat ≤ f.pos.toNat → exec (.fwrWrb b) s = .next (s.corrupted .overrun)) ∧
    (∀ f, s.bwr = some f → f.floor.toNat < f.pos.toNat → ∃ m,
      exec (.bwrWrb b) s = .next
        { s with raw := m, bwr := some { top := f.top, pos := f.pos - 1, floor := f.floor } } ∧
      ∀ k, storeRead m k = if k = f.pos.toNat - 1 then some b else storeRead s.raw k) ∧
    (∀ f, s.bwr = some f → f.pos.toNat ≤ f.floor.toNat → exec (.bwrWrb b) s = .next (s.corrupted .overrun))

/-- FWR.COPY (R153, R163): byte i of the copy is byte i mod d of the d bytes before the position, so an overlapping copy
repeats them; the three checks come in the order ZeroDistance, Distance, Overrun, before any byte moves. -/
def Obligations.ForwardCopy : Prop :=
  ∀ (s : State) (f : Fwr) (d c : Word), s.Ready → s.fwr = some f → f.start.toNat ≤ f.pos.toNat →
    s.arg0 = some d → s.arg1 = some c →
    (d = 0#32 → exec .fwrCopy s = .next (s.corrupted .zeroDistance)) ∧
    (d ≠ 0#32 → f.pos.toNat < f.start.toNat + d.toNat → exec .fwrCopy s = .next (s.corrupted .distance)) ∧
    (d ≠ 0#32 → f.start.toNat + d.toNat ≤ f.pos.toNat → f.stop.toNat < f.pos.toNat + c.toNat →
      exec .fwrCopy s = .next (s.corrupted .overrun)) ∧
    (d ≠ 0#32 → f.start.toNat + d.toNat ≤ f.pos.toNat → f.pos.toNat + c.toNat ≤ f.stop.toNat →
      (∀ k, f.pos.toNat - d.toNat ≤ k → k < f.pos.toNat → ∃ b, storeRead s.raw k = some b) →
      ∃ m, exec .fwrCopy s = .next
          { s with raw := m, fwr := some { start := f.start, pos := f.pos + c, stop := f.stop } } ∧
        (∀ i, i < c.toNat →
          storeRead m (f.pos.toNat + i) = storeRead s.raw (f.pos.toNat - d.toNat + i % d.toNat)) ∧
        ∀ k, k < f.pos.toNat ∨ f.pos.toNat + c.toNat ≤ k → storeRead m k = storeRead s.raw k)

/-- FWR.COPYH (R154): the distance reaches back through the logical stream, which is every history buffer, oldest first, and
then what the writer has written; the bytes repeat as in FWR.COPY. -/
def Obligations.HistoryCopy : Prop :=
  ∀ (s : State) (f : Fwr) (d c : Word) (written : List Byte), s.Ready → s.fwr = some f → f.start.toNat ≤ f.pos.toNat →
    s.arg0 = some d → s.arg1 = some c → memBytes s.raw f.start.toNat (f.pos.toNat - f.start.toNat) = some written →
    (d = 0#32 → exec .fwrCopyh s = .next (s.corrupted .zeroDistance)) ∧
    (d ≠ 0#32 → (s.hist.flatten ++ written).length < d.toNat → exec .fwrCopyh s = .next (s.corrupted .distance)) ∧
    (d ≠ 0#32 → d.toNat ≤ (s.hist.flatten ++ written).length → f.stop.toNat < f.pos.toNat + c.toNat →
      exec .fwrCopyh s = .next (s.corrupted .overrun)) ∧
    (d ≠ 0#32 → d.toNat ≤ (s.hist.flatten ++ written).length → f.pos.toNat + c.toNat ≤ f.stop.toNat →
      ∃ m, exec .fwrCopyh s = .next
          { s with raw := m, fwr := some { start := f.start, pos := f.pos + c, stop := f.stop } } ∧
        (∀ i, i < c.toNat → storeRead m (f.pos.toNat + i) =
          (s.hist.flatten ++ written)[(s.hist.flatten ++ written).length - d.toNat + i % d.toNat]?) ∧
        ∀ k, k < f.pos.toNat ∨ f.pos.toNat + c.toNat ≤ k → storeRead m k = storeRead s.raw k)

/-- BWR.COPY (R159): the mirror image, the bytes written `d` writes ago lying at higher offsets. -/
def Obligations.BackwardCopy : Prop :=
  ∀ (s : State) (f : Bwr) (d c : Word), s.Ready → s.bwr = some f → f.pos.toNat ≤ f.top.toNat →
    s.arg0 = some d → s.arg1 = some c →
    (d = 0#32 → exec .bwrCopy s = .next (s.corrupted .zeroDistance)) ∧
    (d ≠ 0#32 → f.top.toNat < f.pos.toNat + d.toNat → exec .bwrCopy s = .next (s.corrupted .distance)) ∧
    (d ≠ 0#32 → f.pos.toNat + d.toNat ≤ f.top.toNat → f.pos.toNat < f.floor.toNat + c.toNat →
      exec .bwrCopy s = .next (s.corrupted .overrun)) ∧
    (d ≠ 0#32 → f.pos.toNat + d.toNat ≤ f.top.toNat → f.floor.toNat + c.toNat ≤ f.pos.toNat →
      (∀ k, f.pos.toNat ≤ k → k < f.pos.toNat + d.toNat → ∃ b, storeRead s.raw k = some b) →
      ∃ m, exec .bwrCopy s = .next
          { s with raw := m, bwr := some { top := f.top, pos := f.pos - c, floor := f.floor } } ∧
        (∀ i, i < c.toNat →
          storeRead m (f.pos.toNat - 1 - i) = storeRead s.raw (f.pos.toNat + d.toNat - 1 - i % d.toNat)) ∧
        ∀ k, k < f.pos.toNat - c.toNat ∨ f.pos.toNat ≤ k → storeRead m k = storeRead s.raw k)

/-- FWR.EOF, FWR.OFF, BWR.EOF and BWR.OFF deliver whether the span is full and how many bytes have been written, and
change nothing else (R155, R156, R160, R161); they raise Unset where the writer was never set (spec/10_state.md R46, as vector
E15 has it). -/
def Obligations.WriterQueries : Prop :=
  ∀ s : State, s.Ready →
    (s.fwr = none → exec .fwrEof s = .next (s.corrupted .unset) ∧ exec .fwrOff s = .next (s.corrupted .unset)) ∧
    (s.bwr = none → exec .bwrEof s = .next (s.corrupted .unset) ∧ exec .bwrOff s = .next (s.corrupted .unset)) ∧
    (∀ f, s.fwr = some f → f.start.toNat ≤ f.pos.toNat →
      exec .fwrEof s = .next { s with res0 := some (if f.pos = f.stop then 1#32 else 0#32) } ∧
      exec .fwrOff s = .next { s with res0 := some (f.pos - f.start) }) ∧
    (∀ f, s.bwr = some f → f.pos.toNat ≤ f.top.toNat →
      exec .bwrEof s = .next { s with res0 := some (if f.pos = f.floor then 1#32 else 0#32) } ∧
      exec .bwrOff s = .next { s with res0 := some (f.top - f.pos) })

/-- HIST.PUSH appends RAW[0 .. RAW_LEN−1] as the newest buffer; Capacity where the store would pass HIST_MAX, which is OPEN;
Unset where one of the bytes holds no value, which the model checks first, the rule giving no order (R165, log 15). -/
def Obligations.HistPush : Prop :=
  ∀ s : State, s.Ready →
    (∀ buffer, memBytes s.raw 0 s.rawLen.toNat = some buffer → exec .histPush s = .next
      (if passes (s.hist.length + 1) Config.core.histMaxBuffers ||
          passes ((s.hist.map List.length).sum + buffer.length) Config.core.histMaxBytes
        then s.corrupted .capacity else { s with hist := s.hist ++ [buffer] })) ∧
    (memBytes s.raw 0 s.rawLen.toNat = none → exec .histPush s = .next (s.corrupted .unset))

/-! ## Huffman tables -/

/-- HUF.CLEAR makes its slot the empty table; HUF.INSERT adds one entry to its slot, Range for a length outside 1..32, Table
where one path is a prefix of another, Capacity where the trie, its root counted (log 22), would pass HUF_NODE_MAX, which
is OPEN; the other slots are untouched (spec/41_huffman.md R191, R192). -/
def Obligations.HufClearInsert : Prop :=
  ∀ (s : State) (t : BitVec 4), s.Ready →
    exec (.hufClear t) s = .next { s with ht := s.ht.set t.toNat (some []) t.isLt } ∧
    ∀ l c y es, s.arg0 = some l → s.arg1 = some c → s.arg2 = some y → s.ht[t.toNat]'t.isLt = some es →
      LawfulTable es →
      (l.toNat < 1 ∨ 32 < l.toNat → exec (.hufInsert t) s = .next (s.corrupted .range)) ∧
      (1 ≤ l.toNat → l.toNat ≤ 32 →
        let e : HufEntry := { len := l.toNat, code := c.toNat % 2 ^ l.toNat, sym := y }
        ((∃ x ∈ es, pathBits e <+: pathBits x ∨ pathBits x <+: pathBits e) →
          exec (.hufInsert t) s = .next (s.corrupted .table)) ∧
        ((∀ x ∈ es, ¬ pathBits e <+: pathBits x ∧ ¬ pathBits x <+: pathBits e) →
          ∃ es', (∀ x, x ∈ es' ↔ x = e ∨ x ∈ es) ∧ exec (.hufInsert t) s = .next
            (if tooManyNodes Config.core es' then s.corrupted .capacity
              else { s with ht := s.ht.set t.toNat (some es') t.isLt })))

/-- HUF.BUILD replaces its slot by the canonical codes of the lengths LENM[0 .. count−1]; Range, Table and Capacity as the
rule says, HUF_NODE_MAX being OPEN and counting the root (R193, R198, log 22). -/
def Obligations.HufBuild : Prop :=
  ∀ (s : State) (t : BitVec 4) (n : Word), s.Ready → s.arg0 = some n →
    (1024 < n.toNat → exec (.hufBuild t) s = .next (s.corrupted .range)) ∧
    ∀ bytes, n.toNat ≤ 1024 → memBytes s.lenm 0 n.toNat = some bytes →
      ((∃ b ∈ bytes, 32 < b.toNat) → exec (.hufBuild t) s = .next (s.corrupted .range)) ∧
      ((∀ b ∈ bytes, b.toNat ≤ 32) → 2 ^ 32 < kraftSum (bytes.map BitVec.toNat) →
        exec (.hufBuild t) s = .next (s.corrupted .table)) ∧
      ((∀ b ∈ bytes, b.toNat ≤ 32) → kraftSum (bytes.map BitVec.toNat) ≤ 2 ^ 32 →
        ∃ es es', canonicalCodes (bytes.map BitVec.toNat) = some es ∧ (∀ x, x ∈ es' ↔ x ∈ es) ∧
          exec (.hufBuild t) s = .next
            (if tooManyNodes Config.core es' then s.corrupted .capacity
              else { s with ht := s.ht.set t.toNat (some es') t.isLt }))

/-- The canonical assignment (R194): it fails exactly where the lengths break the Kraft inequality; else the entries are those
of the used symbols in order, the table is prefix-free, (a) symbols of one length get consecutive codes in symbol order,
(b) shorter codes, padded, are smaller, and each padded code is the sum of the shares of the code space that the symbols
before it, by length and then by index, take up, so that the first code is 0 and nothing is left open. -/
def Obligations.CanonicalAssignment : Prop :=
  ∀ lens : List Nat, (∀ l ∈ lens, l ≤ 32) → lens.length ≤ 1024 →
    (canonicalCodes lens = none ↔ 2 ^ 32 < kraftSum lens) ∧
    ∀ es, canonicalCodes lens = some es →
      LawfulTable es ∧
      es.map (fun e => (e.len, e.sym)) =
        (lens.zipIdx.filter fun x => x.1 != 0).map (fun x => (x.1, BitVec.ofNat 32 x.2)) ∧
      (∀ pre e mid e' post, es = pre ++ e :: mid ++ e' :: post → e.len = e'.len → (∀ x ∈ mid, x.len ≠ e.len) →
        e'.code = e.code + 1) ∧
      (∀ e ∈ es, ∀ e' ∈ es, e.len < e'.len → e.code * 2 ^ (32 - e.len) < e'.code * 2 ^ (32 - e'.len)) ∧
      (∀ e ∈ es, e.code * 2 ^ (32 - e.len) = kraftSum ((lens.zipIdx.filter fun x =>
        x.1 < e.len || x.1 == e.len && decide (x.2 < e.sym.toNat)).map (·.1)))

/-- HUF.DECODE walks the slot's table over the bits of the stream, with either bit source: the symbol reached and exactly the
bits of its path, WalkOff where no path goes on, UnexpectedEnd where the bits that the source can deliver end inside a code,
WalkOff on the empty table before any bit is read (R195 to R197). -/
def Obligations.HufDecode : Prop :=
  ∀ (s : State) (t : BitVec 4) (src : BitSource) (es : List HufEntry), s.Ready → s.ht[t.toNat]'t.isLt = some es →
    s.ReaderSet → s.WholeStream →
    exec (.hufDecode t src) s = .next (match walkBits es (s.deliverable src) with
      | .ok (sym, k) => { s.afterBits src k with res0 := some sym }
      | .error c => s.corrupted c)

/-- The round trip (R200): from lengths that respect the Kraft inequality, a stream that presents the path of a constructed
code makes HUF.DECODE return its symbol and consume exactly its bits. -/
def Obligations.HufRoundTrip : Prop :=
  ∀ (lens : List Nat) (es tbl : List HufEntry) (e : HufEntry) (s : State) (t : BitVec 4) (src : BitSource),
    (∀ l ∈ lens, l ≤ 32) → lens.length ≤ 1024 → canonicalCodes lens = some es → (∀ x, x ∈ tbl ↔ x ∈ es) → e ∈ es →
    s.Ready → s.ht[t.toNat]'t.isLt = some tbl → s.CanRead src e.len → pathBits e <+: s.bitStream →
    exec (.hufDecode t src) s = .next { s.afterBits src e.len with res0 := some e.sym }

/-! ## The adaptive tracker -/

/-- DHUF.INIT creates the model for 1..1024 symbols; DHUF.UPDATE applies the OPEN update for a symbol of the model, Index for
another; DHUF.MAXF delivers the OPEN maximum; before an initialisation they raise Unset
(spec/42_adaptive_huffman.md R221, R223, R224). -/
def Obligations.TrackerCommands : Prop :=
  ∀ (s : State) (a : Word), s.Ready → s.arg0 = some a →
    (1 ≤ a.toNat → a.toNat ≤ 1024 →
      exec .dhufInit s = .next { s with dhuf := some { nsym := a, tree := some (Config.core.dhufInit a.toNat) } }) ∧
    (a.toNat = 0 ∨ 1024 < a.toNat → exec .dhufInit s = .next (s.corrupted .range)) ∧
    (∀ n tree, s.dhuf = some { nsym := n, tree := some tree } → n ≠ 0#32 →
      (a.toNat < n.toNat →
        exec .dhufUpdate s = .next { s with dhuf := some { nsym := n, tree := some (Config.core.dhufUpdate tree a.toNat) } }) ∧
      (n.toNat ≤ a.toNat → exec .dhufUpdate s = .next (s.corrupted .index)) ∧
      exec .dhufMaxf s = .next { s with res0 := some (Config.core.dhufMaxF tree) }) ∧
    (∀ tree, s.dhuf = some { nsym := 0#32, tree := tree } →
      exec .dhufUpdate s = .next (s.corrupted .unset) ∧ exec .dhufMaxf s = .next (s.corrupted .unset))

/-- DHUF.DECODE walks the current OPEN code set exactly as HUF.DECODE walks a slot, and leaves the model as it is; before
an initialisation it raises Unset (R222). -/
def Obligations.TrackerDecode : Prop :=
  ∀ (s : State) (src : BitSource), s.Ready →
    (∀ n tree, s.dhuf = some { nsym := n, tree := some tree } → n ≠ 0#32 → s.ReaderSet → s.WholeStream →
      exec (.dhufDecode src) s = .next (match walkBits (Config.core.dhufCodes tree) (s.deliverable src) with
        | .ok (sym, k) => { s.afterBits src k with res0 := some sym }
        | .error c => s.corrupted c)) ∧
    (∀ tree, s.dhuf = some { nsym := 0#32, tree := tree } → exec (.dhufDecode src) s = .next (s.corrupted .unset))

/-! ## Move-to-front -/

/-- MTF.INIT sets its list to 0 .. n−1 for n up to 256; MTF.ACCESS returns the element at an index and moves it to the
front, Index beyond the list (spec/45_bzp2.md R290, R291). -/
def Obligations.MtfCommands : Prop :=
  ∀ (s : State) (l : MtfStore) (a : Word), s.Ready → s.arg0 = some a →
    (a.toNat ≤ 256 → exec (.mtfInit l) s = .next (match l with
      | .selectors => { s with mtf0 := some (List.range a.toNat) }
      | .data => { s with mtf1 := some (List.range a.toNat) })) ∧
    (256 < a.toNat → exec (.mtfInit l) s = .next (s.corrupted .range)) ∧
    ∀ xs, (match l with | .selectors => s.mtf0 | .data => s.mtf1) = some xs →
      (∀ front e back, xs = front ++ e :: back → a.toNat = front.length → exec (.mtfAccess l) s = .next (match l with
        | .selectors => { s with mtf0 := some (e :: front ++ back), res0 := some (toWord e) }
        | .data => { s with mtf1 := some (e :: front ++ back), res0 := some (toWord e) })) ∧
      (xs.length ≤ a.toNat → exec (.mtfAccess l) s = .next (s.corrupted .index))

/-! ## The LZW unit -/

/-- LZW.SETUP validates and sizes the dictionary, and leaves every other field of it without value (spec/44_blzw.md R263). -/
def Obligations.LzwSetup : Prop :=
  ∀ (s : State) (m n : Word), s.Ready → s.arg0 = some m → s.arg1 = some n →
    (m.toNat < 9 ∨ 20 < m.toNat → exec .lzwSetup s = .next (s.corrupted .header)) ∧
    (9 ≤ m.toNat → m.toNat ≤ 20 → n.toNat < 1 ∨ 65540 < n.toNat → exec .lzwSetup s = .next (s.corrupted .range)) ∧
    (9 ≤ m.toNat → m.toNat ≤ 20 → 1 ≤ n.toNat → n.toNat ≤ 65540 → exec .lzwSetup s = .next
      { s with
        lzw := { maxBits := some m.toNat, stackLength := some n, codeBits := none, freeIndex := none, prevCode := none,
                 newCode := none, prefixes := [], suffixes := [], stack := s.lzw.stack, stackPos := s.lzw.stackPos } })

/-- LZW.RESTART restores a code width of 9 and 259 entries, reads the first code with 9 bits and writes it as a literal;
256..258 are Reserved there, a greater code is Index, a full output is Overrun, and a stream that ends before the 9 bits is
UnexpectedEnd (R265). Without LZW.SETUP, which gives maxBits its value, it raises Unset
(spec/70_reset_and_hazards.md R506), before any of these by the model's choice (log 13). -/
def Obligations.LzwRestart : Prop :=
  (∀ s : State, s.Ready → s.lzw.maxBits = none → exec .lzwRestart s = .next (s.corrupted .unset)) ∧
  ∀ (s : State) (m : Nat), s.Ready → s.lzw.maxBits = some m →
    (s.ReaderSet → s.WholeStream → ¬ s.CanRead .group8 9 →
      exec .lzwRestart s = .next (s.corrupted .unexpectedEnd)) ∧
    ∀ c, s.CanRead .group8 9 → c = bitsValue (s.bitStream.take 9) →
      (256 ≤ c → c ≤ 258 → exec .lzwRestart s = .next (s.corrupted .reserved)) ∧
      (259 ≤ c → exec .lzwRestart s = .next (s.corrupted .index)) ∧
      (c < 256 → ∀ f, s.fwr = some f →
        (f.stop.toNat ≤ f.pos.toNat → exec .lzwRestart s = .next (s.corrupted .overrun)) ∧
        (f.pos.toNat < f.stop.toNat → ∃ raw stack,
          exec .lzwRestart s = .next
            { s.afterBits .group8 9 with
              raw := raw, fwr := some { start := f.start, pos := f.pos + 1, stop := f.stop },
              lzw := { s.lzw with
                codeBits := some 9, freeIndex := some 259, prevCode := some (toWord c), newCode := some (toWord c),
                stack := stack, stackPos := some 0 } } ∧
          ∀ k, storeRead raw k = if k = f.pos.toNat then some (truncByte c) else storeRead s.raw k))

/-- LZW.STEP on a code up to the next free index (R264, R266): the string of the code, or, for the next free index, the
previous string and its own first byte, goes to the output; while space remains the dictionary gains the entry that pairs the
previous code with the string's first byte; the code becomes the previous code. Capacity where the string of the code (of
the previous code, for the next free index) is longer than stackLength, which is found before a byte is written; Overrun
where the output has no room for all of it; Index where the next free index follows a code that a full dictionary did not
take. -/
def Obligations.LzwStep : Prop :=
  ∀ (s : State) (f : Fwr) (n m free code : Nat) (prev first len : Word),
    s.Ready → LzwForm s.lzw → s.fwr = some f → f.pos.toNat ≤ f.stop.toNat → s.lzw.codeBits = some n →
    s.lzw.maxBits = some m → s.lzw.freeIndex = some free → s.lzw.prevCode = some prev → s.lzw.newCode = some first →
    s.lzw.stackLength = some len → n ≤ 32 → s.CanRead .group8 n → code = bitsValue (s.bitStream.take n) →
    code ≠ 256 → code ≠ 257 → code ≠ 258 → code ≤ free →
    (code = free → free ≤ prev.toNat → exec .lzwStep s = .next (s.corrupted .index)) ∧
    ∀ old string : List Byte,
      (code < free ∧ lzwString s.lzw free code = some old ∧ string = old ∨
        code = free ∧ prev.toNat < free ∧ lzwString s.lzw free prev.toNat = some old ∧
          string = old ++ [truncByte first.toNat]) →
      (len.toNat < old.length → exec .lzwStep s = .next (s.corrupted .capacity)) ∧
      (old.length ≤ len.toNat → f.stop.toNat < f.pos.toNat + string.length →
        exec .lzwStep s = .next (s.corrupted .overrun)) ∧
      (old.length ≤ len.toNat → f.pos.toNat + string.length ≤ f.stop.toNat →
        ∃ t, exec .lzwStep s = .next t ∧ Changes [.dictionary, .reader, .writer, .output, .result] s t ∧
          t.res0 = some (toWord code) ∧
          (t.fcur, t.bitsAcc, t.bitsCnt) =
            ((s.afterBits .group8 n).fcur, (s.afterBits .group8 n).bitsAcc, (s.afterBits .group8 n).bitsCnt) ∧
          WroteForward f string s t ∧ t.lzw.codeBits = some n ∧ t.lzw.maxBits = some m ∧
          t.lzw.stackLength = some len ∧ t.lzw.prevCode = some (toWord code) ∧
          (∃ b, string[0]? = some b ∧ t.lzw.newCode = some (b.setWidth 32) ∧
            (free < 2 ^ m → t.lzw.freeIndex = some (free + 1) ∧
              (∀ k, storeRead t.lzw.prefixes k = if k = free - 259 then some prev else storeRead s.lzw.prefixes k) ∧
              (∀ k, storeRead t.lzw.suffixes k = if k = free - 259 then some b else storeRead s.lzw.suffixes k)) ∧
            (2 ^ m ≤ free → t.lzw.freeIndex = some free ∧ t.lzw.prefixes = s.lzw.prefixes ∧
              t.lzw.suffixes = s.lzw.suffixes)))

/-- The codes of LZW.STEP that write no string of the dictionary (R266): 256 is Reserved, 257 runs LZW.RESTART on the bits
that follow, 258 widens the code by one bit without a check against maxBits, and a code above the next free index is Index;
a width that has grown above 32 is Range before any bit is read. -/
def Obligations.LzwControlCodes : Prop :=
  ∀ (s : State) (n : Nat), s.Ready → s.lzw.codeBits = some n →
    (32 < n → exec .lzwStep s = .next (s.corrupted .range)) ∧
    ∀ code, n ≤ 32 → s.CanRead .group8 n → code = bitsValue (s.bitStream.take n) →
      (code = 256 → exec .lzwStep s = .next (s.corrupted .reserved)) ∧
      (code = 257 → ∀ t, exec .lzwRestart (s.afterBits .group8 n) = .next t →
        exec .lzwStep s = .next (if t.status.faulted then t else { t with res0 := some 257#32 })) ∧
      (code = 258 → exec .lzwStep s = .next
        { s.afterBits .group8 n with lzw := { s.lzw with codeBits := some (n + 1) }, res0 := some 258#32 }) ∧
      (∀ free, s.lzw.freeIndex = some free → 259 ≤ code → free < code → exec .lzwStep s = .next (s.corrupted .index))

/-! ## The BZ pipeline -/

/-- BZ.START sets the block size, the running CRC to 0 and the two fixed tables, and empties BLK; Header for a size of 0 or
above 900000 (spec/45_bzp2.md R295). -/
def Obligations.BzStart : Prop :=
  ∀ (s : State) (n : Word), s.Ready → s.arg0 = some n →
    (n.toNat = 0 ∨ 900000 < n.toNat → exec .bzStart s = .next (s.corrupted .header)) ∧
    (1 ≤ n.toNat → n.toNat ≤ 900000 → exec .bzStart s = .next
      { s with
        bz := { s.bz with blockSize := some n.toNat, crc := some 0#32, blk := none },
        ht := (s.ht.set 6 (some [⟨1, 0b0, 0#32⟩, ⟨2, 0b10, 1#32⟩, ⟨3, 0b110, 2#32⟩, ⟨4, 0b1110, 3#32⟩,
          ⟨5, 0b11110, 4#32⟩, ⟨6, 0b111110, 5#32⟩])).set 7
            (some [⟨1, 0b0, 0#32⟩, ⟨2, 0b10, 1#32⟩, ⟨2, 0b11, 0xFFFFFFFF#32⟩]) })

/-- BZ.BLOCK at the end marker compares the 32 bits after it with the running CRC: equal gives RES[0] = 0, another value
raises WrongBlockChecksum, and Unset where BZ.START has not run (spec/70_reset_and_hazards.md R506); a marker that is neither
of the two raises Magic (R296, R315, R473). -/
def Obligations.BzEndMarker : Prop :=
  ∀ s : State, s.Ready →
    (s.CanRead .group8 48 → bitsValue (s.bitStream.take 48) ≠ 0x177245385090 →
      bitsValue (s.bitStream.take 48) ≠ 0x314159265359 → exec .bzBlock s = .next (s.corrupted .magic)) ∧
    (s.bz.crc = none → s.CanRead .group8 80 → bitsValue (s.bitStream.take 48) = 0x177245385090 →
      exec .bzBlock s = .next (s.corrupted .unset)) ∧
    ∀ crc, s.bz.crc = some crc → s.CanRead .group8 80 → bitsValue (s.bitStream.take 48) = 0x177245385090 →
      (bitsValue ((s.bitStream.drop 48).take 32) = crc.toNat →
        exec .bzBlock s = .next { s.afterBits .group8 80 with res0 := some 0#32 }) ∧
      (bitsValue ((s.bitStream.drop 48).take 32) ≠ crc.toNat →
        exec .bzBlock s = .next (errorEntry false .wrongBlockChecksum none s))

/-- BZ.BLOCK after the block marker reads what `blockFields` reads (R296 to R303) and delivers 1: the fields, the alphabet, the
selectors through their move-to-front list, the delta-coded tables, and the body, whose symbols are run digits, places of the
alphabet's move-to-front list, and the end symbol, with 50 symbols to a selector. It fails as `blockFields` does, with Header,
WalkOff, Index, Range, Table, Capacity and UnexpectedEnd. HUF_NODE_MAX is OPEN, and its count has the root (log 22).
So every block over an alphabet of one byte, whose body is a row of run digits and the end symbol, gives as many copies of
the byte as the digits say in bijective base 2; Capacity where that passes the block size. -/
def Obligations.BzRunBlock : Prop :=
  (∀ (s : State) (size : Nat) (bits : List Bool),
    s.Ready → s.ht[6] = some selectorTable → s.ht[7] = some deltaTable → s.bz.blockSize = some size →
    s.ReaderSet → s.WholeStream → s.bitStream = bitsOf 48 0x314159265359 ++ bits →
    match blockFields Config.core size bits with
    | .error c => exec .bzBlock s = .next (s.corrupted c)
    | .ok (b, rest) => ∃ t, exec .bzBlock s = .next t ∧
      Changes [.block, .tables, .lists, .lengths, .reader, .result] s t ∧ t.res0 = some 1#32 ∧ t.bitStream = rest ∧
      t.bz.blk = some b.block ∧ t.bz.randomised = some b.randomised ∧ t.bz.origPtr = some b.origPtr ∧
      t.bz.values = some b.values ∧ t.bz.nGroups = some b.tables.length ∧ t.bz.nSelectors = some b.nSelectors ∧
      t.bz.selectors = some b.selectors ∧ t.bz.crc = s.bz.crc ∧ t.bz.blockSize = some size ∧
      ∀ g : Fin 16, match b.tables[g.val]? with
        | some es => ∃ es', t.ht[g] = some es' ∧ ∀ x, x ∈ es' ↔ x ∈ es
        | none => t.ht[g] = s.ht[g]) ∧
  ∀ (s : State) (crc : Word) (randomised : Bool) (origPtr : BitVec 24) (v : Byte) (digits rest : List Bool) (size : Nat),
    s.Ready → s.ht[6] = some selectorTable → s.ht[7] = some deltaTable → s.bz.blockSize = some size →
    digits.length ≤ 49 → (runLengthOf digits = 0 ∨ origPtr.toNat < runLengthOf digits) →
    s.ReaderSet → s.WholeStream → s.bitStream = runBlockBits crc randomised origPtr v digits ++ rest →
    ∃ t, exec .bzBlock s = .next
        (if tooManyNodes Config.core runBlockTable then s.corrupted .capacity
          else if size < runLengthOf digits then s.corrupted .capacity else t) ∧
      Changes [.block, .tables, .lists, .lengths, .reader, .result] s t ∧ t.res0 = some 1#32 ∧
      t.bz.blk = some (List.replicate (runLengthOf digits) v) ∧ t.bz.randomised = some randomised ∧
      t.bz.origPtr = some origPtr ∧ t.bz.values = some [v] ∧ t.bz.nGroups = some 2 ∧ t.bz.nSelectors = some 1 ∧
      t.bz.selectors = some [0] ∧ t.bz.crc = s.bz.crc ∧ t.bz.blockSize = some size ∧
      t.ht[0] = some runBlockTable ∧ t.ht[1] = some runBlockTable ∧
      t.fcur = (s.afterBits .group8 (runBlockBits crc randomised origPtr v digits).length).fcur ∧
      t.bitsCnt = (s.afterBits .group8 (runBlockBits crc randomised origPtr v digits).length).bitsCnt

/-- BZ.UNBWT writes the final run-length expansion of its inverse BWT, derandomised first where the block's flag is 1 (with
the OPEN table), folds the CRC of exactly the bytes written into the running CRC, and leaves BLK without value; Overrun where
the bytes do not fit; an empty block writes nothing and rotates the CRC (R303, R310 to R315). -/
def Obligations.BzUnbwt : Prop :=
  ∀ (s : State) (f : Fwr) (blk : List Byte) (crc : Word) (origPtr : BitVec 24) (randomised : Bool) (out : List Byte),
    s.Ready → s.fwr = some f → s.bz.blk = some blk → s.bz.crc = some crc → s.bz.origPtr = some origPtr →
    s.bz.randomised = some randomised → (blk = [] ∨ origPtr.toNat < blk.length) → f.pos.toNat ≤ f.stop.toNat →
    out = unbwtBytes Config.core.bzRandTable randomised blk origPtr.toNat →
    (f.stop.toNat < f.pos.toNat + out.length → exec .bzUnbwt s = .next (s.corrupted .overrun)) ∧
    (f.pos.toNat + out.length ≤ f.stop.toNat → ∃ t, exec .bzUnbwt s = .next t ∧
      Changes [.block, .writer, .output] s t ∧ t.bz.blk = none ∧
      t.bz.crc = some (crc.rotateLeft 1 ^^^ messageCrc out) ∧ t.bz.blockSize = s.bz.blockSize ∧
      WroteForward f out s t)

/-! ## The arithmetic decoder -/

/-- ARI.INIT makes the state the OPEN initial one and sets SHRI_VALID; ARI.UPDATE applies the OPEN update for a symbol up to
498, Index above; ARI.SCALE is pure and delivers the OPEN result, ZeroDivisor where there is none; without state ARI.UPDATE
raises Unset (spec/47_shri.md R394, R395, R399). That a failed ARI.SCALE takes ARI's value away too is log 30. -/
def Obligations.AriCommands : Prop :=
  ∀ s : State, s.Ready →
    exec .ariInit s = .next { s with ari := some Config.core.shriInit, status := { s.status with shriValid := true } } ∧
    (∀ a b c, s.arg0 = some a → s.arg1 = some b → s.arg2 = some c →
      exec .ariScale s = .next (match Config.core.shriScale a b c with
        | some r => { s with res0 := some r }
        | none => s.corruptedAri .zeroDivisor)) ∧
    (∀ a, s.arg0 = some a →
      (s.status.shriValid = false → exec .ariUpdate s = .next (s.corruptedAri .unset)) ∧
      (∀ ari, s.status.shriValid = true → s.ari = some ari →
        (∀ h : a.toNat < 499,
          exec .ariUpdate s = .next { s with ari := some (Config.core.shriUpdate ari ⟨a.toNat, h⟩) }) ∧
        (498 < a.toNat → exec .ariUpdate s = .next (s.corruptedAri .index))))

/-- ARI.GETCODE and ARI.DECSYM run their OPEN stream function on the upcoming bits: the bits it takes are consumed, ARI is its
new state, of which ARI.DECSYM changes the stream registers only, RES[0] its value; ZeroDivisor where it says so,
UnexpectedEnd where the bits end first, Unset without state (R396 to R398). The tree form of the functions, with
UnexpectedEnd before ZeroDivisor, is log 3. -/
def Obligations.AriStreamCommands : Prop :=
  ∀ (s : State), s.Ready →
    (s.status.shriValid = false ∨ s.ari = none →
      (∀ n : BitVec 6, n.toNat ≤ 32 → exec (.ariGetcode n) s = .next (s.corruptedAri .unset)) ∧
      exec .ariDecsym s = .next (s.corruptedAri .unset)) ∧
    ∀ ari, s.status.shriValid = true → s.ari = some ari → s.ReaderSet → s.WholeStream →
      (∀ n : BitVec 6, n.toNat ≤ 32 → exec (.ariGetcode n) s = .next
        (match treeRead (Config.core.shriGetCode ari n.toNat) s.bitStream with
          | none => s.corruptedAri .unexpectedEnd
          | some (none, _) => s.corruptedAri .zeroDivisor
          | some (some (ari', v), k) => { s.afterBits .group8 k with ari := some ari', res0 := some (toWord v.toNat) })) ∧
      exec .ariDecsym s = .next
        (match treeRead (Config.core.shriDecodeSymbol ari) s.bitStream with
          | none => s.corruptedAri .unexpectedEnd
          | some (none, _) => s.corruptedAri .zeroDivisor
          | some (some (regs, sym), k) =>
            { s.afterBits .group8 k with
              ari := some { vLen := regs.vLen, vNext := regs.vNext, shift := regs.shift, freq := ari.freq },
              res0 := some (toWord sym.val) })

/-! ## The macro commands -/

/-- DECOMPRESS.BLZW decodes a stream of literals (spec/44_blzw.md R261 to R266): for every width limit 9..20, stack word and
bytes, the chunk of the header and one 9-bit code for each byte fills RAW with the bytes, whatever follows the last code;
each code after the first adds a dictionary entry while space remains. -/
def Obligations.BlzwLiterals : Prop :=
  ∀ (s : State) (m : Nat) (hv0 hv1 : Byte) (body out : List Byte) (rest : List Bool), s.Ready → 9 ≤ m → m ≤ 20 →
    memBytes s.chunk 0 s.chunkLen.toNat = some (0#8 :: truncByte m :: hv0 :: hv1 :: body) →
    out ≠ [] → out.length = s.rawLen.toNat → byteBits body = (out.flatMap fun b => bitsOf 9 b.toNat) ++ rest →
    ∃ t, exec .decompressBlzw s = .next t ∧
      Changes [.result, .otherResult, .code, .reader, .writer, .output, .dictionary] s t ∧ t.Clean ∧
      memBytes t.raw 0 s.rawLen.toNat = some out ∧ t.lzw.freeIndex = some (min (258 + out.length) (2 ^ m)) ∧
      t.lzw.codeBits = some 9

/-- DECOMPRESS.BLZW with an empty output buffer fails with Overrun, since the first code is written before the loop tests
the end (R261, spec/43_decompress_common.md R246); DECOMPRESS.LHLB and DECOMPRESS.MASH succeed at once, having set up their
reader, writer and unit (spec/46_lhlb_mash_rake.md R351, R361; that MASH clears slot 0 and leaves it empty is logs 18
and 36).
On an output that is not empty LHLB takes a turn (R351, R352; a symbol beyond the model is Index by log 16): one symbol of
the tracker's code, the update unless the maximum has reached 0x8000 (spec/42_adaptive_huffman.md R225), then a byte, or a
copy whose distance field follows; 316 is Reserved. -/
def Obligations.EmptyOutputs : Prop :=
  (∀ (s : State) (f : Fwr) (tree : DhufTree) (reach : List Byte),
    s.dhuf = some { nsym := 317#32, tree := some tree } → s.fwr = some f → f.start.toNat ≤ f.pos.toNat →
    f.pos.toNat ≤ f.stop.toNat → memBytes s.raw f.start.toNat (f.pos.toNat - f.start.toNat) = some reach →
    s.ReaderSet → s.WholeStream →
    match lhlbToken Config.core tree s.bitStream with
    | .error c => Raises (lhlbTurn Config.core) s c
    | .ok ((tree', token), rest) =>
      match token.refusal reach (f.stop.toNat - f.pos.toNat) with
      | some c => Raises (lhlbTurn Config.core) s c
      | none => ∃ t, lhlbTurn Config.core s = .ok true t ∧ Changes [.reader, .writer, .output, .tracker] s t ∧
        t.bitStream = rest ∧ t.dhuf = some { nsym := 317#32, tree := some tree' } ∧
        WroteForward f (token.bytes reach) s t) ∧
  ∀ s : State, s.Ready → s.rawLen = 0#32 →
    (∀ m hv0 hv1 body c, memBytes s.chunk 0 s.chunkLen.toNat = some (0#8 :: m :: hv0 :: hv1 :: body) →
      9 ≤ m.toNat → m.toNat ≤ 20 → 2 ≤ body.length → bitsValue ((byteBits body).take 9) = c → c < 256 →
      exec .decompressBlzw s = .next (s.corrupted .overrun)) ∧
    exec .decompressLhlb s = .next
      { s.ended with
        fwr := some ⟨0#32, 0#32, 0#32⟩, fcur := some ⟨0#32, s.chunkLen⟩, bitsAcc := some 0#32, bitsCnt := some 0,
        dhuf := some { nsym := 317#32, tree := some (Config.core.dhufInit 317) } } ∧
    exec .decompressMash s = .next
      { s.ended with
        fwr := some ⟨0#32, 0#32, 0#32⟩, fcur := some ⟨0#32, s.chunkLen⟩, bitsAcc := some 0#32, bitsCnt := some 0,
        ht := s.ht.set 0 (some []) }

/-- DECOMPRESS.BZP2 on the stream of no blocks (spec/45_bzp2.md R293, R294, spec/43_decompress_common.md R246): the header
with digit 1..9, the end marker and a stored CRC. With CRC 0 it succeeds on an empty output and raises UnderFill on
another; with a CRC that is not 0 it raises WrongBlockChecksum, which is compared first. -/
def Obligations.Bzp2NoBlocks : Prop :=
  ∀ (s : State) (digit : Byte) (stored : Word) (rest : List Byte), s.Ready → 0x31 ≤ digit.toNat → digit.toNat ≤ 0x39 →
    memBytes s.chunk 0 s.chunkLen.toNat =
      some ([0x42#8, 0x5A#8, 0x68#8, digit, 0x17#8, 0x72#8, 0x45#8, 0x38#8, 0x50#8, 0x90#8,
        stored.extractLsb' 24 8, stored.extractLsb' 16 8, stored.extractLsb' 8 8, stored.extractLsb' 0 8] ++ rest) →
    (stored ≠ 0#32 → exec .decompressBzp2 s = .next (errorEntry false .wrongBlockChecksum none s)) ∧
    (stored = 0#32 → s.rawLen ≠ 0#32 → exec .decompressBzp2 s = .next (s.corrupted .underFill)) ∧
    (stored = 0#32 → s.rawLen = 0#32 → ∃ t, exec .decompressBzp2 s = .next t ∧ t.Clean ∧
      Changes [.result, .otherResult, .code, .reader, .writer, .output, .block, .tables, .lists, .lengths] s t ∧
      t.raw = s.raw ∧ t.fcur = some { pos := 14#32, stop := s.chunkLen } ∧
      t.bz.blockSize = some ((digit.toNat - 0x30) * 100000) ∧ t.bz.crc = some 0#32)

/-- DECOMPRESS.RAKE and DECOMPRESS.SQSH with an empty output (spec/46_lhlb_mash_rake.md R371 to R374,
spec/48_smpl_sqsh.md R441): the OPEN header function accepts or rejects the chunk, the readers are placed as it says, and
the command succeeds; RAKE has built slot 0 from the 255 OPEN lengths. What the header functions read, how the
clear acts, what RAKE sets up, how HUF_NODE_MAX counts and that the slots of SQSH stay empty are logs 4, 18, 19, 22 and 36.
On an output that is not empty RAKE takes a turn (R373, R375): a control bit, then the next byte of the backward stream, or
a length symbol of slot 0 and a distance of one of the three tiers, whose last byte comes from the backward stream. -/
def Obligations.RakeSqshEmpty : Prop :=
  (∀ (s : State) (f : Bwr) (es : List HufEntry) (reach : List Byte),
    s.ht[0] = some es → s.bwr = some f → f.floor.toNat ≤ f.pos.toNat → f.pos.toNat ≤ f.top.toNat →
    memBytes s.raw f.pos.toNat (f.top.toNat - f.pos.toNat) = some reach.reverse → s.ReaderSet → s.WholeStream →
    match rakeToken Config.core es s.backByte s.bitStream with
    | .error c => Raises (rakeTurn Config.core) s c
    | .ok (token, rest) =>
      match token.refusal reach (f.pos.toNat - f.floor.toNat) with
      | some c => Raises (rakeTurn Config.core) s c
      | none => ∃ t, rakeTurn Config.core s = .ok true t ∧ Changes [.reader, .backCursor, .backWriter, .output] s t ∧
        t.bitStream = rest ∧ t.bcur = s.bcur.map (fun b => { pos := b.pos - 1, floor := b.floor }) ∧
        WroteBackward f (token.bytes reach) s t) ∧
  ∀ (s : State) (bytes : List Byte), s.Ready → s.rawLen = 0#32 →
    memBytes s.chunk 0 s.chunkLen.toNat = some bytes →
    (∃ lens es, memBytes lens 0 255 = some ((List.finRange 255).map fun k =>
          truncByte ((Config.core.rakeLenLess1 k).val + 1)) ∧
        (∀ k, 255 ≤ k → storeRead lens k = storeRead s.lenm k) ∧
        (∀ x, x ∈ es ↔ ∃ cs, canonicalCodes ((List.finRange 255).map fun k => (Config.core.rakeLenLess1 k).val + 1) =
          some cs ∧ x ∈ cs) ∧
        exec .decompressRake s = .next (match Config.core.rakeHeader bytes with
          | none => s.corrupted .header
          | some h =>
            if h.mid.toNat < 4 ∨ s.chunkLen.toNat < h.mid.toNat ∨ s.chunkLen.toNat < h.fstart.toNat then
              s.corrupted .range
            else if (canonicalCodes ((List.finRange 255).map fun k => (Config.core.rakeLenLess1 k).val + 1)).isNone then
              s.corrupted .table
            else if tooManyNodes Config.core es then s.corrupted .capacity
            else
              { s.ended with
                bwr := some ⟨0#32, 0#32, 0#32⟩, bcur := some { pos := h.mid, floor := 4#32 },
                fcur := some { pos := h.fstart, stop := s.chunkLen }, bitsAcc := some h.seedBits,
                bitsCnt := some h.seedCount.val, ht := s.ht.set 0 (some es), lenm := lens })) ∧
    exec .decompressSqsh s = .next (match Config.core.sqshHeader bytes with
      | none => s.corrupted .header
      | some fstart =>
        if s.chunkLen.toNat < fstart.toNat then s.corrupted .range
        else
          { s.ended with
            fwr := some ⟨0#32, 0#32, 0#32⟩, fcur := some { pos := fstart, stop := s.chunkLen },
            bitsAcc := some 0#32, bitsCnt := some 0,
            ht := ((s.ht.set 0 (some [])).set 1 (some [])).set 2 (some []),
            sqshQ := some Config.core.sqshQInit, sqshSample := none })

/-- DECOMPRESS.SHRI and its version byte (spec/47_shri.md R391, R392, R410, R412): an empty chunk is UnexpectedEnd, a version
other than 1 and 2 is Header, version 2 without state is Unset; on an empty output version 1 starts the model, version 2
keeps it, and an empty buffer is appended to the history, HIST_MAX and the header function being OPEN (log 4).
On an output that is not empty a turn decodes a symbol, updates the model with it, and writes a byte or copies, the distance
reaching into the history (R391, R400 to R402): 498 reads count and distance as two codes of 16 bits. The tree form of the
OPEN functions is log 3. -/
def Obligations.ShriVersions : Prop :=
  (∀ (s : State) (f : Fwr) (a : Ari) (written : List Byte),
    s.status.shriValid = true → s.ari = some a → s.fwr = some f → f.start.toNat ≤ f.pos.toNat →
    f.pos.toNat ≤ f.stop.toNat → memBytes s.raw f.start.toNat (f.pos.toNat - f.start.toNat) = some written →
    s.ReaderSet → s.WholeStream →
    match shriToken Config.core a s.bitStream with
    | .error c => Raises (shriTurn Config.core) s c
    | .ok ((a', token), rest) =>
      match token.refusal (s.hist.flatten ++ written) (f.stop.toNat - f.pos.toNat) with
      | some c => Raises (shriTurn Config.core) s c
      | none => ∃ t, shriTurn Config.core s = .ok true t ∧ Changes [.reader, .writer, .output, .arith] s t ∧
        t.bitStream = rest ∧ t.ari = some a' ∧ WroteForward f (token.bytes (s.hist.flatten ++ written)) s t) ∧
  ∀ s : State, s.Ready →
    (s.chunkLen = 0#32 → exec .decompressShri s = .next (s.corruptedAri .unexpectedEnd)) ∧
    ∀ ver, s.chunkLen ≠ 0#32 → storeRead s.chunk 0 = some ver →
      (ver ≠ 1#8 → ver ≠ 2#8 → exec .decompressShri s = .next (s.corruptedAri .header)) ∧
      (ver = 2#8 → s.status.shriValid = false → exec .decompressShri s = .next (s.corruptedAri .unset)) ∧
      ∀ bytes, memBytes s.chunk 0 s.chunkLen.toNat = some bytes → s.rawLen = 0#32 →
        ∀ start : State, (ver = 1#8 ∧ start =
            { s with ari := some Config.core.shriInit, status := { s.status with shriValid := true } } ∨
          ver = 2#8 ∧ s.status.shriValid = true ∧ start = s) →
        exec .decompressShri s = .next (match Config.core.shriHeader bytes with
          | none => start.corruptedAri .header
          | some h =>
            if s.chunkLen.toNat < h.fstart.toNat then start.corruptedAri .range
            else if passes (s.hist.length + 1) Config.core.histMaxBuffers ||
                passes (s.hist.map List.length).sum Config.core.histMaxBytes then start.corruptedAri .capacity
            else
              { start.ended with
                fwr := some ⟨0#32, 0#32, 0#32⟩, fcur := some { pos := h.fstart, stop := s.chunkLen },
                bitsAcc := some h.seedBits, bitsCnt := some h.seedCount.val, hist := s.hist ++ [[]] })

/-- DECOMPRESS.SMPL reads its table (spec/48_smpl_sqsh.md R432): 256 lengths of four bits, 15 being followed by four more, with
the code after each length that is not 0 (mode A) or with the canonical codes of all (mode B), and fails as
`smplTableFields` does, with UnexpectedEnd, Table and Capacity (HUF_NODE_MAX is OPEN, log 22). With an empty output it then
succeeds (R431, R433). On a chunk of zeros every length is 0 and the table has no entry: it succeeds once its 128 bytes
have been read, and fails with UnexpectedEnd where they are not there. The header function and the table mode are OPEN
(log 4). -/
def Obligations.SmplEmpty : Prop :=
  (∀ (s : State) (bytes : List Byte), s.Ready → s.rawLen = 0#32 →
    memBytes s.chunk 0 s.chunkLen.toNat = some bytes →
    match Config.core.smplHeader bytes with
    | none => exec .decompressSmpl s = .next (s.corrupted .header)
    | some fstart =>
      if s.chunkLen.toNat < fstart.toNat then exec .decompressSmpl s = .next (s.corrupted .range)
      else
        match smplTableFields Config.core (byteBits (bytes.drop fstart.toNat)) with
        | .error c => exec .decompressSmpl s = .next (s.corrupted c)
        | .ok ((lens, es), rest) => ∃ t, exec .decompressSmpl s = .next t ∧ t.Clean ∧
          Changes [.result, .otherResult, .code, .reader, .writer, .tables, .lengths, .smpl] s t ∧
          t.res0 = none ∧ t.res1 = none ∧ t.bitStream = rest ∧ t.fwr = some ⟨0#32, 0#32, 0#32⟩ ∧
          t.smplAcc = some Config.core.smplAccInit ∧
          (∀ k, storeRead t.lenm k = (lens[k]?.map truncByte).or (storeRead s.lenm k)) ∧
          (∃ es', t.ht[0] = some es' ∧ ∀ x, x ∈ es' ↔ x ∈ es) ∧ ∀ g : Fin 16, g ≠ 0 → t.ht[g] = s.ht[g]) ∧
  ∀ s : State, s.Ready → s.rawLen = 0#32 →
    memBytes s.chunk 0 s.chunkLen.toNat = some (List.replicate s.chunkLen.toNat 0#8) →
    ∃ zeros, (∀ k, storeRead zeros k = if k < 256 then some 0#8 else storeRead s.lenm k) ∧
      exec .decompressSmpl s = .next
        (match Config.core.smplHeader (List.replicate s.chunkLen.toNat 0#8) with
          | none => s.corrupted .header
          | some fstart =>
            if s.chunkLen.toNat < fstart.toNat then s.corrupted .range
            else if s.chunkLen.toNat < fstart.toNat + 128 then s.corrupted .unexpectedEnd
            else
              { s.ended with
                fwr := some ⟨0#32, 0#32, 0#32⟩, fcur := some { pos := fstart + 128#32, stop := s.chunkLen },
                bitsAcc := some 0#32, bitsCnt := some 0, ht := s.ht.set 0 (some []),
                lenm := (match Config.core.smplTableMode with | .explicit => s.lenm | .canonical => zeros),
                smplAcc := some Config.core.smplAccInit })

/-! ## Laws of the main loops, for every choice of the OPEN items -/

/-- The main loop of SMPL (R431, R433): where the stream decodes to as many symbols as the output has room, output byte j is
the accumulator plus the first j + 1 deltas, modulo 256, and exactly those symbols are decoded. -/
def Obligations.SmplSums : Prop :=
  ∀ (s : State) (f : Fwr) (es : List HufEntry) (acc : Byte) (syms : List Word) (rest : List Bool),
    s.ht[0] = some es → s.smplAcc = some acc → s.fwr = some f → f.pos.toNat ≤ f.stop.toNat →
    s.ReaderSet → s.WholeStream →
    walkMany es (f.stop.toNat - f.pos.toNat) s.bitStream = some (syms, rest) →
    ∃ t, whileNotEof smplTurn (f.stop.toNat - f.pos.toNat + 1) s = .ok () t ∧
      Changes [.reader, .writer, .output, .smpl] s t ∧ t.bitStream = rest ∧
      t.fwr = some { start := f.start, pos := f.stop, stop := f.stop } ∧
      memBytes t.raw f.pos.toNat (f.stop.toNat - f.pos.toNat) =
        some (runningSums acc (syms.map fun d => d.setWidth 8)) ∧
      ∀ k, k < f.pos.toNat ∨ f.stop.toNat ≤ k → storeRead t.raw k = storeRead s.raw k

/-- A turn of MASH (spec/46_lhlb_mash_rake.md R361): a literal run, each literal read and written, Overrun where it does not
fit, then a match; its OPEN fields stand as bit trees (logs 3, 36). At its end (R365, R366) a distance of 0 ends the
loop where the output is full and is ZeroDistance elsewhere; another match is clamped to the space left, so it never
overruns, and copies that many bytes. -/
def Obligations.MashMatchEnds : Prop :=
  (∀ (s : State) (f : Fwr) (reach : List Byte),
    s.fwr = some f → f.start.toNat ≤ f.pos.toNat → f.pos.toNat ≤ f.stop.toNat →
    memBytes s.raw f.start.toNat (f.pos.toNat - f.start.toNat) = some reach → s.ReaderSet → s.WholeStream →
    match mashBytes Config.core reach (f.stop.toNat - f.pos.toNat) s.bitStream with
    | .error c => Raises (mashTurn Config.core) s c
    | .ok ((goesOn, bytes), rest) => ∃ t, mashTurn Config.core s = .ok goesOn t ∧
      Changes [.reader, .writer, .output] s t ∧ t.bitStream = rest ∧ WroteForward f bytes s t) ∧
  ∀ (s : State) (f : Fwr) (m : MashMatch) (room : Nat), s.fwr = some f → f.start.toNat ≤ f.pos.toNat →
    f.pos.toNat ≤ f.stop.toNat → room = f.stop.toNat - f.pos.toNat →
    (m.distance = 0 → room = 0 → mashMatchEnd m s = .ok false s) ∧
    (m.distance = 0 → room ≠ 0 → mashMatchEnd m s = .error (.corrupt .zeroDistance) s) ∧
    (m.distance ≠ 0 → room = 0 → mashMatchEnd m s = .ok true s) ∧
    (m.distance ≠ 0 → room ≠ 0 → f.pos.toNat < f.start.toNat + m.distance →
      mashMatchEnd m s = .error (.corrupt .distance) s) ∧
    (m.distance ≠ 0 → room ≠ 0 → f.start.toNat + m.distance ≤ f.pos.toNat →
      (∀ k, f.pos.toNat - m.distance ≤ k → k < f.pos.toNat → ∃ b, storeRead s.raw k = some b) →
      ∃ raw, mashMatchEnd m s = .ok true
          { s with
            raw := raw,
            fwr := some { start := f.start, pos := f.pos + toWord (min (m.countLess2 + 2) room), stop := f.stop } } ∧
        (∀ i, i < min (m.countLess2 + 2) room →
          storeRead raw (f.pos.toNat + i) = storeRead s.raw (f.pos.toNat - m.distance + i % m.distance)) ∧
        ∀ k, k < f.pos.toNat ∨ f.pos.toNat + min (m.countLess2 + 2) room ≤ k → storeRead raw k = storeRead s.raw k)

/-- A literal run of SQSH (spec/48_smpl_sqsh.md R442 (c)): each field of `w` bits, read as a two's complement number, is
subtracted from the running sample modulo 256, and each sample is written. A repeat (R442 (a), (b)) reads a bucket and its extra
bits for the length, then a way and its bits for the distance, and copies; whether it leaves the last byte copied in the
sample register is OPEN. A turn (R441) lets SqshMode choose between the two and takes its new state. The first byte of an
output that is not empty is the value of SQSH_FIRST (R443); an output of one byte ends there. The field decoders stand
apart from the HUF slots (log 36), and the header function gets all of CHUNK (log 4). -/
def Obligations.SqshLiteralRun : Prop :=
  (∀ (s : State) (f : Fwr) (w : Fin 8) (sample : Byte) (fields : List Nat) (rest : List Bool),
    s.sqshSample = some sample → s.fwr = some f → f.pos.toNat + fields.length ≤ f.stop.toNat →
    s.ReaderSet → s.WholeStream → (∀ v ∈ fields, v < 2 ^ (w.val + 1)) →
    s.bitStream = (fields.flatMap fun v => bitsOf (w.val + 1) v) ++ rest →
    ∃ t, sqshLiterals (w.val + 1) fields.length s = .ok () t ∧ Changes [.reader, .writer, .output, .sqsh] s t ∧
      t.bitStream = rest ∧ t.sqshQ = s.sqshQ ∧
      t.sqshSample = some ((sampleRun (w.val + 1) sample fields).getLastD sample) ∧
      WroteForward f (sampleRun (w.val + 1) sample fields) s t) ∧
  (∀ (s : State) (f : Fwr) (reach : List Byte),
    s.fwr = some f → f.start.toNat ≤ f.pos.toNat → f.pos.toNat ≤ f.stop.toNat →
    memBytes s.raw f.start.toNat (f.pos.toNat - f.start.toNat) = some reach → s.ReaderSet → s.WholeStream →
    match sqshRepeatToken Config.core s.bitStream with
    | .error c => Raises (sqshRepeat Config.core) s c
    | .ok (token, rest) =>
      match token.refusal reach (f.stop.toNat - f.pos.toNat) with
      | some c => Raises (sqshRepeat Config.core) s c
      | none => ∃ t, sqshRepeat Config.core s = .ok () t ∧ Changes [.reader, .writer, .output, .sqsh] s t ∧
        t.bitStream = rest ∧ t.sqshQ = s.sqshQ ∧
        t.sqshSample =
          (if Config.core.sqshRepeatSetsSample then (token.bytes reach).getLast? else s.sqshSample) ∧
        WroteForward f (token.bytes reach) s t) ∧
  (∀ (s : State) (f : Fwr) (q : SqshQ) (sample : Byte) (reach : List Byte),
    s.sqshQ = some q → s.sqshSample = some sample → s.fwr = some f → f.start.toNat ≤ f.pos.toNat →
    f.pos.toNat ≤ f.stop.toNat → memBytes s.raw f.start.toNat (f.pos.toNat - f.start.toNat) = some reach →
    s.ReaderSet → s.WholeStream →
    match sqshBytes Config.core q sample reach (f.stop.toNat - f.pos.toNat) s.bitStream with
    | .error c => Raises (sqshTurn Config.core) s c
    | .ok ((q', sample', bytes), rest) => ∃ t, sqshTurn Config.core s = .ok true t ∧
      Changes [.reader, .writer, .output, .sqsh] s t ∧ t.bitStream = rest ∧ t.sqshQ = some q' ∧
      t.sqshSample = some sample' ∧ WroteForward f bytes s t) ∧
  ∀ (s : State) (bytes : List Byte), s.Ready → s.rawLen ≠ 0#32 →
    memBytes s.chunk 0 s.chunkLen.toNat = some bytes →
    match Config.core.sqshHeader bytes with
    | none => exec .decompressSqsh s = .next (s.corrupted .header)
    | some fstart =>
      if s.chunkLen.toNat < fstart.toNat then exec .decompressSqsh s = .next (s.corrupted .range)
      else
        match treeField Config.core.sqshFirst (byteBits (bytes.drop fstart.toNat)) with
        | .error c => exec .decompressSqsh s = .next (s.corrupted c)
        | .ok (b, rest) => ∃ t, exec .decompressSqsh s = .next t ∧
          (t.status.faulted = false → storeRead t.raw 0 = some b) ∧
          (s.rawLen = 1#32 → t.Clean ∧
            Changes [.result, .otherResult, .code, .reader, .writer, .output, .tables, .sqsh] s t ∧
            t.bitStream = rest ∧ t.sqshSample = some b ∧ t.sqshQ = some Config.core.sqshQInit ∧
            WroteForward { start := 0#32, pos := 0#32, stop := 1#32 } [b] s t)
end

