-- ==== Sys2Proof/Laws/State.lean ====
section
/-! SUPPORT. What each named update of the state does to each field of it: one lemma per field and update, so that no
proof unfolds an update. -/

namespace Sys2Proof.Machine

/-! ## beginCommand -/
@[simp] theorem beginCommand_chunkLen (s : State) : (beginCommand s).chunkLen = s.chunkLen := rfl
@[simp] theorem beginCommand_rawLen (s : State) : (beginCommand s).rawLen = s.rawLen := rfl
@[simp] theorem beginCommand_arg0 (s : State) : (beginCommand s).arg0 = s.arg0 := rfl
@[simp] theorem beginCommand_arg1 (s : State) : (beginCommand s).arg1 = s.arg1 := rfl
@[simp] theorem beginCommand_arg2 (s : State) : (beginCommand s).arg2 = s.arg2 := rfl
@[simp] theorem beginCommand_arg3 (s : State) : (beginCommand s).arg3 = s.arg3 := rfl
@[simp] theorem beginCommand_res0 (s : State) : (beginCommand s).res0 = s.res0 := rfl
@[simp] theorem beginCommand_res1 (s : State) : (beginCommand s).res1 = s.res1 := rfl
@[simp] theorem beginCommand_chunk (s : State) : (beginCommand s).chunk = s.chunk := rfl
@[simp] theorem beginCommand_raw (s : State) : (beginCommand s).raw = s.raw := rfl
@[simp] theorem beginCommand_lenm (s : State) : (beginCommand s).lenm = s.lenm := rfl
@[simp] theorem beginCommand_hist (s : State) : (beginCommand s).hist = s.hist := rfl
@[simp] theorem beginCommand_fcur (s : State) : (beginCommand s).fcur = s.fcur := rfl
@[simp] theorem beginCommand_bcur (s : State) : (beginCommand s).bcur = s.bcur := rfl
@[simp] theorem beginCommand_bitsAcc (s : State) : (beginCommand s).bitsAcc = s.bitsAcc := rfl
@[simp] theorem beginCommand_bitsCnt (s : State) : (beginCommand s).bitsCnt = s.bitsCnt := rfl
@[simp] theorem beginCommand_fwr (s : State) : (beginCommand s).fwr = s.fwr := rfl
@[simp] theorem beginCommand_bwr (s : State) : (beginCommand s).bwr = s.bwr := rfl
@[simp] theorem beginCommand_ht (s : State) : (beginCommand s).ht = s.ht := rfl
@[simp] theorem beginCommand_dhuf (s : State) : (beginCommand s).dhuf = s.dhuf := rfl
@[simp] theorem beginCommand_mtf0 (s : State) : (beginCommand s).mtf0 = s.mtf0 := rfl
@[simp] theorem beginCommand_mtf1 (s : State) : (beginCommand s).mtf1 = s.mtf1 := rfl
@[simp] theorem beginCommand_lzw (s : State) : (beginCommand s).lzw = s.lzw := rfl
@[simp] theorem beginCommand_bz (s : State) : (beginCommand s).bz = s.bz := rfl
@[simp] theorem beginCommand_ari (s : State) : (beginCommand s).ari = s.ari := rfl
@[simp] theorem beginCommand_smplAcc (s : State) : (beginCommand s).smplAcc = s.smplAcc := rfl
@[simp] theorem beginCommand_sqshQ (s : State) : (beginCommand s).sqshQ = s.sqshQ := rfl
@[simp] theorem beginCommand_sqshSample (s : State) : (beginCommand s).sqshSample = s.sqshSample := rfl
@[simp] theorem beginCommand_phase (s : State) : (beginCommand s).phase = s.phase := rfl
@[simp] theorem beginCommand_port (s : State) : (beginCommand s).port = s.port := rfl
@[simp] theorem beginCommand_hostData (s : State) : (beginCommand s).hostData = s.hostData := rfl
@[simp] theorem beginCommand_freeReads (s : State) : (beginCommand s).freeReads = s.freeReads := rfl
@[simp] theorem beginCommand_kind (s : State) : (beginCommand s).status.kind = s.status.kind := rfl
@[simp] theorem beginCommand_cause (s : State) : (beginCommand s).status.cause = s.status.cause := rfl
@[simp] theorem beginCommand_faulted (s : State) : (beginCommand s).status.faulted = s.status.faulted := rfl
@[simp] theorem beginCommand_shriValid (s : State) : (beginCommand s).status.shriValid = s.status.shriValid := rfl
@[simp] theorem beginCommand_busy (s : State) : (beginCommand s).status.busy = true := rfl

/-! ## endCommand -/
@[simp] theorem endCommand_chunkLen (s : State) : (endCommand s).chunkLen = s.chunkLen := rfl
@[simp] theorem endCommand_rawLen (s : State) : (endCommand s).rawLen = s.rawLen := rfl
@[simp] theorem endCommand_arg0 (s : State) : (endCommand s).arg0 = s.arg0 := rfl
@[simp] theorem endCommand_arg1 (s : State) : (endCommand s).arg1 = s.arg1 := rfl
@[simp] theorem endCommand_arg2 (s : State) : (endCommand s).arg2 = s.arg2 := rfl
@[simp] theorem endCommand_arg3 (s : State) : (endCommand s).arg3 = s.arg3 := rfl
@[simp] theorem endCommand_res0 (s : State) : (endCommand s).res0 = s.res0 := rfl
@[simp] theorem endCommand_res1 (s : State) : (endCommand s).res1 = s.res1 := rfl
@[simp] theorem endCommand_chunk (s : State) : (endCommand s).chunk = s.chunk := rfl
@[simp] theorem endCommand_raw (s : State) : (endCommand s).raw = s.raw := rfl
@[simp] theorem endCommand_lenm (s : State) : (endCommand s).lenm = s.lenm := rfl
@[simp] theorem endCommand_hist (s : State) : (endCommand s).hist = s.hist := rfl
@[simp] theorem endCommand_fcur (s : State) : (endCommand s).fcur = s.fcur := rfl
@[simp] theorem endCommand_bcur (s : State) : (endCommand s).bcur = s.bcur := rfl
@[simp] theorem endCommand_bitsAcc (s : State) : (endCommand s).bitsAcc = s.bitsAcc := rfl
@[simp] theorem endCommand_bitsCnt (s : State) : (endCommand s).bitsCnt = s.bitsCnt := rfl
@[simp] theorem endCommand_fwr (s : State) : (endCommand s).fwr = s.fwr := rfl
@[simp] theorem endCommand_bwr (s : State) : (endCommand s).bwr = s.bwr := rfl
@[simp] theorem endCommand_ht (s : State) : (endCommand s).ht = s.ht := rfl
@[simp] theorem endCommand_dhuf (s : State) : (endCommand s).dhuf = s.dhuf := rfl
@[simp] theorem endCommand_mtf0 (s : State) : (endCommand s).mtf0 = s.mtf0 := rfl
@[simp] theorem endCommand_mtf1 (s : State) : (endCommand s).mtf1 = s.mtf1 := rfl
@[simp] theorem endCommand_lzw (s : State) : (endCommand s).lzw = s.lzw := rfl
@[simp] theorem endCommand_bz (s : State) : (endCommand s).bz = s.bz := rfl
@[simp] theorem endCommand_ari (s : State) : (endCommand s).ari = s.ari := rfl
@[simp] theorem endCommand_smplAcc (s : State) : (endCommand s).smplAcc = s.smplAcc := rfl
@[simp] theorem endCommand_sqshQ (s : State) : (endCommand s).sqshQ = s.sqshQ := rfl
@[simp] theorem endCommand_sqshSample (s : State) : (endCommand s).sqshSample = s.sqshSample := rfl
@[simp] theorem endCommand_phase (s : State) : (endCommand s).phase = s.phase := rfl
@[simp] theorem endCommand_port (s : State) : (endCommand s).port = s.port := rfl
@[simp] theorem endCommand_hostData (s : State) : (endCommand s).hostData = s.hostData := rfl
@[simp] theorem endCommand_freeReads (s : State) : (endCommand s).freeReads = s.freeReads := rfl
@[simp] theorem endCommand_kind (s : State) : (endCommand s).status.kind = s.status.kind := rfl
@[simp] theorem endCommand_cause (s : State) : (endCommand s).status.cause = s.status.cause := rfl
@[simp] theorem endCommand_faulted (s : State) : (endCommand s).status.faulted = s.status.faulted := rfl
@[simp] theorem endCommand_shriValid (s : State) : (endCommand s).status.shriValid = s.status.shriValid := rfl
@[simp] theorem endCommand_busy (s : State) : (endCommand s).status.busy = false := rfl

/-! ## fwrPut -/
@[simp] theorem fwrPut_chunkLen (f : Fwr) (b : Byte) (s : State) : (fwrPut f b s).chunkLen = s.chunkLen := rfl
@[simp] theorem fwrPut_rawLen (f : Fwr) (b : Byte) (s : State) : (fwrPut f b s).rawLen = s.rawLen := rfl
@[simp] theorem fwrPut_arg0 (f : Fwr) (b : Byte) (s : State) : (fwrPut f b s).arg0 = s.arg0 := rfl
@[simp] theorem fwrPut_arg1 (f : Fwr) (b : Byte) (s : State) : (fwrPut f b s).arg1 = s.arg1 := rfl
@[simp] theorem fwrPut_arg2 (f : Fwr) (b : Byte) (s : State) : (fwrPut f b s).arg2 = s.arg2 := rfl
@[simp] theorem fwrPut_arg3 (f : Fwr) (b : Byte) (s : State) : (fwrPut f b s).arg3 = s.arg3 := rfl
@[simp] theorem fwrPut_res0 (f : Fwr) (b : Byte) (s : State) : (fwrPut f b s).res0 = s.res0 := rfl
@[simp] theorem fwrPut_res1 (f : Fwr) (b : Byte) (s : State) : (fwrPut f b s).res1 = s.res1 := rfl
@[simp] theorem fwrPut_chunk (f : Fwr) (b : Byte) (s : State) : (fwrPut f b s).chunk = s.chunk := rfl
@[simp] theorem fwrPut_raw (f : Fwr) (b : Byte) (s : State) :
    (fwrPut f b s).raw = storeWrite s.raw f.pos.toNat b := rfl
@[simp] theorem fwrPut_lenm (f : Fwr) (b : Byte) (s : State) : (fwrPut f b s).lenm = s.lenm := rfl
@[simp] theorem fwrPut_hist (f : Fwr) (b : Byte) (s : State) : (fwrPut f b s).hist = s.hist := rfl
@[simp] theorem fwrPut_fcur (f : Fwr) (b : Byte) (s : State) : (fwrPut f b s).fcur = s.fcur := rfl
@[simp] theorem fwrPut_bcur (f : Fwr) (b : Byte) (s : State) : (fwrPut f b s).bcur = s.bcur := rfl
@[simp] theorem fwrPut_bitsAcc (f : Fwr) (b : Byte) (s : State) : (fwrPut f b s).bitsAcc = s.bitsAcc := rfl
@[simp] theorem fwrPut_bitsCnt (f : Fwr) (b : Byte) (s : State) : (fwrPut f b s).bitsCnt = s.bitsCnt := rfl
@[simp] theorem fwrPut_fwr (f : Fwr) (b : Byte) (s : State) :
    (fwrPut f b s).fwr = some { f with pos := toWord (f.pos.toNat + 1) } := rfl
@[simp] theorem fwrPut_bwr (f : Fwr) (b : Byte) (s : State) : (fwrPut f b s).bwr = s.bwr := rfl
@[simp] theorem fwrPut_ht (f : Fwr) (b : Byte) (s : State) : (fwrPut f b s).ht = s.ht := rfl
@[simp] theorem fwrPut_dhuf (f : Fwr) (b : Byte) (s : State) : (fwrPut f b s).dhuf = s.dhuf := rfl
@[simp] theorem fwrPut_mtf0 (f : Fwr) (b : Byte) (s : State) : (fwrPut f b s).mtf0 = s.mtf0 := rfl
@[simp] theorem fwrPut_mtf1 (f : Fwr) (b : Byte) (s : State) : (fwrPut f b s).mtf1 = s.mtf1 := rfl
@[simp] theorem fwrPut_lzw (f : Fwr) (b : Byte) (s : State) : (fwrPut f b s).lzw = s.lzw := rfl
@[simp] theorem fwrPut_bz (f : Fwr) (b : Byte) (s : State) : (fwrPut f b s).bz = s.bz := rfl
@[simp] theorem fwrPut_ari (f : Fwr) (b : Byte) (s : State) : (fwrPut f b s).ari = s.ari := rfl
@[simp] theorem fwrPut_smplAcc (f : Fwr) (b : Byte) (s : State) : (fwrPut f b s).smplAcc = s.smplAcc := rfl
@[simp] theorem fwrPut_sqshQ (f : Fwr) (b : Byte) (s : State) : (fwrPut f b s).sqshQ = s.sqshQ := rfl
@[simp] theorem fwrPut_sqshSample (f : Fwr) (b : Byte) (s : State) : (fwrPut f b s).sqshSample = s.sqshSample := rfl
@[simp] theorem fwrPut_phase (f : Fwr) (b : Byte) (s : State) : (fwrPut f b s).phase = s.phase := rfl
@[simp] theorem fwrPut_port (f : Fwr) (b : Byte) (s : State) : (fwrPut f b s).port = s.port := rfl
@[simp] theorem fwrPut_hostData (f : Fwr) (b : Byte) (s : State) : (fwrPut f b s).hostData = s.hostData := rfl
@[simp] theorem fwrPut_freeReads (f : Fwr) (b : Byte) (s : State) : (fwrPut f b s).freeReads = s.freeReads := rfl
@[simp] theorem fwrPut_kind (f : Fwr) (b : Byte) (s : State) : (fwrPut f b s).status.kind = s.status.kind := rfl
@[simp] theorem fwrPut_cause (f : Fwr) (b : Byte) (s : State) : (fwrPut f b s).status.cause = s.status.cause := rfl
@[simp] theorem fwrPut_faulted (f : Fwr) (b : Byte) (s : State) :
    (fwrPut f b s).status.faulted = s.status.faulted := rfl
@[simp] theorem fwrPut_shriValid (f : Fwr) (b : Byte) (s : State) :
    (fwrPut f b s).status.shriValid = s.status.shriValid := rfl
@[simp] theorem fwrPut_busy (f : Fwr) (b : Byte) (s : State) : (fwrPut f b s).status.busy = s.status.busy := rfl

/-! ## bwrPut -/
@[simp] theorem bwrPut_chunkLen (f : Bwr) (b : Byte) (s : State) : (bwrPut f b s).chunkLen = s.chunkLen := rfl
@[simp] theorem bwrPut_rawLen (f : Bwr) (b : Byte) (s : State) : (bwrPut f b s).rawLen = s.rawLen := rfl
@[simp] theorem bwrPut_arg0 (f : Bwr) (b : Byte) (s : State) : (bwrPut f b s).arg0 = s.arg0 := rfl
@[simp] theorem bwrPut_arg1 (f : Bwr) (b : Byte) (s : State) : (bwrPut f b s).arg1 = s.arg1 := rfl
@[simp] theorem bwrPut_arg2 (f : Bwr) (b : Byte) (s : State) : (bwrPut f b s).arg2 = s.arg2 := rfl
@[simp] theorem bwrPut_arg3 (f : Bwr) (b : Byte) (s : State) : (bwrPut f b s).arg3 = s.arg3 := rfl
@[simp] theorem bwrPut_res0 (f : Bwr) (b : Byte) (s : State) : (bwrPut f b s).res0 = s.res0 := rfl
@[simp] theorem bwrPut_res1 (f : Bwr) (b : Byte) (s : State) : (bwrPut f b s).res1 = s.res1 := rfl
@[simp] theorem bwrPut_chunk (f : Bwr) (b : Byte) (s : State) : (bwrPut f b s).chunk = s.chunk := rfl
@[simp] theorem bwrPut_raw (f : Bwr) (b : Byte) (s : State) :
    (bwrPut f b s).raw = storeWrite s.raw (f.pos.toNat - 1) b := rfl
@[simp] theorem bwrPut_lenm (f : Bwr) (b : Byte) (s : State) : (bwrPut f b s).lenm = s.lenm := rfl
@[simp] theorem bwrPut_hist (f : Bwr) (b : Byte) (s : State) : (bwrPut f b s).hist = s.hist := rfl
@[simp] theorem bwrPut_fcur (f : Bwr) (b : Byte) (s : State) : (bwrPut f b s).fcur = s.fcur := rfl
@[simp] theorem bwrPut_bcur (f : Bwr) (b : Byte) (s : State) : (bwrPut f b s).bcur = s.bcur := rfl
@[simp] theorem bwrPut_bitsAcc (f : Bwr) (b : Byte) (s : State) : (bwrPut f b s).bitsAcc = s.bitsAcc := rfl
@[simp] theorem bwrPut_bitsCnt (f : Bwr) (b : Byte) (s : State) : (bwrPut f b s).bitsCnt = s.bitsCnt := rfl
@[simp] theorem bwrPut_fwr (f : Bwr) (b : Byte) (s : State) : (bwrPut f b s).fwr = s.fwr := rfl
@[simp] theorem bwrPut_bwr (f : Bwr) (b : Byte) (s : State) :
    (bwrPut f b s).bwr = some { f with pos := toWord (f.pos.toNat - 1) } := rfl
@[simp] theorem bwrPut_ht (f : Bwr) (b : Byte) (s : State) : (bwrPut f b s).ht = s.ht := rfl
@[simp] theorem bwrPut_dhuf (f : Bwr) (b : Byte) (s : State) : (bwrPut f b s).dhuf = s.dhuf := rfl
@[simp] theorem bwrPut_mtf0 (f : Bwr) (b : Byte) (s : State) : (bwrPut f b s).mtf0 = s.mtf0 := rfl
@[simp] theorem bwrPut_mtf1 (f : Bwr) (b : Byte) (s : State) : (bwrPut f b s).mtf1 = s.mtf1 := rfl
@[simp] theorem bwrPut_lzw (f : Bwr) (b : Byte) (s : State) : (bwrPut f b s).lzw = s.lzw := rfl
@[simp] theorem bwrPut_bz (f : Bwr) (b : Byte) (s : State) : (bwrPut f b s).bz = s.bz := rfl
@[simp] theorem bwrPut_ari (f : Bwr) (b : Byte) (s : State) : (bwrPut f b s).ari = s.ari := rfl
@[simp] theorem bwrPut_smplAcc (f : Bwr) (b : Byte) (s : State) : (bwrPut f b s).smplAcc = s.smplAcc := rfl
@[simp] theorem bwrPut_sqshQ (f : Bwr) (b : Byte) (s : State) : (bwrPut f b s).sqshQ = s.sqshQ := rfl
@[simp] theorem bwrPut_sqshSample (f : Bwr) (b : Byte) (s : State) : (bwrPut f b s).sqshSample = s.sqshSample := rfl
@[simp] theorem bwrPut_phase (f : Bwr) (b : Byte) (s : State) : (bwrPut f b s).phase = s.phase := rfl
@[simp] theorem bwrPut_port (f : Bwr) (b : Byte) (s : State) : (bwrPut f b s).port = s.port := rfl
@[simp] theorem bwrPut_hostData (f : Bwr) (b : Byte) (s : State) : (bwrPut f b s).hostData = s.hostData := rfl
@[simp] theorem bwrPut_freeReads (f : Bwr) (b : Byte) (s : State) : (bwrPut f b s).freeReads = s.freeReads := rfl
@[simp] theorem bwrPut_kind (f : Bwr) (b : Byte) (s : State) : (bwrPut f b s).status.kind = s.status.kind := rfl
@[simp] theorem bwrPut_cause (f : Bwr) (b : Byte) (s : State) : (bwrPut f b s).status.cause = s.status.cause := rfl
@[simp] theorem bwrPut_faulted (f : Bwr) (b : Byte) (s : State) :
    (bwrPut f b s).status.faulted = s.status.faulted := rfl
@[simp] theorem bwrPut_shriValid (f : Bwr) (b : Byte) (s : State) :
    (bwrPut f b s).status.shriValid = s.status.shriValid := rfl
@[simp] theorem bwrPut_busy (f : Bwr) (b : Byte) (s : State) : (bwrPut f b s).status.busy = s.status.busy := rfl

/-! ## loseUnitState -/
@[simp] theorem loseUnitState_chunkLen (s : State) : (loseUnitState s).chunkLen = s.chunkLen := rfl
@[simp] theorem loseUnitState_rawLen (s : State) : (loseUnitState s).rawLen = s.rawLen := rfl
@[simp] theorem loseUnitState_arg0 (s : State) : (loseUnitState s).arg0 = s.arg0 := rfl
@[simp] theorem loseUnitState_arg1 (s : State) : (loseUnitState s).arg1 = s.arg1 := rfl
@[simp] theorem loseUnitState_arg2 (s : State) : (loseUnitState s).arg2 = s.arg2 := rfl
@[simp] theorem loseUnitState_arg3 (s : State) : (loseUnitState s).arg3 = s.arg3 := rfl
@[simp] theorem loseUnitState_res0 (s : State) : (loseUnitState s).res0 = none := rfl
@[simp] theorem loseUnitState_res1 (s : State) : (loseUnitState s).res1 = none := rfl
@[simp] theorem loseUnitState_chunk (s : State) : (loseUnitState s).chunk = s.chunk := rfl
@[simp] theorem loseUnitState_raw (s : State) : (loseUnitState s).raw = [] := rfl
@[simp] theorem loseUnitState_lenm (s : State) : (loseUnitState s).lenm = [] := rfl
@[simp] theorem loseUnitState_hist (s : State) : (loseUnitState s).hist = s.hist := rfl
@[simp] theorem loseUnitState_fcur (s : State) : (loseUnitState s).fcur = none := rfl
@[simp] theorem loseUnitState_bcur (s : State) : (loseUnitState s).bcur = none := rfl
@[simp] theorem loseUnitState_bitsAcc (s : State) : (loseUnitState s).bitsAcc = none := rfl
@[simp] theorem loseUnitState_bitsCnt (s : State) : (loseUnitState s).bitsCnt = none := rfl
@[simp] theorem loseUnitState_fwr (s : State) : (loseUnitState s).fwr = none := rfl
@[simp] theorem loseUnitState_bwr (s : State) : (loseUnitState s).bwr = none := rfl
@[simp] theorem loseUnitState_ht (s : State) : (loseUnitState s).ht = Vector.replicate 16 none := rfl
@[simp] theorem loseUnitState_dhuf (s : State) : (loseUnitState s).dhuf = none := rfl
@[simp] theorem loseUnitState_mtf0 (s : State) : (loseUnitState s).mtf0 = none := rfl
@[simp] theorem loseUnitState_mtf1 (s : State) : (loseUnitState s).mtf1 = none := rfl
@[simp] theorem loseUnitState_lzw (s : State) : (loseUnitState s).lzw = Lzw.unset := rfl
@[simp] theorem loseUnitState_bz (s : State) : (loseUnitState s).bz = Bz.unset := rfl
@[simp] theorem loseUnitState_ari (s : State) : (loseUnitState s).ari = s.ari := rfl
@[simp] theorem loseUnitState_smplAcc (s : State) : (loseUnitState s).smplAcc = none := rfl
@[simp] theorem loseUnitState_sqshQ (s : State) : (loseUnitState s).sqshQ = none := rfl
@[simp] theorem loseUnitState_sqshSample (s : State) : (loseUnitState s).sqshSample = none := rfl
@[simp] theorem loseUnitState_phase (s : State) : (loseUnitState s).phase = s.phase := rfl
@[simp] theorem loseUnitState_port (s : State) : (loseUnitState s).port = s.port := rfl
@[simp] theorem loseUnitState_hostData (s : State) : (loseUnitState s).hostData = s.hostData := rfl
@[simp] theorem loseUnitState_freeReads (s : State) : (loseUnitState s).freeReads = s.freeReads := rfl
@[simp] theorem loseUnitState_kind (s : State) : (loseUnitState s).status.kind = s.status.kind := rfl
@[simp] theorem loseUnitState_cause (s : State) : (loseUnitState s).status.cause = s.status.cause := rfl
@[simp] theorem loseUnitState_faulted (s : State) : (loseUnitState s).status.faulted = s.status.faulted := rfl
@[simp] theorem loseUnitState_shriValid (s : State) : (loseUnitState s).status.shriValid = s.status.shriValid := rfl
@[simp] theorem loseUnitState_busy (s : State) : (loseUnitState s).status.busy = s.status.busy := rfl

/-! ## enterFaulted -/
@[simp] theorem enterFaulted_chunkLen (k : Kind) (c : Option Cause) (s : State) :
    (enterFaulted k c s).chunkLen = s.chunkLen := rfl
@[simp] theorem enterFaulted_rawLen (k : Kind) (c : Option Cause) (s : State) :
    (enterFaulted k c s).rawLen = s.rawLen := rfl
@[simp] theorem enterFaulted_arg0 (k : Kind) (c : Option Cause) (s : State) :
    (enterFaulted k c s).arg0 = s.arg0 := rfl
@[simp] theorem enterFaulted_arg1 (k : Kind) (c : Option Cause) (s : State) :
    (enterFaulted k c s).arg1 = s.arg1 := rfl
@[simp] theorem enterFaulted_arg2 (k : Kind) (c : Option Cause) (s : State) :
    (enterFaulted k c s).arg2 = s.arg2 := rfl
@[simp] theorem enterFaulted_arg3 (k : Kind) (c : Option Cause) (s : State) :
    (enterFaulted k c s).arg3 = s.arg3 := rfl
@[simp] theorem enterFaulted_res0 (k : Kind) (c : Option Cause) (s : State) :
    (enterFaulted k c s).res0 = s.res0 := rfl
@[simp] theorem enterFaulted_res1 (k : Kind) (c : Option Cause) (s : State) :
    (enterFaulted k c s).res1 = s.res1 := rfl
@[simp] theorem enterFaulted_chunk (k : Kind) (c : Option Cause) (s : State) :
    (enterFaulted k c s).chunk = s.chunk := rfl
@[simp] theorem enterFaulted_raw (k : Kind) (c : Option Cause) (s : State) : (enterFaulted k c s).raw = s.raw := rfl
@[simp] theorem enterFaulted_lenm (k : Kind) (c : Option Cause) (s : State) :
    (enterFaulted k c s).lenm = s.lenm := rfl
@[simp] theorem enterFaulted_hist (k : Kind) (c : Option Cause) (s : State) :
    (enterFaulted k c s).hist = s.hist := rfl
@[simp] theorem enterFaulted_fcur (k : Kind) (c : Option Cause) (s : State) :
    (enterFaulted k c s).fcur = s.fcur := rfl
@[simp] theorem enterFaulted_bcur (k : Kind) (c : Option Cause) (s : State) :
    (enterFaulted k c s).bcur = s.bcur := rfl
@[simp] theorem enterFaulted_bitsAcc (k : Kind) (c : Option Cause) (s : State) :
    (enterFaulted k c s).bitsAcc = s.bitsAcc := rfl
@[simp] theorem enterFaulted_bitsCnt (k : Kind) (c : Option Cause) (s : State) :
    (enterFaulted k c s).bitsCnt = s.bitsCnt := rfl
@[simp] theorem enterFaulted_fwr (k : Kind) (c : Option Cause) (s : State) : (enterFaulted k c s).fwr = s.fwr := rfl
@[simp] theorem enterFaulted_bwr (k : Kind) (c : Option Cause) (s : State) : (enterFaulted k c s).bwr = s.bwr := rfl
@[simp] theorem enterFaulted_ht (k : Kind) (c : Option Cause) (s : State) : (enterFaulted k c s).ht = s.ht := rfl
@[simp] theorem enterFaulted_dhuf (k : Kind) (c : Option Cause) (s : State) :
    (enterFaulted k c s).dhuf = s.dhuf := rfl
@[simp] theorem enterFaulted_mtf0 (k : Kind) (c : Option Cause) (s : State) :
    (enterFaulted k c s).mtf0 = s.mtf0 := rfl
@[simp] theorem enterFaulted_mtf1 (k : Kind) (c : Option Cause) (s : State) :
    (enterFaulted k c s).mtf1 = s.mtf1 := rfl
@[simp] theorem enterFaulted_lzw (k : Kind) (c : Option Cause) (s : State) : (enterFaulted k c s).lzw = s.lzw := rfl
@[simp] theorem enterFaulted_bz (k : Kind) (c : Option Cause) (s : State) : (enterFaulted k c s).bz = s.bz := rfl
@[simp] theorem enterFaulted_ari (k : Kind) (c : Option Cause) (s : State) : (enterFaulted k c s).ari = s.ari := rfl
@[simp] theorem enterFaulted_smplAcc (k : Kind) (c : Option Cause) (s : State) :
    (enterFaulted k c s).smplAcc = s.smplAcc := rfl
@[simp] theorem enterFaulted_sqshQ (k : Kind) (c : Option Cause) (s : State) :
    (enterFaulted k c s).sqshQ = s.sqshQ := rfl
@[simp] theorem enterFaulted_sqshSample (k : Kind) (c : Option Cause) (s : State) :
    (enterFaulted k c s).sqshSample = s.sqshSample := rfl
@[simp] theorem enterFaulted_phase (k : Kind) (c : Option Cause) (s : State) :
    (enterFaulted k c s).phase = .idle := rfl
@[simp] theorem enterFaulted_port (k : Kind) (c : Option Cause) (s : State) :
    (enterFaulted k c s).port = s.port := rfl
@[simp] theorem enterFaulted_hostData (k : Kind) (c : Option Cause) (s : State) :
    (enterFaulted k c s).hostData = s.hostData := rfl
@[simp] theorem enterFaulted_freeReads (k : Kind) (c : Option Cause) (s : State) :
    (enterFaulted k c s).freeReads = s.freeReads := rfl
@[simp] theorem enterFaulted_kind (k : Kind) (c : Option Cause) (s : State) :
    (enterFaulted k c s).status.kind = k := rfl
@[simp] theorem enterFaulted_cause (k : Kind) (c : Option Cause) (s : State) :
    (enterFaulted k c s).status.cause = c := rfl
@[simp] theorem enterFaulted_faulted (k : Kind) (c : Option Cause) (s : State) :
    (enterFaulted k c s).status.faulted = true := rfl
@[simp] theorem enterFaulted_shriValid (k : Kind) (c : Option Cause) (s : State) :
    (enterFaulted k c s).status.shriValid = s.status.shriValid := rfl
@[simp] theorem enterFaulted_busy (k : Kind) (c : Option Cause) (s : State) :
    (enterFaulted k c s).status.busy = false := rfl

/-! ## errorEntry -/
@[simp] theorem errorEntry_chunkLen (d : Bool) (k : Kind) (c : Option Cause) (s : State) :
    (errorEntry d k c s).chunkLen = s.chunkLen := by cases d <;> rfl
@[simp] theorem errorEntry_rawLen (d : Bool) (k : Kind) (c : Option Cause) (s : State) :
    (errorEntry d k c s).rawLen = s.rawLen := by cases d <;> rfl
@[simp] theorem errorEntry_arg0 (d : Bool) (k : Kind) (c : Option Cause) (s : State) :
    (errorEntry d k c s).arg0 = s.arg0 := by cases d <;> rfl
@[simp] theorem errorEntry_arg1 (d : Bool) (k : Kind) (c : Option Cause) (s : State) :
    (errorEntry d k c s).arg1 = s.arg1 := by cases d <;> rfl
@[simp] theorem errorEntry_arg2 (d : Bool) (k : Kind) (c : Option Cause) (s : State) :
    (errorEntry d k c s).arg2 = s.arg2 := by cases d <;> rfl
@[simp] theorem errorEntry_arg3 (d : Bool) (k : Kind) (c : Option Cause) (s : State) :
    (errorEntry d k c s).arg3 = s.arg3 := by cases d <;> rfl
@[simp] theorem errorEntry_res0 (d : Bool) (k : Kind) (c : Option Cause) (s : State) :
    (errorEntry d k c s).res0 = none := by cases d <;> rfl
@[simp] theorem errorEntry_res1 (d : Bool) (k : Kind) (c : Option Cause) (s : State) :
    (errorEntry d k c s).res1 = none := by cases d <;> rfl
@[simp] theorem errorEntry_chunk (d : Bool) (k : Kind) (c : Option Cause) (s : State) :
    (errorEntry d k c s).chunk = s.chunk := by cases d <;> rfl
@[simp] theorem errorEntry_raw (d : Bool) (k : Kind) (c : Option Cause) (s : State) :
    (errorEntry d k c s).raw = [] := by cases d <;> rfl
@[simp] theorem errorEntry_lenm (d : Bool) (k : Kind) (c : Option Cause) (s : State) :
    (errorEntry d k c s).lenm = [] := by cases d <;> rfl
@[simp] theorem errorEntry_hist (d : Bool) (k : Kind) (c : Option Cause) (s : State) :
    (errorEntry d k c s).hist = s.hist := by cases d <;> rfl
@[simp] theorem errorEntry_fcur (d : Bool) (k : Kind) (c : Option Cause) (s : State) :
    (errorEntry d k c s).fcur = none := by cases d <;> rfl
@[simp] theorem errorEntry_bcur (d : Bool) (k : Kind) (c : Option Cause) (s : State) :
    (errorEntry d k c s).bcur = none := by cases d <;> rfl
@[simp] theorem errorEntry_bitsAcc (d : Bool) (k : Kind) (c : Option Cause) (s : State) :
    (errorEntry d k c s).bitsAcc = none := by cases d <;> rfl
@[simp] theorem errorEntry_bitsCnt (d : Bool) (k : Kind) (c : Option Cause) (s : State) :
    (errorEntry d k c s).bitsCnt = none := by cases d <;> rfl
@[simp] theorem errorEntry_fwr (d : Bool) (k : Kind) (c : Option Cause) (s : State) :
    (errorEntry d k c s).fwr = none := by cases d <;> rfl
@[simp] theorem errorEntry_bwr (d : Bool) (k : Kind) (c : Option Cause) (s : State) :
    (errorEntry d k c s).bwr = none := by cases d <;> rfl
@[simp] theorem errorEntry_ht (d : Bool) (k : Kind) (c : Option Cause) (s : State) :
    (errorEntry d k c s).ht = Vector.replicate 16 none := by cases d <;> rfl
@[simp] theorem errorEntry_dhuf (d : Bool) (k : Kind) (c : Option Cause) (s : State) :
    (errorEntry d k c s).dhuf = none := by cases d <;> rfl
@[simp] theorem errorEntry_mtf0 (d : Bool) (k : Kind) (c : Option Cause) (s : State) :
    (errorEntry d k c s).mtf0 = none := by cases d <;> rfl
@[simp] theorem errorEntry_mtf1 (d : Bool) (k : Kind) (c : Option Cause) (s : State) :
    (errorEntry d k c s).mtf1 = none := by cases d <;> rfl
@[simp] theorem errorEntry_lzw (d : Bool) (k : Kind) (c : Option Cause) (s : State) :
    (errorEntry d k c s).lzw = Lzw.unset := by cases d <;> rfl
@[simp] theorem errorEntry_bz (d : Bool) (k : Kind) (c : Option Cause) (s : State) :
    (errorEntry d k c s).bz = Bz.unset := by cases d <;> rfl
@[simp] theorem errorEntry_ari (d : Bool) (k : Kind) (c : Option Cause) (s : State) :
    (errorEntry d k c s).ari = if d then none else s.ari := by cases d <;> rfl
@[simp] theorem errorEntry_smplAcc (d : Bool) (k : Kind) (c : Option Cause) (s : State) :
    (errorEntry d k c s).smplAcc = none := by cases d <;> rfl
@[simp] theorem errorEntry_sqshQ (d : Bool) (k : Kind) (c : Option Cause) (s : State) :
    (errorEntry d k c s).sqshQ = none := by cases d <;> rfl
@[simp] theorem errorEntry_sqshSample (d : Bool) (k : Kind) (c : Option Cause) (s : State) :
    (errorEntry d k c s).sqshSample = none := by cases d <;> rfl
@[simp] theorem errorEntry_phase (d : Bool) (k : Kind) (c : Option Cause) (s : State) :
    (errorEntry d k c s).phase = .idle := by cases d <;> rfl
@[simp] theorem errorEntry_port (d : Bool) (k : Kind) (c : Option Cause) (s : State) :
    (errorEntry d k c s).port = s.port := by cases d <;> rfl
@[simp] theorem errorEntry_hostData (d : Bool) (k : Kind) (c : Option Cause) (s : State) :
    (errorEntry d k c s).hostData = s.hostData := by cases d <;> rfl
@[simp] theorem errorEntry_freeReads (d : Bool) (k : Kind) (c : Option Cause) (s : State) :
    (errorEntry d k c s).freeReads = s.freeReads := by cases d <;> rfl
@[simp] theorem errorEntry_kind (d : Bool) (k : Kind) (c : Option Cause) (s : State) :
    (errorEntry d k c s).status.kind = k := by cases d <;> rfl
@[simp] theorem errorEntry_cause (d : Bool) (k : Kind) (c : Option Cause) (s : State) :
    (errorEntry d k c s).status.cause = c := by cases d <;> rfl
@[simp] theorem errorEntry_faulted (d : Bool) (k : Kind) (c : Option Cause) (s : State) :
    (errorEntry d k c s).status.faulted = true := by cases d <;> rfl
@[simp] theorem errorEntry_shriValid (d : Bool) (k : Kind) (c : Option Cause) (s : State) :
    (errorEntry d k c s).status.shriValid = s.status.shriValid := by cases d <;> rfl
@[simp] theorem errorEntry_busy (d : Bool) (k : Kind) (c : Option Cause) (s : State) :
    (errorEntry d k c s).status.busy = false := by cases d <;> rfl

/-! ## withFetchWord -/
@[simp] theorem withFetchWord_chunkLen (n w : Nat) (s : State) : (s.withFetchWord n w).chunkLen = s.chunkLen := rfl
@[simp] theorem withFetchWord_rawLen (n w : Nat) (s : State) : (s.withFetchWord n w).rawLen = s.rawLen := rfl
@[simp] theorem withFetchWord_arg0 (n w : Nat) (s : State) : (s.withFetchWord n w).arg0 = s.arg0 := rfl
@[simp] theorem withFetchWord_arg1 (n w : Nat) (s : State) : (s.withFetchWord n w).arg1 = s.arg1 := rfl
@[simp] theorem withFetchWord_arg2 (n w : Nat) (s : State) : (s.withFetchWord n w).arg2 = s.arg2 := rfl
@[simp] theorem withFetchWord_arg3 (n w : Nat) (s : State) : (s.withFetchWord n w).arg3 = s.arg3 := rfl
@[simp] theorem withFetchWord_res0 (n w : Nat) (s : State) : (s.withFetchWord n w).res0 = s.res0 := rfl
@[simp] theorem withFetchWord_res1 (n w : Nat) (s : State) : (s.withFetchWord n w).res1 = s.res1 := rfl
@[simp] theorem withFetchWord_chunk (n w : Nat) (s : State) : (s.withFetchWord n w).chunk = s.chunk := rfl
@[simp] theorem withFetchWord_raw (n w : Nat) (s : State) : (s.withFetchWord n w).raw = s.raw := rfl
@[simp] theorem withFetchWord_lenm (n w : Nat) (s : State) : (s.withFetchWord n w).lenm = s.lenm := rfl
@[simp] theorem withFetchWord_hist (n w : Nat) (s : State) : (s.withFetchWord n w).hist = s.hist := rfl
@[simp] theorem withFetchWord_fcur (n w : Nat) (s : State) : (s.withFetchWord n w).fcur = s.fcur := rfl
@[simp] theorem withFetchWord_bcur (n w : Nat) (s : State) : (s.withFetchWord n w).bcur = s.bcur := rfl
@[simp] theorem withFetchWord_bitsAcc (n w : Nat) (s : State) : (s.withFetchWord n w).bitsAcc = s.bitsAcc := rfl
@[simp] theorem withFetchWord_bitsCnt (n w : Nat) (s : State) : (s.withFetchWord n w).bitsCnt = s.bitsCnt := rfl
@[simp] theorem withFetchWord_fwr (n w : Nat) (s : State) : (s.withFetchWord n w).fwr = s.fwr := rfl
@[simp] theorem withFetchWord_bwr (n w : Nat) (s : State) : (s.withFetchWord n w).bwr = s.bwr := rfl
@[simp] theorem withFetchWord_ht (n w : Nat) (s : State) : (s.withFetchWord n w).ht = s.ht := rfl
@[simp] theorem withFetchWord_dhuf (n w : Nat) (s : State) : (s.withFetchWord n w).dhuf = s.dhuf := rfl
@[simp] theorem withFetchWord_mtf0 (n w : Nat) (s : State) : (s.withFetchWord n w).mtf0 = s.mtf0 := rfl
@[simp] theorem withFetchWord_mtf1 (n w : Nat) (s : State) : (s.withFetchWord n w).mtf1 = s.mtf1 := rfl
@[simp] theorem withFetchWord_lzw (n w : Nat) (s : State) : (s.withFetchWord n w).lzw = s.lzw := rfl
@[simp] theorem withFetchWord_bz (n w : Nat) (s : State) : (s.withFetchWord n w).bz = s.bz := rfl
@[simp] theorem withFetchWord_ari (n w : Nat) (s : State) : (s.withFetchWord n w).ari = s.ari := rfl
@[simp] theorem withFetchWord_smplAcc (n w : Nat) (s : State) : (s.withFetchWord n w).smplAcc = s.smplAcc := rfl
@[simp] theorem withFetchWord_sqshQ (n w : Nat) (s : State) : (s.withFetchWord n w).sqshQ = s.sqshQ := rfl
@[simp] theorem withFetchWord_sqshSample (n w : Nat) (s : State) :
    (s.withFetchWord n w).sqshSample = s.sqshSample := rfl
@[simp] theorem withFetchWord_phase (n w : Nat) (s : State) : (s.withFetchWord n w).phase = s.phase := rfl
@[simp] theorem withFetchWord_port (n w : Nat) (s : State) :
    (s.withFetchWord n w).port = .command (BitVec.ofNat 32 w) :: s.port := rfl
@[simp] theorem withFetchWord_hostData (n w : Nat) (s : State) : (s.withFetchWord n w).hostData = s.hostData := rfl
@[simp] theorem withFetchWord_freeReads (n w : Nat) (s : State) : (s.withFetchWord n w).freeReads = s.freeReads := rfl
@[simp] theorem withFetchWord_kind (n w : Nat) (s : State) : (s.withFetchWord n w).status.kind = s.status.kind := rfl
@[simp] theorem withFetchWord_cause (n w : Nat) (s : State) :
    (s.withFetchWord n w).status.cause = s.status.cause := rfl
@[simp] theorem withFetchWord_faulted (n w : Nat) (s : State) :
    (s.withFetchWord n w).status.faulted = s.status.faulted := rfl
@[simp] theorem withFetchWord_shriValid (n w : Nat) (s : State) :
    (s.withFetchWord n w).status.shriValid = s.status.shriValid := rfl
@[simp] theorem withFetchWord_busy (n w : Nat) (s : State) : (s.withFetchWord n w).status.busy = s.status.busy := rfl

/-! ## withMtf -/
@[simp] theorem withMtf_chunkLen (l : MtfStore) (xs : List Nat) (s : State) :
    (withMtf l xs s).chunkLen = s.chunkLen := by cases l <;> rfl
@[simp] theorem withMtf_rawLen (l : MtfStore) (xs : List Nat) (s : State) :
    (withMtf l xs s).rawLen = s.rawLen := by cases l <;> rfl
@[simp] theorem withMtf_arg0 (l : MtfStore) (xs : List Nat) (s : State) :
    (withMtf l xs s).arg0 = s.arg0 := by cases l <;> rfl
@[simp] theorem withMtf_arg1 (l : MtfStore) (xs : List Nat) (s : State) :
    (withMtf l xs s).arg1 = s.arg1 := by cases l <;> rfl
@[simp] theorem withMtf_arg2 (l : MtfStore) (xs : List Nat) (s : State) :
    (withMtf l xs s).arg2 = s.arg2 := by cases l <;> rfl
@[simp] theorem withMtf_arg3 (l : MtfStore) (xs : List Nat) (s : State) :
    (withMtf l xs s).arg3 = s.arg3 := by cases l <;> rfl
@[simp] theorem withMtf_res0 (l : MtfStore) (xs : List Nat) (s : State) :
    (withMtf l xs s).res0 = s.res0 := by cases l <;> rfl
@[simp] theorem withMtf_res1 (l : MtfStore) (xs : List Nat) (s : State) :
    (withMtf l xs s).res1 = s.res1 := by cases l <;> rfl
@[simp] theorem withMtf_chunk (l : MtfStore) (xs : List Nat) (s : State) :
    (withMtf l xs s).chunk = s.chunk := by cases l <;> rfl
@[simp] theorem withMtf_raw (l : MtfStore) (xs : List Nat) (s : State) :
    (withMtf l xs s).raw = s.raw := by cases l <;> rfl
@[simp] theorem withMtf_lenm (l : MtfStore) (xs : List Nat) (s : State) :
    (withMtf l xs s).lenm = s.lenm := by cases l <;> rfl
@[simp] theorem withMtf_hist (l : MtfStore) (xs : List Nat) (s : State) :
    (withMtf l xs s).hist = s.hist := by cases l <;> rfl
@[simp] theorem withMtf_fcur (l : MtfStore) (xs : List Nat) (s : State) :
    (withMtf l xs s).fcur = s.fcur := by cases l <;> rfl
@[simp] theorem withMtf_bcur (l : MtfStore) (xs : List Nat) (s : State) :
    (withMtf l xs s).bcur = s.bcur := by cases l <;> rfl
@[simp] theorem withMtf_bitsAcc (l : MtfStore) (xs : List Nat) (s : State) :
    (withMtf l xs s).bitsAcc = s.bitsAcc := by cases l <;> rfl
@[simp] theorem withMtf_bitsCnt (l : MtfStore) (xs : List Nat) (s : State) :
    (withMtf l xs s).bitsCnt = s.bitsCnt := by cases l <;> rfl
@[simp] theorem withMtf_fwr (l : MtfStore) (xs : List Nat) (s : State) :
    (withMtf l xs s).fwr = s.fwr := by cases l <;> rfl
@[simp] theorem withMtf_bwr (l : MtfStore) (xs : List Nat) (s : State) :
    (withMtf l xs s).bwr = s.bwr := by cases l <;> rfl
@[simp] theorem withMtf_ht (l : MtfStore) (xs : List Nat) (s : State) :
    (withMtf l xs s).ht = s.ht := by cases l <;> rfl
@[simp] theorem withMtf_dhuf (l : MtfStore) (xs : List Nat) (s : State) :
    (withMtf l xs s).dhuf = s.dhuf := by cases l <;> rfl
@[simp] theorem withMtf_lzw (l : MtfStore) (xs : List Nat) (s : State) :
    (withMtf l xs s).lzw = s.lzw := by cases l <;> rfl
@[simp] theorem withMtf_bz (l : MtfStore) (xs : List Nat) (s : State) :
    (withMtf l xs s).bz = s.bz := by cases l <;> rfl
@[simp] theorem withMtf_ari (l : MtfStore) (xs : List Nat) (s : State) :
    (withMtf l xs s).ari = s.ari := by cases l <;> rfl
@[simp] theorem withMtf_smplAcc (l : MtfStore) (xs : List Nat) (s : State) :
    (withMtf l xs s).smplAcc = s.smplAcc := by cases l <;> rfl
@[simp] theorem withMtf_sqshQ (l : MtfStore) (xs : List Nat) (s : State) :
    (withMtf l xs s).sqshQ = s.sqshQ := by cases l <;> rfl
@[simp] theorem withMtf_sqshSample (l : MtfStore) (xs : List Nat) (s : State) :
    (withMtf l xs s).sqshSample = s.sqshSample := by cases l <;> rfl
@[simp] theorem withMtf_phase (l : MtfStore) (xs : List Nat) (s : State) :
    (withMtf l xs s).phase = s.phase := by cases l <;> rfl
@[simp] theorem withMtf_port (l : MtfStore) (xs : List Nat) (s : State) :
    (withMtf l xs s).port = s.port := by cases l <;> rfl
@[simp] theorem withMtf_hostData (l : MtfStore) (xs : List Nat) (s : State) :
    (withMtf l xs s).hostData = s.hostData := by cases l <;> rfl
@[simp] theorem withMtf_freeReads (l : MtfStore) (xs : List Nat) (s : State) :
    (withMtf l xs s).freeReads = s.freeReads := by cases l <;> rfl
@[simp] theorem withMtf_kind (l : MtfStore) (xs : List Nat) (s : State) :
    (withMtf l xs s).status.kind = s.status.kind := by cases l <;> rfl
@[simp] theorem withMtf_cause (l : MtfStore) (xs : List Nat) (s : State) :
    (withMtf l xs s).status.cause = s.status.cause := by cases l <;> rfl
@[simp] theorem withMtf_faulted (l : MtfStore) (xs : List Nat) (s : State) :
    (withMtf l xs s).status.faulted = s.status.faulted := by cases l <;> rfl
@[simp] theorem withMtf_shriValid (l : MtfStore) (xs : List Nat) (s : State) :
    (withMtf l xs s).status.shriValid = s.status.shriValid := by cases l <;> rfl
@[simp] theorem withMtf_busy (l : MtfStore) (xs : List Nat) (s : State) :
    (withMtf l xs s).status.busy = s.status.busy := by cases l <;> rfl
@[simp] theorem mtfOf_withMtf (l : MtfStore) (xs : List Nat) (s : State) : mtfOf l (withMtf l xs s) = some xs := by
  cases l <;> rfl

/-- Every field of an update that touches STATUS only. -/
@[simp] theorem endCommand_beginCommand (s : State) (h : s.status.busy = false) : endCommand (beginCommand s) = s := by
  cases s; simp_all [endCommand, beginCommand]; rename_i st _ _ _ _ _ _ _ _ _ _ _ _ _ _ _ _ _ _ _ _ _ _ _ _ _ _ _ _ _ _ _ _
  cases st; simp_all

end Sys2Proof.Machine
end

