-- ==== Sys2Proof/Laws/Ops.lean ====
section
/-! SUPPORT. How the bodies of commands evaluate, and for each shared operation of Machine/Ops.lean one equation that
says once everything it can do. -/

namespace Sys2Proof.Machine

/-! ## Evaluation -/

@[simp] theorem M.bind_apply {α β : Type} (x : M α) (f : α → M β) (s : State) :
    (x >>= f) s = match x s with
      | .ok a t => f a t
      | .error e t => .error e t := by
  show EStateM.bind x f s = _
  unfold EStateM.bind
  cases x s <;> rfl

@[simp] theorem M.map_apply {α β : Type} (f : α → β) (x : M α) (s : State) :
    (f <$> x) s = match x s with
      | .ok a t => .ok (f a) t
      | .error e t => .error e t := by
  show EStateM.map f x s = _
  unfold EStateM.map
  cases x s <;> rfl

@[simp] theorem M.pure_apply {α : Type} (a : α) (s : State) : (pure a : M α) s = .ok a s := rfl

@[simp] theorem M.get_apply (s : State) : (get : M State) s = .ok s s := rfl

@[simp] theorem M.set_apply (t s : State) : (set t : M PUnit) s = .ok () t := rfl

@[simp] theorem M.modify_apply (f : State → State) (s : State) : (modify f : M PUnit) s = .ok () (f s) := rfl

@[simp] theorem M.throw_apply {α : Type} (e : Raise) (s : State) : (throw e : M α) s = .error e s := rfl

@[simp] theorem M.ite_apply {α : Type} (p : Prop) [Decidable p] (x y : M α) (s : State) :
    (if p then x else y) s = if p then x s else y s := by
  split <;> rfl

@[simp] theorem raise_apply {α : Type} (c : Cause) (s : State) : (raise c : M α) s = .error (.corrupt c) s := rfl

@[simp] theorem raiseChecksum_apply {α : Type} (s : State) : (raiseChecksum : M α) s = .error .checksum s := rfl

@[simp] theorem need_some {α : Type} (a : α) : need (some a) = pure a := rfl

@[simp] theorem need_none {α : Type} : need (none : Option α) = raise .unset := rfl

@[simp] theorem readArg0_eq (s : State) : readArg0 s = need s.arg0 s := rfl

@[simp] theorem readArg1_eq (s : State) : readArg1 s = need s.arg1 s := rfl

@[simp] theorem readArg2_eq (s : State) : readArg2 s = need s.arg2 s := rfl

@[simp] theorem setRes0_eq (v : Word) (s : State) : setRes0 v s = .ok () { s with res0 := some v } := rfl

/-! ## Words -/

@[simp] theorem toWord_toNat (n : Nat) : (toWord n).toNat = n % 2 ^ 32 := BitVec.toNat_ofNat n 32

theorem toWord_toNat_of_lt {n : Nat} (h : n < 2 ^ 32) : (toWord n).toNat = n := by
  rw [toWord_toNat, Nat.mod_eq_of_lt h]

@[simp] theorem toWord_toNat_self (w : Word) : toWord w.toNat = w := by simp [toWord]

/-! ## The body of a command -/

/-- What a command can do, once and for all: refused, ended, or one of the three raises. -/
theorem runCommand_cases (d : Bool) (body : M Unit) (s : State) :
    (s.status.faulted = true ∧ runCommand d body s = .next s) ∨
    (s.status.faulted = false ∧
      ((∃ t, body (beginCommand s) = .ok () t ∧ runCommand d body s = .next (endCommand t)) ∨
       (∃ c t, body (beginCommand s) = .error (.corrupt c) t ∧
          runCommand d body s = .next (errorEntry d .corruptData (some c) t)) ∨
       (∃ t, body (beginCommand s) = .error .checksum t ∧
          runCommand d body s = .next (errorEntry d .wrongBlockChecksum none t)) ∨
       (∃ t, body (beginCommand s) = .error .noProgress t ∧
          runCommand d body s = .next (errorEntry d .corruptData (some Config.core.noProgressCause) t)))) := by
  unfold runCommand
  cases hf : s.status.faulted
  · right
    refine ⟨rfl, ?_⟩
    simp only [Bool.false_eq_true, if_false]
    rcases hb : body (beginCommand s) with ⟨_, t⟩ | ⟨_ | _ | _, t⟩
    · exact .inl ⟨t, rfl, rfl⟩
    · exact .inr (.inl ⟨_, t, rfl, rfl⟩)
    · exact .inr (.inr (.inl ⟨t, rfl, rfl⟩))
    · exact .inr (.inr (.inr ⟨t, rfl, rfl⟩))
  · exact .inl ⟨rfl, by simp⟩

theorem runCommand_faulted {d : Bool} {body : M Unit} {s : State} (h : s.status.faulted = true) :
    runCommand d body s = .next s := by
  simp [runCommand, h]

theorem runCommand_ok {d : Bool} {body : M Unit} {s t : State} (hf : s.status.faulted = false)
    (h : body (beginCommand s) = .ok () t) : runCommand d body s = .next (endCommand t) := by
  simp [runCommand, hf, h]

theorem runCommand_corrupt {d : Bool} {body : M Unit} {s t : State} {c : Cause} (hf : s.status.faulted = false)
    (h : body (beginCommand s) = .error (.corrupt c) t) :
    runCommand d body s = .next (errorEntry d .corruptData (some c) t) := by
  simp [runCommand, hf, h]

/-! ## Byte cursors -/

theorem fcurEnd_le_stop (f : Fcur) (s : State) : fcurEnd f s ≤ f.stop.toNat := Nat.min_le_left _ _

theorem fcurEnd_le_chunkLen (f : Fcur) (s : State) : fcurEnd f s ≤ s.chunkLen.toNat := Nat.min_le_right _ _

/-- A cursor inside the chunk, as FCUR.SET leaves it, ends at its own `end`. -/
theorem fcurEnd_of_le {f : Fcur} {s : State} (h : f.stop.toNat ≤ s.chunkLen.toNat) : fcurEnd f s = f.stop.toNat :=
  Nat.min_eq_left h

theorem fcurSet_eq (start stop : Word) (s : State) :
    fcurSet start stop s =
      if start.toNat > stop.toNat ∨ stop.toNat > s.chunkLen.toNat then .error (.corrupt .range) s
      else .ok () { s with fcur := some { pos := start, stop := stop } } := by
  simp [fcurSet]

theorem fcurRdb_eq (s : State) :
    fcurRdb s = match s.fcur with
      | none => .error (.corrupt .unset) s
      | some f =>
        if f.pos.toNat ≥ fcurEnd f s then .error (.corrupt .unexpectedEnd) s
        else match storeRead s.chunk f.pos.toNat with
          | none => .error (.corrupt .unset) s
          | some b => .ok b { s with fcur := some { f with pos := toWord (f.pos.toNat + 1) } } := by
  unfold fcurRdb
  cases hf : s.fcur with
  | none => simp [hf]
  | some f =>
    by_cases h : f.pos.toNat ≥ fcurEnd f s
    · simp [hf, h]
    · cases hb : storeRead s.chunk f.pos.toNat <;> simp [hf, h, hb]

theorem fcurConsume_eq (n : Nat) (s : State) :
    fcurConsume n s = match s.fcur with
      | none => .error (.corrupt .unset) s
      | some f =>
        if f.pos.toNat + n > (if n = 0 then f.stop.toNat else fcurEnd f s) then .error (.corrupt .unexpectedEnd) s
        else .ok f.pos { s with fcur := some { f with pos := toWord (f.pos.toNat + n) } } := by
  unfold fcurConsume
  cases hf : s.fcur with
  | none => simp [hf]
  | some f => simp only [M.bind_apply, M.get_apply, hf, need_some, M.ite_apply, raise_apply, M.set_apply, M.pure_apply]

theorem bcurSet_eq (floor start : Word) (s : State) :
    bcurSet floor start s =
      if floor.toNat > start.toNat ∨ start.toNat > s.chunkLen.toNat then .error (.corrupt .range) s
      else .ok () { s with bcur := some { pos := start, floor := floor } } := by
  simp [bcurSet]

theorem bcurRdb_eq (s : State) :
    bcurRdb s = match s.bcur with
      | none => .error (.corrupt .unset) s
      | some f =>
        if f.pos.toNat ≤ f.floor.toNat ∨ f.pos.toNat > s.chunkLen.toNat then .error (.corrupt .unexpectedEnd) s
        else match storeRead s.chunk (f.pos.toNat - 1) with
          | none => .error (.corrupt .unset) s
          | some b => .ok b { s with bcur := some { f with pos := toWord (f.pos.toNat - 1) } } := by
  unfold bcurRdb
  cases hf : s.bcur with
  | none => simp [hf]
  | some f =>
    by_cases h : f.pos.toNat ≤ f.floor.toNat ∨ f.pos.toNat > s.chunkLen.toNat
    · simp [hf, h]
    · cases hb : storeRead s.chunk (f.pos.toNat - 1) <;> simp [hf, h, hb]

theorem bcurConsume_eq (n : Nat) (s : State) :
    bcurConsume n s = match s.bcur with
      | none => .error (.corrupt .unset) s
      | some f =>
        if f.floor.toNat + n > f.pos.toNat ∨ n ≠ 0 ∧ f.pos.toNat > s.chunkLen.toNat then
          .error (.corrupt .unexpectedEnd) s
        else .ok (toWord (f.pos.toNat - n)) { s with bcur := some { f with pos := toWord (f.pos.toNat - n) } } := by
  unfold bcurConsume
  cases hf : s.bcur with
  | none => simp [hf]
  | some f => simp only [M.bind_apply, M.get_apply, hf, need_some, M.ite_apply, raise_apply, M.set_apply, M.pure_apply]

theorem chunkByte_eq (a : Nat) (s : State) : chunkByte a s = need (storeRead s.chunk a) s := rfl

theorem chunkBytes_eq (s : State) : chunkBytes s = need (memBytes s.chunk 0 s.chunkLen.toNat) s := rfl

/-! ## Bit reader -/

theorem refill8_eq (s : State) :
    refill8 s = match fcurRdb s with
      | .ok b t => .ok () { t with bitsAcc := some (b.setWidth 32), bitsCnt := some 8 }
      | .error e t => .error e t := by
  unfold refill8
  simp only [M.bind_apply]
  cases fcurRdb s <;> rfl

theorem refillIfEmpty_eq (src : BitSource) (s : State) :
    refillIfEmpty src s = match s.bitsCnt with
      | none => .error (.corrupt .unset) s
      | some cnt => if cnt = 0 then refill src s else .ok () s := by
  unfold refillIfEmpty
  cases h : s.bitsCnt with
  | none => simp [h]
  | some cnt => by_cases hc : cnt = 0 <;> simp [h, hc]

theorem takeBits_eq (n : Nat) (s : State) :
    takeBits n s = match s.bitsCnt, s.bitsAcc with
      | some cnt, some acc =>
        .ok (min n cnt, acc.toNat / 2 ^ (cnt - min n cnt) % 2 ^ min n cnt)
          { s with bitsCnt := some (cnt - min n cnt) }
      | _, _ => .error (.corrupt .unset) s := by
  unfold takeBits
  cases h : s.bitsCnt with
  | none => simp [h]
  | some cnt => cases ha : s.bitsAcc <;> simp [h, ha]

theorem readBits_eq (src : BitSource) (n : Nat) (s : State) :
    readBits src n s = if n > 32 then .error (.corrupt .range) s else readBitsLoop src n n 0 s := by
  by_cases h : n > bitsMaxN
  · rw [readBits, if_pos h, if_pos (by simpa [bitsMaxN] using h)]; rfl
  · rw [readBits, if_neg h, if_neg (by simpa [bitsMaxN] using h)]

theorem bitsReset_eq (seedBits : Word) (seedCount : Nat) (s : State) :
    bitsReset seedBits seedCount s = .ok () { s with bitsAcc := some seedBits, bitsCnt := some seedCount } := rfl

/-! ## Writers -/

theorem fwrSet_eq (start stop : Word) (s : State) :
    fwrSet start stop s =
      if start.toNat > stop.toNat ∨ stop.toNat > s.rawLen.toNat then .error (.corrupt .range) s
      else .ok () { s with fwr := some { start := start, pos := start, stop := stop } } := by
  simp [fwrSet]

theorem fwrWrb_eq (b : Byte) (s : State) :
    fwrWrb b s = match s.fwr with
      | none => .error (.corrupt .unset) s
      | some f => if f.pos.toNat ≥ f.stop.toNat then .error (.corrupt .overrun) s else .ok () (fwrPut f b s) := by
  unfold fwrWrb
  cases hf : s.fwr with
  | none => simp [hf]
  | some f => by_cases h : f.pos.toNat ≥ f.stop.toNat <;> simp [hf, h]

theorem fwrCopyLoop_zero (d : Nat) (s : State) : fwrCopyLoop d 0 s = .ok () s := rfl

theorem fwrCopyLoop_succ (d c : Nat) (s : State) :
    fwrCopyLoop d (c + 1) s = match s.fwr with
      | none => .error (.corrupt .unset) s
      | some f => match storeRead s.raw (f.pos.toNat - d) with
        | none => .error (.corrupt .unset) s
        | some b => fwrCopyLoop d c (fwrPut f b s) := by
  rw [fwrCopyLoop]
  cases hf : s.fwr with
  | none => simp [hf]
  | some f => cases hb : storeRead s.raw (f.pos.toNat - d) <;> simp [hf, hb]

theorem fwrCopy_eq (d c : Nat) (s : State) :
    fwrCopy d c s =
      if d = 0 then .error (.corrupt .zeroDistance) s
      else match s.fwr with
        | none => .error (.corrupt .unset) s
        | some f =>
          if d > f.pos.toNat - f.start.toNat then .error (.corrupt .distance) s
          else if f.pos.toNat + c > f.stop.toNat then .error (.corrupt .overrun) s
          else fwrCopyLoop d c s := by
  unfold fwrCopy
  by_cases hd : d = 0
  · simp [hd]
  · cases hf : s.fwr with
    | none => simp [hd, hf]
    | some f =>
      by_cases h1 : d > f.pos.toNat - f.start.toNat
      · simp [hd, hf, h1]
      · by_cases h2 : f.pos.toNat + c > f.stop.toNat <;> simp [hd, hf, h1, h2]

theorem fwrCopyhLoop_zero (history : List Byte) (d : Nat) (s : State) : fwrCopyhLoop history d 0 s = .ok () s := rfl

theorem fwrCopyhLoop_succ (history : List Byte) (d c : Nat) (s : State) :
    fwrCopyhLoop history d (c + 1) s = match s.fwr with
      | none => .error (.corrupt .unset) s
      | some f =>
        match logicalByte history f s.raw (history.length + (f.pos.toNat - f.start.toNat) - d) with
        | none => .error (.corrupt .unset) s
        | some b => fwrCopyhLoop history d c (fwrPut f b s) := by
  rw [fwrCopyhLoop]
  cases hf : s.fwr with
  | none => simp [hf]
  | some f =>
    cases hb : logicalByte history f s.raw (history.length + (f.pos.toNat - f.start.toNat) - d) <;> simp [hf, hb]

theorem fwrCopyh_eq (d c : Nat) (s : State) :
    fwrCopyh d c s =
      if d = 0 then .error (.corrupt .zeroDistance) s
      else match s.fwr with
        | none => .error (.corrupt .unset) s
        | some f =>
          if d > s.hist.flatten.length + (f.pos.toNat - f.start.toNat) then .error (.corrupt .distance) s
          else if f.pos.toNat + c > f.stop.toNat then .error (.corrupt .overrun) s
          else fwrCopyhLoop s.hist.flatten d c s := by
  unfold fwrCopyh
  by_cases hd : d = 0
  · simp [hd]
  · cases hf : s.fwr with
    | none => simp [hd, hf]
    | some f =>
      by_cases h1 : d > s.hist.flatten.length + (f.pos.toNat - f.start.toNat)
      · simp [-List.length_flatten, hd, hf, h1]
      · by_cases h2 : f.pos.toNat + c > f.stop.toNat <;> simp [-List.length_flatten, hd, hf, h1, h2]

theorem fwrEof_eq (s : State) :
    fwrEof s = match s.fwr with
      | none => .error (.corrupt .unset) s
      | some f => .ok (f.pos == f.stop) s := by
  unfold fwrEof
  cases h : s.fwr <;> simp [h, fwrEofFlag]

theorem fwrRoom_eq (s : State) :
    fwrRoom s = match s.fwr with
      | none => .error (.corrupt .unset) s
      | some f => .ok (f.stop.toNat - f.pos.toNat) s := by
  unfold fwrRoom
  cases h : s.fwr <;> simp [h]

theorem fwrOff_eq (s : State) :
    fwrOff s = match s.fwr with
      | none => .error (.corrupt .unset) s
      | some f => .ok (f.pos.toNat - f.start.toNat) s := by
  unfold fwrOff
  cases h : s.fwr <;> simp [h]

theorem bwrSet_eq (floor top : Word) (s : State) :
    bwrSet floor top s =
      if floor.toNat > top.toNat ∨ top.toNat > s.rawLen.toNat then .error (.corrupt .range) s
      else .ok () { s with bwr := some { top := top, pos := top, floor := floor } } := by
  simp [bwrSet]

theorem bwrWrb_eq (b : Byte) (s : State) :
    bwrWrb b s = match s.bwr with
      | none => .error (.corrupt .unset) s
      | some f => if f.pos.toNat ≤ f.floor.toNat then .error (.corrupt .overrun) s else .ok () (bwrPut f b s) := by
  unfold bwrWrb
  cases hf : s.bwr with
  | none => simp [hf]
  | some f => by_cases h : f.pos.toNat ≤ f.floor.toNat <;> simp [hf, h]

theorem bwrCopyLoop_zero (d : Nat) (s : State) : bwrCopyLoop d 0 s = .ok () s := rfl

theorem bwrCopyLoop_succ (d c : Nat) (s : State) :
    bwrCopyLoop d (c + 1) s = match s.bwr with
      | none => .error (.corrupt .unset) s
      | some f => match storeRead s.raw (f.pos.toNat - 1 + d) with
        | none => .error (.corrupt .unset) s
        | some b => bwrCopyLoop d c (bwrPut f b s) := by
  rw [bwrCopyLoop]
  cases hf : s.bwr with
  | none => simp [hf]
  | some f => cases hb : storeRead s.raw (f.pos.toNat - 1 + d) <;> simp [hf, hb]

theorem bwrCopy_eq (d c : Nat) (s : State) :
    bwrCopy d c s =
      if d = 0 then .error (.corrupt .zeroDistance) s
      else match s.bwr with
        | none => .error (.corrupt .unset) s
        | some f =>
          if d > f.top.toNat - f.pos.toNat then .error (.corrupt .distance) s
          else if f.floor.toNat + c > f.pos.toNat then .error (.corrupt .overrun) s
          else bwrCopyLoop d c s := by
  unfold bwrCopy
  by_cases hd : d = 0
  · simp [hd]
  · cases hf : s.bwr with
    | none => simp [hd, hf]
    | some f =>
      by_cases h1 : d > f.top.toNat - f.pos.toNat
      · simp [hd, hf, h1]
      · by_cases h2 : f.floor.toNat + c > f.pos.toNat <;> simp [hd, hf, h1, h2]

theorem bwrEof_eq (s : State) :
    bwrEof s = match s.bwr with
      | none => .error (.corrupt .unset) s
      | some f => .ok (f.pos == f.floor) s := by
  unfold bwrEof
  cases h : s.bwr <;> simp [h, bwrEofFlag]

theorem bwrRoom_eq (s : State) :
    bwrRoom s = match s.bwr with
      | none => .error (.corrupt .unset) s
      | some f => .ok (f.pos.toNat - f.floor.toNat) s := by
  unfold bwrRoom
  cases h : s.bwr <;> simp [h]

theorem bwrOff_eq (s : State) :
    bwrOff s = match s.bwr with
      | none => .error (.corrupt .unset) s
      | some f => .ok (f.top.toNat - f.pos.toNat) s := by
  unfold bwrOff
  cases h : s.bwr <;> simp [h]

/-! ## History and the ends of a macro command -/

theorem histPush_eq (c : Config) (s : State) :
    histPush c s = match memBytes s.raw 0 s.rawLen.toNat with
      | none => .error (.corrupt .unset) s
      | some buffer =>
        if passes (s.hist ++ [buffer]).length c.histMaxBuffers || passes (s.hist ++ [buffer]).flatten.length c.histMaxBytes
        then .error (.corrupt .capacity) s
        else .ok () { s with hist := s.hist ++ [buffer] } := by
  unfold histPush
  cases h : memBytes s.raw 0 s.rawLen.toNat with
  | none => simp [h]
  | some buffer =>
    simp only [M.bind_apply, M.get_apply, h, need_some, M.pure_apply, M.ite_apply, raise_apply, M.set_apply]

theorem commonSetup_eq (s : State) :
    commonSetup s = .ok ()
      { s with
        phase := .running, fwr := some { start := 0#32, pos := 0#32, stop := s.rawLen },
        fcur := some { pos := 0#32, stop := s.chunkLen }, bitsAcc := some 0#32, bitsCnt := some 0 } := by
  simp [commonSetup, fwrSet_eq, fcurSet_eq, bitsReset_eq]

theorem macroEnd_eq (s : State) :
    macroEnd s = .ok ()
      { s with
        status := { s.status with kind := .ok, cause := none }, phase := .idle, res0 := none, res1 := none } := rfl

theorem progressing_eq (turn : M Bool) (s : State) :
    progressing turn s = match turn s with
      | .error e t => .error e t
      | .ok false t => .ok false t
      | .ok true t => if workLeft s ≤ workLeft t then .error .noProgress t else .ok true t := by
  unfold progressing
  simp only [M.bind_apply, M.get_apply]
  rcases turn s with ⟨_ | _, t⟩ | ⟨e, t⟩
  · rfl
  · by_cases h : workLeft s ≤ workLeft t <;> simp [h]
  · rfl

theorem turnLoop_zero (going turn : M Bool) (s : State) :
    turnLoop going turn 0 s = match going s with
      | .error e t => .error e t
      | .ok false t => .ok () t
      | .ok true t => .error .noProgress t := by
  rw [turnLoop]
  simp only [M.bind_apply]
  rcases going s with ⟨_ | _, t⟩ | ⟨e, t⟩ <;> rfl

theorem turnLoop_succ (going turn : M Bool) (turns : Nat) (s : State) :
    turnLoop going turn (turns + 1) s = match going s with
      | .error e t => .error e t
      | .ok false t => .ok () t
      | .ok true t => match turn t with
        | .error e u => .error e u
        | .ok false u => .ok () u
        | .ok true u => if workLeft t ≤ workLeft u then .error .noProgress u else turnLoop going turn turns u := by
  rw [turnLoop]
  simp only [M.bind_apply]
  rcases going s with ⟨_ | _, t⟩ | ⟨e, t⟩
  · rfl
  · simp only [if_true, M.bind_apply, progressing_eq]
    rcases turn t with ⟨_ | _, u⟩ | ⟨e, u⟩
    · rfl
    · by_cases h : workLeft t ≤ workLeft u <;> simp [h]
    · rfl
  · rfl

end Sys2Proof.Machine
end

