-- ==== Sys2Proof/Laws/Memory.lean ====
section
/-! SUPPORT. The laws of the sparse memories: a read after a write, the canonical form and its keeping, and ranges of
bytes. -/

namespace Sys2Proof.Machine

/-! ## One key -/

@[simp] theorem storeRead_nil {α : Type} (a : Nat) : storeRead ([] : Store α) a = none := rfl

@[simp] theorem storeRead_write_same {α : Type} (m : Store α) (a : Nat) (v : α) :
    storeRead (storeWrite m a v) a = some v := by
  induction m with
  | nil => simp [storeWrite, storeRead]
  | cons x rest ih =>
    obtain ⟨k, w⟩ := x
    by_cases h1 : a < k
    · simp [storeWrite, h1, storeRead]
    · by_cases h2 : a = k
      · simp [storeWrite, h2, storeRead]
      · simp [storeWrite, h1, h2, storeRead, Ne.symm h2, ih]

theorem storeRead_write_other {α : Type} (m : Store α) {a b : Nat} (v : α) (h : b ≠ a) :
    storeRead (storeWrite m a v) b = storeRead m b := by
  induction m with
  | nil => simp [storeWrite, storeRead, Ne.symm h]
  | cons x rest ih =>
    obtain ⟨k, w⟩ := x
    by_cases h1 : a < k
    · simp [storeWrite, h1, storeRead, Ne.symm h]
    · by_cases h2 : a = k
      · subst h2; simp [storeWrite, storeRead, Ne.symm h]
      · simp [storeWrite, h1, h2, storeRead, ih]

theorem storeRead_write {α : Type} (m : Store α) (a b : Nat) (v : α) :
    storeRead (storeWrite m a v) b = if b = a then some v else storeRead m b := by
  by_cases h : b = a
  · subst h; simp
  · simp [h, storeRead_write_other m v h]

/-! ## The canonical form -/

theorem storeWf_cons {α : Type} {k : Nat} {v : α} {rest : Store α} :
    storeWf ((k, v) :: rest) = true ↔ (∀ e ∈ rest, k < e.1) ∧ storeWf rest = true := by
  induction rest generalizing k v with
  | nil => simp [storeWf]
  | cons x rest ih =>
    obtain ⟨b, w⟩ := x
    simp only [storeWf, Bool.and_eq_true, decide_eq_true_eq, List.mem_cons, forall_eq_or_imp]
    constructor
    · rintro ⟨h1, h2⟩
      exact ⟨⟨h1, fun e he => lt_trans h1 ((ih.1 h2).1 e he)⟩, h2⟩
    · rintro ⟨⟨h1, _⟩, h3⟩
      exact ⟨h1, h3⟩

theorem mem_storeWrite {α : Type} {m : Store α} {a : Nat} {v : α} {e : Nat × α} (h : e ∈ storeWrite m a v) :
    e = (a, v) ∨ e ∈ m := by
  induction m with
  | nil => simpa [storeWrite] using h
  | cons x rest ih =>
    obtain ⟨k, w⟩ := x
    rw [storeWrite] at h
    split at h
    · simpa using h
    · split at h
      · rcases List.mem_cons.1 h with h | h
        · exact .inl h
        · exact .inr (List.mem_cons_of_mem _ h)
      · rcases List.mem_cons.1 h with h | h
        · exact .inr (h ▸ List.mem_cons_self)
        · rcases ih h with h | h
          · exact .inl h
          · exact .inr (List.mem_cons_of_mem _ h)

/-- A write keeps the canonical form. -/
theorem storeWrite_wf {α : Type} {m : Store α} (a : Nat) (v : α) (h : storeWf m = true) :
    storeWf (storeWrite m a v) = true := by
  induction m with
  | nil => rfl
  | cons x rest ih =>
    obtain ⟨k, w⟩ := x
    obtain ⟨h1, h2⟩ := storeWf_cons.1 h
    rw [storeWrite]
    split
    · rename_i hk
      exact storeWf_cons.2 ⟨fun e he => by
        rcases List.mem_cons.1 he with rfl | he
        · exact hk
        · exact lt_trans hk (h1 e he), h⟩
    · split
      · rename_i hk hk'
        subst hk'
        exact storeWf_cons.2 ⟨h1, h2⟩
      · rename_i hk hk'
        refine storeWf_cons.2 ⟨fun e he => ?_, ih h2⟩
        rcases mem_storeWrite he with rfl | he
        · show k < a
          omega
        · exact h1 e he

theorem storeRead_eq_none_of_lt {α : Type} {m : Store α} {a : Nat} (h : ∀ e ∈ m, a < e.1) : storeRead m a = none := by
  induction m with
  | nil => rfl
  | cons x rest ih =>
    obtain ⟨k, w⟩ := x
    have : a < k := h (k, w) List.mem_cons_self
    rw [storeRead, if_neg (by omega)]
    exact ih fun e he => h e (List.mem_cons_of_mem _ he)

/-- Two canonical memories that read the same everywhere are equal. -/
theorem store_ext {α : Type} {m n : Store α} (hm : storeWf m = true) (hn : storeWf n = true)
    (h : ∀ a, storeRead m a = storeRead n a) : m = n := by
  induction m generalizing n with
  | nil =>
    cases n with
    | nil => rfl
    | cons y rest => obtain ⟨k, w⟩ := y; have := h k; simp [storeRead] at this
  | cons x rest ih =>
    obtain ⟨k, w⟩ := x
    obtain ⟨h1, h2⟩ := storeWf_cons.1 hm
    cases n with
    | nil => have := h k; simp [storeRead] at this
    | cons y rest' =>
      obtain ⟨k', w'⟩ := y
      obtain ⟨h1', h2'⟩ := storeWf_cons.1 hn
      have hk : k = k' := by
        rcases lt_trichotomy k k' with hlt | heq | hgt
        · have := h k
          rw [storeRead, if_pos rfl, storeRead, if_neg (by omega),
            storeRead_eq_none_of_lt fun e he => lt_trans hlt (h1' e he)] at this
          cases this
        · exact heq
        · have := h k'
          rw [storeRead, if_neg (by omega), storeRead_eq_none_of_lt fun e he => lt_trans hgt (h1 e he)] at this
          simp [storeRead] at this
      subst hk
      have hw : w = w' := by simpa [storeRead] using h k
      subst hw
      rw [ih h2 h2' fun a => ?_]
      by_cases ha : a = k
      · subst ha
        rw [storeRead_eq_none_of_lt h1, storeRead_eq_none_of_lt h1']
      · have := h a
        rwa [storeRead, if_neg (Ne.symm ha), storeRead, if_neg (Ne.symm ha)] at this

/-! ## Ranges of bytes -/

@[simp] theorem memBytes_zero (m : Memory) (a : Nat) : memBytes m a 0 = some [] := rfl

theorem memBytes_succ (m : Memory) (a n : Nat) :
    memBytes m a (n + 1) = match storeRead m a, memBytes m (a + 1) n with
      | some b, some bs => some (b :: bs)
      | _, _ => none := rfl

theorem memBytes_length {m : Memory} {a n : Nat} {bs : List Byte} (h : memBytes m a n = some bs) : bs.length = n := by
  induction n generalizing a bs with
  | zero => cases h; rfl
  | succ n ih =>
    rw [memBytes_succ] at h
    split at h
    · rename_i b bs' hb hbs
      cases h
      simp [ih hbs]
    · cases h

theorem memBytes_get {m : Memory} {a n : Nat} {bs : List Byte} (h : memBytes m a n = some bs) {i : Nat} (hi : i < n) :
    storeRead m (a + i) = bs[i]? := by
  induction n generalizing a bs i with
  | zero => omega
  | succ n ih =>
    rw [memBytes_succ] at h
    split at h
    · rename_i b bs' hb hbs
      cases h
      cases i with
      | zero => simpa using hb
      | succ i =>
        rw [List.getElem?_cons_succ, ← ih hbs (by omega)]
        congr 1; omega
    · cases h

/-- A range of bytes reads as a list exactly when each of its bytes holds that value. -/
theorem memBytes_eq_some {m : Memory} {a n : Nat} {bs : List Byte} :
    memBytes m a n = some bs ↔ bs.length = n ∧ ∀ i, i < n → storeRead m (a + i) = bs[i]? := by
  constructor
  · exact fun h => ⟨memBytes_length h, fun i hi => memBytes_get h hi⟩
  · induction n generalizing a bs with
    | zero => rintro ⟨h, _⟩; rw [List.length_eq_zero_iff.1 h]; rfl
    | succ n ih =>
      rintro ⟨hl, h⟩
      cases bs with
      | nil => simp at hl
      | cons b bs =>
        rw [memBytes_succ]
        have h0 := h 0 (by omega)
        simp only [Nat.add_zero, List.getElem?_cons_zero] at h0
        have hr : memBytes m (a + 1) n = some bs := ih ⟨by simpa using hl, fun i hi => by
          have := h (i + 1) (by omega)
          rw [List.getElem?_cons_succ] at this
          rw [← this]; congr 1; omega⟩
        simp [h0, hr]

theorem memBytes_congr {m m' : Memory} {a n : Nat} (h : ∀ i, i < n → storeRead m (a + i) = storeRead m' (a + i)) :
    memBytes m a n = memBytes m' a n := by
  induction n generalizing a with
  | zero => rfl
  | succ n ih =>
    have h0 := h 0 (by omega)
    simp only [Nat.add_zero] at h0
    rw [memBytes_succ, memBytes_succ, h0, ih fun i hi => by
      have := h (i + 1) (by omega)
      rwa [show a + (i + 1) = a + 1 + i from by omega] at this]

theorem knownBytes_length_le (m : Memory) (a n : Nat) : (knownBytes m a n).length ≤ n := by
  induction n generalizing a with
  | zero => simp [knownBytes]
  | succ n ih =>
    rw [knownBytes]
    split
    · simp
    · simpa using ih (a + 1)

theorem knownBytes_get {m : Memory} {a n i : Nat} (h : i < (knownBytes m a n).length) :
    storeRead m (a + i) = (knownBytes m a n)[i]? := by
  induction n generalizing a i with
  | zero => simp [knownBytes] at h
  | succ n ih =>
    rw [knownBytes] at h ⊢
    cases hb : storeRead m a with
    | none => simp [hb] at h
    | some b =>
      simp only [hb] at h ⊢
      cases i with
      | zero => simpa using hb
      | succ i =>
        rw [List.getElem?_cons_succ, ← ih (by simpa using h)]
        congr 1; omega

theorem knownBytes_drop (m : Memory) (a n k : Nat) (h : k ≤ (knownBytes m a n).length) :
    (knownBytes m a n).drop k = knownBytes m (a + k) (n - k) := by
  induction k generalizing a n with
  | zero => simp
  | succ k ih =>
    cases n with
    | zero => simp [knownBytes] at h
    | succ n =>
      rw [knownBytes] at h ⊢
      cases hb : storeRead m a with
      | none => simp [hb] at h
      | some b =>
        simp only [hb, List.drop_succ_cons] at h ⊢
        rw [ih (a + 1) n (by simpa using h), Nat.succ_sub_succ, show a + 1 + k = a + (k + 1) from by omega]

theorem knownBytes_of_memBytes {m : Memory} {a n : Nat} {bs : List Byte} (h : memBytes m a n = some bs) :
    knownBytes m a n = bs := by
  induction n generalizing a bs with
  | zero => cases h; rfl
  | succ n ih =>
    rw [memBytes_succ] at h
    split at h
    · rename_i b bs' hb hbs
      cases h
      simp [knownBytes, hb, ih hbs]
    · cases h

/-- The memories of the reset state are in canonical form. -/
theorem reset_memory_wf :
    State.reset.chunk.wf = true ∧ State.reset.raw.wf = true ∧ State.reset.lenm.wf = true := ⟨rfl, rfl, rfl⟩

end Sys2Proof.Machine
end

