-- ==== Sys2Proof/Laws/Bits.lean ====
section
/-! SUPPORT. The bit reader as a reader of a bit string: what a read delivers, and the state it leaves. -/

namespace Sys2Proof.Machine

/-! ## Bit strings -/

@[simp] theorem bitsOf_length (n v : Nat) : (bitsOf n v).length = n := by
  induction n with
  | zero => rfl
  | succ n ih => simp [bitsOf, ih]

theorem bitsOf_append (k m v : Nat) : bitsOf (k + m) v = bitsOf k (v / 2 ^ m) ++ bitsOf m v := by
  induction k with
  | zero => simp [bitsOf]
  | succ k ih =>
    rw [Nat.succ_add, bitsOf, bitsOf, ih, Nat.testBit_div_two_pow, List.cons_append, Nat.add_comm k m, Nat.add_comm m k]

theorem bitsOf_mod (n m v : Nat) (h : n ≤ m) : bitsOf n (v % 2 ^ m) = bitsOf n v := by
  induction n with
  | zero => rfl
  | succ n ih => rw [bitsOf, bitsOf, ih (by omega), Nat.testBit_mod_two_pow]; simp [show n < m from by omega]

theorem foldl_bits (bits : List Bool) (v : Nat) :
    bits.foldl (fun v b => 2 * v + b.toNat) v = v * 2 ^ bits.length + bitsValue bits := by
  induction bits generalizing v with
  | nil => simp [bitsValue]
  | cons b bits ih =>
    simp only [bitsValue, List.foldl_cons, List.length_cons]
    rw [ih, ih (2 * 0 + b.toNat), pow_succ, Nat.mul_zero, Nat.zero_add, Nat.add_mul]
    ring

theorem bitsValue_append (a b : List Bool) : bitsValue (a ++ b) = bitsValue a * 2 ^ b.length + bitsValue b := by
  rw [bitsValue, List.foldl_append, foldl_bits]; rfl

@[simp] theorem bitsValue_nil : bitsValue [] = 0 := rfl

theorem bitsValue_cons (b : Bool) (bits : List Bool) :
    bitsValue (b :: bits) = b.toNat * 2 ^ bits.length + bitsValue bits := by
  rw [bitsValue, List.foldl_cons, foldl_bits]; simp

theorem bitsValue_lt (bits : List Bool) : bitsValue bits < 2 ^ bits.length := by
  induction bits with
  | nil => simp
  | cons b bits ih =>
    rw [bitsValue_cons, List.length_cons, pow_succ]
    cases b <;> simp <;> omega

@[simp] theorem bitsValue_bitsOf (n v : Nat) : bitsValue (bitsOf n v) = v % 2 ^ n := by
  induction n with
  | zero => simp [bitsOf, Nat.mod_one]
  | succ n ih =>
    rw [bitsOf, bitsValue_cons, bitsOf_length, ih, Nat.testBit_eq_decide_div_mod_eq, pow_succ, Nat.mod_mul]
    rcases Nat.mod_two_eq_zero_or_one (v / 2 ^ n) with h | h <;> (simp [h]; try omega)

theorem bitsOf_bitsValue (bits : List Bool) : bitsOf bits.length (bitsValue bits) = bits := by
  induction bits with
  | nil => rfl
  | cons b bits ih =>
    have hlt := bitsValue_lt bits
    rw [List.length_cons, bitsOf, bitsValue_cons]
    congr 1
    · cases b
      · simpa using Nat.testBit_lt_two_pow hlt
      · simp only [Bool.toNat_true, Nat.one_mul]
        rw [Nat.testBit_two_pow_add_eq, Nat.testBit_lt_two_pow hlt]; rfl
    · rw [← bitsOf_mod bits.length bits.length _ le_rfl]
      conv_rhs => rw [← ih]
      rw [Nat.mul_comm, Nat.mul_add_mod, Nat.mod_eq_of_lt hlt]

@[simp] theorem byteBits_nil : byteBits [] = [] := rfl

@[simp] theorem byteBits_cons (b : Byte) (bytes : List Byte) : byteBits (b :: bytes) = bitsOf 8 b.toNat ++ byteBits bytes :=
  rfl

theorem byteBits_append (a b : List Byte) : byteBits (a ++ b) = byteBits a ++ byteBits b := List.flatMap_append

@[simp] theorem byteBits_length (bytes : List Byte) : (byteBits bytes).length = 8 * bytes.length := by
  induction bytes with
  | nil => rfl
  | cons b bytes ih => simp only [byteBits_cons, List.length_append, bitsOf_length, ih, List.length_cons]; omega

/-! ## The stream of a state -/

theorem groupBytes_pos (src : BitSource) : 0 < groupBytes src := by cases src <;> decide

/-- The state after one refill. -/
def State.refilled (src : BitSource) (s : State) : State :=
  { s with
    bitsCnt := some (8 * groupBytes src),
    bitsAcc := some (toWord (bitsValue (byteBits (s.unreadBytes.take (groupBytes src))))),
    fcur := s.fcur.map fun f => { f with pos := toWord (f.pos.toNat + groupBytes src) } }

theorem unreadBytes_length_le {s : State} {f : Fcur} (h : s.fcur = some f) :
    s.unreadBytes.length ≤ fcurEnd f s - f.pos.toNat := by
  simpa [State.unreadBytes, h, fcurEnd] using knownBytes_length_le _ _ _

theorem unreadBytes_get {s : State} {f : Fcur} (h : s.fcur = some f) {i : Nat} (hi : i < s.unreadBytes.length) :
    storeRead s.chunk (f.pos.toNat + i) = s.unreadBytes[i]? := by
  simp only [State.unreadBytes, h] at hi ⊢
  exact knownBytes_get hi

/-- Moving the cursor drops the bytes it passes. -/
theorem unreadBytes_advance {s t : State} {f : Fcur} {k : Nat} (h : s.fcur = some f) (hk : k ≤ s.unreadBytes.length)
    (hc : t.chunk = s.chunk) (hl : t.chunkLen = s.chunkLen) (ht : t.fcur = some { f with pos := toWord (f.pos.toNat + k) }) :
    t.unreadBytes = s.unreadBytes.drop k := by
  have hle := unreadBytes_length_le h
  have hs := lt_of_le_of_lt (fcurEnd_le_stop f s) f.stop.isLt
  have hpos : (toWord (f.pos.toNat + k)).toNat = f.pos.toNat + k := by
    have := f.pos.isLt
    rw [toWord_toNat_of_lt]
    omega
  simp only [State.unreadBytes, h] at hk ⊢
  simp only [ht, hc, hl, hpos]
  rw [knownBytes_drop _ _ _ _ hk]
  congr 1; omega

theorem refilled_unreadBytes {src : BitSource} {s : State} (h : groupBytes src ≤ s.unreadBytes.length) :
    (s.refilled src).unreadBytes = s.unreadBytes.drop (groupBytes src) := by
  cases hf : s.fcur with
  | none =>
    have : s.unreadBytes = [] := by simp [State.unreadBytes, hf]
    simp [this] at h
    have := groupBytes_pos src
    omega
  | some f => exact unreadBytes_advance hf h rfl rfl (by simp [State.refilled, hf])

theorem refill_eq {src : BitSource} {s : State} (h : groupBytes src ≤ s.unreadBytes.length) :
    refill src s = .ok () (s.refilled src) := by
  have hpos := groupBytes_pos src
  cases hf : s.fcur with
  | none =>
    have : s.unreadBytes = [] := by simp [State.unreadBytes, hf]
    simp [this] at h
    omega
  | some f =>
    have hle := unreadBytes_length_le hf
    have hget : ∀ i, i < s.unreadBytes.length → storeRead s.chunk (f.pos.toNat + i) = s.unreadBytes[i]? :=
      fun i hi => unreadBytes_get hf hi
    cases src with
    | group8 =>
      simp only [groupBytes] at h
      obtain ⟨b, rest, hb⟩ : ∃ b rest, s.unreadBytes = b :: rest := by
        cases hu : s.unreadBytes with
        | nil => simp [hu] at h
        | cons b rest => exact ⟨b, rest, rfl⟩
      have h0 := hget 0 (by omega)
      rw [hb] at h0
      simp only [Nat.add_zero, List.getElem?_cons_zero] at h0
      show refill8 s = _
      rw [refill8_eq, fcurRdb_eq]
      simp only [hf, h0]
      rw [if_neg (by omega)]
      simp only [State.refilled, hf, hb, groupBytes, Option.map_some, List.take_succ_cons, List.take_zero, byteBits_cons,
        byteBits_nil, List.append_nil, bitsValue_bitsOf]
      congr 3
      apply BitVec.eq_of_toNat_eq
      have := b.isLt
      rw [toWord_toNat_of_lt] <;> simp <;> omega
    | group32 =>
      simp only [groupBytes] at h
      obtain ⟨b0, b1, b2, b3, rest, hb⟩ : ∃ b0 b1 b2 b3 rest, s.unreadBytes = b0 :: b1 :: b2 :: b3 :: rest := by
        match hu : s.unreadBytes with
        | [] | [_] | [_, _] | [_, _, _] => simp [hu] at h
        | b0 :: b1 :: b2 :: b3 :: rest => exact ⟨b0, b1, b2, b3, rest, rfl⟩
      have h0 := hget 0 (by omega)
      have h1 := hget 1 (by omega)
      have h2 := hget 2 (by omega)
      have h3 := hget 3 (by omega)
      rw [hb] at h0 h1 h2 h3
      simp only [Nat.add_zero, List.getElem?_cons_zero, List.getElem?_cons_succ] at h0 h1 h2 h3
      show refill32 s = _
      unfold refill32
      simp only [M.bind_apply, fcurConsume_eq, hf]
      rw [if_neg (by rw [if_neg (by decide)]; omega)]
      simp only [chunkByte_eq, h0, h1, h2, h3, need_some, M.pure_apply, M.modify_apply, State.refilled, hf, hb,
        groupBytes, Option.map_some, List.take_succ_cons, List.take_zero, byteBits_cons, byteBits_nil, List.append_nil]
      congr 3
      simp only [bitsValue_append, bitsValue_bitsOf, bitsOf_length, List.length_append, be32]
      have e0 := b0.isLt; have e1 := b1.isLt; have e2 := b2.isLt; have e3 := b3.isLt
      rw [Nat.mod_eq_of_lt e0, Nat.mod_eq_of_lt e1, Nat.mod_eq_of_lt e2, Nat.mod_eq_of_lt e3]
      ring_nf

theorem bitStream_eq {s : State} {n : Nat} (h : s.bitsCnt = some n) :
    s.bitStream = bitsOf n (s.bitsAcc.getD 0#32).toNat ++ byteBits s.unreadBytes := by
  simp [State.bitStream, h]

/-- A refill of an empty reader leaves the bit stream as it was. -/
theorem refilled_bitStream {src : BitSource} {s : State} (h0 : s.bitsCnt = some 0)
    (h : groupBytes src ≤ s.unreadBytes.length) : (s.refilled src).bitStream = s.bitStream := by
  rw [bitStream_eq h0, bitStream_eq (s := s.refilled src) rfl, refilled_unreadBytes h]
  show bitsOf _ (toWord _).toNat ++ _ = _
  have hlen : (byteBits (s.unreadBytes.take (groupBytes src))).length = 8 * groupBytes src := by
    rw [byteBits_length, List.length_take, Nat.min_eq_left h]
  have hlt := bitsValue_lt (byteBits (s.unreadBytes.take (groupBytes src)))
  rw [toWord_toNat_of_lt (lt_of_lt_of_le hlt (by rw [hlen]; cases src <;> decide)), ← hlen, bitsOf_bitsValue]
  rw [← byteBits_append, List.take_append_drop]
  rfl

/-! ## Reading bits -/

theorem takeBits_of {n cnt : Nat} {acc : Word} {s : State} (h : s.bitsCnt = some cnt) (ha : s.bitsAcc = some acc) :
    takeBits n s = .ok (min n cnt, acc.toNat / 2 ^ (cnt - min n cnt) % 2 ^ min n cnt)
      { s with bitsCnt := some (cnt - min n cnt) } := by
  rw [takeBits_eq]
  simp only [h, ha]

theorem refills_pos {src : BitSource} {n cnt : Nat} {s : State} (h : s.bitsCnt = some cnt) (hn : cnt < n) :
    0 < s.refills src n := by
  unfold State.refills
  rw [h, Option.getD_some]
  have := groupBytes_pos src
  exact Nat.div_pos (by omega) (by omega)

theorem refills_zero {src : BitSource} {n cnt : Nat} {s : State} (h : s.bitsCnt = some cnt) (hn : n ≤ cnt) :
    s.refills src n = 0 := by
  unfold State.refills
  rw [h, Option.getD_some, Nat.sub_eq_zero_of_le hn]
  have := groupBytes_pos src
  exact Nat.div_eq_of_lt (by omega)

theorem refills_refilled {src : BitSource} {n : Nat} {s : State} (h : s.bitsCnt = some 0) (hn : 0 < n) :
    s.refills src n = (s.refilled src).refills src n + 1 := by
  unfold State.refills
  rw [h, show (s.refilled src).bitsCnt = some (8 * groupBytes src) from rfl, Option.getD_some, Option.getD_some]
  have hg : 0 < 8 * groupBytes src := by have := groupBytes_pos src; omega
  generalize 8 * groupBytes src = g at *
  rcases le_total n g with hle | hle
  · rw [Nat.sub_eq_zero_of_le hle, Nat.div_eq_of_lt (by omega : 0 + (g - 1) < g), Nat.div_eq_iff hg]
    omega
  · rw [show n - 0 + (g - 1) = n - g + (g - 1) + g from by omega, Nat.add_div_right _ hg]

theorem toWord_add_toWord (x y : Nat) : toWord ((toWord x).toNat + y) = toWord (x + y) := by
  apply BitVec.eq_of_toNat_eq
  simp

theorem afterBits_buffered {src : BitSource} {n cnt : Nat} {s : State} (h : s.bitsCnt = some cnt) (hn : n ≤ cnt) :
    s.afterBits src n = { s with bitsCnt := some (cnt - n) } := by
  unfold State.afterBits
  simp only [refills_zero h hn, h, if_true, Option.getD_some]

theorem afterBits_zero {src : BitSource} {s : State} (h : s.ReaderSet) : s.afterBits src 0 = s := by
  obtain ⟨cnt, hc, _⟩ := h
  rw [afterBits_buffered hc (Nat.zero_le cnt), Nat.sub_zero, ← hc]

theorem afterBits_refilled {src : BitSource} {n : Nat} {s : State} (h : s.bitsCnt = some 0) (hn : 0 < n)
    (hu : groupBytes src ≤ s.unreadBytes.length) : (s.refilled src).afterBits src n = s.afterBits src n := by
  have hr := refills_refilled (src := src) h hn
  unfold State.afterBits
  rw [hr, refilled_unreadBytes hu, h, show (s.refilled src).bitsCnt = some (8 * groupBytes src) from rfl]
  generalize (s.refilled src).refills src n = r
  cases r with
  | zero => simp [State.refilled]
  | succ r =>
    have e1 : 8 * groupBytes src + 8 * groupBytes src * (r + 1) = 0 + 8 * groupBytes src * (r + 1 + 1) := by ring
    have e2 : groupBytes src + groupBytes src * r = groupBytes src * (r + 1) := by ring
    have e3 : ∀ x, x + groupBytes src + groupBytes src * (r + 1) = x + groupBytes src * (r + 1 + 1) := fun x => by ring
    simp only [Nat.succ_ne_zero, if_false, Option.getD_some, Nat.add_sub_cancel, State.refilled, Option.map_map,
      List.drop_drop, Function.comp_def, toWord_add_toWord, e1, e2, e3]

theorem afterBits_emptied {src : BitSource} {n cnt : Nat} {s : State} (h : s.bitsCnt = some cnt) (hn : cnt < n) :
    ({ s with bitsCnt := some 0 } : State).afterBits src (n - cnt) = s.afterBits src n := by
  have e : ({ s with bitsCnt := some 0 } : State).refills src (n - cnt) = s.refills src n := by
    simp [State.refills, h]
  have hr := refills_pos (src := src) h hn
  unfold State.afterBits
  rw [e, h]
  simp only [Nat.pos_iff_ne_zero.1 hr, if_false, Option.getD_some]
  congr 2
  omega

theorem bitStream_take_buffered {s : State} {n cnt : Nat} {acc : Word} (h : s.bitsCnt = some cnt)
    (ha : s.bitsAcc = some acc) (hn : n ≤ cnt) :
    s.bitStream.take n = bitsOf n (acc.toNat / 2 ^ (cnt - n)) := by
  rw [bitStream_eq h, ha, Option.getD_some]
  have : bitsOf cnt acc.toNat = bitsOf n (acc.toNat / 2 ^ (cnt - n)) ++ bitsOf (cnt - n) acc.toNat := by
    rw [← bitsOf_append, Nat.add_sub_cancel' hn]
  rw [this, List.append_assoc, List.take_left' (by simp)]

theorem bitStream_drop_buffered {s : State} {n cnt : Nat} (h : s.bitsCnt = some cnt) (hn : n ≤ cnt) :
    s.bitStream.drop n = ({ s with bitsCnt := some (cnt - n) } : State).bitStream := by
  rw [bitStream_eq h, bitStream_eq (s := { s with bitsCnt := some (cnt - n) }) rfl]
  have : ∀ v, bitsOf cnt v = bitsOf n (v / 2 ^ (cnt - n)) ++ bitsOf (cnt - n) v := fun v => by
    rw [← bitsOf_append, Nat.add_sub_cancel' hn]
  rw [this, List.append_assoc, List.drop_left' (by simp)]
  rfl

theorem canRead_bound {src : BitSource} {n cnt : Nat} {s : State} (hc : s.bitsCnt = some cnt) (h : s.CanRead src n) :
    n ≤ s.bitStream.length := by
  have hroom := h.2
  rw [bitStream_eq hc, List.length_append, bitsOf_length, byteBits_length]
  unfold State.refills at hroom
  rw [hc, Option.getD_some] at hroom
  have hg : 0 < 8 * groupBytes src := by have := groupBytes_pos src; omega
  have := Nat.lt_mul_div_succ (n - cnt + (8 * groupBytes src - 1)) hg
  rw [Nat.mul_add, Nat.mul_one, Nat.mul_assoc] at this
  omega

/-- The read loop delivers the next bits of the stream. -/
theorem readBitsLoop_eq {src : BitSource} (turns n ret : Nat) {s : State} (hn : n ≤ turns) (h : s.CanRead src n) :
    readBitsLoop src turns n ret s = .ok (ret * 2 ^ n + bitsValue (s.bitStream.take n)) (s.afterBits src n) := by
  induction turns generalizing n ret s with
  | zero =>
    obtain rfl : n = 0 := by omega
    rw [afterBits_zero h.1]
    simp [readBitsLoop]
  | succ turns ih =>
    by_cases h0 : n = 0
    · subst h0
      rw [afterBits_zero h.1]
      simp [readBitsLoop]
    -- what one turn does once bits are buffered
    have turn : ∀ (t : State) (k : Nat), t.bitsCnt = some k → 0 < k → t.CanRead src n →
        (takeBits n >>= fun x => readBitsLoop src turns (n - x.1) (ret * 2 ^ x.1 + x.2)) t =
        (.ok (ret * 2 ^ n + bitsValue (t.bitStream.take n)) (t.afterBits src n) : EStateM.Result Raise State Nat) := by
      intro t k hk hkpos ht
      obtain ⟨⟨k', hk', hacc⟩, hroom⟩ := ht
      obtain rfl : k = k' := by rw [hk] at hk'; exact Option.some.inj hk'
      obtain ⟨acc, hacc⟩ := hacc.resolve_left (by omega)
      rw [M.bind_apply, takeBits_of hk hacc]
      simp only []
      rcases le_or_gt n k with hle | hgt
      · have hset : ({ t with bitsCnt := some (k - n) } : State).ReaderSet := ⟨k - n, rfl, .inr ⟨acc, hacc⟩⟩
        rw [Nat.min_eq_left hle, Nat.sub_self, ih 0 _ (Nat.zero_le _) ⟨hset, by
            rw [refills_zero (cnt := k - n) rfl (Nat.zero_le _)]; simp⟩,
          afterBits_zero hset, afterBits_buffered hk hle, bitStream_take_buffered hk hacc hle]
        simp
      · have e : ({ t with bitsCnt := some 0 } : State).refills src (n - k) = t.refills src n := by
          simp [State.refills, hk]
        have hcan : ({ t with bitsCnt := some 0 } : State).CanRead src (n - k) := ⟨⟨0, rfl, .inl rfl⟩, by
          rw [e]; exact hroom⟩
        have hlen := canRead_bound (cnt := 0) rfl hcan
        have hbits : t.bitStream.take n =
            bitsOf k acc.toNat ++ ({ t with bitsCnt := some 0 } : State).bitStream.take (n - k) := by
          have hd := bitStream_drop_buffered hk (le_refl k)
          have hv := bitStream_take_buffered hk hacc (le_refl k)
          rw [Nat.sub_self] at hd hv
          rw [← hd, show n = k + (n - k) from by omega, List.take_add, hv]
          simp
        rw [Nat.min_eq_right hgt.le, Nat.sub_self, ih (n - k) _ (by omega) hcan, afterBits_emptied hk hgt, hbits,
          bitsValue_append, List.length_take, Nat.min_eq_left hlen, bitsValue_bitsOf]
        congr 1
        conv_rhs => rw [show n = k + (n - k) from by omega, pow_add]
        simp only [Nat.add_sub_cancel_left, pow_zero, Nat.div_one]
        ring
    obtain ⟨cnt, hc, ha⟩ := h.1
    have step : readBitsLoop src (turns + 1) n ret s =
        (refillIfEmpty src >>= fun _ =>
          takeBits n >>= fun x => readBitsLoop src turns (n - x.1) (ret * 2 ^ x.1 + x.2)) s := by
      rw [readBitsLoop, if_neg h0]
    rw [step, M.bind_apply, refillIfEmpty_eq]
    simp only [hc]
    by_cases hz : cnt = 0
    · subst hz
      have hpos := refills_pos (src := src) hc (Nat.pos_of_ne_zero h0)
      have hroom := h.2
      have hu : groupBytes src ≤ s.unreadBytes.length :=
        le_trans (Nat.le_mul_of_pos_right _ hpos) hroom
      rw [if_pos rfl, refill_eq hu]
      simp only []
      rw [turn (s.refilled src) _ rfl (by have := groupBytes_pos src; omega), refilled_bitStream hc hu,
        afterBits_refilled hc (Nat.pos_of_ne_zero h0) hu]
      refine ⟨⟨_, rfl, .inr ⟨_, rfl⟩⟩, ?_⟩
      rw [refilled_unreadBytes hu, List.length_drop]
      rw [refills_refilled hc (Nat.pos_of_ne_zero h0), Nat.mul_add, Nat.mul_one] at hroom
      omega
    · rw [if_neg hz]
      exact turn s cnt hc (Nat.pos_of_ne_zero hz) h

/-- A read of bits: the value of the next bits of the stream, first bit most significant, and the state after it. -/
theorem readBits_eq_stream {src : BitSource} {n : Nat} {s : State} (hn : n ≤ 32) (h : s.CanRead src n) :
    readBits src n s = .ok (bitsValue (s.bitStream.take n)) (s.afterBits src n) := by
  rw [readBits_eq, if_neg (by omega), readBitsLoop_eq n n 0 le_rfl h]
  simp
end Sys2Proof.Machine
end

