-- ==== Sys2Proof/Laws/Config.lean ====
section
/-! SUPPORT. The properties that the spec states beside the OPEN items can be met together: a configuration with unary codes
and counts whose maximum saturates at the largest u32 is lawful. -/

namespace Sys2Proof

/-- Unary codes for `n` symbols from `s` on: symbol s + i has i ones and a zero, the last one ones only. -/
def unaryCodes : Nat → Nat → List HufEntry
  | 0, _ => []
  | 1, s => [⟨0, 0, BitVec.ofNat 32 s⟩]
  | n + 2, s => ⟨1, 0, BitVec.ofNat 32 s⟩ :: (unaryCodes (n + 1) (s + 1)).map fun e => ⟨e.len + 1, 2 ^ e.len + e.code, e.sym⟩

theorem unaryCodes_wf (n s : Nat) : ∀ e ∈ unaryCodes n s, e.code < 2 ^ e.len := by
  induction n, s using unaryCodes.induct with
  | case1 => simp [unaryCodes]
  | case2 => simp [unaryCodes]
  | case3 n s ih =>
    intro e he
    simp only [unaryCodes, List.mem_cons, List.mem_map] at he
    obtain rfl | ⟨x, hx, rfl⟩ := he
    · simp
    · have := ih x hx
      simp only [pow_succ]
      omega

theorem unaryCodes_prefixFree (n s : Nat) : prefixFree (unaryCodes n s) := by
  induction n, s using unaryCodes.induct with
  | case1 => simp [unaryCodes, prefixFree]
  | case2 => simp [unaryCodes, prefixFree]
  | case3 n s ih =>
    simp only [unaryCodes, prefixFree, List.pairwise_cons, List.mem_map, List.pairwise_map]
    refine ⟨?_, ?_⟩
    · rintro _ ⟨x, hx, rfl⟩
      have hx := unaryCodes_wf _ _ x hx
      rw [Nat.min_eq_left (by omega : 1 ≤ x.len + 1)]
      simp only [Nat.add_sub_cancel, Nat.sub_self, pow_zero, Nat.div_one]
      rw [Nat.div_eq_of_lt_le (k := 1) (by omega) (by omega)]
      decide
    · refine ih.imp_of_mem fun {a b} ha hb h => ?_
      have ha := unaryCodes_wf _ _ a ha
      have hb := unaryCodes_wf _ _ b hb
      rw [Nat.add_min_add_right, Nat.add_sub_add_right, Nat.add_sub_add_right]
      have split : ∀ l m c : Nat, m ≤ l → (2 ^ l + c) / 2 ^ (l - m) = 2 ^ m + c / 2 ^ (l - m) := fun l m c hm => by
        rw [show 2 ^ l = 2 ^ m * 2 ^ (l - m) by rw [← pow_add]; congr 1; omega, Nat.add_comm,
          Nat.add_mul_div_right _ _ (Nat.two_pow_pos _), Nat.add_comm]
      rw [split _ _ _ (Nat.min_le_left _ _), split _ _ _ (Nat.min_le_right _ _)]
      omega

theorem unaryCodes_symbols (n s : Nat) (h : s + n ≤ 2 ^ 32) (w : Word) :
    ((unaryCodes n s).filter (fun e => e.sym == w)).length = if s ≤ w.toNat ∧ w.toNat < s + n then 1 else 0 := by
  induction n, s using unaryCodes.induct with
  | case1 => simp [unaryCodes]
  | case2 s =>
    have : (BitVec.ofNat 32 s == w) = decide (s = w.toNat) := by
      rw [Bool.eq_iff_iff]; simp [BitVec.toNat_eq, Nat.mod_eq_of_lt (show s < 4294967296 by omega)]
    simp only [unaryCodes, List.filter_cons, this, List.filter_nil]
    by_cases hs : s = w.toNat
    · rw [if_pos (by simpa using hs), if_pos (by omega)]; rfl
    · rw [if_neg (by simpa using hs), if_neg (by omega)]; rfl
  | case3 n s ih =>
    have : (BitVec.ofNat 32 s == w) = decide (s = w.toNat) := by
      rw [Bool.eq_iff_iff]; simp [BitVec.toNat_eq, Nat.mod_eq_of_lt (show s < 4294967296 by omega)]
    simp only [unaryCodes, List.filter_cons, this, List.filter_map, Function.comp_def]
    have ih := ih (by omega)
    by_cases hs : s = w.toNat
    · rw [if_pos (by simpa using hs), List.length_cons, List.length_map, ih, if_neg (by omega), if_pos (by omega)]
    · rw [if_neg (by simpa using hs), List.length_map, ih]
      congr 1
      apply propext
      omega

theorem unaryCodes_complete (n s : Nat) (hn : 0 < n) : completeCodes (unaryCodes n s) := by
  induction n, s using unaryCodes.induct with
  | case1 => omega
  | case2 =>
    intro l v hv _
    exact ⟨_, List.mem_singleton_self _, Nat.div_eq_of_lt (by simpa using hv)⟩
  | case3 n s ih =>
    intro l v hv hl
    have hl1 : 1 ≤ l := hl ⟨1, 0, BitVec.ofNat 32 s⟩ (by simp [unaryCodes])
    obtain ⟨l, rfl⟩ : ∃ k, l = k + 1 := ⟨l - 1, by omega⟩
    rw [pow_succ] at hv
    rcases Nat.lt_or_ge v (2 ^ l) with h | h
    · exact ⟨⟨1, 0, BitVec.ofNat 32 s⟩, by simp [unaryCodes], by simpa using Nat.div_eq_of_lt h⟩
    · obtain ⟨e, he, hc⟩ := ih (by omega) l (v - 2 ^ l) (by omega) (fun e he => by
        have := hl ⟨e.len + 1, 2 ^ e.len + e.code, e.sym⟩ (by
          simp only [unaryCodes, List.mem_cons, List.mem_map]; exact .inr ⟨e, he, rfl⟩)
        simpa using this)
      have hle : e.len ≤ l := by
        have := hl ⟨e.len + 1, 2 ^ e.len + e.code, e.sym⟩ (by
          simp only [unaryCodes, List.mem_cons, List.mem_map]; exact .inr ⟨e, he, rfl⟩)
        simpa using this
      refine ⟨⟨e.len + 1, 2 ^ e.len + e.code, e.sym⟩, by
        simp only [unaryCodes, List.mem_cons, List.mem_map]; exact .inr ⟨e, he, rfl⟩, ?_⟩
      simp only
      rw [show l + 1 - (e.len + 1) = l - e.len by omega, ← hc]
      conv_lhs => rw [show v = v - 2 ^ l + 2 ^ e.len * 2 ^ (l - e.len) by
        rw [← pow_add, show e.len + (l - e.len) = l by omega]; omega]
      rw [Nat.add_mul_div_right _ _ (Nat.two_pow_pos _), Nat.add_comm]

/-- The largest count. -/
def maxCount (freq : List Nat) : Nat := freq.foldr max 0

theorem le_maxCount {freq : List Nat} : ∀ f ∈ freq, f ≤ maxCount freq := by
  induction freq with
  | nil => simp
  | cons a l ih =>
    intro f hf
    rcases List.mem_cons.1 hf with rfl | h
    · exact Nat.le_max_left _ _
    · exact le_trans (ih f h) (Nat.le_max_right _ _)

theorem maxCount_modify (freq : List Nat) (s : Nat) : maxCount freq ≤ maxCount (freq.modify s (· + 1)) := by
  induction freq generalizing s with
  | nil => simp
  | cons a l ih =>
    cases s with
    | zero => simp [maxCount]; omega
    | succ s =>
      have := ih s
      simp only [maxCount, List.modify_succ_cons, List.foldr_cons] at this ⊢
      omega

/-- A configuration that meets every stated property. -/
def sampleConfig : Config :=
  { (default : Config) with
    dhufInit := fun n => { freq := List.replicate n 0, shape := [] }
    dhufCodes := fun t => unaryCodes t.freq.length 0
    dhufUpdate := fun t s => { t with freq := t.freq.modify s (· + 1) }
    dhufMaxF := fun t => BitVec.ofNat 32 (min (maxCount t.freq) (2 ^ 32 - 1))
    lhlbDist := .leaf 1, mashLitLen := .leaf 0, mashLit := .leaf 0, mashMatch := .leaf default
    rakeTier := .leaf 0, sqshFirst := .leaf 0, sqshLenBucket := .leaf 0, sqshDistWay := .leaf 0
    rakeHeader := fun _ => none, shriHeader := fun _ => none, smplHeader := fun _ => none, sqshHeader := fun _ => none
    rakeLenLess1 := fun _ => 31
    shriGetCode := fun _ _ => .leaf none }

theorem sampleConfig_freq {n : Nat} {t : DhufTree} (h : sampleConfig.DhufReach n t) : t.freq.length = n := by
  induction h with
  | init => simp [sampleConfig]
  | update t s _ _ ih => simpa [sampleConfig] using ih

theorem sampleConfig_maxF (t : DhufTree) : (sampleConfig.dhufMaxF t).toNat = min (maxCount t.freq) (2 ^ 32 - 1) := by
  show (BitVec.ofNat 32 _).toNat = _
  rw [BitVec.toNat_ofNat, Nat.mod_eq_of_lt (by omega)]

theorem sampleConfig_lawful : sampleConfig.Lawful where
  codes_prefix_free _ _ _ _ _ := unaryCodes_prefixFree _ _
  codes_wf _ _ _ _ _ := unaryCodes_wf _ _
  codes_symbols n t _ hn h s := by
    have hf := sampleConfig_freq h
    have := unaryCodes_symbols n 0 (by omega) s
    simpa [sampleConfig, hf] using this
  codes_complete n t hn _ h := by
    have hf := sampleConfig_freq h
    exact unaryCodes_complete _ _ (by omega)
  freq_init n _ _ := by simp [sampleConfig]
  freq_update _ _ _ _ _ _ _ := rfl
  maxF_mono n t s _ _ _ _ := by
    rw [sampleConfig_maxF, sampleConfig_maxF]
    have := maxCount_modify t.freq s
    show _ ≤ min (maxCount (t.freq.modify s (· + 1))) _
    omega
  maxF_bound n t _ _ _ f hf hlt := by
    rw [sampleConfig_maxF]
    have := le_maxCount f hf
    omega
  shri_progress := fun _ _ _ _ _ _ _ _ h _ => by cases h
  fields_short := by simp [sampleConfig, BitTree.depth]
  rake_header := by rintro _ _ ⟨⟩
  rake_kraft := by norm_num [sampleConfig]
  shri_header := by rintro _ _ ⟨⟩
  smpl_header := by rintro _ _ ⟨⟩
  sqsh_header := by rintro _ _ ⟨⟩

end Sys2Proof
end

