-- ==== Sys2Proof/Laws/Frame.lean ====
section
/-! SUPPORT. What the bodies of commands change: each shared operation changes the listed parts of the state and no
other (Changes of Safety.lean), and a composition changes the parts of its pieces. -/

namespace Sys2Proof.Machine

/-- The state a body ends in, with a value or with a raise. -/
def endState {α : Type} (r : EStateM.Result Raise State α) : State :=
  match r with
  | .ok _ t => t
  | .error _ t => t

@[simp] theorem endState_ok {α : Type} (a : α) (t : State) : endState (.ok a t : EStateM.Result Raise State α) = t := rfl

@[simp] theorem endState_error {α : Type} (e : Raise) (t : State) :
    endState (.error e t : EStateM.Result Raise State α) = t := rfl

/-- However a body ends, a relation holds between the state it starts in and the state it ends in. -/
def Keeps {α : Type} (R : State → State → Prop) (m : M α) : Prop := ∀ s, R s (endState (m s))

/-- A relation that composes. -/
structure Composes (R : State → State → Prop) : Prop where
  refl : ∀ s, R s s
  trans : ∀ {s t u}, R s t → R t u → R s u

section Rules

variable {α β : Type} {R : State → State → Prop}

theorem Keeps.ok {m : M α} (h : Keeps R m) {s t : State} {a : α} (e : m s = .ok a t) : R s t := by
  have := h s; rwa [e] at this

theorem Keeps.error {m : M α} (h : Keeps R m) {s t : State} {r : Raise} (e : m s = .error r t) : R s t := by
  have := h s; rwa [e] at this

theorem Keeps.pure (hR : Composes R) (a : α) : Keeps R (pure a) := fun s => hR.refl s

theorem Keeps.throw (hR : Composes R) (e : Raise) : Keeps R (throw e : M α) := fun s => hR.refl s

theorem Keeps.raise (hR : Composes R) (c : Cause) : Keeps R (raise c : M α) := fun s => hR.refl s

theorem Keeps.raiseChecksum (hR : Composes R) : Keeps R (raiseChecksum : M α) := fun s => hR.refl s

theorem Keeps.get (hR : Composes R) : Keeps R (get : M State) := fun s => hR.refl s

theorem Keeps.modify {f : State → State} (h : ∀ s, R s (f s)) : Keeps R (modify f : M PUnit) := h

theorem Keeps.bind (hR : Composes R) {x : M α} {f : α → M β} (hx : Keeps R x) (hf : ∀ a, Keeps R (f a)) :
    Keeps R (x >>= f) := by
  intro s
  rw [M.bind_apply]
  have h := hx s
  cases hxs : x s with
  | ok a t => rw [hxs] at h; exact hR.trans h (hf a t)
  | error e t => rw [hxs] at h; exact h

theorem Keeps.ite {p : Prop} [Decidable p] {x y : M α} (hx : Keeps R x) (hy : Keeps R y) :
    Keeps R (if p then x else y) := by
  split <;> assumption

theorem Keeps.need (hR : Composes R) (o : Option α) : Keeps R (need o) := by
  cases o <;> intro s <;> exact hR.refl s

end Rules

/-! ## Changes compose -/

theorem Changes.refl (ps : List Part) (s : State) : Changes ps s s := fun p _ => by cases p <;> rfl

theorem Part.Agree.trans {p : Part} {s t u : State} (h : p.Agree s t) (h' : p.Agree t u) : p.Agree s u := by
  cases p <;> exact Eq.trans h h'

theorem Changes.trans {ps : List Part} {s t u : State} (h : Changes ps s t) (h' : Changes ps t u) : Changes ps s u :=
  fun p hp => (h p hp).trans (h' p hp)

theorem Changes.mono {ps qs : List Part} {s t : State} (hs : ps ⊆ qs) (h : Changes ps s t) : Changes qs s t :=
  fun p hp => h p fun hp' => hp (hs hp')

theorem changes_composes (ps : List Part) : Composes (Changes ps) := ⟨Changes.refl ps, Changes.trans⟩

/-- Nothing changed: the states are equal. -/
theorem Changes.eq {s t : State} (h : Changes [] s t) : s = t := by
  have hs := fun p => h p (by simp)
  have h0 := hs .host; have h1 := hs .history; have h2 := hs .arith; have h3 := hs .shriFlag; have h4 := hs .result
  have h5 := hs .otherResult; have h6 := hs .code; have h7 := hs .phase; have h8 := hs .reader; have h9 := hs .backCursor
  have h10 := hs .writer; have h11 := hs .backWriter; have h12 := hs .output; have h13 := hs .lengths
  have h14 := hs .tables; have h15 := hs .tracker; have h16 := hs .lists; have h17 := hs .dictionary
  have h18 := hs .block; have h19 := hs .smpl; have h20 := hs .sqsh
  simp only [Part.Agree, Prod.mk.injEq] at *
  obtain ⟨⟨k, c, f, v, b⟩, _⟩ := s
  obtain ⟨⟨k', c', f', v', b'⟩, _⟩ := t
  simp_all

section Parts

variable {α β : Type} {ps qs : List Part}

theorem Keeps.mono {m : M α} (h : Keeps (Changes ps) m) (hs : ps ⊆ qs) : Keeps (Changes qs) m :=
  fun s => (h s).mono hs

theorem bind_changes {x : M α} {f : α → M β} (hx : Keeps (Changes ps) x) (hf : ∀ v, Keeps (Changes qs) (f v)) :
    Keeps (Changes (ps ++ qs)) (x >>= f) :=
  Keeps.bind (changes_composes _) (hx.mono (List.subset_append_left _ _))
    fun v => (hf v).mono (List.subset_append_right _ _)

theorem ite_changes {p : Prop} [Decidable p] {x y : M α} (hx : Keeps (Changes ps) x) (hy : Keeps (Changes qs) y) :
    Keeps (Changes (ps ++ qs)) (if p then x else y) :=
  Keeps.ite (hx.mono (List.subset_append_left _ _)) (hy.mono (List.subset_append_right _ _))

theorem changes_within {m : M α} (hs : ps ⊆ qs) (h : Keeps (Changes ps) m) : Keeps (Changes qs) m := h.mono hs

/-- A first part that changes some of the parts, where the rest changes them. -/
theorem bind_in {x : M α} {f : α → M β} (hx : Keeps (Changes ps) x) (hs : ps ⊆ qs) (hf : ∀ v, Keeps (Changes qs) (f v)) :
    Keeps (Changes qs) (x >>= f) :=
  Keeps.bind (changes_composes _) (hx.mono hs) hf

theorem pure_changes (v : α) : Keeps (Changes []) (pure v : M α) := Keeps.pure (changes_composes _) v

theorem get_changes : Keeps (Changes []) (get : M State) := Keeps.get (changes_composes _)

theorem raise_changes (c : Cause) : Keeps (Changes []) (raise c : M α) := Keeps.raise (changes_composes _) c

theorem throw_changes (e : Raise) : Keeps (Changes []) (throw e : M α) := Keeps.throw (changes_composes _) e

theorem need_changes (o : Option α) : Keeps (Changes []) (need o) := Keeps.need (changes_composes _) o

theorem modify_changes (ps : List Part) {f : State → State} (h : ∀ s, Changes ps s (f s)) :
    Keeps (Changes ps) (modify f : M PUnit) := h

end Parts

/-! ## The shared operations -/

theorem readArg0_changes : Keeps (Changes []) readArg0 := fun s => need_changes s.arg0 s

theorem readArg1_changes : Keeps (Changes []) readArg1 := fun s => need_changes s.arg1 s

theorem readArg2_changes : Keeps (Changes []) readArg2 := fun s => need_changes s.arg2 s

theorem setRes0_changes (v : Word) : Keeps (Changes [.result]) (setRes0 v) :=
  modify_changes [.result] fun s p hp => by
        cases p <;> first | rfl | exact absurd (by decide) hp

theorem fcurSet_changes (x y : Word) : Keeps (Changes [.reader]) (fcurSet x y) := fun s => by
  rw [fcurSet_eq]; split <;> (intro p hp; cases p <;> first | rfl | exact absurd (by decide) hp)

theorem fcurRdb_changes : Keeps (Changes [.reader]) fcurRdb := fun s => by
  rw [fcurRdb_eq]
  repeat' split
  all_goals (intro p hp; cases p <;> first | rfl | exact absurd (by decide) hp)

theorem fcurConsume_changes (n : Nat) : Keeps (Changes [.reader]) (fcurConsume n) := fun s => by
  rw [fcurConsume_eq]
  repeat' split
  all_goals (intro p hp; cases p <;> first | rfl | exact absurd (by decide) hp)

theorem bcurSet_changes (x y : Word) : Keeps (Changes [.backCursor]) (bcurSet x y) := fun s => by
  rw [bcurSet_eq]; split <;> (intro p hp; cases p <;> first | rfl | exact absurd (by decide) hp)

theorem bcurRdb_changes : Keeps (Changes [.backCursor]) bcurRdb := fun s => by
  rw [bcurRdb_eq]
  repeat' split
  all_goals (intro p hp; cases p <;> first | rfl | exact absurd (by decide) hp)

theorem bcurConsume_changes (n : Nat) : Keeps (Changes [.backCursor]) (bcurConsume n) := fun s => by
  rw [bcurConsume_eq]
  repeat' split
  all_goals (intro p hp; cases p <;> first | rfl | exact absurd (by decide) hp)

theorem chunkByte_changes (x : Nat) : Keeps (Changes []) (chunkByte x) := fun s => need_changes _ s

theorem chunkBytes_changes : Keeps (Changes []) chunkBytes := fun s => need_changes _ s

theorem bitsReset_changes (x : Word) (n : Nat) : Keeps (Changes [.reader]) (bitsReset x n) :=
  modify_changes [.reader] fun s p hp => by
        cases p <;> first | rfl | exact absurd (by decide) hp

theorem refill_changes (src : BitSource) : Keeps (Changes [.reader]) (refill src) := by
  cases src
  · exact changes_within (by decide) <| bind_changes fcurRdb_changes fun b => modify_changes [.reader] fun s p hp => by
        cases p <;> first | rfl | exact absurd (by decide) hp
  · exact changes_within (by decide) <| bind_changes (fcurConsume_changes 4) fun o => bind_changes (chunkByte_changes _) fun _ => bind_changes (chunkByte_changes _) fun _ =>
      bind_changes (chunkByte_changes _) fun _ => bind_changes (chunkByte_changes _) fun _ =>
        modify_changes [.reader] fun s p hp => by
        cases p <;> first | rfl | exact absurd (by decide) hp

theorem refillIfEmpty_changes (src : BitSource) : Keeps (Changes [.reader]) (refillIfEmpty src) :=
  changes_within (by decide) <| bind_changes get_changes fun _ => bind_changes (need_changes _) fun _ => ite_changes (refill_changes src) (pure_changes _)

theorem takeBits_changes (n : Nat) : Keeps (Changes [.reader]) (takeBits n) := fun s => by
  rw [takeBits_eq]
  repeat' split
  all_goals (intro p hp; cases p <;> first | rfl | exact absurd (by decide) hp)

theorem readBitsLoop_changes (src : BitSource) (turns n ret : Nat) : Keeps (Changes [.reader]) (readBitsLoop src turns n ret) := by
  induction turns generalizing n ret with
  | zero => exact changes_within (by decide) <| pure_changes _
  | succ turns ih =>
    exact changes_within (by decide) <| ite_changes (pure_changes _) (bind_changes (refillIfEmpty_changes src) fun _ => bind_changes (takeBits_changes n) fun x => ih _ _)

theorem readBits_changes (src : BitSource) (n : Nat) : Keeps (Changes [.reader]) (readBits src n) :=
  changes_within (by decide) <| ite_changes (raise_changes _) (readBitsLoop_changes src n n 0)

theorem rd_changes (n : Nat) : Keeps (Changes [.reader]) (rd n) := readBits_changes _ n

theorem runField_changes {α : Type} (t : BitTree α) : Keeps (Changes [.reader]) (runField t) := by
  induction t with
  | leaf v => exact changes_within (by decide) <| pure_changes v
  | node z o hz ho => exact changes_within (by decide) <| bind_changes (rd_changes 1) fun b => ite_changes hz ho

theorem fwrSet_changes (x y : Word) : Keeps (Changes [.writer]) (fwrSet x y) := fun s => by
  rw [fwrSet_eq]; split <;> (intro p hp; cases p <;> first | rfl | exact absurd (by decide) hp)

theorem fwrPut_changes (f : Fwr) (b : Byte) (s : State) : Changes [.writer, .output] s (fwrPut f b s) := by
  intro p hp; cases p <;> first | rfl | exact absurd (by decide) hp

theorem bwrPut_changes (f : Bwr) (b : Byte) (s : State) : Changes [.backWriter, .output] s (bwrPut f b s) := by
  intro p hp; cases p <;> first | rfl | exact absurd (by decide) hp

theorem fwrWrb_changes (b : Byte) : Keeps (Changes [.writer, .output]) (fwrWrb b) := fun s => by
  rw [fwrWrb_eq]
  repeat' split
  all_goals first | exact Changes.refl _ s | exact fwrPut_changes _ _ s

theorem fwrCopyLoop_changes (d c : Nat) : Keeps (Changes [.writer, .output]) (fwrCopyLoop d c) := by
  induction c with
  | zero => exact fun s => Changes.refl _ s
  | succ c ih =>
    intro s
    rw [fwrCopyLoop_succ]
    repeat' split
    all_goals first | exact Changes.refl _ s | exact (fwrPut_changes _ _ s).trans (ih _)

theorem fwrCopy_changes (d c : Nat) : Keeps (Changes [.writer, .output]) (fwrCopy d c) := fun s => by
  rw [fwrCopy_eq]
  repeat' split
  all_goals first | exact Changes.refl _ s | exact fwrCopyLoop_changes d c s

theorem fwrCopyhLoop_changes (history : List Byte) (d c : Nat) : Keeps (Changes [.writer, .output]) (fwrCopyhLoop history d c) := by
  induction c with
  | zero => exact fun s => Changes.refl _ s
  | succ c ih =>
    intro s
    rw [fwrCopyhLoop_succ]
    repeat' split
    all_goals first | exact Changes.refl _ s | exact (fwrPut_changes _ _ s).trans (ih _)

theorem fwrCopyh_changes (d c : Nat) : Keeps (Changes [.writer, .output]) (fwrCopyh d c) := fun s => by
  rw [fwrCopyh_eq]
  repeat' split
  all_goals first | exact Changes.refl _ s | exact fwrCopyhLoop_changes _ d c s

theorem fwrEof_changes : Keeps (Changes []) fwrEof := changes_within (by decide) <| bind_changes get_changes fun _ => bind_changes (need_changes _) fun _ => pure_changes _

theorem fwrRoom_changes : Keeps (Changes []) fwrRoom := changes_within (by decide) <| bind_changes get_changes fun _ => bind_changes (need_changes _) fun _ => pure_changes _

theorem fwrOff_changes : Keeps (Changes []) fwrOff := changes_within (by decide) <| bind_changes get_changes fun _ => bind_changes (need_changes _) fun _ => pure_changes _

theorem bwrSet_changes (x y : Word) : Keeps (Changes [.backWriter]) (bwrSet x y) := fun s => by
  rw [bwrSet_eq]; split <;> (intro p hp; cases p <;> first | rfl | exact absurd (by decide) hp)

theorem bwrWrb_changes (b : Byte) : Keeps (Changes [.backWriter, .output]) (bwrWrb b) := fun s => by
  rw [bwrWrb_eq]
  repeat' split
  all_goals first | exact Changes.refl _ s | exact bwrPut_changes _ _ s

theorem bwrCopyLoop_changes (d c : Nat) : Keeps (Changes [.backWriter, .output]) (bwrCopyLoop d c) := by
  induction c with
  | zero => exact fun s => Changes.refl _ s
  | succ c ih =>
    intro s
    rw [bwrCopyLoop_succ]
    repeat' split
    all_goals first | exact Changes.refl _ s | exact (bwrPut_changes _ _ s).trans (ih _)

theorem bwrCopy_changes (d c : Nat) : Keeps (Changes [.backWriter, .output]) (bwrCopy d c) := fun s => by
  rw [bwrCopy_eq]
  repeat' split
  all_goals first | exact Changes.refl _ s | exact bwrCopyLoop_changes d c s

theorem bwrEof_changes : Keeps (Changes []) bwrEof := changes_within (by decide) <| bind_changes get_changes fun _ => bind_changes (need_changes _) fun _ => pure_changes _

theorem bwrRoom_changes : Keeps (Changes []) bwrRoom := changes_within (by decide) <| bind_changes get_changes fun _ => bind_changes (need_changes _) fun _ => pure_changes _

theorem bwrOff_changes : Keeps (Changes []) bwrOff := changes_within (by decide) <| bind_changes get_changes fun _ => bind_changes (need_changes _) fun _ => pure_changes _

theorem histPush_changes (c : Config) : Keeps (Changes [.history]) (histPush c) := fun s => by
  rw [histPush_eq]
  repeat' split
  all_goals (intro p hp; cases p <;> first | rfl | exact absurd (by decide) hp)

theorem commonSetup_changes : Keeps (Changes [.phase, .writer, .reader]) commonSetup := fun s => by
  rw [commonSetup_eq]; intro p hp; cases p <;> first | rfl | exact absurd (by decide) hp

theorem macroEnd_changes : Keeps (Changes [.code, .phase, .result, .otherResult]) macroEnd := modify_changes [.code, .phase, .result, .otherResult] fun s p hp => by
        cases p <;> first | rfl | exact absurd (by decide) hp

theorem progressing_changes {ps : List Part} {turn : M Bool} (ht : Keeps (Changes ps) turn) :
    Keeps (Changes ps) (progressing turn) :=
  Keeps.bind (changes_composes ps) (changes_within (List.nil_subset ps) get_changes) fun _ =>
    Keeps.bind (changes_composes ps) ht fun b =>
      Keeps.bind (changes_composes ps) (changes_within (List.nil_subset ps) get_changes) fun _ =>
        Keeps.ite (Keeps.throw (changes_composes ps) _) (Keeps.pure (changes_composes ps) b)

theorem turnLoop_changes {ps : List Part} {going turn : M Bool} (hg : Keeps (Changes ps) going)
    (ht : Keeps (Changes ps) turn) (turns : Nat) : Keeps (Changes ps) (turnLoop going turn turns) := by
  have hp := fun (u : Unit) => Keeps.pure (α := Unit) (changes_composes ps) u
  induction turns with
  | zero => exact Keeps.bind (changes_composes ps) hg fun g => Keeps.ite (Keeps.throw (changes_composes ps) _) (hp _)
  | succ turns ih =>
    exact Keeps.bind (changes_composes ps) hg fun g =>
      Keeps.ite (Keeps.bind (changes_composes ps) (progressing_changes ht) fun b => Keeps.ite ih (hp _)) (hp _)

theorem whileNotEof_changes {ps : List Part} {turn : M Bool} (ht : Keeps (Changes ps) turn) (turns : Nat) :
    Keeps (Changes ps) (whileNotEof turn turns) :=
  turnLoop_changes (changes_within (List.nil_subset ps) <| bind_changes fwrEof_changes fun _ => pure_changes _) ht turns

end Sys2Proof.Machine
end

