-- ==== Sys2Proof/Laws/FrameCommands.lean ====
section
/-! SUPPORT. Which parts of the state the body of every command changes (Changes of Safety.lean), command by command. -/

namespace Sys2Proof.Machine

/-! ## Updates of one part -/

theorem modify_lzw (g : State → Lzw) : Keeps (Changes [.dictionary]) (modify fun s => { s with lzw := g s }) :=
  modify_changes _ fun s p hp => by cases p <;> first | rfl | exact absurd (by decide) hp

theorem modify_bz (g : State → Bz) : Keeps (Changes [.block]) (modify fun s => { s with bz := g s }) :=
  modify_changes _ fun s p hp => by cases p <;> first | rfl | exact absurd (by decide) hp

theorem modify_dhuf (g : State → Option Dhuf) : Keeps (Changes [.tracker]) (modify fun s => { s with dhuf := g s }) :=
  modify_changes _ fun s p hp => by cases p <;> first | rfl | exact absurd (by decide) hp

theorem modify_phase (g : State → SeqPhase) : Keeps (Changes [.phase]) (modify fun s => { s with phase := g s }) :=
  modify_changes _ fun s p hp => by cases p <;> first | rfl | exact absurd (by decide) hp

theorem modify_smpl (g : State → Option Byte) : Keeps (Changes [.smpl]) (modify fun s => { s with smplAcc := g s }) :=
  modify_changes _ fun s p hp => by cases p <;> first | rfl | exact absurd (by decide) hp

theorem modify_sqshQ (g : State → Option SqshQ) : Keeps (Changes [.sqsh]) (modify fun s => { s with sqshQ := g s }) :=
  modify_changes _ fun s p hp => by cases p <;> first | rfl | exact absurd (by decide) hp

theorem modify_sqshSample (g : State → Option Byte) :
    Keeps (Changes [.sqsh]) (modify fun s => { s with sqshSample := g s }) :=
  modify_changes _ fun s p hp => by cases p <;> first | rfl | exact absurd (by decide) hp

theorem modify_sqsh (g : State → Option SqshQ) (f : State → Option Byte) :
    Keeps (Changes [.sqsh]) (modify fun s => { s with sqshQ := g s, sqshSample := f s }) :=
  modify_changes _ fun s p hp => by cases p <;> first | rfl | exact absurd (by decide) hp

/-! ## Huffman tables and the tracker -/

theorem readSlot_changes (t : Fin 16) : Keeps (Changes []) (readSlot t) := fun s => need_changes _ s

theorem setSlot_changes (t : Fin 16) (e : Table) : Keeps (Changes [.tables]) (setSlot t e) :=
  modify_changes [.tables] fun s p hp => by
      cases p <;> first | rfl | exact absurd (by decide) hp

theorem hufInsert_changes (c : Config) (t : Fin 16) (l code : Nat) (sym : Word) :
    Keeps (Changes [.tables]) (hufInsert c t l code sym) :=
  changes_within (by decide) <| ite_changes (raise_changes _) (bind_changes (readSlot_changes t) fun _ =>
    ite_changes (raise_changes _) (ite_changes (raise_changes _) (setSlot_changes _ _)))

theorem hufBuild_changes (c : Config) (t : Fin 16) (n : Nat) : Keeps (Changes [.tables]) (hufBuild c t n) := by
  refine ite_changes (raise_changes _) (bind_changes get_changes fun s => bind_changes (need_changes _) fun bytes =>
    ite_changes (raise_changes _) ?_)
  cases canonicalCodes (bytes.map BitVec.toNat) with
  | none => exact changes_within (by decide) <| raise_changes _
  | some es => exact changes_within (by decide) <| ite_changes (raise_changes _) (setSlot_changes _ _)

theorem walk_changes (src : BitSource) (es : List HufEntry) (left l c : Nat) :
    Keeps (Changes [.reader])
      (walk src es left l c) := by
  induction left generalizing l c with
  | zero => exact changes_within (by decide) <| raise_changes _
  | succ left ih =>
    refine bind_in (readBits_changes src 1) (by decide) fun b => ?_
    show Keeps _ (match es.find? _ with | some e => pure e.sym | none => _)
    cases es.find? (fun e => e.len == l + 1 && e.code == c * 2 + b) with
    | none => exact changes_within (by decide) <| ite_changes (ih _ _) (raise_changes _)
    | some e => exact changes_within (by decide) <| pure_changes _

theorem decodeFrom_changes (src : BitSource) (es : List HufEntry) : Keeps (Changes [.reader]) (decodeFrom src es) :=
  changes_within (by decide) <| ite_changes (raise_changes _) (walk_changes src es _ _ _)

theorem hufDecode_changes (t : Fin 16) (src : BitSource) : Keeps (Changes [.reader]) (hufDecode t src) :=
  changes_within (by decide) <| bind_changes (readSlot_changes t) fun _ => decodeFrom_changes src _

theorem writeLenm_changes (i : Nat) (b : Byte) : Keeps (Changes [.lengths]) (writeLenm i b) :=
  modify_changes [.lengths] fun s p hp => by
      cases p <;> first | rfl | exact absurd (by decide) hp

theorem dhufInit_changes (c : Config) (n : Word) : Keeps (Changes [.tracker]) (dhufInit c n) :=
  changes_within (by decide) <| ite_changes (raise_changes _) (modify_dhuf _)

theorem readDhuf_changes : Keeps (Changes []) readDhuf :=
  changes_within (by decide) <| bind_changes get_changes fun _ => bind_changes (need_changes _) fun _ =>
    ite_changes (raise_changes _) (bind_changes (need_changes _) fun _ => pure_changes _)

theorem dhufDecode_changes (c : Config) (src : BitSource) : Keeps (Changes [.reader]) (dhufDecode c src) :=
  changes_within (by decide) <| bind_changes readDhuf_changes fun _ => decodeFrom_changes src _

theorem dhufUpdate_changes (c : Config) (sym : Nat) : Keeps (Changes [.tracker]) (dhufUpdate c sym) :=
  changes_within (by decide) <| bind_changes readDhuf_changes fun _ =>
    ite_changes (raise_changes _) (modify_dhuf _)

theorem dhufMaxF_changes (c : Config) :
    Keeps (Changes [])
      (dhufMaxF c) := changes_within (by decide) <| bind_changes readDhuf_changes fun _ => pure_changes _

/-! ## Move-to-front lists and the LZW unit -/

theorem withMtf_changes (l : MtfStore) (xs : List Nat) (s : State) : Changes [.lists] s (withMtf l xs s) := by
  cases l <;> (intro p hp; cases p <;> first | rfl | exact absurd (by decide) hp)

theorem mtfInit_changes (l : MtfStore) (n : Nat) : Keeps (Changes [.lists]) (mtfInit l n) :=
  changes_within (by decide) <| ite_changes (raise_changes _) (modify_changes [.lists] fun s => withMtf_changes l _ s)

theorem mtfAccess_changes (l : MtfStore) (j : Nat) : Keeps (Changes [.lists]) (mtfAccess l j) := by
  refine bind_in get_changes (by decide) fun s => bind_in (need_changes _) (by decide) fun xs => ?_
  cases xs[j]? with
  | none => exact changes_within (by decide) <| raise_changes _
  | some e =>
    exact changes_within (by decide) <|
      bind_changes (modify_changes [.lists] fun s => withMtf_changes l _ s) fun _ => pure_changes _

theorem lzwSetup_changes (m n : Nat) : Keeps (Changes [.dictionary]) (lzwSetup m n) :=
  changes_within (by decide) <| ite_changes (raise_changes _) (ite_changes (raise_changes _) (modify_lzw _))

theorem lzwPush_changes (b : Byte) : Keeps (Changes [.dictionary]) (lzwPush b) := fun s => by
  unfold lzwPush
  simp only [M.bind_apply, M.get_apply]
  cases s.lzw.stackPos <;> (intro p hp; cases p <;> first | rfl | exact absurd (by decide) hp)

theorem emitWalk_changes (free room c : Nat) : Keeps (Changes [.dictionary]) (emitWalk free room c) := by
  induction room generalizing c with
  | zero =>
    exact changes_within (by decide) <|
      ite_changes (pure_changes _) (ite_changes (raise_changes _) (raise_changes _))
  | succ room ih =>
    exact changes_within (by decide) <|
      ite_changes (pure_changes _) (ite_changes (raise_changes _) (bind_changes get_changes fun _ =>
        bind_changes (need_changes _) fun _ =>
      bind_changes (lzwPush_changes _) fun _ => bind_changes get_changes fun _ =>
        bind_changes (need_changes _) fun _ => ih _))

theorem emitPops_changes (p : Nat) : Keeps (Changes [.dictionary, .writer, .output]) (emitPops p) := by
  induction p with
  | zero => exact changes_within (by decide) <| pure_changes _
  | succ p ih =>
    exact changes_within (by decide) <| bind_changes (modify_lzw _) fun _ => bind_changes get_changes fun _ =>
      bind_changes (need_changes _) fun _ => bind_changes (fwrWrb_changes _) fun _ => ih

theorem emitChain_changes (code : Nat) : Keeps (Changes [.dictionary]) (emitChain code) :=
  changes_within (by decide) <|
    ite_changes (pure_changes _) (bind_changes get_changes fun _ => bind_changes (need_changes _) fun _ =>
    ite_changes (raise_changes _) (bind_changes get_changes fun _ => bind_changes (need_changes _) fun _ =>
      emitWalk_changes _ _ _))

theorem lzwEmit_changes (code : Nat) : Keeps (Changes [.dictionary, .writer, .output]) (lzwEmit code) :=
  changes_within (by decide) <| bind_changes (modify_lzw _) fun _ => bind_changes (emitChain_changes code) fun c =>
    ite_changes (raise_changes _) (bind_changes (lzwPush_changes _) fun _ =>
      bind_changes (modify_lzw _) fun _ => bind_changes get_changes fun _ =>
        bind_changes (need_changes _) fun _ => emitPops_changes _)

theorem lzwRestart_changes : Keeps (Changes [.dictionary, .reader, .writer, .output]) lzwRestart :=
  changes_within (by decide) <| bind_changes get_changes fun _ => bind_changes (need_changes _) fun _ =>
    bind_changes (modify_lzw _) fun _ => bind_changes (rd_changes 9) fun _ =>
    ite_changes (raise_changes _) (ite_changes (raise_changes _)
      (bind_changes (modify_lzw _) fun _ => lzwEmit_changes _))

theorem lzwInsert_changes : Keeps (Changes [.dictionary]) lzwInsert := fun s => by
  unfold lzwInsert
  simp only [M.bind_apply, M.get_apply]
  cases s.lzw.freeIndex with
  | none => exact Changes.refl _ s
  | some free =>
    cases s.lzw.maxBits with
    | none => exact Changes.refl _ s
    | some maxBits =>
      simp only [need_some, M.pure_apply, M.ite_apply]
      split
      · cases s.lzw.newCode with
        | none => exact Changes.refl _ s
        | some first => cases s.lzw.prevCode <;> (intro p hp; cases p <;> first | rfl | exact absurd (by decide) hp)
      · exact Changes.refl _ s

theorem lzwOutput_changes (code free : Nat) : Keeps (Changes [.dictionary, .writer, .output]) (lzwOutput code free) :=
  changes_within (by decide) <|
    ite_changes (bind_changes get_changes fun _ => bind_changes (need_changes _) fun _ =>
      bind_changes get_changes fun _ =>
    bind_changes (need_changes _) fun _ => bind_changes (lzwEmit_changes _) fun _ =>
      fwrWrb_changes _) (lzwEmit_changes _)

theorem lzwStep_changes : Keeps (Changes [.dictionary, .reader, .writer, .output]) lzwStep :=
  changes_within (by decide) <|
    bind_changes get_changes fun _ => bind_changes (need_changes _) fun _ => bind_changes (rd_changes _) fun _ =>
    ite_changes (raise_changes _) (ite_changes (bind_changes lzwRestart_changes fun _ => pure_changes _)
      (ite_changes (bind_changes (modify_lzw _) fun _ => pure_changes _)
        (bind_changes get_changes fun _ => bind_changes (need_changes _) fun _ => ite_changes (raise_changes _)
          (bind_changes (lzwOutput_changes _ _) fun _ => bind_changes lzwInsert_changes fun _ =>
            bind_changes (modify_lzw _) fun _ => pure_changes _))))

theorem blzwSequence_changes :
    Keeps (Changes [.phase, .code, .result, .otherResult, .reader, .writer, .output, .dictionary])
      blzwSequence :=
  changes_within (by decide) <| bind_changes commonSetup_changes fun _ => bind_changes (modify_lzw _) fun _ =>
    bind_changes (fcurConsume_changes 4) fun _ => bind_changes (chunkByte_changes _) fun _ =>
      bind_changes (chunkByte_changes _) fun _ =>
      bind_changes (chunkByte_changes _) fun _ => bind_changes (chunkByte_changes _) fun _ =>
        bind_changes (lzwSetup_changes _ _) fun _ =>
        bind_changes lzwRestart_changes fun _ => bind_changes get_changes fun _ =>
          bind_changes (whileNotEof_changes (bind_changes lzwStep_changes fun _ => pure_changes _) _) fun _ =>
            macroEnd_changes

/-! ## The block pipeline -/

theorem bzStart_changes (n : Nat) : Keeps (Changes [.block, .tables]) (bzStart n) :=
  changes_within (by decide) <| ite_changes (raise_changes _) (bind_changes (modify_bz _) fun _ =>
    bind_changes (setSlot_changes _ _) fun _ => setSlot_changes _ _)

theorem readDetails_changes (used left : Nat) : Keeps (Changes [.reader]) (readDetails used left) := by
  induction left with
  | zero => exact changes_within (by decide) <| pure_changes _
  | succ left ih =>
    exact changes_within (by decide) <|
      ite_changes (bind_changes (rd_changes 16) fun _ => bind_changes ih fun _ => pure_changes _) ih

theorem readSelectors_changes (g left : Nat) : Keeps (Changes [.reader, .lists]) (readSelectors g left) := by
  induction left with
  | zero => exact changes_within (by decide) <| pure_changes _
  | succ left ih =>
    exact changes_within (by decide) <|
      bind_changes (hufDecode_changes _ _) fun _ => bind_changes (mtfAccess_changes _ _) fun _ =>
      ite_changes (raise_changes _) (bind_changes ih fun _ => pure_changes _)

theorem readDeltas_changes (turns cur : Nat) : Keeps (Changes [.reader]) (readDeltas turns cur) := by
  induction turns generalizing cur with
  | zero => exact changes_within (by decide) <| throw_changes _
  | succ turns ih =>
    exact changes_within (by decide) <| ite_changes (raise_changes _) (bind_changes (hufDecode_changes _ _) fun _ =>
      ite_changes (pure_changes _) (ite_changes (ih _) (ih _)))

theorem readLengths_changes (left i cur : Nat) : Keeps (Changes [.reader, .lengths]) (readLengths left i cur) := by
  induction left generalizing i cur with
  | zero => exact changes_within (by decide) <| pure_changes _
  | succ left ih =>
    exact changes_within (by decide) <|
      bind_changes get_changes fun _ => bind_changes (readDeltas_changes _ _) fun _ =>
        bind_changes (writeLenm_changes _ _) fun _ => ih _ _

theorem readGroups_changes (c : Config) (n left t : Nat) :
    Keeps (Changes [.reader, .lengths, .tables])
      (readGroups c n left t) := by
  induction left generalizing t with
  | zero => exact changes_within (by decide) <| pure_changes _
  | succ left ih =>
    exact changes_within (by decide) <|
      bind_changes (rd_changes 5) fun _ => bind_changes (readLengths_changes _ _ _) fun _ =>
      bind_changes (hufBuild_changes _ _ _) fun _ => ih _

theorem checkCapacity_changes (n : Nat) : Keeps (Changes []) (checkCapacity n) :=
  changes_within (by decide) <|
    bind_changes get_changes fun _ => bind_changes (need_changes _) fun _ =>
      ite_changes (raise_changes _) (pure_changes _)

theorem appendRun_changes (run : Nat) : Keeps (Changes [.block]) (appendRun run) :=
  changes_within (by decide) <|
    ite_changes (bind_changes get_changes fun _ => bind_changes (need_changes _) fun _ =>
      bind_changes (checkCapacity_changes _) fun _ =>
    bind_changes (need_changes _) fun _ => bind_changes (need_changes _) fun _ =>
      bind_changes (need_changes _) fun _ =>
      bind_changes (need_changes _) fun _ => modify_bz _) (pure_changes _)

theorem flushRun_changes : Keeps (Changes [.block]) flushRun :=
  changes_within (by decide) <|
    bind_changes get_changes fun _ => bind_changes (need_changes _) fun _ =>
      bind_changes (appendRun_changes _) fun _ =>
    modify_bz _

theorem runSymbol_changes (sym : Nat) : Keeps (Changes [.block]) (runSymbol sym) := fun s => by
  unfold runSymbol
  simp only [M.bind_apply, M.get_apply]
  cases s.bz.runLength with
  | none => exact Changes.refl _ s
  | some run =>
    cases s.bz.runWeight with
    | none => exact Changes.refl _ s
    | some weight =>
      simp only [need_some, M.pure_apply, M.set_apply]
      exact Changes.trans (t := { s with bz := { s.bz with runLength := some _, runWeight := some _ } })
        (by (intro p hp; cases p <;> first | rfl | exact absurd (by decide) hp)) ((checkCapacity_changes _ _).mono (by decide))

theorem literalSymbol_changes (sym : Nat) : Keeps (Changes [.block, .lists]) (literalSymbol sym) :=
  changes_within (by decide) <|
    bind_changes flushRun_changes fun _ => bind_changes (mtfAccess_changes _ _) fun _ =>
      bind_changes get_changes fun _ =>
    bind_changes (need_changes _) fun _ => bind_changes (checkCapacity_changes _) fun _ =>
      bind_changes (need_changes _) fun _ =>
      bind_changes (need_changes _) fun _ => modify_bz _

theorem bodySymbol_changes (sym : Nat) : Keeps (Changes [.block, .lists]) (bodySymbol sym) :=
  changes_within (by decide) <| ite_changes (runSymbol_changes _) (literalSymbol_changes _)

theorem readBody_changes (n turns : Nat) (sels : List Nat) (tbl left : Nat) :
    Keeps (Changes [.block, .lists, .reader]) (readBody n turns sels tbl left) := by
  induction turns generalizing sels tbl left with
  | zero => exact changes_within (by decide) <| throw_changes _
  | succ turns ih =>
    match left, sels with
    | 0, [] => exact changes_within (by decide) <| raise_changes _
    | 0, g :: rest =>
      exact changes_within (by decide) <|
        bind_changes (hufDecode_changes _ _) fun _ =>
          ite_changes (pure_changes _) (bind_changes (bodySymbol_changes _) fun _ => ih _ _ _)
    | left + 1, sels =>
      exact changes_within (by decide) <|
        bind_changes (hufDecode_changes _ _) fun _ =>
          ite_changes (pure_changes _) (bind_changes (bodySymbol_changes _) fun _ => ih _ _ _)

theorem readBlockHeader_changes : Keeps (Changes [.block, .lists, .reader]) readBlockHeader :=
  changes_within (by decide) <| bind_changes (rd_changes _) fun _ => bind_changes (rd_changes _) fun _ =>
    bind_changes (modify_bz _) fun _ => bind_changes (rd_changes _) fun _ =>
    bind_changes (modify_bz _) fun _ =>
    bind_changes (bind_changes (rd_changes _) fun _ => readDetails_changes _ _) fun _ =>
    bind_changes (modify_bz _) fun _ => ite_changes (raise_changes _)
      (bind_changes (rd_changes _) fun _ => bind_changes (modify_bz _) fun _ =>
        ite_changes (raise_changes _) (bind_changes (rd_changes _) fun _ =>
          bind_changes (modify_bz _) fun _ => ite_changes (raise_changes _)
            (bind_changes (mtfInit_changes _ _) fun _ => bind_changes (readSelectors_changes _ _) fun _ =>
              bind_changes (modify_bz _) fun _ => pure_changes _)))

theorem readBlock_changes (c : Config) : Keeps (Changes [.block, .lists, .reader, .lengths, .tables]) (readBlock c) :=
  changes_within (by decide) <|
    bind_changes readBlockHeader_changes fun _ => bind_changes get_changes fun _ =>
      bind_changes (need_changes _) fun _ =>
    bind_changes (readGroups_changes _ _ _ _) fun _ => bind_changes (mtfInit_changes _ _) fun _ =>
    bind_changes get_changes fun _ => bind_changes (need_changes _) fun _ =>
    bind_changes (modify_bz _) fun _ => bind_changes get_changes fun _ =>
    bind_changes (need_changes _) fun _ => bind_changes (readBody_changes _ _ _ _ _) fun _ =>
      bind_changes flushRun_changes fun _ =>
    bind_changes get_changes fun _ => bind_changes (need_changes _) fun _ => bind_changes (need_changes _) fun _ =>
    ite_changes (raise_changes _) (pure_changes _)

theorem bzBlock_changes (c : Config) : Keeps (Changes [.block, .lists, .reader, .lengths, .tables]) (bzBlock c) :=
  changes_within (by decide) <| bind_changes (rd_changes _) fun _ => bind_changes (rd_changes _) fun _ => ite_changes
    (bind_changes (rd_changes _) fun _ => bind_changes get_changes fun _ => bind_changes (need_changes _) fun _ =>
      ite_changes (throw_changes _) (pure_changes _))
    (ite_changes (bind_changes (readBlock_changes c) fun _ => pure_changes _) (raise_changes _))

theorem derandomise_changes (c : Config) (b : Byte) : Keeps (Changes [.block]) (derandomise c b) := fun s => by
  unfold derandomise
  simp only [M.bind_apply, M.get_apply]
  cases s.bz.randomised with
  | none => exact Changes.refl _ s
  | some r =>
    simp only [need_some, M.pure_apply]
    cases r with
    | false => exact Changes.refl _ s
    | true =>
      simp only [if_true, M.bind_apply]
      cases s.bz.rNToGo with
      | none => exact Changes.refl _ s
      | some n =>
        cases s.bz.rTPos with
        | none => exact Changes.refl _ s
        | some p => (intro p hp; cases p <;> first | rfl | exact absurd (by decide) hp)

theorem writeTimes_changes (b : Byte) (k : Nat) : Keeps (Changes [.writer, .output]) (writeTimes b k) := by
  induction k with
  | zero => exact changes_within (by decide) <| pure_changes _
  | succ k ih => exact changes_within (by decide) <| bind_changes (fwrWrb_changes _) fun _ => ih

theorem finalRle_changes (b : Byte) : Keeps (Changes [.block, .writer, .output]) (finalRle b) :=
  changes_within (by decide) <| bind_changes get_changes fun _ => bind_changes (need_changes _) fun _ => ite_changes
    (bind_changes (need_changes _) fun _ => bind_changes (writeTimes_changes _ _) fun _ =>
      modify_bz _)
    (ite_changes (bind_changes (fwrWrb_changes _) fun _ => modify_bz _)
      (bind_changes (modify_bz _) fun _ => fwrWrb_changes _))

theorem unbwtWalk_changes (c : Config) (blk : List Byte) (fwd : List Nat) (left p : Nat) :
    Keeps (Changes [.block, .writer, .output]) (unbwtWalk c blk fwd left p) := by
  induction left generalizing p with
  | zero => exact changes_within (by decide) <| pure_changes _
  | succ left ih =>
    exact changes_within (by decide) <|
      bind_changes (need_changes _) fun _ => bind_changes (need_changes _) fun _ =>
        bind_changes (derandomise_changes _ _) fun _ =>
      bind_changes (finalRle_changes _) fun _ => ih _

theorem unbwtStages_changes (c : Config) (blk : List Byte) :
    Keeps (Changes [.block, .writer, .output])
      (unbwtStages c blk) :=
  changes_within (by decide) <| bind_changes (modify_bz _) fun _ => bind_changes get_changes fun _ =>
    bind_changes (need_changes _) fun _ => bind_changes (modify_bz _) fun _ =>
      unbwtWalk_changes _ _ _ _ _

theorem unbwtBlock_changes (c : Config) (blk : List Byte) :
    Keeps (Changes [.block, .writer, .output])
      (unbwtBlock c blk) :=
  changes_within (by decide) <| ite_changes (unbwtStages_changes c blk) (pure_changes _)

theorem bzUnbwt_changes (c : Config) : Keeps (Changes [.block, .writer, .output]) (bzUnbwt c) := by
  refine bind_in get_changes (by decide) fun _ => bind_in (need_changes _) (by decide) fun _ =>
    bind_in (need_changes _) (by decide) fun _ =>
    bind_in (unbwtBlock_changes _ _) (by decide) fun _ => fun s => ?_
  simp only [M.bind_apply, M.get_apply]
  cases s.fwr with
  | none => exact Changes.refl _ s
  | some f' =>
    simp only [need_some, M.pure_apply]
    generalize memBytes s.raw _ _ = w
    cases w with
    | none => exact Changes.refl _ s
    | some written => cases s.bz.crc <;> (intro p hp; cases p <;> first | rfl | exact absurd (by decide) hp)

theorem clearBzp2_changes (s : State) : Changes [.block, .tables, .lists] s (clearBzp2 s) := by (intro p hp; cases p <;> first | rfl | exact absurd (by decide) hp)

theorem bzp2Loop_changes (c : Config) (turns : Nat) :
    Keeps (Changes [.block, .lists, .reader, .lengths, .tables, .writer, .output])
      (bzp2Loop c turns) := by
  induction turns with
  | zero => exact changes_within (by decide) <| throw_changes _
  | succ turns ih =>
    exact changes_within (by decide) <|
      bind_changes (bzBlock_changes c) fun _ => ite_changes (bind_changes (bzUnbwt_changes c) fun _ =>
        ih) (pure_changes _)

theorem headerLetter_changes (a : Nat) (letter : Byte) : Keeps (Changes []) (headerLetter a letter) :=
  changes_within (by decide) <| bind_changes (chunkByte_changes _) fun _ => ite_changes (raise_changes _) (pure_changes _)

theorem bzp2Sequence_changes (c : Config) :
    Keeps (Changes [.phase, .code, .result, .otherResult, .reader, .writer, .output, .block, .tables, .lists, .lengths])
      (bzp2Sequence c) :=
  changes_within (by decide) <|
    bind_changes commonSetup_changes fun _ => bind_changes (modify_changes _ clearBzp2_changes) fun _ =>
    bind_changes (fcurConsume_changes 4) fun _ => bind_changes (headerLetter_changes _ _) fun _ =>
      bind_changes (headerLetter_changes _ _) fun _ =>
    bind_changes (headerLetter_changes _ _) fun _ => bind_changes (chunkByte_changes _) fun _ =>
      ite_changes (raise_changes _) (bind_changes (bzStart_changes _) fun _ => bind_changes get_changes fun _ =>
        bind_changes (bzp2Loop_changes _ _) fun _ => bind_changes fwrEof_changes fun _ =>
          ite_changes macroEnd_changes (raise_changes _))

/-! ## The arithmetic decoder -/

theorem runStream_changes {α : Type} (t : BitTree (Option α)) : Keeps (Changes [.reader]) (runStream t) := by
  refine bind_in (runField_changes t) (by decide) fun v => ?_
  cases v with
  | none => exact changes_within (by decide) <| raise_changes _
  | some v => exact changes_within (by decide) <| pure_changes _

theorem readAri_changes : Keeps (Changes []) readAri :=
  changes_within (by decide) <| bind_changes get_changes fun _ => ite_changes (need_changes _) (raise_changes _)

theorem setAri_changes (x : Ari) : Keeps (Changes [.arith]) (setAri x) :=
  modify_changes [.arith] fun s => by
    intro p hp; cases p <;> first | rfl | exact absurd (by decide) hp

theorem ariInit_changes (c : Config) : Keeps (Changes [.arith, .shriFlag]) (ariInit c) :=
  modify_changes [.arith, .shriFlag] fun s => by
    intro p hp; cases p <;> first | rfl | exact absurd (by decide) hp

theorem ariScale_changes (c : Config) (x y m : Word) : Keeps (Changes []) (ariScale c x y m) := by
  unfold ariScale
  cases c.shriScale x y m with
  | none => exact changes_within (by decide) <| raise_changes _
  | some r => exact changes_within (by decide) <| pure_changes _

theorem ariGetcode_changes (c : Config) (n : Nat) : Keeps (Changes [.arith, .reader]) (ariGetcode c n) :=
  changes_within (by decide) <|
    bind_changes readAri_changes fun _ => bind_changes (runStream_changes _) fun _ =>
      bind_changes (setAri_changes _) fun _ => pure_changes _

theorem ariDecsym_changes (c : Config) : Keeps (Changes [.arith, .reader]) (ariDecsym c) :=
  changes_within (by decide) <|
    bind_changes readAri_changes fun _ => bind_changes (runStream_changes _) fun _ =>
      bind_changes (setAri_changes _) fun _ => pure_changes _

theorem runMatch_changes (c : Config) (p : MatchProg) : Keeps (Changes [.reader]) (runMatch c p) := by
  induction p with
  | done r => cases r <;> exact fun s => Changes.refl _ s
  | getCode a n next ih => exact bind_in (runStream_changes _) (by decide) fun x => ih x.1 x.2

theorem ariMatch_changes (c : Config) (sym : Fin 499) : Keeps (Changes [.arith, .reader]) (ariMatch c sym) :=
  changes_within (by decide) <|
    bind_changes readAri_changes fun _ => bind_changes (runMatch_changes c _) fun _ =>
      bind_changes (setAri_changes _) fun _ => pure_changes _

theorem ariUpdate_changes (c : Config) (sym : Nat) : Keeps (Changes [.arith]) (ariUpdate c sym) := by
  refine bind_in readAri_changes (by decide) fun x => ?_
  by_cases hs : sym < 499
  · rw [dif_pos hs]; exact setAri_changes _
  · rw [dif_neg hs]; exact changes_within (by decide) <| raise_changes _

theorem shriVersion_changes (c : Config) : Keeps (Changes [.arith, .shriFlag]) (shriVersion c) :=
  changes_within (by decide) <|
    bind_changes get_changes fun _ => ite_changes (raise_changes _) (bind_changes (chunkByte_changes _) fun _ =>
    ite_changes (ariInit_changes c) (ite_changes (ite_changes (pure_changes _) (raise_changes _)) (raise_changes _)))

theorem shriTurn_changes (c : Config) : Keeps (Changes [.arith, .reader, .writer, .output]) (shriTurn c) :=
  changes_within (by decide) <|
    bind_changes (ariDecsym_changes c) fun _ => bind_changes (ariUpdate_changes c _) fun _ => ite_changes (bind_changes (fwrWrb_changes _) fun _ => pure_changes _)
    (bind_changes (ite_changes (bind_changes (ariGetcode_changes c 16) fun _ =>
      bind_changes (ariGetcode_changes c 16) fun _ => pure_changes _)
      (bind_changes (ariMatch_changes c _) fun _ => pure_changes _)) fun _ =>
        bind_changes (fwrCopyh_changes _ _) fun _ => pure_changes _)

theorem shriSequence_changes (c : Config) :
    Keeps (Changes [.phase, .code, .result, .otherResult, .reader, .writer, .output, .arith, .shriFlag, .history])
      (shriSequence c) := by
  refine bind_in commonSetup_changes (by decide) fun _ => bind_in (shriVersion_changes c) (by decide) fun _ =>
    bind_in chunkBytes_changes (by decide) fun bytes => ?_
  cases c.shriHeader bytes with
  | none => exact changes_within (by decide) <| raise_changes _
  | some hd =>
    exact changes_within (by decide) <|
      bind_changes get_changes fun _ => bind_changes (fcurSet_changes _ _) fun _ =>
        bind_changes (bitsReset_changes _ _) fun _ =>
      bind_changes fwrRoom_changes fun _ => bind_changes get_changes fun _ =>
        bind_changes (whileNotEof_changes (shriTurn_changes c) _) fun _ =>
          bind_changes (histPush_changes c) fun _ => macroEnd_changes

/-! ## The other sequencers -/

theorem lhlbUpdate_changes (c : Config) (sym : Nat) : Keeps (Changes [.tracker]) (lhlbUpdate c sym) :=
  changes_within (by decide) <| bind_changes (dhufMaxF_changes c) fun _ =>
    ite_changes (dhufUpdate_changes c _) (pure_changes _)

theorem lhlbTurn_changes (c : Config) : Keeps (Changes [.reader, .tracker, .writer, .output]) (lhlbTurn c) := by
  refine bind_in (dhufDecode_changes c _) (by decide) fun sym => ?_
  refine bind_in (lhlbUpdate_changes c _) (by decide) fun _ => ?_
  refine Keeps.ite ?_ (Keeps.ite ?_ ?_)
  · exact changes_within (by decide) <| bind_changes (fwrWrb_changes _) fun _ => pure_changes _
  · exact changes_within (by decide) <| raise_changes _
  · split
    · exact bind_in (runField_changes _) (by decide) fun d =>
        bind_in (fwrCopy_changes _ _) (by decide) fun _ => (pure_changes _).mono (by decide)
    · exact changes_within (by decide) <| raise_changes _

theorem lhlbSequence_changes (c : Config) :
    Keeps (Changes [.phase, .code, .result, .otherResult, .reader, .writer, .output, .tracker])
      (lhlbSequence c) :=
  changes_within (by decide) <| bind_changes commonSetup_changes fun _ => bind_changes (modify_dhuf _) fun _ =>
    bind_changes (dhufInit_changes c _) fun _ => bind_changes fwrRoom_changes fun _ =>
      bind_changes (whileNotEof_changes (lhlbTurn_changes c) _) fun _ => macroEnd_changes

theorem mashLiterals_changes (c : Config) (n : Nat) :
    Keeps (Changes [.reader, .writer, .output])
      (mashLiterals c n) := by
  induction n with
  | zero => exact changes_within (by decide) <| pure_changes _
  | succ n ih =>
    exact changes_within (by decide) <|
      bind_changes (runField_changes _) fun _ => bind_changes (fwrWrb_changes _) fun _ => ih

theorem mashTurn_changes (c : Config) : Keeps (Changes [.reader, .writer, .output]) (mashTurn c) :=
  changes_within (by decide) <|
    bind_changes (runField_changes _) fun _ => bind_changes (mashLiterals_changes c _) fun _ =>
      bind_changes (runField_changes _) fun _ =>
    bind_changes fwrEof_changes fun _ => ite_changes (ite_changes (pure_changes _) (raise_changes _))
      (bind_changes fwrRoom_changes fun _ => ite_changes (bind_changes (fwrCopy_changes _ _) fun _ =>
        pure_changes _) (pure_changes _))

theorem mashSequence_changes (c : Config) :
    Keeps (Changes [.phase, .code, .result, .otherResult, .reader, .writer, .output, .tables])
      (mashSequence c) :=
  changes_within (by decide) <|
    bind_changes commonSetup_changes fun _ => bind_changes (setSlot_changes _ _) fun _ =>
      bind_changes fwrRoom_changes fun _ =>
    bind_changes (whileNotEof_changes (mashTurn_changes c) _) fun _ => macroEnd_changes

theorem rakeSetup_changes : Keeps (Changes [.phase, .backWriter, .reader, .tables]) rakeSetup :=
  changes_within (by decide) <| bind_changes (modify_phase _) fun _ => bind_changes get_changes fun _ =>
    bind_changes (bwrSet_changes _ _) fun _ => bind_changes (fcurSet_changes _ _) fun _ =>
      bind_changes (bitsReset_changes _ _) fun _ =>
      setSlot_changes _ _

theorem rakeLengths_changes (c : Config) (left : Nat) : Keeps (Changes [.lengths]) (rakeLengths c left) := by
  induction left with
  | zero => exact changes_within (by decide) <| pure_changes _
  | succ left ih => exact changes_within (by decide) <| bind_changes (writeLenm_changes _ _) fun _ => ih

theorem rakeTurn_changes (c : Config) : Keeps (Changes [.reader, .backCursor, .backWriter, .output]) (rakeTurn c) :=
  changes_within (by decide) <| bind_changes (rd_changes 1) fun _ => ite_changes
    (bind_changes bcurRdb_changes fun _ => bind_changes (bwrWrb_changes _) fun _ => pure_changes _)
    (bind_changes (hufDecode_changes _ _) fun _ => bind_changes
      (bind_changes (runField_changes _) fun _ => bind_changes (rd_changes _) fun _ =>
        bind_changes bcurRdb_changes fun _ => pure_changes _)
      fun _ => bind_changes (bwrCopy_changes _ _) fun _ => pure_changes _)

theorem rakeSequence_changes (c : Config) :
    Keeps (Changes [.phase, .code, .result, .otherResult, .reader, .backCursor, .backWriter, .output, .tables, .lengths])
      (rakeSequence c) := by
  refine bind_in rakeSetup_changes (by decide) fun _ => bind_in chunkBytes_changes (by decide) fun bytes => ?_
  cases c.rakeHeader bytes with
  | none => exact changes_within (by decide) <| raise_changes _
  | some hd =>
    exact changes_within (by decide) <|
      bind_changes (bind_changes get_changes fun _ => bind_changes (bcurSet_changes _ _) fun _ =>
        bind_changes (fcurSet_changes _ _) fun _ =>
      bitsReset_changes _ _) fun _ => bind_changes (rakeLengths_changes c _) fun _ =>
        bind_changes (hufBuild_changes _ _ _) fun _ =>
      bind_changes bwrRoom_changes fun _ => bind_changes
        (turnLoop_changes (changes_within (by decide) <| bind_changes bwrEof_changes fun _ => pure_changes _)
          (rakeTurn_changes c) _) fun _ => macroEnd_changes

theorem smplLength_changes : Keeps (Changes [.reader]) smplLength :=
  changes_within (by decide) <|
    bind_changes (rd_changes _) fun _ => ite_changes (bind_changes (rd_changes _) fun _ =>
      pure_changes _) (pure_changes _)

theorem smplExplicit_changes (c : Config) (left : Nat) :
    Keeps (Changes [.reader, .tables])
      (smplExplicit c left) := by
  induction left with
  | zero => exact changes_within (by decide) <| pure_changes _
  | succ left ih =>
    exact changes_within (by decide) <| bind_changes smplLength_changes fun _ => ite_changes ih
      (bind_changes (rd_changes _) fun _ => bind_changes (hufInsert_changes _ _ _ _ _) fun _ => ih)

theorem smplLengths_changes (left : Nat) : Keeps (Changes [.reader, .lengths]) (smplLengths left) := by
  induction left with
  | zero => exact changes_within (by decide) <| pure_changes _
  | succ left ih =>
    exact changes_within (by decide) <|
      bind_changes smplLength_changes fun _ => bind_changes (writeLenm_changes _ _) fun _ => ih

theorem smplTable_changes (c : Config) : Keeps (Changes [.reader, .tables, .lengths]) (smplTable c) := by
  refine bind_in (setSlot_changes _ _) (by decide) fun _ => ?_
  cases c.smplTableMode with
  | explicit => exact changes_within (by decide) <| smplExplicit_changes c _
  | canonical =>
    exact changes_within (by decide) <|
      bind_changes (smplLengths_changes _) fun _ => hufBuild_changes _ _ _

theorem smplTurn_changes : Keeps (Changes [.reader, .smpl, .writer, .output]) smplTurn :=
  changes_within (by decide) <|
    bind_changes (hufDecode_changes _ _) fun _ => bind_changes get_changes fun _ =>
      bind_changes (need_changes _) fun _ =>
    bind_changes (modify_smpl _) fun _ => bind_changes (fwrWrb_changes _) fun _ =>
      pure_changes _

theorem smplSequence_changes (c : Config) :
    Keeps (Changes [.phase, .code, .result, .otherResult, .reader, .writer, .output, .tables, .lengths, .smpl])
      (smplSequence c) := by
  refine bind_in commonSetup_changes (by decide) fun _ => bind_in (modify_smpl _) (by decide) fun _ =>
    bind_in chunkBytes_changes (by decide) fun bytes => ?_
  cases c.smplHeader bytes with
  | none => exact changes_within (by decide) <| raise_changes _
  | some f =>
    exact changes_within (by decide) <|
      bind_changes get_changes fun _ => bind_changes (fcurSet_changes _ _) fun _ =>
        bind_changes (smplTable_changes c) fun _ =>
      bind_changes (modify_smpl _) fun _ => bind_changes fwrRoom_changes fun _ =>
        bind_changes (whileNotEof_changes smplTurn_changes _) fun _ => macroEnd_changes

theorem sqshRepeat_changes (c : Config) : Keeps (Changes [.reader, .sqsh, .writer, .output]) (sqshRepeat c) :=
  changes_within (by decide) <|
    bind_changes (runField_changes _) fun _ => bind_changes (rd_changes _) fun _ =>
      bind_changes (runField_changes _) fun _ =>
    bind_changes (rd_changes _) fun _ => bind_changes (fwrCopy_changes _ _) fun _ => ite_changes
      (bind_changes get_changes fun _ => bind_changes (need_changes _) fun _ => bind_changes (need_changes _) fun _ =>
        modify_sqshSample _) (pure_changes _)

theorem sqshLiterals_changes (w left : Nat) :
    Keeps (Changes [.reader, .sqsh, .writer, .output])
      (sqshLiterals w left) := by
  induction left with
  | zero => exact changes_within (by decide) <| pure_changes _
  | succ left ih =>
    exact changes_within (by decide) <|
      bind_changes (rd_changes _) fun _ => bind_changes get_changes fun _ => bind_changes (need_changes _) fun _ =>
      bind_changes (modify_sqshSample _) fun _ => bind_changes (fwrWrb_changes _) fun _ => ih

theorem sqshTurn_changes (c : Config) : Keeps (Changes [.reader, .sqsh, .writer, .output]) (sqshTurn c) := by
  refine bind_in get_changes (by decide) fun _ => bind_in (need_changes _) (by decide) fun q =>
    bind_in (runField_changes _) (by decide) fun x => ?_
  obtain ⟨q', mode⟩ := x
  refine bind_in (modify_sqshQ _) (by decide) fun _ => ?_
  cases mode with
  | repeated => exact changes_within (by decide) <| bind_changes (sqshRepeat_changes c) fun _ => pure_changes _
  | literal w run =>
    exact changes_within (by decide) <|
      bind_changes (sqshLiterals_changes _ _) fun _ => pure_changes _

theorem sqshFirstByte_changes (c : Config) : Keeps (Changes [.reader, .sqsh, .writer, .output]) (sqshFirstByte c) :=
  changes_within (by decide) <|
    bind_changes fwrEof_changes fun _ => ite_changes (pure_changes _) (bind_changes (runField_changes _) fun _ =>
    bind_changes (modify_sqshSample _) fun _ => fwrWrb_changes _)

theorem sqshSequence_changes (c : Config) :
    Keeps (Changes [.phase, .code, .result, .otherResult, .reader, .writer, .output, .tables, .sqsh])
      (sqshSequence c) := by
  refine bind_in commonSetup_changes (by decide) fun _ => bind_in (setSlot_changes _ _) (by decide) fun _ =>
    bind_in (setSlot_changes _ _) (by decide) fun _ =>
    bind_in (setSlot_changes _ _) (by decide) fun _ => bind_in (modify_sqsh _ _) (by decide) fun _ =>
    bind_in chunkBytes_changes (by decide) fun bytes => ?_
  cases c.sqshHeader bytes with
  | none => exact changes_within (by decide) <| raise_changes _
  | some f =>
    exact changes_within (by decide) <|
      bind_changes get_changes fun _ => bind_changes (fcurSet_changes _ _) fun _ =>
        bind_changes (sqshFirstByte_changes c) fun _ =>
      bind_changes (modify_sqshQ _) fun _ => bind_changes fwrRoom_changes fun _ =>
        bind_changes (whileNotEof_changes (sqshTurn_changes c) _) fun _ => macroEnd_changes

end Sys2Proof.Machine
end

