-- ==== Sys2Proof/Laws/PerInstr.lean ====
section
/-! SUPPORT. What holds of the word of every command, one lemma per constructor of Instr. -/

namespace Sys2Proof.Laws.EncodedOpcode

/-- The word of a command carries its OPC in bits 31..24, and bits 19..17, which no format uses, are 0
(spec/30_encoding.md R101, R105, R108). -/
def Statement (i : Instr) : Prop :=
  fieldOpc (encode i) = i.opcode ∧ (encode i).extractLsb' 17 3 = 0#3

/-- A word built from an opcode and operand fields that stay below bit 24 and off bits 19..17. -/
theorem of_fields (i : Instr) (h : i.fieldBits &&& 0xFF0E0000#32 = 0#32) : Statement i := by
  have hb (k : Nat) (hk : k < 32) (hm : (0xFF0E0000#32).getLsbD k = true) : i.fieldBits.getLsbD k = false := by
    have := congrArg (fun v => v.getLsbD k) h
    simpa [hm] using this
  constructor
  · apply BitVec.eq_of_getLsbD_eq
    intro k hk
    have h24 : (0xFF0E0000#32).getLsbD (24 + k) = true := by interval_cases k <;> decide
    simp only [fieldOpc, encode, BitVec.getLsbD_extractLsb', BitVec.getLsbD_or, hb (24 + k) (by omega) h24,
      BitVec.getLsbD_shiftLeft, BitVec.getLsbD_setWidth]
    interval_cases k <;> simp
  · apply BitVec.eq_of_getLsbD_eq
    intro k hk
    have h17 : (0xFF0E0000#32).getLsbD (17 + k) = true := by interval_cases k <;> decide
    simp only [encode, BitVec.getLsbD_extractLsb', BitVec.getLsbD_or, hb (17 + k) (by omega) h17,
      BitVec.getLsbD_shiftLeft]
    interval_cases k <;> simp

theorem instReset : Statement .instReset := of_fields _ rfl

theorem fcurSet : Statement .fcurSet := of_fields _ rfl

theorem fcurRdb : Statement .fcurRdb := of_fields _ rfl

theorem fcurConsume : Statement .fcurConsume := of_fields _ rfl

theorem bcurSet : Statement .bcurSet := of_fields _ rfl

theorem bcurRdb : Statement .bcurRdb := of_fields _ rfl

theorem bcurConsume : Statement .bcurConsume := of_fields _ rfl

theorem bitsRd8 (n : BitVec 6) : Statement (.bitsRd8 n) := of_fields _ (by revert n; decide)

theorem bitsRd32 (n : BitVec 6) : Statement (.bitsRd32 n) := of_fields _ (by revert n; decide)

theorem bitsReset (n : BitVec 6) : Statement (.bitsReset n) := of_fields _ (by revert n; decide)

theorem fwrSet : Statement .fwrSet := of_fields _ rfl

theorem fwrWrb (b : Byte) : Statement (.fwrWrb b) := of_fields _ (by revert b; decide)

theorem fwrCopy : Statement .fwrCopy := of_fields _ rfl

theorem fwrCopyh : Statement .fwrCopyh := of_fields _ rfl

theorem fwrEof : Statement .fwrEof := of_fields _ rfl

theorem fwrOff : Statement .fwrOff := of_fields _ rfl

theorem bwrSet : Statement .bwrSet := of_fields _ rfl

theorem bwrWrb (b : Byte) : Statement (.bwrWrb b) := of_fields _ (by revert b; decide)

theorem bwrCopy : Statement .bwrCopy := of_fields _ rfl

theorem bwrEof : Statement .bwrEof := of_fields _ rfl

theorem bwrOff : Statement .bwrOff := of_fields _ rfl

theorem histPush : Statement .histPush := of_fields _ rfl

theorem hufClear (t : BitVec 4) : Statement (.hufClear t) := of_fields _ (by revert t; decide)

theorem hufInsert (t : BitVec 4) : Statement (.hufInsert t) := of_fields _ (by revert t; decide)

theorem hufBuild (t : BitVec 4) : Statement (.hufBuild t) := of_fields _ (by revert t; decide)

theorem hufDecode (t : BitVec 4) (bs : BitSource) : Statement (.hufDecode t bs) := of_fields _ (by cases bs <;> revert t <;> decide)

theorem dhufInit : Statement .dhufInit := of_fields _ rfl

theorem dhufDecode (bs : BitSource) : Statement (.dhufDecode bs) := of_fields _ (by cases bs <;> decide)

theorem dhufUpdate : Statement .dhufUpdate := of_fields _ rfl

theorem dhufMaxf : Statement .dhufMaxf := of_fields _ rfl

theorem mtfInit (l : MtfStore) : Statement (.mtfInit l) := of_fields _ (by cases l <;> decide)

theorem mtfAccess (l : MtfStore) : Statement (.mtfAccess l) := of_fields _ (by cases l <;> decide)

theorem lzwSetup : Statement .lzwSetup := of_fields _ rfl

theorem lzwRestart : Statement .lzwRestart := of_fields _ rfl

theorem lzwStep : Statement .lzwStep := of_fields _ rfl

theorem bzStart : Statement .bzStart := of_fields _ rfl

theorem bzBlock : Statement .bzBlock := of_fields _ rfl

theorem bzUnbwt : Statement .bzUnbwt := of_fields _ rfl

theorem ariScale : Statement .ariScale := of_fields _ rfl

theorem ariGetcode (n : BitVec 6) : Statement (.ariGetcode n) := of_fields _ (by revert n; decide)

theorem ariDecsym : Statement .ariDecsym := of_fields _ rfl

theorem ariUpdate : Statement .ariUpdate := of_fields _ rfl

theorem ariInit : Statement .ariInit := of_fields _ rfl

theorem decompressBlzw : Statement .decompressBlzw := of_fields _ rfl

theorem decompressBzp2 : Statement .decompressBzp2 := of_fields _ rfl

theorem decompressLhlb : Statement .decompressLhlb := of_fields _ rfl

theorem decompressMash : Statement .decompressMash := of_fields _ rfl

theorem decompressRake : Statement .decompressRake := of_fields _ rfl

theorem decompressShri : Statement .decompressShri := of_fields _ rfl

theorem decompressSmpl : Statement .decompressSmpl := of_fields _ rfl

theorem decompressSqsh : Statement .decompressSqsh := of_fields _ rfl

end Sys2Proof.Laws.EncodedOpcode
end

