-- ==== Sys2Proof/Laws/Run.lean ====
section
/-! SUPPORT. What a command does to a ready core, from what its body does: how a body that ends, and a body that raises,
show in the outcome of runCommand. -/

namespace Sys2Proof.Machine

/-- The parts of the state that lose their value in error entry, or are overwritten by it. -/
def lostParts : List Part :=
  [.result, .otherResult, .code, .phase, .reader, .backCursor, .writer, .backWriter, .output, .lengths, .tables, .tracker,
    .lists, .dictionary, .block, .smpl, .sqsh]

/-- Error entry forgets everything a body wrote, but for the history and the persistent ARI state. -/
theorem errorEntry_congr {d : Bool} {k : Kind} {c : Option Cause} {s t : State} (h : Changes lostParts s t) :
    errorEntry d k c t = errorEntry d k c s := by
  have h0 := h .host (by decide)
  have h1 := h .history (by decide)
  have h2 := h .arith (by decide)
  have h3 := h .shriFlag (by decide)
  simp only [Part.Agree, Prod.mk.injEq] at h0 h1 h2 h3
  cases d <;> simp [errorEntry, enterFaulted, loseAri, loseUnitState, h0, h1, h2, h3]

@[simp] theorem errorEntry_beginCommand (d : Bool) (k : Kind) (c : Option Cause) (s : State) :
    errorEntry d k c (beginCommand s) = errorEntry d k c s := by
  cases d <;> simp [errorEntry, enterFaulted, loseAri, loseUnitState, beginCommand]

/-- A body that ends gives the next state. -/
theorem run_ok {d : Bool} {body : M Unit} {s t : State} (hr : s.Ready)
    (h : body (beginCommand s) = .ok () (beginCommand t)) (ht : t.status.busy = false) :
    runCommand d body s = .next t := by
  rw [runCommand_ok hr.1 h]
  obtain ⟨⟨k, c, f, v, b⟩, _⟩ := t
  simp only at ht
  subst ht
  rfl

/-- A body that raises CorruptData gives the error state, whatever it wrote before among the parts that are lost. -/
theorem run_error {d : Bool} {body : M Unit} {s t : State} {c : Cause} (hr : s.Ready)
    (h : body (beginCommand s) = .error (.corrupt c) t) (hc : Changes lostParts (beginCommand s) t) :
    runCommand d body s = .next (errorEntry d .corruptData (some c) s) := by
  rw [runCommand_corrupt hr.1 h, errorEntry_congr hc, errorEntry_beginCommand]

/-- A body that raises CorruptData at once, having written nothing. -/
theorem run_error_same {d : Bool} {body : M Unit} {s : State} {c : Cause} (hr : s.Ready)
    (h : body (beginCommand s) = .error (.corrupt c) (beginCommand s)) :
    runCommand d body s = .next (errorEntry d .corruptData (some c) s) :=
  run_error hr h (Changes.refl _ _)

end Sys2Proof.Machine
end

