-- ==== Sys2Proof/Laws/Units.lean ====
section
/-! SUPPORT. For each operation of the units beyond Machine/Ops.lean one equation that says once everything it can do, the
decided parameters as numbers. -/

namespace Sys2Proof.Machine

/-! ## Huffman tables -/

@[simp] theorem readSlot_apply (t : Fin 16) (s : State) : readSlot t s = need s.ht[t] s := rfl

@[simp] theorem setSlot_apply (t : Fin 16) (e : Table) (s : State) :
    setSlot t e s = .ok () { s with ht := s.ht.set t (some e) } := rfl

theorem hufInsert_eq (c : Config) (t : Fin 16) (length code : Nat) (sym : Word) (s : State) :
    hufInsert c t length code sym s =
      if length < 1 ∨ length > 32 then .error (.corrupt .range) s
      else match s.ht[t] with
        | none => .error (.corrupt .unset) s
        | some table =>
          if table.any (pathsClash { len := length, code := code % 2 ^ length, sym := sym }) then
            .error (.corrupt .table) s
          else if tooManyNodes c (addEntry { len := length, code := code % 2 ^ length, sym := sym } table) then
            .error (.corrupt .capacity) s
          else .ok ()
            { s with
              ht := s.ht.set t (some (addEntry { len := length, code := code % 2 ^ length, sym := sym } table)) } := by
  by_cases h : length < 1 ∨ length > hufMaxLen
  · rw [hufInsert, if_pos h, if_pos (by simpa [hufMaxLen] using h)]; rfl
  · rw [hufInsert, if_neg h, if_neg (by simpa [hufMaxLen] using h)]
    cases ht : s.ht[t] with
    | none => simp [ht]
    | some table => simp [ht]

theorem hufBuild_eq (c : Config) (t : Fin 16) (n : Nat) (s : State) :
    hufBuild c t n s =
      if n > 1024 then .error (.corrupt .range) s
      else match memBytes s.lenm 0 n with
        | none => .error (.corrupt .unset) s
        | some bytes =>
          if (bytes.map BitVec.toNat).any (fun l => decide (l > 32)) then .error (.corrupt .range) s
          else match canonicalCodes (bytes.map BitVec.toNat) with
            | none => .error (.corrupt .table) s
            | some es =>
              if tooManyNodes c (tableOf es) then .error (.corrupt .capacity) s
              else .ok () { s with ht := s.ht.set t (some (tableOf es)) } := by
  by_cases h : n > lenmSize
  · rw [hufBuild, if_pos h, if_pos (by simpa [lenmSize] using h)]; rfl
  · rw [hufBuild, if_neg h, if_neg (by simpa [lenmSize] using h)]
    cases hb : memBytes s.lenm 0 n with
    | none => simp [hb]
    | some bytes =>
      rw [show (fun l : Nat => decide (l > 32)) = (fun l => decide (l > hufMaxLen)) from rfl]
      simp only [M.bind_apply, M.get_apply, hb, need_some, M.pure_apply, M.ite_apply, raise_apply]
      by_cases ha : (bytes.map BitVec.toNat).any (fun l => decide (l > hufMaxLen)) = true
      · rw [if_pos ha, if_pos ha]
      · rw [if_neg ha, if_neg ha]
        cases canonicalCodes (bytes.map BitVec.toNat) with
        | none => rfl
        | some es => simp only [M.ite_apply, raise_apply, setSlot_apply]

/-- The empty table fits every capacity (spec/41_huffman.md R193). -/
@[simp] theorem tooManyNodes_nil (c : Config) : tooManyNodes c [] = false := by
  unfold tooManyNodes
  cases c.hufNodeMax <;> rfl

theorem decodeFrom_nil (src : BitSource) (s : State) : decodeFrom src [] s = .error (.corrupt .walkOff) s := rfl

/-- A set that is not empty is walked, and the walk reads a bit before anything else. -/
theorem decodeFrom_walk {src : BitSource} {es : List HufEntry} (h : es ≠ []) :
    decodeFrom src es = walk src es (max 1 (longestLen es)) 0 0 := by
  cases es with
  | nil => exact absurd rfl h
  | cons e es => rfl

theorem walk_zero (src : BitSource) (es : List HufEntry) (l c : Nat) (s : State) :
    walk src es 0 l c s = .error (.corrupt .walkOff) s := rfl

theorem walk_succ (src : BitSource) (es : List HufEntry) (left l c : Nat) (s : State) :
    walk src es (left + 1) l c s = match readBits src 1 s with
      | .error e t => .error e t
      | .ok b t => match es.find? (fun e => e.len == l + 1 && e.code == c * 2 + b) with
        | some e => .ok e.sym t
        | none =>
          if es.any (fun e => decide (e.len > l + 1) && e.code / 2 ^ (e.len - (l + 1)) == c * 2 + b) then
            walk src es left (l + 1) (c * 2 + b) t
          else .error (.corrupt .walkOff) t := by
  rw [walk, M.bind_apply]
  cases readBits src 1 s with
  | error e t => rfl
  | ok b t =>
    simp only []
    cases es.find? (fun e => e.len == l + 1 && e.code == c * 2 + b) with
    | some e => rfl
    | none => simp only [M.ite_apply, raise_apply]

/-! ## The adaptive tracker -/

theorem dhufInit_eq (c : Config) (n : Word) (s : State) :
    dhufInit c n s =
      if n.toNat = 0 ∨ n.toNat > 1024 then .error (.corrupt .range) s
      else .ok () { s with dhuf := some { nsym := n, tree := some (c.dhufInit n.toNat) } } := by
  by_cases h : n.toNat = 0 ∨ n.toNat > dhufMaxNsym
  · rw [dhufInit, if_pos h, if_pos (by simpa only [dhufMaxNsym] using h)]; rfl
  · rw [dhufInit, if_neg h, if_neg (by simpa only [dhufMaxNsym] using h)]; rfl

theorem readDhuf_eq (s : State) :
    readDhuf s = match s.dhuf with
      | none => .error (.corrupt .unset) s
      | some d =>
        if d.nsym.toNat = 0 then .error (.corrupt .unset) s
        else match d.tree with
          | none => .error (.corrupt .unset) s
          | some t => .ok (d.nsym, t) s := by
  unfold readDhuf
  cases hd : s.dhuf with
  | none => simp [hd]
  | some d =>
    by_cases h : d.nsym.toNat = 0
    · simp [hd, h]
    · cases ht : d.tree <;> simp [hd, h, ht]

/-- What the tracker does once it is initialised. -/
theorem readDhuf_of {s : State} {n : Word} {t : DhufTree} (h : s.dhuf = some { nsym := n, tree := some t })
    (hn : n ≠ 0#32) : readDhuf s = .ok (n, t) s := by
  have : ¬ n.toNat = 0 := fun e => hn (BitVec.eq_of_toNat_eq (by simpa using e))
  simp [readDhuf_eq, h, this]

theorem dhufDecode_eq (c : Config) (src : BitSource) (s : State) :
    dhufDecode c src s = match readDhuf s with
      | .error e t => .error e t
      | .ok x t => decodeFrom src (c.dhufCodes x.2) t := by
  unfold dhufDecode
  rw [M.bind_apply]
  cases readDhuf s <;> rfl

theorem dhufUpdate_eq (c : Config) (sym : Nat) (s : State) :
    dhufUpdate c sym s = match readDhuf s with
      | .error e t => .error e t
      | .ok x t =>
        if sym ≥ x.1.toNat then .error (.corrupt .index) t
        else .ok () { t with dhuf := some { nsym := x.1, tree := some (c.dhufUpdate x.2 sym) } } := by
  unfold dhufUpdate
  rw [M.bind_apply]
  cases readDhuf s with
  | error e t => rfl
  | ok x t => simp only [M.ite_apply, raise_apply, M.modify_apply]

theorem dhufMaxF_eq (c : Config) (s : State) :
    dhufMaxF c s = match readDhuf s with
      | .error e t => .error e t
      | .ok x t => .ok (c.dhufMaxF x.2) t := by
  unfold dhufMaxF
  rw [M.bind_apply]
  cases readDhuf s <;> rfl

/-! ## Move-to-front -/

theorem mtfInit_eq (l : MtfStore) (n : Nat) (s : State) :
    mtfInit l n s = if n > 256 then .error (.corrupt .range) s else .ok () (withMtf l (List.range n) s) := by
  simp [mtfInit]

theorem mtfAccess_eq (l : MtfStore) (j : Nat) (s : State) :
    mtfAccess l j s = match mtfOf l s with
      | none => .error (.corrupt .unset) s
      | some xs => match xs[j]? with
        | none => .error (.corrupt .index) s
        | some e => .ok e (withMtf l (moveToFront xs j e) s) := by
  unfold mtfAccess
  cases h : mtfOf l s with
  | none => simp [h]
  | some xs => cases hj : xs[j]? <;> simp [h, hj]

/-! ## The LZW unit -/

theorem lzwSetup_eq (maxBits stackLength : Nat) (s : State) :
    lzwSetup maxBits stackLength s =
      if maxBits < 9 ∨ maxBits > 20 then .error (.corrupt .header) s
      else if stackLength < 1 ∨ stackLength > 65540 then .error (.corrupt .range) s
      else .ok ()
        { s with
          lzw := { s.lzw with
            maxBits := some maxBits, stackLength := some (toWord stackLength), codeBits := none, freeIndex := none,
            prevCode := none, newCode := none, prefixes := [], suffixes := [] } } := by
  by_cases h : maxBits < blzwMinBits ∨ maxBits > blzwMaxBits
  · rw [lzwSetup, if_pos h, if_pos (by simpa only [blzwMinBits, blzwMaxBits] using h)]; rfl
  · rw [lzwSetup, if_neg h, if_neg (show ¬ (maxBits < 9 ∨ maxBits > 20) from h)]
    by_cases h' : stackLength < 1 ∨ stackLength > lzwMaxStack
    · rw [if_pos h', if_pos (by simpa only [lzwMaxStack] using h')]; rfl
    · rw [if_neg h', if_neg (by simpa only [lzwMaxStack] using h')]; rfl

theorem lzwPush_eq (b : Byte) (s : State) :
    lzwPush b s = match s.lzw.stackPos with
      | none => .error (.corrupt .unset) s
      | some p => .ok ()
        { s with lzw := { s.lzw with stack := storeWrite s.lzw.stack p b, stackPos := some (p + 1) } } := by
  unfold lzwPush
  cases h : s.lzw.stackPos <;> simp [h]

theorem emitWalk_low (free room : Nat) {c : Nat} (h : c < 259) (s : State) : emitWalk free room c s = .ok c s := by
  unfold emitWalk
  rw [if_pos (by simpa [lzwFirstFree] using h)]
  rfl

theorem lzwInsert_eq (s : State) :
    lzwInsert s = match s.lzw.freeIndex, s.lzw.maxBits with
      | some free, some maxBits =>
        if free < 2 ^ maxBits then
          match s.lzw.newCode, s.lzw.prevCode with
          | some first, some prev => .ok ()
            { s with
              lzw := { s.lzw with
                suffixes := storeWrite s.lzw.suffixes (free - 259) (truncByte first.toNat),
                prefixes := storeWrite s.lzw.prefixes (free - 259) prev, freeIndex := some (free + 1) } }
          | _, _ => .error (.corrupt .unset) s
        else .ok () s
      | _, _ => .error (.corrupt .unset) s := by
  unfold lzwInsert
  cases hf : s.lzw.freeIndex with
  | none => simp [hf]
  | some free =>
    cases hm : s.lzw.maxBits with
    | none => simp [hf, hm]
    | some maxBits =>
      by_cases h : free < 2 ^ maxBits
      · cases hn : s.lzw.newCode with
        | none => simp [hf, hm, h, hn]
        | some first =>
          cases hp : s.lzw.prevCode with
          | none => simp [hf, hm, h, hn, hp]
          | some prev =>
            simp only [M.bind_apply, M.get_apply, hf, hm, hn, hp, need_some, M.pure_apply, M.ite_apply, if_pos h,
              M.set_apply]
            rfl
      · simp [hf, hm, h]

theorem lzwRestart_unset {s : State} (h : s.lzw.maxBits = none) : lzwRestart s = .error (.corrupt .unset) s := by
  simp [lzwRestart, h]

/-! ## The BZ pipeline -/

theorem headerLetter_eq (a : Nat) (letter : Byte) (s : State) :
    headerLetter a letter s = match storeRead s.chunk a with
      | none => .error (.corrupt .unset) s
      | some b => if b = letter then .ok () s else .error (.corrupt .header) s := by
  unfold headerLetter
  rw [M.bind_apply, chunkByte_eq]
  cases storeRead s.chunk a with
  | none => rfl
  | some b => by_cases h : b = letter <;> simp [h]

theorem bzStart_eq (n : Nat) (s : State) :
    bzStart n s =
      if n = 0 ∨ n > 900000 then .error (.corrupt .header) s
      else .ok ()
        { s with
          bz := { s.bz with blockSize := some n, crc := some 0#32, blk := none },
          ht := (s.ht.set selectorSlot (some selectorTable)).set deltaSlot (some deltaTable) } := by
  by_cases h : n = 0 ∨ n > bzMaxBlock
  · rw [bzStart, if_pos h, if_pos (show n = 0 ∨ n > 900000 from h)]; rfl
  · rw [bzStart, if_neg h, if_neg (show ¬ (n = 0 ∨ n > 900000) from h)]; rfl

theorem checkCapacity_eq (n : Nat) (s : State) :
    checkCapacity n s = match s.bz.blockSize with
      | none => .error (.corrupt .unset) s
      | some size => if n > size then .error (.corrupt .capacity) s else .ok () s := by
  unfold checkCapacity
  cases h : s.bz.blockSize with
  | none => simp [h]
  | some size => by_cases hn : n > size <;> simp [h, hn]

theorem runSymbol_eq (sym : Nat) (s : State) :
    runSymbol sym s = match s.bz.runLength, s.bz.runWeight with
      | some run, some weight =>
        checkCapacity (run + weight * 2 ^ sym)
          { s with bz := { s.bz with runLength := some (run + weight * 2 ^ sym), runWeight := some (weight * 2) } }
      | _, _ => .error (.corrupt .unset) s := by
  unfold runSymbol
  cases hr : s.bz.runLength with
  | none => simp [hr]
  | some run => cases hw : s.bz.runWeight <;> simp [hr, hw]

/-! ## The arithmetic decoder -/

theorem readAri_eq (s : State) :
    readAri s = if s.status.shriValid then need s.ari s else .error (.corrupt .unset) s := by
  simp [readAri]

@[simp] theorem setAri_apply (a : Ari) (s : State) : setAri a s = .ok () { s with ari := some a } := rfl

@[simp] theorem ariInit_apply (c : Config) (s : State) :
    ariInit c s = .ok () { s with ari := some c.shriInit, status := { s.status with shriValid := true } } := rfl

theorem ariDecsym_eq (c : Config) (s : State) :
    ariDecsym c s = match readAri s with
      | .error e t => .error e t
      | .ok a t => match runStream (c.shriDecodeSymbol a) t with
        | .error e u => .error e u
        | .ok x u => .ok x.2 { u with ari := some { a with toAriRegs := x.1 } } := by
  unfold ariDecsym
  rw [M.bind_apply]
  cases readAri s with
  | error e t => rfl
  | ok a t =>
    simp only [M.bind_apply]
    rcases runStream (c.shriDecodeSymbol a) t with ⟨x, u⟩ | ⟨e, u⟩ <;> rfl

theorem runMatch_zeroDivisor (c : Config) (s : State) :
    runMatch c (.done none) s = .error (.corrupt .zeroDivisor) s := rfl

theorem runMatch_done (c : Config) (r : Ari × ShriMatch) (s : State) : runMatch c (.done (some r)) s = .ok r s := rfl

theorem runMatch_getCode (c : Config) (a : Ari) (n : Fin 33) (next : Ari → BitVec n.val → MatchProg) (s : State) :
    runMatch c (.getCode a n next) s = match runStream (c.shriGetCode a n.val) s with
      | .error e t => .error e t
      | .ok x t => runMatch c (next x.1 x.2) t := by
  rw [runMatch, M.bind_apply]
  rcases runStream (c.shriGetCode a n.val) s with ⟨x, t⟩ | ⟨e, t⟩ <;> rfl

theorem ariScale_eq (c : Config) (a b mult : Word) (s : State) :
    ariScale c a b mult s = match c.shriScale a b mult with
      | some r => .ok r s
      | none => .error (.corrupt .zeroDivisor) s := by
  unfold ariScale
  cases c.shriScale a b mult <;> rfl

theorem ariUpdate_eq (c : Config) (sym : Nat) (s : State) :
    ariUpdate c sym s = match readAri s with
      | .error e t => .error e t
      | .ok a t =>
        if h : sym < 499 then .ok () { t with ari := some (c.shriUpdate a ⟨sym, h⟩) }
        else .error (.corrupt .index) t := by
  unfold ariUpdate
  rw [M.bind_apply]
  cases readAri s with
  | error e t => rfl
  | ok a t =>
    simp only []
    by_cases h : sym < 499 <;> simp [h]

/-! ## Field decoders -/

theorem runField_leaf {α : Type} (v : α) (s : State) : runField (.leaf v) s = .ok v s := rfl

theorem runField_node {α : Type} (z o : BitTree α) (s : State) :
    runField (.node z o) s = match rd 1 s with
      | .error e t => .error e t
      | .ok b t => if b = 0 then runField z t else runField o t := by
  rw [runField, M.bind_apply]
  cases rd 1 s with
  | error e t => rfl
  | ok b t => simp only [M.ite_apply]

theorem runStream_eq {α : Type} (tree : BitTree (Option α)) (s : State) :
    runStream tree s = match runField tree s with
      | .error e t => .error e t
      | .ok none t => .error (.corrupt .zeroDivisor) t
      | .ok (some a) t => .ok a t := by
  unfold runStream
  rw [M.bind_apply]
  rcases runField tree s with ⟨_ | a, t⟩ | ⟨e, t⟩ <;> rfl

end Sys2Proof.Machine
end

