-- ==== Sys2Proof/Tests/Slice0.lean ====
section
/-! SUPPORT. Tests of the model, each expected result taken from spec/ (the rule's own example, or a vector of
spec/95_test_vectors.md, named in the comment), and for every statement with hypotheses a state that meets them. -/

namespace Sys2Proof.Tests

-- The proofs below are checked one after another: in parallel they ask for more threads than the check allows.
set_option Elab.async false

open Sys2Proof.Machine

/-! ## Well-formedness: the one check, with ill-formed commands that it refuses (spec/30_encoding.md R107) -/

theorem test_wf_refuses_33_bits :
    Instr.wellFormed (.bitsRd8 33#6) = false ∧ Instr.wellFormed (.bitsRd32 33#6) = false ∧
    Instr.wellFormed (.bitsReset 63#6) = false ∧ Instr.wellFormed (.ariGetcode 33#6) = false := by decide

theorem test_wf_takes_32_bits :
    Instr.wellFormed (.bitsRd8 32#6) = true ∧ Instr.wellFormed (.ariGetcode 0#6) = true := by decide

/-! ## Decoding: one word for every command, written from R101 (OPC 31..24, T 23..20, BS 16, IMM) and R105 -/

theorem test_decode_reset : decode 0b00000001_0000_000_0_0000000000000000#32 = .ok .instReset := by decide

theorem test_decode_cursors :
    decode 0b00010000_0000_000_0_0000000000000000#32 = .ok .fcurSet ∧ decode 0x11000000#32 = .ok .fcurRdb ∧
    decode 0x12000000#32 = .ok .fcurConsume ∧ decode 0x14000000#32 = .ok .bcurSet ∧
    decode 0x15000000#32 = .ok .bcurRdb ∧ decode 0x16000000#32 = .ok .bcurConsume := by decide

theorem test_decode_bits :
    decode 0b00011000_0000_000_0_0000000000000011#32 = .ok (.bitsRd8 3#6) ∧
    decode 0b00011001_0000_000_0_0000000000100000#32 = .ok (.bitsRd32 32#6) ∧
    decode 0x1A000000#32 = .ok (.bitsReset 0#6) := by decide

theorem test_decode_forward_writer :
    decode 0x20000000#32 = .ok .fwrSet ∧ decode 0b00100001_0000_000_0_0000000001000001#32 = .ok (.fwrWrb 0x41#8) ∧
    decode 0x22000000#32 = .ok .fwrCopy ∧ decode 0x23000000#32 = .ok .fwrCopyh ∧ decode 0x24000000#32 = .ok .fwrEof ∧
    decode 0x25000000#32 = .ok .fwrOff := by decide

theorem test_decode_backward_writer :
    decode 0x28000000#32 = .ok .bwrSet ∧ decode 0x2900005A#32 = .ok (.bwrWrb 0x5A#8) ∧
    decode 0x2A000000#32 = .ok .bwrCopy ∧ decode 0x2C000000#32 = .ok .bwrEof ∧ decode 0x2D000000#32 = .ok .bwrOff ∧
    decode 0x2F000000#32 = .ok .histPush := by decide

theorem test_decode_huffman :
    decode 0b00110000_0011_000_0_0000000000000000#32 = .ok (.hufClear 3#4) ∧
    decode 0x31F00000#32 = .ok (.hufInsert 15#4) ∧ decode 0x32100000#32 = .ok (.hufBuild 1#4) ∧
    decode 0b00110011_0101_000_1_0000000000000000#32 = .ok (.hufDecode 5#4 .group32) ∧
    decode 0x33500000#32 = .ok (.hufDecode 5#4 .group8) := by decide

theorem test_decode_tracker :
    decode 0x38000000#32 = .ok .dhufInit ∧ decode 0b00111001_0000_000_1_0000000000000000#32 = .ok (.dhufDecode .group32) ∧
    decode 0x3A000000#32 = .ok .dhufUpdate ∧ decode 0x3B000000#32 = .ok .dhufMaxf := by decide

theorem test_decode_mtf :
    decode 0b00111100_0000_000_0_0000000000000000#32 = .ok (.mtfInit .selectors) ∧
    decode 0b00111101_0001_000_0_0000000000000000#32 = .ok (.mtfAccess .data) := by decide

theorem test_decode_lzw :
    decode 0x40000000#32 = .ok .lzwSetup ∧ decode 0b01000001_0000_000_0_0000000000000000#32 = .ok .lzwRestart ∧
    decode 0x42000000#32 = .ok .lzwStep := by decide

theorem test_decode_bz :
    decode 0b01001000_0000_000_0_0000000000000000#32 = .ok .bzStart ∧ decode 0x49000000#32 = .ok .bzBlock ∧
    decode 0x4A000000#32 = .ok .bzUnbwt := by decide

theorem test_decode_ari :
    decode 0x50000000#32 = .ok .ariScale ∧ decode 0b01010001_0000_000_0_0000000000010000#32 = .ok (.ariGetcode 16#6) ∧
    decode 0x52000000#32 = .ok .ariDecsym ∧ decode 0x53000000#32 = .ok .ariUpdate ∧
    decode 0x54000000#32 = .ok .ariInit := by decide

theorem test_decode_macros :
    decode 0b10000000_0000_000_0_0000000000000000#32 = .ok .decompressBlzw ∧
    decode 0x81000000#32 = .ok .decompressBzp2 ∧ decode 0x82000000#32 = .ok .decompressLhlb ∧
    decode 0x83000000#32 = .ok .decompressMash ∧ decode 0x84000000#32 = .ok .decompressRake ∧
    decode 0x85000000#32 = .ok .decompressShri ∧ decode 0x86000000#32 = .ok .decompressSmpl ∧
    decode 0x87000000#32 = .ok .decompressSqsh := by decide

/-- R107, R108: an unlisted OPC, a must-be-zero bit, a bit count of 33. -/
theorem test_decode_refuses :
    decode 0x00000000#32 = .error (.unlistedOpcode 0x00#8) ∧ decode 0x01000001#32 = .error .mustBeZero ∧
    decode 0x3D200000#32 = .error .mustBeZero ∧ decode 0x30010000#32 = .error .mustBeZero ∧
    decode 0x18000021#32 = .error .bitCount ∧ decode 0x18000040#32 = .error .mustBeZero := by decide

theorem test_decodeTableWord : decodeTableWord 32 0x2900005A = some (.bwrWrb 0x5A#8) ∧
    decodeTableWord 32 0x00000000 = none := by decide

/-! ## Helpers: a small state from a chunk, an output length and the ARG registers -/

/-- Bytes from offset 0 on. -/
def loaded (bytes : List Byte) : Memory := bytes.zipIdx.map fun x => (x.2, x.1)

/-- A reset core with a chunk and an output length. -/
def start (chunk : List Byte) (rawLen : Nat) : State :=
  { State.reset with chunk := loaded chunk, chunkLen := toWord chunk.length, rawLen := toWord rawLen }

/-- With the first three ARG registers written. -/
def args (a b c : Word) (s : State) : State := { s with arg0 := some a, arg1 := some b, arg2 := some c }

/-- With the cursor over the whole chunk and `cnt` bits of `acc` buffered. -/
def reading (acc : Word) (cnt : Nat) (s : State) : State :=
  { s with fcur := some { pos := 0#32, stop := s.chunkLen }, bitsAcc := some acc, bitsCnt := some cnt }

/-- With the forward writer over the whole output and some bytes written. -/
def written (bytes : List Byte) (s : State) : State :=
  { s with raw := loaded bytes, fwr := some { start := 0#32, pos := toWord bytes.length, stop := s.rawLen } }

/-- With the backward writer over the whole output and its last bytes written. -/
def writtenBack (bytes : List Byte) (s : State) : State :=
  let top := s.rawLen.toNat
  { s with
    raw := bytes.zipIdx.map fun x => (top - bytes.length + x.2, x.1)
    bwr := some { top := s.rawLen, pos := toWord (top - bytes.length), floor := 0#32 } }

/-- A configuration for the commands that an OPEN item touches: no capacities, every function its default. -/
def toy : Config := { (default : Config) with hufNodeMax := none, histMaxBytes := none, histMaxBuffers := none }

/-- STATUS after a command, as the host reads it. -/
def statusAfter (o : Host.Outcome State Fault Refusal) : Option Word :=
  match o with
  | .next t => some (statusWord t.status)
  | _ => none

/-- A field of the state after a command that gave a next state. -/
def fieldAfter {α : Type} (f : State → Option α) (o : Host.Outcome State Fault Refusal) : Option α :=
  match o with
  | .next t => f t
  | _ => none

/-- RES[0] after a command. -/
def resAfter (o : Host.Outcome State Fault Refusal) : Option Word := fieldAfter (·.res0) o

/-- The first bytes of RAW after a command. -/
def rawAfter (n : Nat) (o : Host.Outcome State Fault Refusal) : Option (List Byte) :=
  fieldAfter (fun t => memBytes t.raw 0 n) o

/-- The chunk of the vectors of section 2.1. -/
def cursorChunk : List Byte := [0x00#8, 0x00#8, 0x00#8, 0x00#8, 0xAA#8, 0xBB#8]

/-! ## One or two steps of every command -/

/-- R501: the example after the BLZW scenario, STATUS = 0. -/
theorem test_instReset :
    statusAfter (exec .instReset ((start cursorChunk 3).corrupted .reserved)) = some 0#32 := by decide +kernel

/-- Vector C6: end above CHUNK_LEN. R140's example with the span (4, 6). -/
theorem test_fcurSet :
    statusAfter (exec .fcurSet (args 0#32 7#32 0#32 (start cursorChunk 0))) = some 0x111#32 ∧
    fieldAfter (·.fcur) (exec .fcurSet (args 4#32 6#32 0#32 (start cursorChunk 0))) =
      some { pos := 4#32, stop := 6#32 } := by decide +kernel

/-- R141's example: CHUNK = 12 34, pos = 0. R71: nothing at CHUNK_LEN or above is read, also after the host has lowered
it. -/
theorem test_fcurRdb :
    resAfter (exec .fcurRdb (reading 0#32 0 (start [0x12#8, 0x34#8] 0))) = some 0x12#32 ∧
    statusAfter (exec .fcurRdb { reading 0#32 0 (start [0x12#8, 0x34#8] 0) with chunkLen := 0#32 }) = some 0x121#32 := by
  decide +kernel

/-- Vector C3: only one byte left. Vector C2: the offset of the view. R142: the empty view moves nothing, also above a
CHUNK_LEN that the host has lowered. -/
theorem test_fcurConsume :
    resAfter (exec .fcurConsume { args 3#32 0#32 0#32 (start cursorChunk 0) with
      fcur := some { pos := 2#32, stop := 6#32 } }) = some 2#32 ∧
    statusAfter (exec .fcurConsume { args 2#32 0#32 0#32 (start cursorChunk 0) with
      fcur := some { pos := 5#32, stop := 6#32 } }) = some 0x121#32 ∧
    resAfter (exec .fcurConsume { args 0#32 0#32 0#32 (start cursorChunk 0) with
      fcur := some { pos := 5#32, stop := 6#32 }, chunkLen := 4#32 }) = some 5#32 := by decide +kernel

/-- R143: RAKE's floor of 4. -/
theorem test_bcurSet :
    fieldAfter (·.bcur) (exec .bcurSet (args 4#32 6#32 0#32 (start cursorChunk 0))) =
      some { pos := 6#32, floor := 4#32 } := by decide +kernel

/-- R144's example: 0xBB at first; at the floor, vector C5. -/
theorem test_bcurRdb :
    resAfter (exec .bcurRdb { start cursorChunk 0 with bcur := some { pos := 6#32, floor := 4#32 } }) = some 0xBB#32 ∧
    statusAfter (exec .bcurRdb { start cursorChunk 0 with bcur := some { pos := 4#32, floor := 4#32 } }) =
      some 0x121#32 := by decide +kernel

/-- Vector C8: the lowest offset of the view. R145: the empty view moves nothing, also above a lowered CHUNK_LEN. -/
theorem test_bcurConsume :
    resAfter (exec .bcurConsume { args 3#32 0#32 0#32 (start cursorChunk 0) with
      bcur := some { pos := 6#32, floor := 2#32 } }) = some 3#32 ∧
    resAfter (exec .bcurConsume { args 0#32 0#32 0#32 (start cursorChunk 0) with
      bcur := some { pos := 6#32, floor := 2#32 }, chunkLen := 4#32 }) = some 6#32 := by decide +kernel

/-- R147's example: A5 C3, the first 3 bits. Vector B12: 24 bits of three bytes. -/
theorem test_bitsRd8 :
    resAfter (exec (.bitsRd8 3#6) (reading 0#32 0 (start [0xA5#8, 0xC3#8] 0))) = some 5#32 ∧
    resAfter (exec (.bitsRd8 24#6) (reading 0#32 0 (start [0xA5#8, 0xC3#8, 0x00#8] 0))) = some 0xA5C300#32 := by
  decide +kernel

/-- R148's example: the first 12 bits of 12 34 56 78 9A. Vector B11: a refill needs 4 bytes. -/
theorem test_bitsRd32 :
    resAfter (exec (.bitsRd32 12#6) (reading 0#32 0 (start [0x12#8, 0x34#8, 0x56#8, 0x78#8, 0x9A#8] 0))) =
      some 0x123#32 ∧
    statusAfter (exec (.bitsRd32 1#6) (reading 0#32 0 (start [0xA5#8, 0xC3#8, 0x00#8] 0))) = some 0x121#32 := by
  decide +kernel

/-- R149: bits above the seed count are kept and not delivered; vector B14 reads on into the byte. -/
theorem test_bitsReset :
    fieldAfter (·.bitsAcc) (exec (.bitsReset 3#6) (args 0xF5#32 0#32 0#32 (start [] 0))) = some 0xF5#32 ∧
    resAfter (exec (.bitsRd8 5#6) (reading 0b101#32 3 (start [0xFF#8] 0))) = some 0x17#32 := by decide +kernel

/-- Vector W8: the end above RAW_LEN. -/
theorem test_fwrSet :
    statusAfter (exec .fwrSet (args 0#32 5#32 0#32 (start [] 4))) = some 0x111#32 := by decide +kernel

/-- R152's example; vector W7: no room. -/
theorem test_fwrWrb :
    rawAfter 1 (exec (.fwrWrb 0x41#8) (written [] (start [] 2))) = some [0x41#8] ∧
    statusAfter (exec (.fwrWrb 0x41#8) (written [1#8, 2#8] (start [] 2))) = some 0x131#32 := by decide +kernel

/-- R153's example and vector W1: an overlapping copy; vector W4: the source before the span. -/
theorem test_fwrCopy :
    rawAfter 7 (exec .fwrCopy (args 2#32 5#32 0#32 (written [0x41#8, 0x42#8] (start [] 7)))) =
      some [0x41#8, 0x42#8, 0x41#8, 0x42#8, 0x41#8, 0x42#8, 0x41#8] ∧
    statusAfter (exec .fwrCopy (args 2#32 1#32 0#32 (written [0x41#8] (start [] 4)))) = some 0x151#32 := by
  decide +kernel

/-- R154: the source runs from the history into the current buffer. -/
theorem test_fwrCopyh :
    rawAfter 4 (exec .fwrCopyh (args 3#32 3#32 0#32 { written [0x63#8] (start [] 4) with
      hist := [[0x61#8], [0x62#8]] })) = some [0x63#8, 0x61#8, 0x62#8, 0x63#8] := by decide +kernel

/-- R155's example: pos = 7, end = 7. -/
theorem test_fwrEof : resAfter (exec .fwrEof (written [1#8, 2#8] (start [] 2))) = some 1#32 := by decide +kernel

/-- R156: bytes written so far. -/
theorem test_fwrOff : resAfter (exec .fwrOff (written [1#8, 2#8] (start [] 5))) = some 2#32 := by decide +kernel

/-- R157: RAKE's span. -/
theorem test_bwrSet :
    fieldAfter (·.bwr) (exec .bwrSet (args 0#32 6#32 0#32 (start [] 6))) =
      some { top := 6#32, pos := 6#32, floor := 0#32 } := by decide +kernel

/-- R158's example: the first byte lands at top − 1. -/
theorem test_bwrWrb :
    fieldAfter (fun t => storeRead t.raw 3) (exec (.bwrWrb 0x5A#8) (writtenBack [] (start [] 4))) = some 0x5A#8 := by
  decide +kernel

/-- R159's example: RAW[1..5] after the copy. -/
theorem test_bwrCopy :
    fieldAfter (fun t => memBytes t.raw 1 5)
        (exec .bwrCopy (args 2#32 3#32 0#32 (writtenBack [0x42#8, 0x41#8] (start [] 6)))) =
      some [0x41#8, 0x42#8, 0x41#8, 0x42#8, 0x41#8] := by decide +kernel

/-- R160's example: pos = floor = 0. -/
theorem test_bwrEof : resAfter (exec .bwrEof (writtenBack [1#8, 2#8] (start [] 2))) = some 1#32 := by decide +kernel

/-- R161's example: top = 6, pos = 1. -/
theorem test_bwrOff :
    resAfter (exec .bwrOff (writtenBack [1#8, 2#8, 3#8, 4#8, 5#8] (start [] 6))) = some 5#32 := by decide +kernel

/-- R165's example: RAW = 61 62 63 becomes the newest buffer (the capacity is OPEN: the toy has none). -/
theorem test_histPush :
    fieldAfter (fun t => some t.hist)
        (runCommand false (histPush toy) { written [0x61#8, 0x62#8, 0x63#8] (start [] 3) with hist := [[9#8]] }) =
      some [[9#8], [0x61#8, 0x62#8, 0x63#8]] := by decide +kernel

/-- The table of R192's example: 0 to 7, 10 to 8, 11 to 9. -/
def threeEntries : List HufEntry := [⟨1, 0b0, 7#32⟩, ⟨2, 0b10, 8#32⟩, ⟨2, 0b11, 9#32⟩]

/-- With a table in slot 3. -/
def tabled (es : List HufEntry) (s : State) : State := { s with ht := s.ht.set 3 (some es) }

/-- R191: only its own slot. -/
theorem test_hufClear :
    fieldAfter (fun t => t.ht[3]) (exec (.hufClear 3#4) (tabled threeEntries (start [] 0))) = some [] ∧
    fieldAfter (fun t => t.ht[3]) (exec (.hufClear 2#4) (tabled threeEntries (start [] 0))) = some threeEntries := by
  decide +kernel

/-- R192's example: the third entry goes in; a further (3, 0b100, 1) raises Table (the capacity is OPEN: a toy). -/
theorem test_hufInsert :
    fieldAfter (fun t => t.ht[3]) (runCommand false (hufInsert toy 3 2 0b10 8#32)
      (tabled [⟨1, 0b0, 7#32⟩, ⟨2, 0b11, 9#32⟩] (start [] 0))) = some threeEntries ∧
    statusAfter (exec (.hufInsert 3#4) (args 3#32 0b100#32 1#32 (tabled threeEntries (start [] 0)))) = some 0x191#32 := by
  decide +kernel

/-- R193's example: lengths 2 1 3 3 give 10, 0, 110, 111; and no lengths give the empty table under every capacity. -/
theorem test_hufBuild :
    fieldAfter (fun t => t.ht[0]) (runCommand false (hufBuild toy 0 4)
      { start [] 0 with lenm := loaded [2#8, 1#8, 3#8, 3#8] }) =
      some [⟨1, 0b0, 1#32⟩, ⟨2, 0b10, 0#32⟩, ⟨3, 0b110, 2#32⟩, ⟨3, 0b111, 3#32⟩] ∧
    fieldAfter (fun t => t.ht[3]) (runCommand false (hufBuild { toy with hufNodeMax := some 0 } 3 0)
      (tabled threeEntries (start [] 0))) = some [] := by decide +kernel

/-- R195's example: the bits 1 0 0 give 8 first; the empty table is WalkOff. -/
theorem test_hufDecode :
    resAfter (exec (.hufDecode 3#4 .group8) (tabled threeEntries (reading 0#32 0 (start [0x80#8] 0)))) = some 8#32 ∧
    statusAfter (exec (.hufDecode 2#4 .group32) (tabled threeEntries (reading 0#32 0 (start [0x80#8] 0)))) =
      some 0x181#32 := by decide +kernel

/-- R221's example: DH_NSYM = 317; and a model of no symbols is Range. -/
theorem test_dhufInit :
    fieldAfter (fun t => t.dhuf.map (·.nsym)) (exec .dhufInit (args 317#32 0#32 0#32 (start [] 0))) = some 317#32 ∧
    statusAfter (exec .dhufInit (args 0#32 0#32 0#32 (start [] 0))) = some 0x111#32 := by decide +kernel

/-- A toy tracker of three symbols: the codes are those of threeEntries. -/
def trackerToy : Config :=
  { toy with dhufCodes := fun _ => threeEntries, dhufMaxF := fun t => toWord t.freq.length,
             dhufUpdate := fun t n => { t with freq := n :: t.freq } }

/-- With a tracker of 10 symbols. -/
def tracked (s : State) : State := { s with dhuf := some { nsym := 10#32, tree := some { freq := [], shape := [] } } }

/-- R222: the walk of R195 over the code set; Unset without a model. A code of no bits still wants a bit (R195's loop). -/
theorem test_dhufDecode :
    fieldAfter (fun t => t.status.cause) (runCommand false (do setRes0 (← dhufDecode
      { trackerToy with dhufCodes := fun _ => [⟨0, 0, 0#32⟩] } .group8)) (tracked (reading 0#32 0 (start [] 0)))) =
      some .unexpectedEnd ∧
    fieldAfter (fun t => t.res0) (runCommand false (do setRes0 (← dhufDecode trackerToy .group8))
      (tracked (reading 0#32 0 (start [0xC0#8] 0)))) = some 9#32 ∧
    statusAfter (exec (.dhufDecode .group8) (reading 0#32 0 (start [0xC0#8] 0))) = some 0x171#32 := by decide +kernel

/-- R223: a symbol outside the model is Index; another updates the tree. -/
theorem test_dhufUpdate :
    statusAfter (exec .dhufUpdate (args 10#32 0#32 0#32 (tracked (start [] 0)))) = some 0x1B1#32 ∧
    fieldAfter (fun t => (t.dhuf.bind (·.tree)).map (·.freq)) (runCommand false (dhufUpdate trackerToy 9)
      (tracked (start [] 0))) = some [9] := by decide +kernel

/-- R224: Unset without a model. -/
theorem test_dhufMaxf :
    statusAfter (exec .dhufMaxf (start [] 0)) = some 0x171#32 ∧
    fieldAfter (fun t => t.res0) (runCommand false (do setRes0 (← dhufMaxF trackerToy)) (tracked (start [] 0))) =
      some 0#32 := by decide +kernel

/-- R290's example: n = 6. -/
theorem test_mtfInit :
    fieldAfter (·.mtf0) (exec (.mtfInit .selectors) (args 6#32 0#32 0#32 (start [] 0))) = some [0, 1, 2, 3, 4, 5] ∧
    statusAfter (exec (.mtfInit .data) (args 257#32 0#32 0#32 (start [] 0))) = some 0x111#32 := by decide +kernel

/-- R291's example: index 1 of 2 0 1 3 4 5. -/
theorem test_mtfAccess :
    fieldAfter (·.mtf1) (exec (.mtfAccess .data) { args 1#32 0#32 0#32 (start [] 0) with mtf1 := some [2, 0, 1, 3, 4, 5] }) =
      some [0, 2, 1, 3, 4, 5] := by decide +kernel

/-- R263's example: room for codes up to 4095; maxBits = 8 is Header. -/
theorem test_lzwSetup :
    fieldAfter (·.lzw.maxBits) (exec .lzwSetup (args 12#32 5#32 0#32 (start [] 0))) = some 12 ∧
    statusAfter (exec .lzwSetup (args 8#32 5#32 0#32 (start [] 0))) = some 0x1A1#32 := by decide +kernel

/-- As LZW.SETUP leaves the dictionary. -/
def lzwReady (s : State) : State :=
  { s with lzw := { Lzw.unset with maxBits := some 12, stackLength := some 5#32 } }

/-- R265's example: the bits 0 0100 0001. R506: without LZW.SETUP, Unset. -/
theorem test_lzwRestart :
    rawAfter 1 (exec .lzwRestart (lzwReady (written [] (reading 0#32 0 (start [0x20#8, 0x80#8] 1))))) = some [0x41#8] ∧
    statusAfter (exec .lzwRestart (written [] (reading 0#32 0 (start [0x20#8, 0x80#8] 1)))) = some 0x171#32 := by
  decide +kernel

/-- The dictionary of R266's example, after AB: prevCode 66, newCode 66, freeIndex 260, entry 259 = AB. -/
def afterAB (s : State) : State :=
  { s with
    lzw := { Lzw.unset with
      maxBits := some 12, stackLength := some 5#32, codeBits := some 9, freeIndex := some 260, prevCode := some 66#32,
      newCode := some 66#32, prefixes := [(0, 65#32)], suffixes := [(0, 66#8)] } }

/-- R266's example: code 259 writes 41 42 and makes entry 260 = (66, 65). -/
theorem test_lzwStep :
    rawAfter 4 (exec .lzwStep (afterAB (written [0x41#8, 0x42#8] (reading 0#32 0 (start [0x81#8, 0x80#8] 4))))) =
      some [0x41#8, 0x42#8, 0x41#8, 0x42#8] ∧
    fieldAfter (fun t => storeRead t.lzw.prefixes 1)
        (exec .lzwStep (afterAB (written [0x41#8, 0x42#8] (reading 0#32 0 (start [0x81#8, 0x80#8] 4))))) =
      some 66#32 := by decide +kernel

/-- R295: digit 1; and a size of 0 is Header. -/
theorem test_bzStart :
    fieldAfter (·.bz.blockSize) (exec .bzStart (args 100000#32 0#32 0#32 (start [] 0))) = some 100000 ∧
    statusAfter (exec .bzStart (args 0#32 0#32 0#32 (start [] 0))) = some 0x1A1#32 := by decide +kernel

/-- R296: the end marker with the stored CRC 1, against a running CRC of 1 and of 0. -/
theorem test_bzBlock :
    resAfter (exec .bzBlock { reading 0#32 0 (start [0x17#8, 0x72#8, 0x45#8, 0x38#8, 0x50#8, 0x90#8, 0#8, 0#8, 0#8, 1#8] 0)
      with bz := { Bz.unset with crc := some 1#32 } }) = some 0#32 ∧
    statusAfter (exec .bzBlock { reading 0#32 0
      (start [0x17#8, 0x72#8, 0x45#8, 0x38#8, 0x50#8, 0x90#8, 0#8, 0#8, 0#8, 1#8] 0)
      with bz := { Bz.unset with crc := some 0#32 } }) = some 0x102#32 := by decide +kernel

/-- The "banana" stream of spec/95_test_vectors.md 2.8.1, after its header. -/
def bananaChunk : List Byte :=
  [0x31#8, 0x41#8, 0x59#8, 0x26#8, 0x53#8, 0x59#8, 0xEF#8, 0xB6#8, 0xEC#8, 0x01#8, 0x00#8, 0x00#8, 0x01#8, 0x81#8,
    0x00#8, 0x30#8, 0x01#8, 0x20#8, 0x00#8, 0x30#8, 0xCC#8, 0x0C#8, 0x7A#8, 0x88#8, 0x5E#8, 0x2E#8, 0xE4#8, 0x8A#8,
    0x70#8, 0xA1#8, 0x21#8, 0xDF#8, 0x6D#8, 0xD8#8, 0x02#8]

/-- A core that BZ.START has made ready for it. -/
def bananaCore : State :=
  { reading 0#32 0 (start bananaChunk 6) with
    ht := (State.reset.ht.set 6 (some selectorTable)).set 7 (some deltaTable),
    bz := { Bz.unset with blockSize := some 100000, crc := some 0#32 } }

/-- Spec/95_test_vectors.md 2.8.2: the literal symbols, the selectors and the deltas of that stream give "nnbaaa". -/
theorem test_bzBlock_banana :
    fieldAfter (·.bz.blk) (runCommand false (do let _ ← bzBlock toy) bananaCore) =
      some [0x6E#8, 0x6E#8, 0x62#8, 0x61#8, 0x61#8, 0x61#8] := by decide +kernel

/-- The same fields by the reading that the statements use, from the bits after the marker. -/
theorem test_blockFields_banana :
    (blockFields toy 100000 (bananaCore.bitStream.drop 48)).toOption.map (fun r => (r.1.block, r.1.origPtr, r.1.selectors)) =
      some ([0x6E#8, 0x6E#8, 0x62#8, 0x61#8, 0x61#8, 0x61#8], 3#24, [1]) := by decide +kernel

/-- With a block ready for BZ.UNBWT. -/
def blocked (blk : List Byte) (origPtr : BitVec 24) (s : State) : State :=
  { s with
    bz := { Bz.unset with blk := some blk, origPtr := some origPtr, crc := some 0#32, randomised := some false } }

/-- R310's example: "nnbaaa", origPtr = 3, gives "banana"; R315: its CRC. -/
theorem test_bzUnbwt :
    rawAfter 6 (exec .bzUnbwt (blocked [0x6E#8, 0x6E#8, 0x62#8, 0x61#8, 0x61#8, 0x61#8] 3#24 (written [] (start [] 6)))) =
      some [0x62#8, 0x61#8, 0x6E#8, 0x61#8, 0x6E#8, 0x61#8] ∧
    fieldAfter (·.bz.crc)
        (exec .bzUnbwt (blocked [0x6E#8, 0x6E#8, 0x62#8, 0x61#8, 0x61#8, 0x61#8] 3#24 (written [] (start [] 6)))) =
      some 0xEFB6EC01#32 := by decide +kernel

/-- A toy arithmetic: a code is the next bit, a symbol is 7, a scale by 0 has no divisor. -/
def ariToy : Config :=
  { toy with
    shriScale := fun a _ m => if m = 0#32 then none else some a,
    shriGetCode := fun A n => .node (.leaf (some (A, 0#n))) (.leaf (some (A, 1#n))),
    shriDecodeSymbol := fun A => .leaf (some ({ A with shift := 9#32 }, 7)) }

/-- With ARI present. -/
def withAri (s : State) : State := { s with ari := some default, status := { s.status with shriValid := true } }

/-- R395: ZeroDivisor is raised. -/
theorem test_ariScale :
    statusAfter (runCommand true (do setRes0 (← ariScale ariToy 5#32 6#32 0#32)) (start [] 0)) = some 0x1C1#32 ∧
    resAfter (runCommand true (do setRes0 (← ariScale ariToy 5#32 6#32 1#32)) (start [] 0)) = some 5#32 := by
  decide +kernel

/-- R397: Unset without state; the bit the function takes is consumed. -/
theorem test_ariGetcode :
    statusAfter (exec (.ariGetcode 4#6) (start [0x80#8] 0)) = some 0x171#32 ∧
    resAfter (runCommand true (do setRes0 (toWord (← ariGetcode ariToy 4))) (withAri (reading 0#32 0 (start [0x80#8] 0)))) =
      some 1#32 := by decide +kernel

/-- R398: the new stream registers. -/
theorem test_ariDecsym :
    fieldAfter (fun t => t.ari.map (·.shift)) (runCommand true (do setRes0 (toWord (← ariDecsym ariToy).val))
      (withAri (reading 0#32 0 (start [] 0)))) = some 9#32 ∧
    statusAfter (exec .ariDecsym (start [] 0)) = some 0x171#32 := by decide +kernel

/-- R399: a symbol above 498 is Index; SHRI_VALID stays set, as the vectors of section 2.11 say. -/
theorem test_ariUpdate :
    statusAfter (exec .ariUpdate (args 499#32 0#32 0#32 (withAri (start [] 0)))) = some 0x3B1#32 := by decide +kernel

/-- R394's example: SHRI_VALID = 1. -/
theorem test_ariInit : statusAfter (exec .ariInit (start [] 0)) = some 0x200#32 := by decide +kernel

/-- R261's example: the codes 65, 66, 259, 261 give ABABABA; R269: the code 256 is Reserved. -/
theorem test_decompressBlzw :
    rawAfter 7 (exec .decompressBlzw (start [0#8, 0x0C#8, 0#8, 0#8, 0x20#8, 0x90#8, 0xA0#8, 0x70#8, 0x50#8] 7)) =
      some [0x41#8, 0x42#8, 0x41#8, 0x42#8, 0x41#8, 0x42#8, 0x41#8] ∧
    statusAfter (exec .decompressBlzw (start [0#8, 0x0A#8, 0#8, 0#8, 0x20#8, 0x90#8, 0xA0#8, 0#8] 3)) = some 0x1E1#32 := by
  decide +kernel

/-- R293: a wrong letter is Header also where the digit holds no value. -/
theorem test_decompressBzp2_header :
    statusAfter (exec .decompressBzp2 { start [0x42#8, 0x5A#8, 0x30#8] 0 with chunkLen := 4#32 }) = some 0x1A1#32 := by
  decide +kernel

/-- R246: the stream of no blocks, on an empty output and on one of one byte. -/
theorem test_decompressBzp2 :
    statusAfter (exec .decompressBzp2 (start [0x42#8, 0x5A#8, 0x68#8, 0x31#8, 0x17#8, 0x72#8, 0x45#8, 0x38#8, 0x50#8, 0x90#8,
      0#8, 0#8, 0#8, 0#8] 0)) = some 0#32 ∧
    statusAfter (exec .decompressBzp2 (start [0x42#8, 0x5A#8, 0x68#8, 0x31#8, 0x17#8, 0x72#8, 0x45#8, 0x38#8, 0x50#8, 0x90#8,
      0#8, 0#8, 0#8, 0#8] 1)) = some 0x1D1#32 := by decide +kernel

/-- R351, R246: an empty output succeeds at once. -/
theorem test_decompressLhlb : statusAfter (exec .decompressLhlb (start [] 0)) = some 0#32 := by decide +kernel

/-- R365: a distance of 0 where the output is full ends the command; R366: a count is clamped. -/
theorem test_decompressMash :
    rawAfter 3 (runCommand false (mashSequence { toy with
      mashLitLen := .leaf 3, mashLit := .leaf 0x61#8, mashMatch := .leaf { countLess2 := 0, distance := 0 } })
      (start [] 3)) = some [0x61#8, 0x61#8, 0x61#8] ∧
    rawAfter 3 (runCommand false (mashSequence { toy with
      mashLitLen := .leaf 1, mashLit := .leaf 0x61#8, mashMatch := .leaf { countLess2 := 7, distance := 1 } })
      (start [] 3)) = some [0x61#8, 0x61#8, 0x61#8] := by decide +kernel

/-- R373: literals come from the backward stream, RAW is filled from its end. -/
theorem test_rakeTurn :
    fieldAfter (fun t => memBytes t.raw 1 1) (runCommand false (do let _ ← rakeTurn { toy with rakeLiteralBit := true })
      { writtenBack [] (reading 0#32 0 (start [0#8, 0#8, 0#8, 0#8, 0xBB#8] 2)) with
        bitsAcc := some 1#32, bitsCnt := some 1, bcur := some { pos := 5#32, floor := 4#32 } }) = some [0xBB#8] := by
  decide +kernel

/-- R375: the middle tier, and where the tiers meet. -/
theorem test_rakeDistance :
    rakeDistance 1 1 0b101 0x03#8 = 0x604 ∧ rakeDistance 1 0 0 0xFF#8 = 0x100 ∧ rakeDistance 1 2 0b111111 0xFF#8 = 0x4900 :=
  by decide

/-- R392: version 2 on a fresh core is Unset; a version other than 1 and 2 is Header. -/
theorem test_decompressShri :
    statusAfter (exec .decompressShri (start [2#8] 0)) = some 0x171#32 ∧
    statusAfter (exec .decompressShri (start [3#8] 0)) = some 0x1A1#32 := by decide +kernel

/-- R431: the accumulator wraps modulo 256. -/
theorem test_smplTurn :
    rawAfter 1 (runCommand false (do let _ ← smplTurn) { written [] (reading 0#32 0 (start [0x00#8] 1)) with
      ht := State.reset.ht.set 0 (some [⟨1, 0b0, 250#32⟩]), smplAcc := some 10#8 }) = some [4#8] := by decide +kernel

/-- R432: the lengths 14, 15 + 0 and 15 + 15. -/
theorem test_smplLength :
    (smplLengthField (bitsOf 4 14)).toOption.map (·.1) = some 14 ∧
    (smplLengthField (bitsOf 8 0xF0)).toOption.map (·.1) = some 15 ∧
    fieldAfter (·.bitsCnt) (runCommand false (do
        if (← smplLength) = 30 then pure () else raise .range) (reading 0#32 0 (start [0xFF#8] 0))) = some 0 := by
  decide +kernel

/-- R442 (a), (b): the ends of the length and distance ranges; (c) and R441: 8 bits of 0x80 subtract −128. -/
theorem test_sqsh_fields :
    sqshLenBase 4 + (2 ^ sqshLenExtra 4 - 1) = 47 ∧ sqshDistBase 0 + (2 ^ sqshDistBits 0 - 1) = 0x1100 ∧
    sqshDistBase 2 + (2 ^ sqshDistBits 2 - 1) = 0x5100 ∧ sqshNextSample 10#8 0x80 8 = 138#8 ∧
    sqshNextSample 10#8 0b111 3 = 11#8 := by decide

/-- R441: with an empty output no bit is read after the header; R443: byte 0 is the value of SQSH_FIRST. -/
theorem test_decompressSqsh :
    fieldAfter (·.fcur) (runCommand false (sqshSequence { toy with sqshHeader := fun _ => some 1#32 }) (start [7#8, 9#8] 0)) =
      some { pos := 1#32, stop := 2#32 } ∧
    rawAfter 1 (runCommand false (sqshSequence { toy with
      sqshHeader := fun _ => some 1#32, sqshFirst := .node (.leaf 0x61#8) (.leaf 0x62#8) }) (start [7#8, 0x80#8] 1)) =
      some [0x62#8] := by decide +kernel

/-! ## States that meet the hypotheses of each statement, one for each clause, at the ends of its range -/

/-- With these moves still to come on the port. -/
def moved (moves : List HostMove) (s : State) : State := { s with port := moves }

theorem next_of_field {α : Type} {f : State → Option α} {o : Host.Outcome State Fault Refusal} {v : α}
    (h : fieldAfter f o = some v) : ∃ t, o = .next t ∧ f t = some v := by
  cases o with
  | next t => exact ⟨t, rfl, h⟩
  | fault _ => cases h
  | refused _ => cases h

theorem test_meets_DecodeOfEncode : (Instr.bitsRd8 32#6).wellFormed = true := by decide

theorem test_meets_EncodeOfDecode : decode 0x18000020#32 = .ok (.bitsRd8 32#6) := by decide

theorem test_meets_StepRunsCommand :
    let s := moved [.command 0x33510000#32] State.reset
    s.status.busy = false ∧ s.port = .command 0x33510000#32 :: [] ∧ decode 0x33510000#32 = .ok (.hufDecode 5#4 .group32) := by
  decide +kernel

theorem test_meets_StepIllegalWord :
    let s := moved [.command 0#32] State.reset
    let u := moved [.command 0#32] (State.reset.corrupted .range)
    s.status.busy = false ∧ s.port = .command 0#32 :: [] ∧ decode 0#32 = .error (.unlistedOpcode 0#8) ∧
    s.status.faulted = false ∧ u.status.busy = false ∧ u.port = .command 0#32 :: [] ∧ u.status.faulted = true := by
  decide +kernel

theorem test_meets_StepRefusesWhileFaulted :
    let s := moved [.command 0x10000000#32] (State.reset.corrupted .range)
    s.status.busy = false ∧ s.status.faulted = true ∧ s.port = .command 0x10000000#32 :: [] ∧
    (0x10000000#32 : Word) ≠ 0x01000000#32 := by decide +kernel

theorem test_meets_StepHostWrites :
    (moved [.writeCsr 0x08 5#32] State.reset).port = .writeCsr 0x08 5#32 :: [] ∧
    (moved [.writeChunk 0#32 5#8] State.reset).port = .writeChunk 0#32 5#8 :: [] ∧
    (moved [.writeLenm 1023#32 5#8] State.reset).port = .writeLenm 1023#32 5#8 :: [] ∧ (1023#32 : Word).toNat < 1024 ∧
    (moved [.writeLenm 1024#32 5#8] State.reset).port = .writeLenm 1024#32 5#8 :: [] ∧ 1024 ≤ (1024#32 : Word).toNat ∧
    State.reset.status.busy = false := by decide +kernel

theorem test_meets_StepHostReads :
    let s := { written [1#8] (start [7#8, 8#8] 2) with lenm := [(1023, 5#8)] }
    s.status.busy = false ∧ (moved [.readCsr 0x19] s).port = .readCsr 0x19 :: [] ∧
    (csrTable Config.core s).lookup 0x19 = some (some 1#32) ∧ (csrTable Config.core s).lookup 0x10 = some none ∧
    (csrTable Config.core s).lookup 0x05 = none ∧ (csrTable Config.core s).lookup 0x3A = none ∧
    (moved [.readRaw 1#32] s).port = .readRaw 1#32 :: [] ∧ 1 < s.rawLen.toNat ∧ storeRead s.raw 1 = none ∧
    (moved [.readChunk 2#32] s).port = .readChunk 2#32 :: [] ∧ ¬ 2 < s.chunkLen.toNat ∧
    (moved [.readLenm 1023#32] s).port = .readLenm 1023#32 :: [] ∧ storeRead s.lenm 1023 = some 5#8 := by
  refine ⟨rfl, rfl, rfl, rfl, rfl, rfl, rfl, ?_⟩
  decide +kernel

/-- An OPEN arithmetic with progress: every symbol takes a bit. -/
def movingToy : Config :=
  { ariToy with
    shriDecodeSymbol := fun A => .node (.leaf (some (A.toAriRegs, 7))) (.leaf (some (A.toAriRegs, 498))) }

theorem test_meets_EveryCommandEnds : movingToy.ShriProgress := by
  intro a a1 a2 a3 r d h
  cases h

theorem test_meets_ErrorEntry :
    (start cursorChunk 0).status.faulted = false ∧
    ∃ t, exec .fcurSet (args 0#32 7#32 0#32 (start cursorChunk 0)) = .next t ∧ t.status.faulted = true := ⟨rfl, _, rfl, rfl⟩

theorem test_meets_FrameOfEveryCommand :
    (args 4#32 6#32 0#32 (start cursorChunk 0)).Ready ∧
    ∃ t, exec .fcurSet (args 4#32 6#32 0#32 (start cursorChunk 0)) = .next t ∧ t.status.faulted = false :=
  ⟨⟨rfl, rfl, rfl⟩, _, rfl, rfl⟩

theorem test_meets_StatelessFormats :
    let s := start cursorChunk 3
    let u := tracked (tabled threeEntries (reading 5#32 3 (start cursorChunk 3)))
    .decompressBlzw ∈ statelessMacros ∧ s.Ready ∧ u.Ready ∧ u.chunk = s.chunk ∧ u.chunkLen = s.chunkLen ∧
    u.rawLen = s.rawLen := ⟨by decide, ⟨rfl, rfl, rfl⟩, ⟨rfl, rfl, rfl⟩, rfl, rfl, rfl⟩

/-- The chunk of R261's example. -/
def blzwChunk : List Byte := [0#8, 0x0C#8, 0#8, 0#8, 0x20#8, 0x90#8, 0xA0#8, 0x70#8, 0x50#8]

theorem test_meets_MacroFillsOutput :
    .decompressBlzw ∈ macros ∧ (start blzwChunk 7).Ready ∧
    ∃ t, exec .decompressBlzw (start blzwChunk 7) = .next t ∧ t.status.faulted = false := by
  refine ⟨by decide, ⟨rfl, rfl, rfl⟩, ?_⟩
  obtain ⟨t, h, e⟩ := next_of_field (f := fun t => some t.status.faulted) (v := false)
    (show fieldAfter _ (exec .decompressBlzw (start blzwChunk 7)) = _ by decide +kernel)
  exact ⟨t, h, Option.some.inj e⟩

theorem test_meets_HistoryGrows :
    Instr.fcurSet ≠ .instReset ∧ Instr.fcurSet ≠ .histPush ∧ Instr.fcurSet ≠ .decompressShri ∧
    (∃ t, exec .fcurSet State.reset = .next t ∧ t.status.faulted = true) ∧
    ∃ t, exec .fcurSet (args 4#32 6#32 0#32 (start cursorChunk 0)) = .next t ∧ t.status.faulted = false :=
  ⟨by decide, by decide, by decide, ⟨_, rfl, rfl⟩, _, rfl, rfl⟩

/-- The case of HIST.PUSH without error, for every configuration whose OPEN HIST_MAX has room for one buffer of two
bytes. -/
theorem test_meets_HistoryGrows_push (h1 : passes 1 Config.core.histMaxBuffers = false)
    (h2 : passes 2 Config.core.histMaxBytes = false) :
    ∃ t, exec .histPush (written [1#8, 2#8] (start [] 2)) = .next t ∧ t.status.faulted = false := by
  suffices ∀ s : State, s.Ready → memBytes s.raw 0 s.rawLen.toNat = some [1#8, 2#8] → s.hist = [] →
      exec .histPush s = .next { s with hist := [[1#8, 2#8]] } from
    ⟨_, this _ ⟨rfl, rfl, rfl⟩ (by decide +kernel) rfl, rfl⟩
  intro s hr h hh
  refine run_ok hr ?_ hr.2.1
  simp [histPush_eq, h, hh, h1, h2]
  rfl

/-- A core in the middle of its work, about to clear slot 2. -/
def busyCore : State :=
  moved [.command 0x30200000#32] (tracked (tabled [⟨1, 0b0, 7#32⟩] (reading 5#32 3 (written [1#8] (start [9#8] 2)))))

theorem test_meets_StepKeepsMemoryForm : busyCore.MemoryForm ∧ ∃ t, step busyCore = .next t := by
  refine ⟨⟨by decide +kernel, by decide +kernel, by decide +kernel, by decide +kernel, by decide +kernel, by decide +kernel,
    ?_, ?_, ?_⟩, _, rfl⟩
  all_goals
    intro a b h
    match a, h with
    | 0, _ => decide
    | a + 1, h => simp [busyCore, moved, tracked, tabled, reading, written, start, loaded, storeRead, State.reset] at h

theorem test_meets_StepKeepsReaderForm : busyCore.ReaderForm ∧ ∃ t, step busyCore = .next t := by
  refine ⟨⟨?_, ?_, ?_, ?_, ?_⟩, _, rfl⟩
  · rintro f ⟨rfl⟩; decide
  · rintro f ⟨⟩
  · rintro n ⟨rfl⟩; exact ⟨by decide, .inr ⟨_, rfl⟩⟩
  · rintro f ⟨rfl⟩; decide
  · rintro f ⟨⟩

theorem test_meets_StepKeepsTableForm : busyCore.TableForm ∧ ∃ t, step busyCore = .next t := by
  refine ⟨⟨?_, ?_⟩, _, rfl⟩
  · intro t es h
    have h' : es = [⟨1, 0b0, 7#32⟩] ∨ es = [] := by
      revert h; fin_cases t <;> intro h <;> first | exact .inl (Option.some.inj h).symm | exact .inr (Option.some.inj h).symm
    rcases h' with rfl | rfl
    · exact ⟨List.pairwise_singleton _ _, by decide⟩
    · exact ⟨List.Pairwise.nil, by decide⟩
  · rintro (_ | _) xs ⟨rfl⟩ <;> exact ⟨by decide, List.Perm.refl _⟩

theorem test_meets_StepKeepsStatusForm : busyCore.StatusForm ∧ ∃ t, step busyCore = .next t :=
  ⟨⟨rfl, rfl, by decide +kernel, by decide +kernel, fun _ => rfl⟩, _, rfl⟩

theorem form_afterAB (s : State) : LzwForm (afterAB s).lzw := by
  refine ⟨?_, ?_, ?_, ?_, ?_⟩
  · rintro m ⟨rfl⟩; decide
  · rintro m ⟨rfl⟩; decide
  · rintro m ⟨rfl⟩; decide
  · rintro m ⟨rfl⟩; decide
  · rintro f ⟨rfl⟩
    refine ⟨by decide, by rintro m ⟨rfl⟩; decide, fun i h1 h2 => ?_⟩
    obtain rfl : i = 259 := by omega
    exact ⟨65#32, 66#8, rfl, rfl, .inl (by decide)⟩

theorem test_meets_StepKeepsUnitForm : (afterAB busyCore).UnitForm ∧ ∃ t, step (afterAB busyCore) = .next t := by
  refine ⟨⟨form_afterAB _, ?_, ?_, ?_⟩, _, rfl⟩
  · rintro f p ⟨rfl⟩ ⟨rfl⟩; exact .inl (by decide)
  · rintro n ⟨⟩
  · rintro d ⟨rfl⟩; decide

theorem test_meets_SpansSet :
    let s := args 4#32 6#32 0#32 (start cursorChunk 6)
    let high := args 6#32 7#32 0#32 (start cursorChunk 6)
    let crossed := args 7#32 6#32 0#32 (start cursorChunk 6)
    s.Ready ∧ s.arg0 = some 4#32 ∧ s.arg1 = some 6#32 ∧ s.chunkLen = 6#32 ∧ s.rawLen = 6#32 ∧ high.Ready ∧
    high.arg0 = some 6#32 ∧ high.arg1 = some 7#32 ∧ crossed.arg0 = some 7#32 ∧ crossed.arg1 = some 6#32 :=
  ⟨⟨rfl, rfl, rfl⟩, rfl, rfl, rfl, rfl, ⟨rfl, rfl, rfl⟩, rfl, rfl, rfl, rfl⟩

/-- A core whose two cursors have `n` bytes of six left. -/
def cursors (pos : Nat) : State :=
  { start cursorChunk 0 with
    fcur := some { pos := toWord pos, stop := 6#32 }, bcur := some { pos := toWord pos, floor := 4#32 } }

theorem test_meets_CursorReadByte :
    (cursors 5).Ready ∧ (cursors 5).fcur = some { pos := 5#32, stop := 6#32 } ∧
    storeRead (cursors 5).chunk 5 = some 0xBB#8 ∧ (cursors 6).fcur = some { pos := 6#32, stop := 6#32 } ∧
    (cursors 5).bcur = some { pos := 5#32, floor := 4#32 } ∧ storeRead (cursors 5).chunk (5 - 1) = some 0xAA#8 ∧
    (cursors 4).bcur = some { pos := 4#32, floor := 4#32 } ∧ (cursors 5).chunkLen = 6#32 ∧
    { cursors 5 with chunkLen := 5#32 }.chunkLen.toNat ≤ 5 ∧ { cursors 5 with chunkLen := 4#32 }.chunkLen.toNat < 5 ∧
    storeRead { cursors 5 with chunk := [] }.chunk 5 = none ∧ storeRead { cursors 5 with chunk := [] }.chunk 4 = none ∧
    State.reset.Ready ∧ State.reset.fcur = none ∧ State.reset.bcur = none :=
  ⟨⟨rfl, rfl, rfl⟩, by decide +kernel, by decide +kernel, by decide +kernel, by decide +kernel, by decide +kernel,
    by decide +kernel, rfl, by decide +kernel, by decide +kernel, rfl, rfl, ⟨rfl, rfl, rfl⟩, rfl, rfl⟩

theorem test_meets_CursorConsume :
    let s := args 1#32 0#32 0#32 (cursors 5)
    let u := args 2#32 0#32 0#32 (cursors 5)
    s.Ready ∧ s.arg0 = some 1#32 ∧ u.arg0 = some 2#32 ∧ s.fcur = some { pos := 5#32, stop := 6#32 } ∧ 5 + 1 ≤ 6 ∧
    6 < 5 + 2 ∧ s.bcur = some { pos := 5#32, floor := 4#32 } ∧ 4 + 1 ≤ 5 ∧ 5 < 4 + 2 ∧ s.chunkLen = 6#32 ∧
    { s with chunkLen := 5#32 }.chunkLen.toNat < 5 + 1 ∧ { s with chunkLen := 4#32 }.chunkLen.toNat < 5 ∧
    { args 0#32 0#32 0#32 s with chunkLen := 4#32 }.arg0 = some 0#32 ∧ 1#32 ≠ 0#32 ∧
    State.reset.arg0 = none ∧ (args 1#32 0#32 0#32 State.reset).fcur = none ∧
    (args 1#32 0#32 0#32 State.reset).bcur = none :=
  ⟨⟨rfl, rfl, rfl⟩, by decide +kernel⟩

theorem test_meets_BitReads :
    let s := reading 5#32 3 (start [0xA5#8, 0xC3#8] 0)
    s.Ready ∧ s.CanRead .group8 19 ∧ s.CanRead .group32 3 ∧ s.CanRead .group8 0 ∧ s.WholeStream ∧
    ¬ s.CanRead .group8 20 ∧ ¬ s.CanRead .group32 4 ∧ (args 5#32 0#32 0#32 s).arg0 = some 5#32 ∧ s.arg0 = none ∧
    (State.reset.bitsCnt = some 0 ∧ State.reset.fcur = none) ∧ (State.reset.corrupted .range).bitsCnt = none ∧
    ({ s with chunk := [(0, 0xA5#8)] } : State).ReaderSet ∧ ¬ ({ s with chunk := [(0, 0xA5#8)] } : State).WholeStream ∧
    ¬ ({ s with chunk := [(0, 0xA5#8)] } : State).CanRead .group8 12 :=
  ⟨⟨rfl, rfl, rfl⟩, ⟨⟨_, rfl, .inr ⟨_, rfl⟩⟩, by decide +kernel⟩, ⟨⟨_, rfl, .inr ⟨_, rfl⟩⟩, by decide +kernel⟩,
    ⟨⟨_, rfl, .inr ⟨_, rfl⟩⟩, by decide +kernel⟩, ⟨_, rfl, by decide +kernel⟩, fun h => absurd h.2 (by decide +kernel),
    fun h => absurd h.2 (by decide +kernel), rfl, rfl, ⟨rfl, rfl⟩, rfl, ⟨_, rfl, .inr ⟨_, rfl⟩⟩,
    fun ⟨f, hf, h⟩ => by obtain rfl := Option.some.inj hf; exact absurd h (by decide +kernel),
    fun h => absurd h.2 (by decide +kernel)⟩

theorem test_meets_BitOrderLaw :
    let s := reading 0#32 0 (start [0xA5#8, 0x12#8, 0x34#8, 0x56#8, 0x78#8] 0)
    let reads : List (BitSource × BitVec 6) := [(.group8, 3#6), (.group8, 5#6), (.group32, 32#6)]
    s.Ready ∧ s.bitsCnt = some 0 ∧ (∀ r ∈ reads, r.2.toNat ≤ 32) ∧
    (readAll reads s).isSome = true := ⟨⟨rfl, rfl, rfl⟩, rfl, by decide, by decide +kernel⟩

theorem test_meets_WriteByte :
    (written [1#8] (start [] 2)).Ready ∧ (written [1#8] (start [] 2)).fwr = some ⟨0#32, 1#32, 2#32⟩ ∧
    (written [1#8, 2#8] (start [] 2)).fwr = some ⟨0#32, 2#32, 2#32⟩ ∧
    (writtenBack [1#8] (start [] 2)).bwr = some ⟨2#32, 1#32, 0#32⟩ ∧
    (writtenBack [1#8, 2#8] (start [] 2)).bwr = some ⟨2#32, 0#32, 0#32⟩ ∧ State.reset.fwr = none ∧
    State.reset.bwr = none := ⟨⟨rfl, rfl, rfl⟩, by decide +kernel⟩

theorem test_meets_ForwardCopy :
    let s := args 2#32 5#32 0#32 (written [0x41#8, 0x42#8] (start [] 7))
    s.Ready ∧ s.fwr = some ⟨0#32, 2#32, 7#32⟩ ∧ s.arg0 = some 2#32 ∧ s.arg1 = some 5#32 ∧ 0 + 2 ≤ 2 ∧ 2 + 5 ≤ 7 ∧
    (∀ k, k < 2 → 2 - 2 ≤ k → (storeRead s.raw k).isSome) ∧
    (args 0#32 5#32 0#32 s).arg0 = some 0#32 ∧ (args 3#32 5#32 0#32 s).arg0 = some 3#32 ∧ 2 < 0 + 3 ∧
    (args 2#32 6#32 0#32 s).arg1 = some 6#32 ∧ 7 < 2 + 6 := ⟨⟨rfl, rfl, rfl⟩, by decide +kernel⟩

theorem test_meets_HistoryCopy :
    let s := args 3#32 3#32 0#32 { written [0x63#8] (start [] 4) with hist := [[0x61#8], [0x62#8]] }
    s.Ready ∧ s.fwr = some ⟨0#32, 1#32, 4#32⟩ ∧ s.arg0 = some 3#32 ∧ s.arg1 = some 3#32 ∧
    memBytes s.raw 0 (1 - 0) = some [0x63#8] ∧ 3 ≤ (s.hist.flatten ++ [0x63#8]).length ∧ 1 + 3 ≤ 4 ∧
    (args 4#32 3#32 0#32 s).arg0 = some 4#32 ∧ (s.hist.flatten ++ [0x63#8]).length < 4 ∧
    (args 0#32 3#32 0#32 s).arg0 = some 0#32 ∧ (args 3#32 4#32 0#32 s).arg1 = some 4#32 ∧ 4 < 1 + 4 :=
  ⟨⟨rfl, rfl, rfl⟩, by decide +kernel⟩

theorem test_meets_BackwardCopy :
    let s := args 2#32 4#32 0#32 (writtenBack [0x42#8, 0x41#8] (start [] 6))
    s.Ready ∧ s.bwr = some ⟨6#32, 4#32, 0#32⟩ ∧ s.arg0 = some 2#32 ∧ s.arg1 = some 4#32 ∧ 4 + 2 ≤ 6 ∧ 0 + 4 ≤ 4 ∧
    (∀ k, k < 4 + 2 → 4 ≤ k → (storeRead s.raw k).isSome) ∧
    (args 0#32 4#32 0#32 s).arg0 = some 0#32 ∧ (args 3#32 4#32 0#32 s).arg0 = some 3#32 ∧ 6 < 4 + 3 ∧
    (args 2#32 5#32 0#32 s).arg1 = some 5#32 ∧ 4 < 0 + 5 := ⟨⟨rfl, rfl, rfl⟩, by decide +kernel⟩

theorem test_meets_WriterQueries :
    (written [1#8, 2#8] (start [] 2)).Ready ∧ (written [1#8, 2#8] (start [] 2)).fwr = some ⟨0#32, 2#32, 2#32⟩ ∧
    (writtenBack [1#8, 2#8] (start [] 2)).bwr = some ⟨2#32, 0#32, 0#32⟩ ∧ State.reset.fwr = none ∧
    State.reset.bwr = none := ⟨⟨rfl, rfl, rfl⟩, by decide +kernel⟩

theorem test_meets_HistPush :
    (written [1#8, 2#8] (start [] 2)).Ready ∧ memBytes (written [1#8, 2#8] (start [] 2)).raw 0 2 = some [1#8, 2#8] ∧
    memBytes (written [1#8] (start [] 2)).raw 0 2 = none := ⟨⟨rfl, rfl, rfl⟩, by decide +kernel⟩

theorem lawful_threeEntries : LawfulTable threeEntries :=
  ⟨by simp [prefixFree, threeEntries], by decide⟩

theorem test_meets_HufClearInsert :
    let s := tabled threeEntries (start [] 0)
    let u := tabled [⟨1, 0b0, 7#32⟩] (start [] 0)
    s.Ready ∧ s.ht[3] = some threeEntries ∧ LawfulTable threeEntries ∧ (args 33#32 0#32 0#32 s).arg0 = some 33#32 ∧
    (args 0#32 0#32 0#32 s).arg0 = some 0#32 ∧
    (∃ x ∈ threeEntries, pathBits ⟨3, 4, 1#32⟩ <+: pathBits x ∨ pathBits x <+: pathBits ⟨3, 4, 1#32⟩) ∧
    u.ht[3] = some [⟨1, 0b0, 7#32⟩] ∧
    ∀ x ∈ [(⟨1, 0b0, 7#32⟩ : HufEntry)], ¬ pathBits ⟨32, 2 ^ 31, 1#32⟩ <+: pathBits x ∧
      ¬ pathBits x <+: pathBits ⟨32, 2 ^ 31, 1#32⟩ :=
  ⟨⟨rfl, rfl, rfl⟩, rfl, lawful_threeEntries, rfl, rfl, by decide +kernel, rfl, by decide +kernel⟩

theorem test_meets_HufBuild :
    let s := args 4#32 0#32 0#32 { start [] 0 with lenm := loaded [2#8, 1#8, 3#8, 3#8] }
    let long := args 1#32 0#32 0#32 { start [] 0 with lenm := loaded [33#8] }
    let dense := args 3#32 0#32 0#32 { start [] 0 with lenm := loaded [1#8, 1#8, 32#8] }
    s.Ready ∧ s.arg0 = some 4#32 ∧ memBytes s.lenm 0 4 = some [2#8, 1#8, 3#8, 3#8] ∧ kraftSum [2, 1, 3, 3] ≤ 2 ^ 32 ∧
    (args 1025#32 0#32 0#32 s).arg0 = some 1025#32 ∧ memBytes long.lenm 0 1 = some [33#8] ∧
    memBytes dense.lenm 0 3 = some [1#8, 1#8, 32#8] ∧ 2 ^ 32 < kraftSum [1, 1, 32] :=
  ⟨⟨rfl, rfl, rfl⟩, by decide +kernel⟩

theorem test_meets_CanonicalAssignment :
    (∀ l ∈ [2, 1, 2], l ≤ 32) ∧ canonicalCodes [2, 1, 2] =
      some ([] ++ ⟨2, 0b10, 0#32⟩ :: [⟨1, 0b0, 1#32⟩] ++ ⟨2, 0b11, 2#32⟩ :: []) ∧
    2 ^ 32 < kraftSum [1, 1, 32] := by decide +kernel

theorem test_meets_HufDecode :
    let s := tabled threeEntries (reading 0#32 0 (start [0x80#8, 0#8, 0#8, 0#8, 0#8] 0))
    s.Ready ∧ s.ht[3] = some threeEntries ∧ s.ReaderSet ∧ s.WholeStream ∧ (s.deliverable .group8).length = 40 ∧
    (s.deliverable .group32).length = 32 ∧ s.ht[2] = some [] :=
  ⟨⟨rfl, rfl, rfl⟩, rfl, ⟨_, rfl, .inr ⟨_, rfl⟩⟩, ⟨_, rfl, by decide +kernel⟩, by decide +kernel⟩

/-- The table of R193's example. -/
def fourEntries : List HufEntry := [⟨1, 0b0, 1#32⟩, ⟨2, 0b10, 0#32⟩, ⟨3, 0b110, 2#32⟩, ⟨3, 0b111, 3#32⟩]

theorem test_meets_HufRoundTrip :
    let s := tabled fourEntries (reading 0#32 0 (start [0xC0#8] 0))
    canonicalCodes [2, 1, 3, 3] = some [⟨2, 0b10, 0#32⟩, ⟨1, 0b0, 1#32⟩, ⟨3, 0b110, 2#32⟩, ⟨3, 0b111, 3#32⟩] ∧
    (∀ x, x ∈ fourEntries ↔
      x ∈ [(⟨2, 0b10, 0#32⟩ : HufEntry), ⟨1, 0b0, 1#32⟩, ⟨3, 0b110, 2#32⟩, ⟨3, 0b111, 3#32⟩]) ∧
    s.Ready ∧ s.ht[3] = some fourEntries ∧ s.CanRead .group8 3 ∧ pathBits ⟨3, 0b110, 2#32⟩ <+: s.bitStream :=
  ⟨by decide +kernel, fun x => List.Perm.mem_iff (by decide), ⟨rfl, rfl, rfl⟩, rfl, ⟨⟨_, rfl, .inr ⟨_, rfl⟩⟩, by decide +kernel⟩,
    by decide +kernel⟩

theorem test_meets_TrackerCommands :
    let s := tracked (args 1024#32 0#32 0#32 (start [] 0))
    s.Ready ∧ s.arg0 = some 1024#32 ∧ (args 0#32 0#32 0#32 s).arg0 = some 0#32 ∧
    (args 1025#32 0#32 0#32 s).arg0 = some 1025#32 ∧
    s.dhuf = some { nsym := 10#32, tree := some { freq := [], shape := [] } } ∧
    (args 9#32 0#32 0#32 s).arg0 = some 9#32 ∧ (args 10#32 0#32 0#32 s).arg0 = some 10#32 ∧
    State.reset.dhuf = some { nsym := 0#32, tree := none } := ⟨⟨rfl, rfl, rfl⟩, by decide +kernel⟩

theorem test_meets_TrackerDecode :
    let s := tracked (reading 0#32 0 (start [0xC0#8] 0))
    s.Ready ∧ s.dhuf = some { nsym := 10#32, tree := some { freq := [], shape := [] } } ∧ s.ReaderSet ∧ s.WholeStream ∧
    State.reset.Ready ∧ State.reset.dhuf = some { nsym := 0#32, tree := none } :=
  ⟨⟨rfl, rfl, rfl⟩, rfl, ⟨_, rfl, .inr ⟨_, rfl⟩⟩, ⟨_, rfl, by decide +kernel⟩, ⟨rfl, rfl, rfl⟩, rfl⟩

theorem test_meets_MtfCommands :
    let s := args 1#32 0#32 0#32 { start [] 0 with mtf0 := some [2, 0, 1], mtf1 := some [2, 0, 1] }
    s.Ready ∧ s.arg0 = some 1#32 ∧ s.mtf0 = some ([2] ++ 0 :: [1]) ∧ s.mtf1 = some ([2] ++ 0 :: [1]) ∧
    (args 256#32 0#32 0#32 s).arg0 = some 256#32 ∧ (args 257#32 0#32 0#32 s).arg0 = some 257#32 ∧
    (args 3#32 0#32 0#32 s).arg0 = some 3#32 ∧ [2, 0, 1].length ≤ 3 ∧
    State.reset.mtf0 = some [] ∧ ([] : List Nat).length ≤ 1 := ⟨⟨rfl, rfl, rfl⟩, by decide +kernel⟩

theorem test_meets_LzwSetup :
    let s := args 20#32 65540#32 0#32 (start [] 0)
    s.Ready ∧ s.arg0 = some 20#32 ∧ s.arg1 = some 65540#32 ∧ (args 9#32 1#32 0#32 s).arg0 = some 9#32 ∧
    (args 8#32 1#32 0#32 s).arg0 = some 8#32 ∧ (args 21#32 1#32 0#32 s).arg0 = some 21#32 ∧
    (args 9#32 0#32 0#32 s).arg1 = some 0#32 ∧ (args 9#32 65541#32 0#32 s).arg1 = some 65541#32 :=
  ⟨⟨rfl, rfl, rfl⟩, by decide +kernel⟩

theorem test_meets_LzwRestart :
    let s := lzwReady (written [] (reading 0#32 0 (start [0x7F#8, 0x80#8] 1)))
    s.Ready ∧ s.lzw.maxBits = some 12 ∧ State.reset.lzw.maxBits = none ∧ s.CanRead .group8 9 ∧ bitsValue (s.bitStream.take 9) = 255 ∧ s.fwr = some ⟨0#32, 0#32, 1#32⟩ ∧
    bitsValue ((reading 0#32 0 (start [0x80#8, 0x00#8] 1)).bitStream.take 9) = 256 ∧
    bitsValue ((reading 0#32 0 (start [0x81#8, 0x00#8] 1)).bitStream.take 9) = 258 ∧
    bitsValue ((reading 0#32 0 (start [0x81#8, 0x80#8] 1)).bitStream.take 9) = 259 ∧
    (written [1#8] (reading 0#32 0 (start [0x7F#8, 0x80#8] 1))).fwr = some ⟨0#32, 1#32, 1#32⟩ ∧
    (reading 0#32 0 (start [0x7F#8] 1)).WholeStream ∧ ¬ (reading 0#32 0 (start [0x7F#8] 1)).CanRead .group8 9 := by
  refine ⟨⟨rfl, rfl, rfl⟩, rfl, rfl, ⟨⟨_, rfl, .inr ⟨_, rfl⟩⟩, by decide +kernel⟩, by decide +kernel, by decide +kernel,
    by decide +kernel, by decide +kernel, by decide +kernel, by decide +kernel, ⟨_, rfl, by decide +kernel⟩, fun h => ?_⟩
  exact absurd h.2 (by decide +kernel)

theorem test_meets_LzwStep :
    let s := afterAB (written [0x41#8, 0x42#8] (reading 0#32 0 (start [0x81#8, 0x80#8] 4)))
    let u := afterAB (written [0x41#8, 0x42#8] (reading 0#32 0 (start [0x82#8, 0x00#8] 4)))
    s.Ready ∧ LzwForm s.lzw ∧ s.fwr = some ⟨0#32, 2#32, 4#32⟩ ∧ s.lzw.codeBits = some 9 ∧ s.lzw.maxBits = some 12 ∧
    s.lzw.freeIndex = some 260 ∧ s.lzw.prevCode = some 66#32 ∧ s.lzw.newCode = some 66#32 ∧
    s.lzw.stackLength = some 5#32 ∧ s.CanRead .group8 9 ∧ bitsValue (s.bitStream.take 9) = 259 ∧
    lzwString s.lzw 260 259 = some [0x41#8, 0x42#8] ∧ u.CanRead .group8 9 ∧ bitsValue (u.bitStream.take 9) = 260 ∧
    lzwString u.lzw 260 66 = some [0x42#8] ∧ 2 + 2 ≤ 4 ∧
    { s.lzw with stackLength := some 1#32 }.stackLength = some 1#32 ∧ (1#32 : Word).toNat < [0x41#8, 0x42#8].length ∧
    (written [0x41#8, 0x42#8] (start [] 3)).fwr = some ⟨0#32, 2#32, 3#32⟩ ∧ 3 < 2 + 2 ∧
    { u.lzw with prevCode := some 260#32 }.prevCode = some 260#32 ∧ 260 ≤ (260#32 : Word).toNat :=
  ⟨⟨rfl, rfl, rfl⟩, form_afterAB _, rfl, rfl, rfl, rfl, rfl, rfl, rfl, ⟨⟨_, rfl, .inr ⟨_, rfl⟩⟩, by decide +kernel⟩,
    by decide +kernel, by decide +kernel, ⟨⟨_, rfl, .inr ⟨_, rfl⟩⟩, by decide +kernel⟩, by decide +kernel⟩

theorem test_meets_LzwControlCodes :
    let s := afterAB (reading 0#32 0 (start [0x80#8, 0x00#8] 4))
    s.Ready ∧ s.lzw.codeBits = some 9 ∧ s.CanRead .group8 9 ∧ bitsValue (s.bitStream.take 9) = 256 ∧
    bitsValue ((reading 0#32 0 (start [0x81#8, 0x00#8] 4)).bitStream.take 9) = 258 ∧ s.lzw.freeIndex = some 260 ∧
    bitsValue ((reading 0#32 0 (start [0x82#8, 0x80#8] 4)).bitStream.take 9) = 261 ∧
    { s.lzw with codeBits := some 33 }.codeBits = some 33 :=
  ⟨⟨rfl, rfl, rfl⟩, rfl, ⟨⟨_, rfl, .inr ⟨_, rfl⟩⟩, by decide +kernel⟩, by decide +kernel⟩

/-- The code 257, and then the code 65: the restart after it ends without error. -/
theorem test_meets_LzwControlCodes_reset :
    let s := afterAB (written [] (reading 0#32 0 (start [0x80#8, 0x88#8, 0x20#8] 4)))
    bitsValue (s.bitStream.take 9) = 257 ∧
    ∃ t, exec .lzwRestart (s.afterBits .group8 9) = .next t ∧ some t.status.faulted = some false :=
  ⟨by decide +kernel, next_of_field (f := fun t => some t.status.faulted) (by decide +kernel)⟩

theorem test_meets_BzStart :
    let s := args 900000#32 0#32 0#32 (start [] 0)
    s.Ready ∧ s.arg0 = some 900000#32 ∧ (args 1#32 0#32 0#32 s).arg0 = some 1#32 ∧
    (args 0#32 0#32 0#32 s).arg0 = some 0#32 ∧ (args 900001#32 0#32 0#32 s).arg0 = some 900001#32 :=
  ⟨⟨rfl, rfl, rfl⟩, by decide +kernel⟩

theorem test_meets_BzEndMarker :
    let s := { reading 0#32 0 (start [0x17#8, 0x72#8, 0x45#8, 0x38#8, 0x50#8, 0x90#8, 0#8, 0#8, 0#8, 1#8] 0) with
      bz := { Bz.unset with crc := some 1#32 } }
    let u := reading 0#32 0 (start [0#8, 0#8, 0#8, 0#8, 0#8, 0#8] 0)
    s.Ready ∧ s.bz.crc = some 1#32 ∧ s.CanRead .group8 80 ∧ bitsValue (s.bitStream.take 48) = 0x177245385090 ∧
    bitsValue ((s.bitStream.drop 48).take 32) = 1 ∧ { s with bz := Bz.unset }.bz.crc = none ∧ u.CanRead .group8 48 ∧ bitsValue (u.bitStream.take 48) = 0 :=
  ⟨⟨rfl, rfl, rfl⟩, rfl, ⟨⟨_, rfl, .inr ⟨_, rfl⟩⟩, by decide +kernel⟩, by decide +kernel, by decide +kernel, rfl,
    ⟨⟨_, rfl, .inr ⟨_, rfl⟩⟩, by decide +kernel⟩, by decide +kernel⟩

/-- The bytes of `runBlockBits 0 false 0 0x61 [false]`: one byte "a". -/
def runBlockChunk : List Byte :=
  [0x31#8, 0x41#8, 0x59#8, 0x26#8, 0x53#8, 0x59#8, 0x00#8, 0x00#8, 0x00#8, 0x00#8, 0x00#8, 0x00#8,
    0x00#8, 0x01#8, 0x00#8, 0x20#8, 0x00#8, 0x20#8, 0x00#8, 0x21#8, 0x01#8, 0x02#8]

/-- A core that BZ.START has made ready for such a block. -/
def runBlockCore : State :=
  { reading 0#32 0 (start runBlockChunk 1) with
    ht := (State.reset.ht.set 6 (some selectorTable)).set 7 (some deltaTable),
    bz := { Bz.unset with blockSize := some 100000, crc := some 0#32 } }

theorem test_meets_BzRunBlock :
    runBlockCore.Ready ∧ runBlockCore.ht[6] = some selectorTable ∧ runBlockCore.ht[7] = some deltaTable ∧
    runBlockCore.bz.blockSize = some 100000 ∧ 0 < runLengthOf [false] ∧ runBlockCore.ReaderSet ∧
    runBlockCore.WholeStream ∧ runBlockCore.bitStream = runBlockBits 0#32 false 0#24 0x61#8 [false] ++ [] :=
  ⟨⟨rfl, rfl, rfl⟩, rfl, rfl, rfl, by decide, ⟨_, rfl, .inr ⟨_, rfl⟩⟩, ⟨_, rfl, by decide +kernel⟩, by decide +kernel⟩

theorem test_meets_BzRunBlock_fields :
    bananaCore.Ready ∧ bananaCore.ht[6] = some selectorTable ∧ bananaCore.ht[7] = some deltaTable ∧
    bananaCore.bz.blockSize = some 100000 ∧ bananaCore.ReaderSet ∧ bananaCore.WholeStream ∧
    bananaCore.bitStream = bitsOf 48 0x314159265359 ++ bananaCore.bitStream.drop 48 :=
  ⟨⟨rfl, rfl, rfl⟩, rfl, rfl, rfl, ⟨_, rfl, .inr ⟨_, rfl⟩⟩, ⟨_, rfl, by decide +kernel⟩, by decide +kernel⟩

theorem test_meets_BzUnbwt :
    let blk := [0x6E#8, 0x6E#8, 0x62#8, 0x61#8, 0x61#8, 0x61#8]
    let s := blocked blk 3#24 (written [] (start [] 6))
    let u := blocked blk 3#24 (written [] (start [] 5))
    s.Ready ∧ s.fwr = some ⟨0#32, 0#32, 6#32⟩ ∧ s.bz.blk = some blk ∧ s.bz.crc = some 0#32 ∧
    s.bz.origPtr = some 3#24 ∧ s.bz.randomised = some false ∧ (unbwtBytes (fun _ => 2) false blk 3).length = 6 ∧
    { s.bz with randomised := some true }.randomised = some true ∧ u.fwr = some ⟨0#32, 0#32, 5#32⟩ ∧ (blocked [] 3#24 u).bz.blk = some [] := ⟨⟨rfl, rfl, rfl⟩, by decide +kernel⟩

theorem test_meets_AriCommands :
    let s := args 498#32 5#32 6#32 (withAri (start [] 0))
    s.Ready ∧ s.arg0 = some 498#32 ∧ s.arg1 = some 5#32 ∧ s.arg2 = some 6#32 ∧ s.status.shriValid = true ∧
    s.ari = some default ∧ (args 499#32 0#32 0#32 s).arg0 = some 499#32 ∧ (start [] 0).status.shriValid = false :=
  ⟨⟨rfl, rfl, rfl⟩, rfl, rfl, rfl, rfl, rfl, rfl, rfl⟩

theorem test_meets_AriStreamCommands :
    (32#6).toNat ≤ 32 ∧ (withAri (start [] 0)).Ready ∧ { withAri (start [] 0) with ari := none }.ari = none ∧
    let s := withAri (reading 0#32 0 (start [0x80#8] 0))
    s.Ready ∧ s.status.shriValid = true ∧ s.ari = some default ∧ s.ReaderSet ∧ s.WholeStream ∧
    (start [] 0).status.shriValid = false :=
  ⟨by decide, ⟨rfl, rfl, rfl⟩, rfl, ⟨rfl, rfl, rfl⟩, rfl, rfl, ⟨_, rfl, .inr ⟨_, rfl⟩⟩, ⟨_, rfl, by decide +kernel⟩, rfl⟩

theorem test_meets_BlzwLiterals :
    let s := start [0#8, truncByte 20, 0#8, 0#8, 0x20#8, 0x80#8] 1
    s.Ready ∧ memBytes s.chunk 0 s.chunkLen.toNat = some (0#8 :: truncByte 20 :: 0#8 :: 0#8 :: [0x20#8, 0x80#8]) ∧
    [0x41#8].length = s.rawLen.toNat ∧
    byteBits [0x20#8, 0x80#8] = ([0x41#8].flatMap fun b => bitsOf 9 b.toNat) ++ List.replicate 7 false ∧
    memBytes (start [0#8, truncByte 9, 0#8, 0#8, 0x20#8, 0x80#8] 1).chunk 0 6 =
      some (0#8 :: truncByte 9 :: 0#8 :: 0#8 :: [0x20#8, 0x80#8]) := ⟨⟨rfl, rfl, rfl⟩, by decide +kernel⟩

theorem test_meets_EmptyOutputs :
    let s := start [0#8, 20#8, 0#8, 0#8, 0x7F#8, 0x80#8] 0
    s.Ready ∧ s.rawLen = 0#32 ∧
    memBytes s.chunk 0 s.chunkLen.toNat = some (0#8 :: 20#8 :: 0#8 :: 0#8 :: [0x7F#8, 0x80#8]) ∧
    bitsValue ((byteBits [0x7F#8, 0x80#8]).take 9) = 255 := ⟨⟨rfl, rfl, rfl⟩, by decide +kernel⟩

/-- A core in a turn of LHLB, with one byte written. -/
theorem test_meets_EmptyOutputs_turn :
    let s := { written [0x61#8] (reading 0#32 0 (start [0x80#8] 2)) with
      dhuf := some { nsym := 317#32, tree := some { freq := [], shape := [] } } }
    s.dhuf = some { nsym := 317#32, tree := some { freq := [], shape := [] } } ∧ s.fwr = some ⟨0#32, 1#32, 2#32⟩ ∧
    memBytes s.raw 0 (1 - 0) = some [0x61#8] ∧ s.ReaderSet ∧ s.WholeStream :=
  ⟨rfl, rfl, by decide +kernel, ⟨_, rfl, .inr ⟨_, rfl⟩⟩, ⟨_, rfl, by decide +kernel⟩⟩

/-- The stream of no blocks with the stored CRC `crc`, and one byte after it. -/
def noBlocks (crc : Byte) : List Byte :=
  [0x42#8, 0x5A#8, 0x68#8, 0x39#8, 0x17#8, 0x72#8, 0x45#8, 0x38#8, 0x50#8, 0x90#8, 0#8, 0#8, 0#8, crc, 0xFF#8]

theorem test_meets_Bzp2NoBlocks :
    (start (noBlocks 0#8) 0).Ready ∧
    (∀ n : Fin 2, memBytes (start (noBlocks 0#8) n).chunk 0 15 = some (noBlocks 0#8)) ∧
    memBytes (start (noBlocks 1#8) 0).chunk 0 15 = some (noBlocks 1#8) ∧
    noBlocks 1#8 = [0x42#8, 0x5A#8, 0x68#8, 0x39#8, 0x17#8, 0x72#8, 0x45#8, 0x38#8, 0x50#8, 0x90#8,
      (1#32 : Word).extractLsb' 24 8, (1#32 : Word).extractLsb' 16 8, (1#32 : Word).extractLsb' 8 8,
      (1#32 : Word).extractLsb' 0 8] ++ [0xFF#8] := ⟨⟨rfl, rfl, rfl⟩, by decide +kernel⟩

theorem test_meets_RakeSqshEmpty :
    (start cursorChunk 0).Ready ∧ (start cursorChunk 0).rawLen = 0#32 ∧
    memBytes (start cursorChunk 0).chunk 0 (start cursorChunk 0).chunkLen.toNat = some cursorChunk :=
  ⟨⟨rfl, rfl, rfl⟩, by decide +kernel⟩

/-- A core in a turn of RAKE, with the bytes 1 and then 2 written. -/
theorem test_meets_RakeSqshEmpty_turn :
    let s := { writtenBack [2#8, 1#8] (reading 0#32 0 (start cursorChunk 4)) with
      bcur := some { pos := 6#32, floor := 4#32 }, ht := State.reset.ht.set 0 (some threeEntries) }
    s.ht[0] = some threeEntries ∧ s.bwr = some ⟨4#32, 2#32, 0#32⟩ ∧
    memBytes s.raw 2 (4 - 2) = some [1#8, 2#8].reverse ∧ s.ReaderSet ∧ s.WholeStream ∧
    s.backByte.toOption = some 0xBB#8 :=
  ⟨rfl, rfl, by decide +kernel, ⟨_, rfl, .inr ⟨_, rfl⟩⟩, ⟨_, rfl, by decide +kernel⟩, by decide +kernel⟩

/-- A core in a turn of SHRI, with one byte written after a history of one. -/
theorem test_meets_ShriVersions_turn :
    let s := withAri { written [0x61#8] (reading 0#32 0 (start [0x80#8] 2)) with hist := [[0x62#8]] }
    s.status.shriValid = true ∧ s.ari = some default ∧ s.fwr = some ⟨0#32, 1#32, 2#32⟩ ∧
    memBytes s.raw 0 (1 - 0) = some [0x61#8] ∧ s.ReaderSet ∧ s.WholeStream :=
  ⟨rfl, rfl, rfl, by decide +kernel, ⟨_, rfl, .inr ⟨_, rfl⟩⟩, ⟨_, rfl, by decide +kernel⟩⟩

theorem test_meets_ShriVersions :
    (start [] 0).Ready ∧ (start [] 0).chunkLen = 0#32 ∧ (start [3#8] 0).chunkLen ≠ 0#32 ∧
    storeRead (start [3#8] 0).chunk 0 = some 3#8 ∧ storeRead (start [1#8] 0).chunk 0 = some 1#8 ∧
    storeRead (start [2#8] 0).chunk 0 = some 2#8 ∧ (start [2#8] 0).status.shriValid = false ∧
    memBytes (start [1#8] 0).chunk 0 1 = some [1#8] ∧ (start [1#8] 0).rawLen = 0#32 ∧
    (withAri (start [2#8] 0)).status.shriValid = true := ⟨⟨rfl, rfl, rfl⟩, by decide +kernel⟩

theorem test_meets_SmplEmpty :
    (start [0#8, 0#8] 0).Ready ∧ (start [0#8, 0#8] 0).rawLen = 0#32 ∧
    memBytes (start [0#8, 0#8] 0).chunk 0 2 = some (List.replicate 2 0#8) ∧
    memBytes (start [0x1F#8] 0).chunk 0 (start [0x1F#8] 0).chunkLen.toNat = some [0x1F#8] :=
  ⟨⟨rfl, rfl, rfl⟩, by decide +kernel⟩

theorem test_meets_SmplSums :
    let s := { written [] (reading 0#32 0 (start [0x00#8] 2)) with
      ht := State.reset.ht.set 0 (some [⟨1, 0b0, 250#32⟩]), smplAcc := some 10#8 }
    s.ht[0] = some [⟨1, 0b0, 250#32⟩] ∧ s.smplAcc = some 10#8 ∧ s.fwr = some ⟨0#32, 0#32, 2#32⟩ ∧ s.ReaderSet ∧
    s.WholeStream ∧ walkMany [⟨1, 0b0, 250#32⟩] 2 s.bitStream = some ([250#32, 250#32], List.replicate 6 false) :=
  ⟨rfl, rfl, rfl, ⟨_, rfl, .inr ⟨_, rfl⟩⟩, ⟨_, rfl, by decide +kernel⟩, by decide +kernel⟩

theorem test_meets_MashMatchEnds :
    let s := written [0x61#8] (start [] 3)
    s.fwr = some ⟨0#32, 1#32, 3#32⟩ ∧ (written [1#8, 2#8, 3#8] (start [] 3)).fwr = some ⟨0#32, 3#32, 3#32⟩ ∧
    (⟨7, 1⟩ : MashMatch).distance ≠ 0 ∧ 0 + 1 ≤ 1 ∧ 1 < 0 + (⟨0, 2⟩ : MashMatch).distance ∧
    (⟨0, 0⟩ : MashMatch).distance = 0 ∧ ∀ k, k < 1 → 1 - 1 ≤ k → (storeRead s.raw k).isSome := by decide +kernel

/-- A core in a turn of MASH, with one byte written. -/
theorem test_meets_MashMatchEnds_turn :
    let s := written [0x61#8] (reading 0#32 0 (start [0x00#8] 3))
    s.fwr = some ⟨0#32, 1#32, 3#32⟩ ∧ memBytes s.raw 0 (1 - 0) = some [0x61#8] ∧ s.ReaderSet ∧ s.WholeStream :=
  ⟨rfl, by decide +kernel, ⟨_, rfl, .inr ⟨_, rfl⟩⟩, ⟨_, rfl, by decide +kernel⟩⟩

theorem test_meets_SqshLiteralRun :
    let s := { written [] (reading 0#32 0 (start [0x80#8, 0x7F#8] 2)) with sqshSample := some 10#8 }
    s.sqshSample = some 10#8 ∧ s.fwr = some ⟨0#32, 0#32, 2#32⟩ ∧ s.ReaderSet ∧ s.WholeStream ∧
    (∀ v ∈ [0x80, 0x7F], v < 2 ^ ((7 : Fin 8).val + 1)) ∧
    s.bitStream = ([0x80, 0x7F].flatMap fun v => bitsOf ((7 : Fin 8).val + 1) v) ++ [] :=
  ⟨rfl, rfl, ⟨_, rfl, .inr ⟨_, rfl⟩⟩, ⟨_, rfl, by decide +kernel⟩, by decide, by decide +kernel⟩

/-- A core before a repeat of SQSH, with two bytes written. -/
theorem test_meets_SqshLiteralRun_repeat :
    let s := { written [0x61#8, 0x62#8] (reading 0#32 0 (start [0x00#8, 0x00#8] 4)) with sqshSample := some 0x62#8 }
    s.fwr = some ⟨0#32, 2#32, 4#32⟩ ∧ memBytes s.raw 0 (2 - 0) = some [0x61#8, 0x62#8] ∧ s.ReaderSet ∧ s.WholeStream :=
  ⟨rfl, by decide +kernel, ⟨_, rfl, .inr ⟨_, rfl⟩⟩, ⟨_, rfl, by decide +kernel⟩⟩

/-- A core in a turn of SQSH, and one before DECOMPRESS.SQSH with an output of one byte and of more. -/
theorem test_meets_SqshLiteralRun_turn :
    let s := { written [0x61#8, 0x62#8] (reading 0#32 0 (start [0x00#8, 0x00#8] 4)) with
      sqshSample := some 0x62#8, sqshQ := some default }
    s.sqshQ = some default ∧ s.sqshSample = some 0x62#8 ∧ s.fwr = some ⟨0#32, 2#32, 4#32⟩ ∧
    memBytes s.raw 0 (2 - 0) = some [0x61#8, 0x62#8] ∧ s.ReaderSet ∧ s.WholeStream ∧
    (start [7#8] 1).Ready ∧ (start [7#8] 1).rawLen = 1#32 ∧ (start [7#8] 2).rawLen ≠ 0#32 ∧
    memBytes (start [7#8] 1).chunk 0 (start [7#8] 1).chunkLen.toNat = some [7#8] :=
  ⟨rfl, rfl, rfl, by decide +kernel, ⟨_, rfl, .inr ⟨_, rfl⟩⟩, ⟨_, rfl, by decide +kernel⟩, ⟨rfl, rfl, rfl⟩, rfl,
    by decide +kernel, by decide +kernel⟩

end Sys2Proof.Tests
end

section
/-! SUPPORT. Settles the statements about the step as the host sees it: which move runs what, what a host write changes,
what a host read delivers, the fields of STATUS, and the invariants of the state after reset. -/

namespace Sys2Proof.Machine

/-! ## The moves of the host -/

theorem step_command {s : State} {w : BitVec 32} {rest : List HostMove} (hb : s.status.busy = false)
    (hp : s.port = .command w :: rest) : step s = issue w { s with port := rest } := by
  simp [step, hb, hp]

theorem step_access {s : State} {m : HostMove} {rest : List HostMove} (hb : s.status.busy = false)
    (hp : s.port = m :: rest) (hm : ∀ w, m ≠ .command w) :
    step s = hostAccess Config.core m { s with port := rest } := by
  cases m with
  | command w => exact absurd rfl (hm w)
  | _ => simp [step, hb, hp]

theorem issue_of_decode {w : BitVec 32} {i : Instr} (h : decode w = .ok i) (s : State) : issue w s = exec i s := by
  simp [issue, h]

theorem insideSpace_of_lt {a : Word} {size : Nat} (h : a.toNat < size) (t : State) : insideSpace a size t = .next t :=
  if_pos h

theorem insideSpace_of_le {a : Word} {size : Nat} (h : size ≤ a.toNat) (t : State) :
    insideSpace a size t = .fault .outsideSpace :=
  if_neg (Nat.not_lt.2 h)

/-- A host write of a CSR, register by register (spec/10_state.md R23). -/
theorem hostWriteCsr_eq (n : Nat) (v : Word) (s : State) :
    hostWriteCsr n v s =
      { s with
        chunkLen := if n = 0x01 then v else s.chunkLen, rawLen := if n = 0x02 then v else s.rawLen,
        arg0 := if n = 0x08 then some v else s.arg0, arg1 := if n = 0x09 then some v else s.arg1,
        arg2 := if n = 0x0A then some v else s.arg2, arg3 := if n = 0x0B then some v else s.arg3 } := by
  unfold hostWriteCsr
  split
  case h_7 h1 h2 h8 h9 hA hB => rw [if_neg h1, if_neg h2, if_neg h8, if_neg h9, if_neg hA, if_neg hB]
  all_goals simp

/-- The register file is the table of R23: a number of the table reads its entry, every other number reads 0. -/
theorem csrValue_eq_lookup (c : Config) (s : State) (n : Nat) :
    csrValue c s n = ((csrTable c s).lookup n).getD (some 0#32) := by
  unfold csrValue
  split
  case h_40 =>
    have unlisted : (csrTable c s).lookup n = none := by simp_all [List.lookup_eq_none_iff, csrTable]
    rw [unlisted]; rfl
  case h_5 => exact congrArg (fun k => some (toWord k)) List.length_flatten
  case h_34 => exact congrArg (Option.map · s.bz.randomised) (funext fun r => by cases r <;> rfl)
  all_goals rfl

theorem hostDeliver_eq (v : Option Word) (s : State) (rest : List HostMove) :
    hostDeliver Config.core v { s with port := rest } = s.hostRead rest v := by
  cases v <;> rfl

theorem hostDeliverByte_eq (v : Option Byte) (s : State) (rest : List HostMove) :
    hostDeliverByte Config.core v { s with port := rest } = s.hostReadByte rest v := by
  cases v <;> rfl

theorem insideSpace_eq (a : Word) (size : Nat) (t : State) :
    insideSpace a size t = if a.toNat < size then .next t else .fault .outsideSpace := rfl

/-! ## STATUS as a word -/

theorem kindCode_lt (k : Kind) : kindCode k < 4 := by cases k <;> decide

theorem causeField_lt (c : Option Cause) : causeField c < 16 := by
  rcases c with _ | c
  · decide
  · cases c <;> decide

theorem flagBit_lt (b : Bool) : flagBit b < 2 := by cases b <;> decide

/-- The fields of STATUS do not overlap, so the word is small. -/
theorem statusWord_toNat (st : Status) :
    (statusWord st).toNat = kindCode st.kind + 2 ^ 4 * causeField st.cause + 2 ^ 8 * flagBit st.faulted
      + 2 ^ 9 * flagBit st.shriValid + 2 ^ 10 * flagBit st.busy := by
  have hk := kindCode_lt st.kind
  have hc := causeField_lt st.cause
  have hf := flagBit_lt st.faulted
  have hv := flagBit_lt st.shriValid
  have hb := flagBit_lt st.busy
  rw [statusWord, BitVec.toNat_ofNat, Nat.mod_eq_of_lt (by omega)]

theorem getLsbD_of_digit {w : Word} {i : Nat} {b : Bool} (h : w.toNat / 2 ^ i % 2 = flagBit b) : w.getLsbD i = b := by
  rw [BitVec.getLsbD, Nat.testBit_eq_decide_div_mod_eq, h]
  cases b <;> rfl

theorem extractLsb'_of_digits {w : Word} {i n v : Nat} (h : w.toNat / 2 ^ i % 2 ^ n = v) :
    w.extractLsb' i n = BitVec.ofNat n v := by
  apply BitVec.eq_of_toNat_eq
  rw [BitVec.extractLsb'_toNat, Nat.shiftRight_eq_div_pow, h, BitVec.toNat_ofNat, ← h, Nat.mod_mod]

/-! ## The state after reset -/

/-- Every slot of the reset state is the empty table. -/
theorem reset_slot (t : Fin 16) : State.reset.ht[t] = some [] := by simp [State.reset]

/-- Both move-to-front lists of the reset state are empty. -/
theorem reset_mtfOf (l : MtfStore) : mtfOf l State.reset = some [] := by cases l <;> rfl

theorem lawfulTable_nil : LawfulTable [] := ⟨List.Pairwise.nil, by simp⟩

theorem reset_memoryForm : State.reset.MemoryForm := by
  simp [State.MemoryForm, State.reset, storeWf, Lzw.unset]

theorem reset_readerForm : State.reset.ReaderForm := by
  simp [State.ReaderForm, State.reset]

theorem reset_tableForm : State.reset.TableForm := by
  refine ⟨fun t es h => ?_, fun l xs h => ?_⟩
  · obtain rfl := Option.some.inj ((reset_slot t).symm.trans h)
    exact lawfulTable_nil
  · obtain rfl := Option.some.inj ((reset_mtfOf l).symm.trans h)
    exact ⟨Nat.zero_le _, List.Perm.refl _⟩

theorem reset_statusForm : State.reset.StatusForm := by
  simp [State.StatusForm, State.reset, Status.reset]

theorem reset_unitForm : State.reset.UnitForm := by
  simp [State.UnitForm, LzwForm, State.reset, Lzw.unset, Bz.unset]

end Sys2Proof.Machine

open Sys2Proof Sys2Proof.Machine

/-- Settles O4. -/
theorem stepRunsCommand : Obligations.StepRunsCommand := by
  intro s w rest i hb hp hd
  rw [step_command hb hp, issue_of_decode hd]

/-- Settles O7, one clause for each kind of write. -/
theorem stepHostWrites : Obligations.StepHostWrites := by
  intro s rest hb
  refine ⟨fun n v hp => ?_, fun a b hp => ?_, fun a b hp ha => ?_, fun a b hp ha => ?_⟩
  · rw [step_access hb hp (by simp), hostAccess, hostWriteCsr_eq]
  · exact ⟨_, step_access hb hp (by simp), fun k => storeRead_write _ _ k _⟩
  · refine ⟨storeWrite s.lenm a.toNat b, ?_, fun k => storeRead_write _ _ k _⟩
    rw [step_access hb hp (by simp)]
    exact insideSpace_of_lt ha _
  · rw [step_access hb hp (by simp)]
    exact insideSpace_of_le ha _

/-- Settles O8: a read of a register looks its number up in the table, a read of a byte in its space. -/
theorem stepHostReads : Obligations.StepHostReads := by
  intro s rest hb
  refine ⟨fun n hp => ?_, fun a hp => ?_, fun a hp => ?_, fun a hp => ?_⟩
  · rw [step_access hb hp (by simp), hostAccess, csrValue_eq_lookup]
    show Host.Outcome.next (hostDeliver _ (((csrTable _ s).lookup n).getD _) _) = _
    cases (csrTable Config.core s).lookup n with
    | some v => rw [Option.getD_some, hostDeliver_eq]
    | none => rfl
  · rw [step_access hb hp (by simp), hostAccess, hostDeliverByte_eq, insideSpace_eq]
  · rw [step_access hb hp (by simp), hostAccess, hostDeliverByte_eq, insideSpace_eq]
  · rw [step_access hb hp (by simp), hostAccess, hostDeliverByte_eq, insideSpace_eq]
    rfl

/-- Settles O9: a field of the word is a digit of the sum that `statusWord` adds up. -/
theorem statusFields : Obligations.StatusFields := by
  intro st
  have hw := statusWord_toNat st
  have hk := kindCode_lt st.kind
  have hc := causeField_lt st.cause
  have hf := flagBit_lt st.faulted
  have hv := flagBit_lt st.shriValid
  have hb := flagBit_lt st.busy
  refine ⟨?_, ?_, getLsbD_of_digit (by omega), getLsbD_of_digit (by omega), getLsbD_of_digit (by omega),
    extractLsb'_of_digits (by omega), extractLsb'_of_digits (by omega)⟩
  · rw [extractLsb'_of_digits (v := kindCode st.kind) (by omega)]
    cases st.kind <;> rfl
  · rw [extractLsb'_of_digits (v := causeField st.cause) (by omega)]
    rcases st.cause with _ | c
    · rfl
    · cases c <;> rfl

/-- Settles O21: after reset every list is empty and every register and unit is unset. -/
theorem resetMeetsInvariants : Obligations.ResetMeetsInvariants :=
  ⟨reset_memoryForm, reset_readerForm, reset_tableForm, reset_statusForm, reset_unitForm⟩
end

section
/-! SUPPORT. Every command but INST.RESET is the run of one body; what a body can change, and what a step can do, said once
for all commands. -/

namespace Sys2Proof.Machine

/-! ## The body of a command -/

/-- What a command runs between its begin and its end; INST.RESET has no body. -/
def bodyOf : Instr → M Unit
  | .instReset => pure ()
  | .fcurSet => do
    let start ← readArg0
    let stop ← readArg1
    fcurSet start stop
  | .fcurRdb => do
    let b ← fcurRdb
    setRes0 (b.setWidth 32)
  | .fcurConsume => do
    let n ← readArg0
    let o ← fcurConsume n.toNat
    setRes0 o
  | .bcurSet => do
    let floor ← readArg0
    let start ← readArg1
    bcurSet floor start
  | .bcurRdb => do
    let b ← bcurRdb
    setRes0 (b.setWidth 32)
  | .bcurConsume => do
    let n ← readArg0
    let o ← bcurConsume n.toNat
    setRes0 o
  | .bitsRd8 n => do
    let v ← readBits .group8 n.toNat
    setRes0 (toWord v)
  | .bitsRd32 n => do
    let v ← readBits .group32 n.toNat
    setRes0 (toWord v)
  | .bitsReset n => do
    let seed ← readArg0
    bitsReset seed n.toNat
  | .fwrSet => do
    let start ← readArg0
    let stop ← readArg1
    fwrSet start stop
  | .fwrWrb b => fwrWrb b
  | .fwrCopy => do
    let d ← readArg0
    let c ← readArg1
    fwrCopy d.toNat c.toNat
  | .fwrCopyh => do
    let d ← readArg0
    let c ← readArg1
    fwrCopyh d.toNat c.toNat
  | .fwrEof => do
    let e ← fwrEof
    setRes0 (toWord (flagBit e))
  | .fwrOff => do
    let n ← fwrOff
    setRes0 (toWord n)
  | .bwrSet => do
    let floor ← readArg0
    let top ← readArg1
    bwrSet floor top
  | .bwrWrb b => bwrWrb b
  | .bwrCopy => do
    let d ← readArg0
    let c ← readArg1
    bwrCopy d.toNat c.toNat
  | .bwrEof => do
    let e ← bwrEof
    setRes0 (toWord (flagBit e))
  | .bwrOff => do
    let n ← bwrOff
    setRes0 (toWord n)
  | .histPush => histPush Config.core
  | .hufClear t => hufClear t.toFin
  | .hufInsert t => do
    let length ← readArg0
    let code ← readArg1
    let sym ← readArg2
    hufInsert Config.core t.toFin length.toNat code.toNat sym
  | .hufBuild t => do
    let n ← readArg0
    hufBuild Config.core t.toFin n.toNat
  | .hufDecode t bs => do
    let sym ← hufDecode t.toFin bs
    setRes0 sym
  | .dhufInit => do
    let n ← readArg0
    dhufInit Config.core n
  | .dhufDecode bs => do
    let sym ← dhufDecode Config.core bs
    setRes0 sym
  | .dhufUpdate => do
    let sym ← readArg0
    dhufUpdate Config.core sym.toNat
  | .dhufMaxf => do
    let f ← dhufMaxF Config.core
    setRes0 f
  | .mtfInit l => do
    let n ← readArg0
    mtfInit l n.toNat
  | .mtfAccess l => do
    let j ← readArg0
    let e ← mtfAccess l j.toNat
    setRes0 (toWord e)
  | .lzwSetup => do
    let maxBits ← readArg0
    let stackLength ← readArg1
    lzwSetup maxBits.toNat stackLength.toNat
  | .lzwRestart => lzwRestart
  | .lzwStep => do
    let code ← lzwStep
    setRes0 (toWord code)
  | .bzStart => do
    let size ← readArg0
    bzStart size.toNat
  | .bzBlock => do
    let r ← bzBlock Config.core
    setRes0 (toWord (flagBit r))
  | .bzUnbwt => bzUnbwt Config.core
  | .ariScale => do
    let a ← readArg0
    let b ← readArg1
    let mult ← readArg2
    let r ← ariScale Config.core a b mult
    setRes0 r
  | .ariGetcode n => do
    let v ← ariGetcode Config.core n.toNat
    setRes0 (toWord v)
  | .ariDecsym => do
    let sym ← ariDecsym Config.core
    setRes0 (toWord sym.val)
  | .ariUpdate => do
    let sym ← readArg0
    ariUpdate Config.core sym.toNat
  | .ariInit => ariInit Config.core
  | .decompressBlzw => blzwSequence
  | .decompressBzp2 => bzp2Sequence Config.core
  | .decompressLhlb => lhlbSequence Config.core
  | .decompressMash => mashSequence Config.core
  | .decompressRake => rakeSequence Config.core
  | .decompressShri => shriSequence Config.core
  | .decompressSmpl => smplSequence Config.core
  | .decompressSqsh => sqshSequence Config.core

/-- A command is the run of its body. -/
theorem exec_eq_runCommand {i : Instr} (h : i ≠ .instReset) (s : State) :
    exec i s = runCommand (usesAri i) (bodyOf i) s := by
  cases i with
  | instReset => exact absurd rfl h
  | _ => rfl

/-- A command without operand and result, a command of one operand, and so on: what their bodies change. -/
theorem arg0_changes {α : Type} {ps : List Part} {f : Word → M α} (hf : ∀ a, Keeps (Changes ps) (f a)) :
    Keeps (Changes ps) (readArg0 >>= f) :=
  bind_in readArg0_changes (List.nil_subset _) hf

theorem arg01_changes {α : Type} {ps : List Part} {f : Word → Word → M α} (hf : ∀ a b, Keeps (Changes ps) (f a b)) :
    Keeps (Changes ps) (readArg0 >>= fun a => readArg1 >>= fun b => f a b) :=
  arg0_changes fun a => bind_in readArg1_changes (List.nil_subset _) (hf a)

theorem arg012_changes {α : Type} {ps : List Part} {f : Word → Word → Word → M α}
    (hf : ∀ a b c, Keeps (Changes ps) (f a b c)) :
    Keeps (Changes ps) (readArg0 >>= fun a => readArg1 >>= fun b => readArg2 >>= fun c => f a b c) :=
  arg01_changes fun a b => bind_in readArg2_changes (List.nil_subset _) (hf a b)

theorem res_changes {α : Type} {ps : List Part} {x : M α} {g : α → Word} (hx : Keeps (Changes ps) x) :
    Keeps (Changes (ps ++ [.result])) (x >>= fun a => setRes0 (g a)) :=
  bind_changes hx fun _ => setRes0_changes _

/-- The parts that the body of a command writes on its way: those of its rule, and SEQ.phase in a DECOMPRESS command. -/
def bodyWrites (i : Instr) : List Part :=
  match i with
  | .decompressBlzw | .decompressBzp2 | .decompressLhlb | .decompressMash | .decompressRake | .decompressShri
  | .decompressSmpl | .decompressSqsh => .phase :: writesOf i
  | _ => writesOf i

theorem notMem_bodyWrites {i : Instr} {p : Part} (hp : p ≠ .phase) (hi : p ∉ writesOf i) : p ∉ bodyWrites i := by
  cases i <;> simp_all [bodyWrites]

/-- The body of a command changes the parts that the command's rule writes, a DECOMPRESS command SEQ.phase too, and
nothing else, also where it raises. -/
theorem bodyOf_changes (i : Instr) : Keeps (Changes (bodyWrites i)) (bodyOf i) := by
  cases i with
  | instReset => exact (pure_changes ()).mono (List.nil_subset _)
  | fcurSet => exact (arg01_changes fun _ _ => fcurSet_changes _ _).mono (by decide)
  | fcurRdb => exact (res_changes fcurRdb_changes).mono (by decide)
  | fcurConsume => exact (arg0_changes fun _ => res_changes (fcurConsume_changes _)).mono (by decide)
  | bcurSet => exact (arg01_changes fun _ _ => bcurSet_changes _ _).mono (by decide)
  | bcurRdb => exact (res_changes bcurRdb_changes).mono (by decide)
  | bcurConsume => exact (arg0_changes fun _ => res_changes (bcurConsume_changes _)).mono (by decide)
  | bitsRd8 n => exact (res_changes (readBits_changes _ _)).mono (List.Subset.refl _)
  | bitsRd32 n => exact (res_changes (readBits_changes _ _)).mono (List.Subset.refl _)
  | bitsReset n => exact (arg0_changes fun _ => bitsReset_changes _ _).mono (List.Subset.refl _)
  | fwrSet => exact (arg01_changes fun _ _ => fwrSet_changes _ _).mono (by decide)
  | fwrWrb b => exact (fwrWrb_changes b).mono (List.Subset.refl _)
  | fwrCopy => exact (arg01_changes fun _ _ => fwrCopy_changes _ _).mono (by decide)
  | fwrCopyh => exact (arg01_changes fun _ _ => fwrCopyh_changes _ _).mono (by decide)
  | fwrEof => exact (res_changes fwrEof_changes).mono (by decide)
  | fwrOff => exact (res_changes fwrOff_changes).mono (by decide)
  | bwrSet => exact (arg01_changes fun _ _ => bwrSet_changes _ _).mono (by decide)
  | bwrWrb b => exact (bwrWrb_changes b).mono (List.Subset.refl _)
  | bwrCopy => exact (arg01_changes fun _ _ => bwrCopy_changes _ _).mono (by decide)
  | bwrEof => exact (res_changes bwrEof_changes).mono (by decide)
  | bwrOff => exact (res_changes bwrOff_changes).mono (by decide)
  | histPush => exact (histPush_changes _).mono (by decide)
  | hufClear t => exact (setSlot_changes _ _).mono (List.Subset.refl _)
  | hufInsert t => exact (arg012_changes fun _ _ _ => hufInsert_changes _ _ _ _ _).mono (List.Subset.refl _)
  | hufBuild t => exact (arg0_changes fun _ => hufBuild_changes _ _ _).mono (List.Subset.refl _)
  | hufDecode t bs => exact (res_changes (hufDecode_changes _ _)).mono (List.Subset.refl _)
  | dhufInit => exact (arg0_changes fun _ => dhufInit_changes _ _).mono (by decide)
  | dhufDecode bs => exact (res_changes (dhufDecode_changes _ _)).mono (List.Subset.refl _)
  | dhufUpdate => exact (arg0_changes fun _ => dhufUpdate_changes _ _).mono (by decide)
  | dhufMaxf => exact (res_changes (dhufMaxF_changes _)).mono (by decide)
  | mtfInit l => exact (arg0_changes fun _ => mtfInit_changes _ _).mono (List.Subset.refl _)
  | mtfAccess l => exact (arg0_changes fun _ => res_changes (mtfAccess_changes _ _)).mono (List.Subset.refl _)
  | lzwSetup => exact (arg01_changes fun _ _ => lzwSetup_changes _ _).mono (by decide)
  | lzwRestart => exact lzwRestart_changes.mono (by decide)
  | lzwStep => exact (res_changes lzwStep_changes).mono (by decide)
  | bzStart => exact (arg0_changes fun _ => bzStart_changes _).mono (by decide)
  | bzBlock => exact (res_changes (bzBlock_changes _)).mono (by decide)
  | bzUnbwt => exact (bzUnbwt_changes _).mono (by decide)
  | ariScale => exact (arg012_changes fun _ _ _ => res_changes (ariScale_changes _ _ _ _)).mono (by decide)
  | ariGetcode n => exact (res_changes (ariGetcode_changes _ _)).mono (List.Subset.refl _)
  | ariDecsym => exact (res_changes (ariDecsym_changes _)).mono (by decide)
  | ariUpdate => exact (arg0_changes fun _ => ariUpdate_changes _ _).mono (by decide)
  | ariInit => exact (ariInit_changes _).mono (by decide)
  | decompressBlzw => exact blzwSequence_changes.mono (by decide)
  | decompressBzp2 => exact (bzp2Sequence_changes _).mono (by decide)
  | decompressLhlb => exact (lhlbSequence_changes _).mono (by decide)
  | decompressMash => exact (mashSequence_changes _).mono (by decide)
  | decompressRake => exact (rakeSequence_changes _).mono (by decide)
  | decompressShri => exact (shriSequence_changes _).mono (by decide)
  | decompressSmpl => exact (smplSequence_changes _).mono (by decide)
  | decompressSqsh => exact (sqshSequence_changes _).mono (by decide)

/-- What the body of a command does not write, it leaves as it was. -/
theorem bodyOf_agree {i : Instr} {p : Part} (hp : p ≠ .phase) (hi : p ∉ writesOf i) (s : State) :
    p.Agree s (endState (bodyOf i s)) :=
  bodyOf_changes i s p (notMem_bodyWrites hp hi)

/-- Only INST.RESET writes the host's part. -/
theorem host_notMem_writesOf {i : Instr} (h : i ≠ .instReset) : .host ∉ writesOf i := by
  cases i with
  | instReset => exact absurd rfl h
  | _ => simp [writesOf]

/-- A body leaves FAULTED, RAW_LEN and what else is the host's. -/
theorem bodyOf_host (i : Instr) (s : State) : Part.host.Agree s (endState (bodyOf i s)) := by
  by_cases h : i = .instReset
  · subst h; rfl
  · exact bodyOf_agree (by decide) (host_notMem_writesOf h) s

/-! ## What a step can do -/

/-- An update of the host's side and of LENM changes nothing else. -/
theorem hostUpdate_changes {s : State} {chunkLen rawLen : Word} {arg0 arg1 arg2 arg3 : Option Word} {chunk lenm : Memory}
    {port : List HostMove} {hostData : Word} {freeReads : Nat} :
    Changes [.host, .lengths] s
      { s with
        chunkLen := chunkLen, rawLen := rawLen, arg0 := arg0, arg1 := arg1, arg2 := arg2, arg3 := arg3, chunk := chunk,
        lenm := lenm, port := port, hostData := hostData, freeReads := freeReads } := by
  intro p hp
  cases p with
  | host => simp at hp
  | lengths => simp at hp
  | _ => rfl

theorem hostWriteCsr_changes (n : Nat) (v : Word) (s : State) :
    Changes [.host, .lengths] s (hostWriteCsr n v s) ∧ (hostWriteCsr n v s).status = s.status := by
  rw [hostWriteCsr_eq]
  exact ⟨hostUpdate_changes, rfl⟩

theorem hostDeliver_changes (c : Config) (v : Option Word) (s : State) :
    Changes [.host, .lengths] s (hostDeliver c v s) ∧ (hostDeliver c v s).status = s.status := by
  cases v <;> exact ⟨hostUpdate_changes, rfl⟩

theorem hostDeliverByte_changes (c : Config) (v : Option Byte) (s : State) :
    Changes [.host, .lengths] s (hostDeliverByte c v s) ∧ (hostDeliverByte c v s).status = s.status := by
  cases v <;> exact ⟨hostUpdate_changes, rfl⟩

theorem insideSpace_next {a : Word} {size : Nat} {t u : State} (h : insideSpace a size t = .next u) : u = t := by
  rw [insideSpace_eq] at h
  split at h
  · exact (Host.Outcome.next.inj h).symm
  · cases h

/-- A host access changes the host's own part and LENM at most, and leaves STATUS. -/
theorem hostAccess_changes {c : Config} {m : HostMove} {s t : State} (h : hostAccess c m s = .next t) :
    Changes [.host, .lengths] s t ∧ t.status = s.status := by
  cases m with
  | command w => obtain rfl := Host.Outcome.next.inj h; exact ⟨Changes.refl _ _, rfl⟩
  | writeCsr n v => obtain rfl := Host.Outcome.next.inj h; exact hostWriteCsr_changes n v s
  | writeChunk a b =>
    obtain rfl := Host.Outcome.next.inj h
    exact ⟨hostUpdate_changes, rfl⟩
  | writeLenm a b =>
    obtain rfl := insideSpace_next h
    exact ⟨hostUpdate_changes, rfl⟩
  | readCsr n => obtain rfl := Host.Outcome.next.inj h; exact hostDeliver_changes _ _ s
  | readRaw a => obtain rfl := insideSpace_next h; exact hostDeliverByte_changes _ _ s
  | readChunk a => obtain rfl := insideSpace_next h; exact hostDeliverByte_changes _ _ s
  | readLenm a => obtain rfl := insideSpace_next h; exact hostDeliverByte_changes _ _ s

/-- A word that decodes selects a well-formed command (spec/30_encoding.md R107). -/
theorem wellFormed_of_decode {w : BitVec 32} {i : Instr} (h : decode w = .ok i) : i.wellFormed = true := by
  unfold decode at h
  repeat' split at h
  all_goals cases h
  assumption

/-- An invariant of the step, once and for all: what the host's moves keep, IllegalCommand keeps and every well-formed
command keeps, every step keeps. -/
theorem step_invariant {P : State → Prop}
    (host : ∀ s t, Changes [.host, .lengths] s t → t.status = s.status → P s → P t)
    (illegal : ∀ s, P s → P (illegalCommand s))
    (command : ∀ i s t, i.wellFormed = true → P s → exec i s = .next t → P t) :
    ∀ s t, P s → step s = .next t → P t := by
  intro s t hs h
  have taken : ∀ rest, P { s with port := rest } := fun rest =>
    host s _ hostUpdate_changes rfl hs
  by_cases hb : s.status.busy = true
  · simp [step, hb] at h
  have hb : s.status.busy = false := by simpa using hb
  cases hp : s.port with
  | nil => simp [step, hb, hp] at h; exact h ▸ hs
  | cons m rest =>
    by_cases hm : ∃ w, m = .command w
    · obtain ⟨w, rfl⟩ := hm
      rw [step_command hb hp] at h
      cases hd : decode w with
      | ok i => rw [issue_of_decode hd] at h; exact command i _ _ (wellFormed_of_decode hd) (taken rest) h
      | error r => simp only [issue, hd] at h; exact Host.Outcome.next.inj h ▸ illegal _ (taken rest)
    · rw [step_access hb hp fun w e => hm ⟨w, e⟩] at h
      obtain ⟨hc, hst⟩ := hostAccess_changes h
      exact host _ _ hc hst (taken rest)

/-- An invariant of every command: INST.RESET, error entry and the body of a command keep it. -/
theorem exec_invariant {P : State → Prop} (reset : ∀ s, P s → ∀ t, exec .instReset s = .next t → P t)
    (body : ∀ i s t, i.wellFormed = true → i ≠ .instReset → s.status.faulted = false → P s →
      bodyOf i (beginCommand s) = .ok () t → P (endCommand t))
    (raised : ∀ i s e t k c, i ≠ .instReset → s.status.faulted = false → P s →
      bodyOf i (beginCommand s) = .error e t → (k = .corruptData ↔ c ≠ none) → k ≠ .ok →
      P (errorEntry (usesAri i) k c t)) :
    ∀ i s t, i.wellFormed = true → P s → exec i s = .next t → P t := by
  intro i s t hi hs h
  by_cases hr : i = .instReset
  · subst hr; exact reset s hs t h
  rw [exec_eq_runCommand hr] at h
  rcases runCommand_cases (usesAri i) (bodyOf i) s with
    ⟨_, e⟩ | ⟨hf, ⟨u, hu, e⟩ | ⟨c, u, hu, e⟩ | ⟨u, hu, e⟩ | ⟨u, hu, e⟩⟩
  all_goals obtain rfl := Host.Outcome.next.inj (e.symm.trans h)
  · exact hs
  · exact body i s u hi hr hf hs hu
  · exact raised i s _ u _ _ hr hf hs hu (by simp) (by simp)
  · exact raised i s _ u _ _ hr hf hs hu (by simp) (by simp)
  · exact raised i s _ u _ _ hr hf hs hu (by simp) (by simp)

/-! ## The history -/

/-- A body that appends RAW[0 .. RAW_LEN−1] to the history where it ends, and leaves the history where it raises. -/
def PushesOnce (m : M Unit) : Prop :=
  ∀ s, match m s with
    | .ok _ t => ∃ buffer, memBytes t.raw 0 t.rawLen.toNat = some buffer ∧ t.hist = s.hist ++ [buffer]
    | .error _ t => t.hist = s.hist

theorem PushesOnce.ok {m : M Unit} (h : PushesOnce m) {s t : State} (e : m s = .ok () t) :
    ∃ buffer, memBytes t.raw 0 t.rawLen.toNat = some buffer ∧ t.hist = s.hist ++ [buffer] := by
  have := h s; rwa [e] at this

theorem PushesOnce.error {m : M Unit} (h : PushesOnce m) {s t : State} {r : Raise} (e : m s = .error r t) :
    t.hist = s.hist := by
  have := h s; rwa [e] at this

theorem PushesOnce.raise (c : Cause) : PushesOnce (raise c) := fun _ => rfl

theorem histPush_pushesOnce (c : Config) : PushesOnce (histPush c) := by
  intro s
  rw [histPush_eq]
  cases hb : memBytes s.raw 0 s.rawLen.toNat with
  | none => rfl
  | some buffer =>
    by_cases hc : passes (s.hist ++ [buffer]).length c.histMaxBuffers ||
        passes (s.hist ++ [buffer]).flatten.length c.histMaxBytes
    · simp only [if_pos hc]
    · simp only [if_neg hc]
      exact ⟨buffer, hb, rfl⟩

/-- The end of a DECOMPRESS command leaves RAW, RAW_LEN and the history. -/
theorem PushesOnce.macroEnd {m : M Unit} (h : PushesOnce m) : PushesOnce (m >>= fun _ => macroEnd) := by
  intro s
  have hs := h s
  rw [M.bind_apply]
  cases hm : m s <;> rw [hm] at hs <;> exact hs

/-- What comes before the push leaves the history. -/
theorem PushesOnce.after {α : Type} {ps : List Part} {x : M α} {f : α → M Unit} (hx : Keeps (Changes ps) x)
    (hp : .history ∉ ps) (hf : ∀ a, PushesOnce (f a)) : PushesOnce (x >>= f) := by
  intro s
  have same : s.hist = (endState (x s)).hist := hx s .history hp
  rw [M.bind_apply]
  cases hxs : x s with
  | error e t => rw [hxs] at same; exact same.symm
  | ok a t => rw [hxs] at same; rw [same]; exact hf a t

theorem shriSequence_pushesOnce (c : Config) : PushesOnce (shriSequence c) := by
  refine .after commonSetup_changes (by decide) fun _ => .after (shriVersion_changes c) (by decide) fun _ =>
    .after chunkBytes_changes (by decide) fun bytes => ?_
  cases c.shriHeader bytes with
  | none => exact .raise _
  | some h =>
    exact .after get_changes (by decide) fun _ => .after (fcurSet_changes _ _) (by decide) fun _ =>
      .after (bitsReset_changes _ _) (by decide) fun _ => .after fwrRoom_changes (by decide) fun _ =>
        .after get_changes (by decide) fun _ => .after (whileNotEof_changes (shriTurn_changes c) _) (by decide) fun _ =>
          (histPush_pushesOnce c).macroEnd

theorem bodyOf_pushesOnce {i : Instr} (h : i = .histPush ∨ i = .decompressShri) : PushesOnce (bodyOf i) := by
  rcases h with rfl | rfl
  · exact histPush_pushesOnce _
  · exact shriSequence_pushesOnce _

/-- Only HIST.PUSH and DECOMPRESS.SHRI write the history, but for INST.RESET. -/
theorem history_notMem_writesOf {i : Instr} (hr : i ≠ .instReset) (hp : i ≠ .histPush) (hs : i ≠ .decompressShri) :
    .history ∉ writesOf i := by
  cases i with
  | instReset => exact absurd rfl hr
  | histPush => exact absurd rfl hp
  | decompressShri => exact absurd rfl hs
  | _ => simp [writesOf]

/-- A body that raises leaves the history. -/
theorem bodyOf_error_hist {i : Instr} (hr : i ≠ .instReset) {s t : State} {e : Raise} (h : bodyOf i s = .error e t) :
    t.hist = s.hist := by
  by_cases hp : i = .histPush ∨ i = .decompressShri
  · exact (bodyOf_pushesOnce hp).error h
  · obtain ⟨hp, hs⟩ := not_or.1 hp
    have := bodyOf_agree (by decide) (history_notMem_writesOf hr hp hs) s
    rw [h] at this
    exact this.symm

end Sys2Proof.Machine

open Sys2Proof Sys2Proof.Machine

/-- Settles O15: a body that ends has pushed once or left the history, a body that raises has left it. -/
theorem historyGrows : Obligations.HistoryGrows := by
  intro i s t hr h
  rw [exec_eq_runCommand hr] at h
  rcases runCommand_cases (usesAri i) (bodyOf i) s with
    ⟨hf, e⟩ | ⟨hf, ⟨u, hu, e⟩ | ⟨c, u, hu, e⟩ | ⟨u, hu, e⟩ | ⟨u, hu, e⟩⟩
  all_goals obtain rfl := Host.Outcome.next.inj (e.symm.trans h)
  · exact ⟨fun ⟨hn, _⟩ => absurd (hf.symm.trans hn) (by decide), fun _ => rfl⟩
  · have hfu : u.status.faulted = false := by
      have := bodyOf_host i (beginCommand s)
      rw [hu] at this
      simp_all [Part.Agree]
    refine ⟨fun ⟨_, _, hp⟩ => ?_, ?_⟩
    · have := (bodyOf_pushesOnce hp).ok hu
      exact this
    rintro (hs | hs | ⟨hp, hq⟩)
    · exact absurd (hs.symm.trans hf) (by decide)
    · exact absurd (hs.symm.trans hfu) (by decide)
    · have := bodyOf_agree (by decide) (history_notMem_writesOf hr hp hq) (beginCommand s)
      rw [hu] at this
      exact this.symm
  all_goals
    refine ⟨fun ⟨_, hn, _⟩ => ?_, fun _ => ?_⟩
    · simp at hn
    · have := bodyOf_error_hist hr hu
      rw [errorEntry_hist, this, beginCommand_hist]

end

section
/-! SUPPORT. STATUS between commands: where a DECOMPRESS command ends, and when ARI comes to be present. -/

namespace Sys2Proof.Machine

/-! ## The state a body ends in -/

/-- Where the body ends without a raise, its last state has a property. -/
def Ends (Q : State → Prop) (m : M Unit) : Prop := ∀ s t, m s = .ok () t → Q t

section Ends

variable {Q : State → Prop}

theorem Ends.raise (c : Cause) : Ends Q (raise c) := fun _ _ h => nomatch h

theorem Ends.bind {α : Type} {x : M α} {f : α → M Unit} (hf : ∀ a, Ends Q (f a)) : Ends Q (x >>= f) := by
  intro s t h
  rw [M.bind_apply] at h
  split at h
  · exact hf _ _ _ h
  · cases h

theorem Ends.ite {p : Prop} [Decidable p] {x y : M Unit} (hx : p → Ends Q x) (hy : ¬ p → Ends Q y) :
    Ends Q (if p then x else y) := by
  split
  · exact hx (by assumption)
  · exact hy (by assumption)

/-- A DECOMPRESS command ends at its macroEnd. -/
theorem Ends.macroEnd {x : M Unit} {R : State → Prop} (hx : Ends R x)
    (h : ∀ t, R t → Q { t with
      status := { t.status with kind := .ok, cause := none }, phase := .idle, res0 := none, res1 := none }) :
    Ends Q (x >>= fun _ => macroEnd) := by
  intro s t ht
  rw [M.bind_apply] at ht
  split at ht
  · rename_i u hu
    obtain rfl := (EStateM.Result.ok.inj ht).2
    exact h u (hx s u hu)
  · cases ht

end Ends

/-- The forward writer has filled its span. -/
def FwrFull (t : State) : Prop := ∃ f, t.fwr = some f ∧ f.pos = f.stop

/-- The backward writer has filled its span. -/
def BwrFull (t : State) : Prop := ∃ f, t.bwr = some f ∧ f.pos = f.floor

/-- A loop ends where its condition fails, or where a turn ends it. -/
theorem turnLoop_ends {Q : State → Prop} {going turn : M Bool} (hg : ∀ s t, going s = .ok false t → Q t)
    (ht : ∀ s t, turn s = .ok false t → Q t) (turns : Nat) : Ends Q (turnLoop going turn turns) := by
  induction turns with
  | zero =>
    intro s t h
    rw [turnLoop_zero] at h
    split at h <;> cases h
    exact hg _ _ (by assumption)
  | succ turns ih =>
    intro s t h
    rw [turnLoop_succ] at h
    split at h
    · cases h
    · cases h; exact hg _ _ (by assumption)
    · split at h
      · cases h
      · cases h; exact ht _ _ (by assumption)
      · split at h
        · cases h
        · exact ih _ _ h

theorem fwrEof_true {s t : State} (h : fwrEof s = .ok true t) : t = s ∧ FwrFull s := by
  rw [fwrEof_eq] at h
  cases hf : s.fwr with
  | none => rw [hf] at h; cases h
  | some f =>
    rw [hf] at h
    obtain ⟨hb, rfl⟩ := EStateM.Result.ok.inj h
    exact ⟨rfl, f, hf, by simpa using hb⟩

theorem bwrEof_true {s t : State} (h : bwrEof s = .ok true t) : t = s ∧ BwrFull s := by
  rw [bwrEof_eq] at h
  cases hf : s.bwr with
  | none => rw [hf] at h; cases h
  | some f =>
    rw [hf] at h
    obtain ⟨hb, rfl⟩ := EStateM.Result.ok.inj h
    exact ⟨rfl, f, hf, by simpa using hb⟩

/-- A negated flag is false where the flag is true. -/
theorem not_flag_false {x : M Bool} {s t : State} (h : (do return !(← x)) s = .ok false t) : x s = .ok true t := by
  rw [M.bind_apply] at h
  cases hx : x s with
  | error e u => rw [hx] at h; cases h
  | ok b u => rw [hx] at h; cases b <;> cases h; rfl

/-- A turn answers false only in states with a property. -/
def FalseOnly (Q : State → Prop) (m : M Bool) : Prop := ∀ s t, m s = .ok false t → Q t

section FalseOnly

variable {Q : State → Prop}

theorem FalseOnly.pure_true : FalseOnly Q (pure true) := fun _ _ h => nomatch h

theorem FalseOnly.raise (c : Cause) : FalseOnly Q (raise c) := fun _ _ h => nomatch h

theorem FalseOnly.bind {α : Type} {x : M α} {f : α → M Bool} (hf : ∀ a, FalseOnly Q (f a)) : FalseOnly Q (x >>= f) := by
  intro s t h
  rw [M.bind_apply] at h
  split at h
  · exact hf _ _ _ h
  · cases h

theorem FalseOnly.ite {p : Prop} [Decidable p] {x y : M Bool} (hx : FalseOnly Q x) (hy : FalseOnly Q y) :
    FalseOnly Q (if p then x else y) := by
  split <;> assumption

end FalseOnly

theorem whileNotEof_ends {turn : M Bool} (ht : FalseOnly FwrFull turn) (turns : Nat) :
    Ends FwrFull (whileNotEof turn turns) :=
  turnLoop_ends (fun s t h => by
    obtain ⟨rfl, hfull⟩ := fwrEof_true (not_flag_false h)
    exact hfull) ht turns

/-- What a DECOMPRESS command leaves at its end (spec/43_decompress_common.md R243). -/
def MacroDone (t : State) : Prop := t.phase = .idle ∧ t.status.kind = .ok ∧ t.status.cause = none

theorem loop_macroEnd_ends {turn : M Bool} (ht : FalseOnly FwrFull turn) (turns : Nat) :
    Ends (fun t => MacroDone t ∧ FwrFull t) (whileNotEof turn turns >>= fun _ => macroEnd) :=
  (whileNotEof_ends ht turns).macroEnd fun _ ⟨f, hf, hp⟩ => ⟨⟨rfl, rfl, rfl⟩, f, hf, hp⟩

/-! ## The ends of the DECOMPRESS commands -/

theorem blzwSequence_ends : Ends (fun t => MacroDone t ∧ FwrFull t) blzwSequence :=
  .bind fun _ => .bind fun _ => .bind fun _ => .bind fun _ => .bind fun _ => .bind fun _ => .bind fun _ => .bind fun _ =>
    .bind fun _ => .bind fun _ => loop_macroEnd_ends (.bind fun _ => .pure_true) _

theorem bzp2Sequence_ends (c : Config) : Ends (fun t => MacroDone t ∧ FwrFull t) (bzp2Sequence c) := by
  refine .bind fun _ => .bind fun _ => .bind fun _ => .bind fun _ => .bind fun _ => .bind fun _ => .bind fun _ =>
    .ite (fun _ => .raise _) fun _ => .bind fun _ => .bind fun _ => .bind fun _ => ?_
  intro s t h
  rw [M.bind_apply] at h
  split at h
  · rename_i b u hb
    cases b with
    | false => cases h
    | true =>
      obtain ⟨rfl, f, hf, hp⟩ := fwrEof_true hb
      obtain rfl := (EStateM.Result.ok.inj h).2
      exact ⟨⟨rfl, rfl, rfl⟩, f, hf, hp⟩
  · cases h

theorem lhlbTurn_falseOnly (c : Config) : FalseOnly FwrFull (lhlbTurn c) := by
  refine .bind fun sym => .bind fun _ => .ite (.bind fun _ => .pure_true) (.ite (.raise _) ?_)
  split
  · exact .bind fun _ => .bind fun _ => .pure_true
  · exact .raise _

theorem lhlbSequence_ends (c : Config) : Ends (fun t => MacroDone t ∧ FwrFull t) (lhlbSequence c) :=
  .bind fun _ => .bind fun _ => .bind fun _ => .bind fun _ => loop_macroEnd_ends (lhlbTurn_falseOnly c) _

/-- The one turn that ends its loop is a turn of MASH, where the output is full (R365). -/
theorem mashMatchEnd_falseOnly (m : MashMatch) : FalseOnly FwrFull (mashMatchEnd m) := by
  intro s t h
  have copies : FalseOnly FwrFull (fwrRoom >>= fun room =>
      if min (mashCount m) room > 0 then fwrCopy m.distance (min (mashCount m) room) >>= fun _ => pure true
      else pure true) :=
    .bind fun _ => .ite (.bind fun _ => .pure_true) .pure_true
  unfold mashMatchEnd at h
  rw [M.bind_apply] at h
  split at h
  · rename_i eof u hu
    cases eof with
    | true =>
      obtain ⟨rfl, hfull⟩ := fwrEof_true hu
      by_cases hd : m.distance = 0
      · rw [if_pos hd] at h
        cases h
        exact hfull
      · rw [if_neg hd] at h
        exact copies _ _ h
    | false => exact FalseOnly.ite (.raise _) copies _ _ h
  · cases h

theorem mashSequence_ends (c : Config) : Ends (fun t => MacroDone t ∧ FwrFull t) (mashSequence c) :=
  .bind fun _ => .bind fun _ => .bind fun _ =>
    loop_macroEnd_ends (.bind fun _ => .bind fun _ => .bind fun m => mashMatchEnd_falseOnly m) _

theorem rakeTurn_falseOnly (c : Config) : FalseOnly BwrFull (rakeTurn c) :=
  .bind fun _ => .ite (.bind fun _ => .bind fun _ => .pure_true) (.bind fun _ => .bind fun _ => .bind fun _ => .pure_true)

theorem rakeSequence_ends (c : Config) : Ends (fun t => MacroDone t ∧ BwrFull t) (rakeSequence c) := by
  refine .bind fun _ => .bind fun bytes => ?_
  cases c.rakeHeader bytes with
  | none => exact .raise _
  | some h =>
    refine .bind fun _ => .bind fun _ => .bind fun _ => .bind fun room => Ends.macroEnd (R := BwrFull) ?_ ?_
    · refine turnLoop_ends (fun s t h => ?_) (rakeTurn_falseOnly c) _
      obtain ⟨rfl, hfull⟩ := bwrEof_true (not_flag_false h)
      exact hfull
    · exact fun _ ⟨f, hf, hp⟩ => ⟨⟨rfl, rfl, rfl⟩, f, hf, hp⟩

theorem shriSequence_ends (c : Config) : Ends MacroDone (shriSequence c) := by
  refine .bind fun _ => .bind fun _ => .bind fun bytes => ?_
  cases c.shriHeader bytes with
  | none => exact .raise _
  | some h =>
    exact .bind fun _ => .bind fun _ => .bind fun _ => .bind fun _ => .bind fun _ => .bind fun _ => .bind fun _ s t h => by
      obtain rfl := (EStateM.Result.ok.inj h).2
      exact ⟨rfl, rfl, rfl⟩

theorem smplSequence_ends (c : Config) : Ends (fun t => MacroDone t ∧ FwrFull t) (smplSequence c) := by
  refine .bind fun _ => .bind fun _ => .bind fun bytes => ?_
  cases c.smplHeader bytes with
  | none => exact .raise _
  | some f =>
    exact .bind fun _ => .bind fun _ => .bind fun _ => .bind fun _ => .bind fun _ => loop_macroEnd_ends
      (.bind fun _ => .bind fun _ => .bind fun _ => .bind fun _ => .bind fun _ => .pure_true) _

theorem sqshTurn_falseOnly (c : Config) : FalseOnly FwrFull (sqshTurn c) := by
  refine .bind fun _ => .bind fun _ => .bind fun x => ?_
  obtain ⟨q', mode⟩ := x
  refine .bind fun _ => ?_
  cases mode <;> exact .bind fun _ => .pure_true

theorem sqshSequence_ends (c : Config) : Ends (fun t => MacroDone t ∧ FwrFull t) (sqshSequence c) := by
  refine .bind fun _ => .bind fun _ => .bind fun _ => .bind fun _ => .bind fun _ => .bind fun bytes => ?_
  cases c.sqshHeader bytes with
  | none => exact .raise _
  | some f =>
    exact .bind fun _ => .bind fun _ => .bind fun _ => .bind fun _ => .bind fun _ =>
      loop_macroEnd_ends (sqshTurn_falseOnly c) _

/-- A DECOMPRESS command that ends without error leaves STATUS clean and the core idle (R243). -/
theorem bodyOf_macroDone {i : Instr} (h : i ∈ macros) : Ends MacroDone (bodyOf i) := by
  simp only [macros, statelessMacros, List.mem_cons, List.not_mem_nil, or_false] at h
  rcases h with rfl | rfl | rfl | rfl | rfl | rfl | rfl | rfl
  · exact shriSequence_ends _
  · exact fun s t h => (blzwSequence_ends s t h).1
  · exact fun s t h => (bzp2Sequence_ends _ s t h).1
  · exact fun s t h => (lhlbSequence_ends _ s t h).1
  · exact fun s t h => (mashSequence_ends _ s t h).1
  · exact fun s t h => (rakeSequence_ends _ s t h).1
  · exact fun s t h => (smplSequence_ends _ s t h).1
  · exact fun s t h => (sqshSequence_ends _ s t h).1

/-- A command that is no DECOMPRESS command writes neither SEQ.phase nor KIND and CAUSE. -/
theorem unit_notMem_bodyWrites {i : Instr} (hr : i ≠ .instReset) (h : i ∉ macros) :
    .phase ∉ bodyWrites i ∧ .code ∉ bodyWrites i := by
  cases i <;> simp_all [bodyWrites, writesOf, macros, statelessMacros]

/-! ## The presence of ARI -/

/-- SHRI_VALID is set, or neither ARI nor SHRI_VALID has changed. -/
def ValidOrSame (s t : State) : Prop :=
  t.status.shriValid = true ∨ t.ari = s.ari ∧ t.status.shriValid = s.status.shriValid

theorem validOrSame_composes : Composes ValidOrSame where
  refl s := .inr ⟨rfl, rfl⟩
  trans := by
    rintro s t u hst (hv | ⟨ha, hf⟩)
    · exact .inl hv
    · rcases hst with hv | ⟨ha', hf'⟩
      · exact .inl (hf.trans hv)
      · exact .inr ⟨ha.trans ha', hf.trans hf'⟩

/-- A body that writes neither ARI nor SHRI_VALID. -/
theorem validOrSame_of_changes {α : Type} {ps : List Part} {m : M α} (hm : Keeps (Changes ps) m) (ha : .arith ∉ ps)
    (hf : .shriFlag ∉ ps) : Keeps ValidOrSame m :=
  fun s => .inr ⟨(hm s .arith ha).symm, (hm s .shriFlag hf).symm⟩

/-- A body that reads ARI first and does not write SHRI_VALID: without SHRI_VALID it raises at once (R393). -/
theorem validOrSame_of_readAri {α : Type} {ps : List Part} {f : Ari → M α} (hm : Keeps (Changes ps) (readAri >>= f))
    (hf : .shriFlag ∉ ps) : Keeps ValidOrSame (readAri >>= f) := by
  intro s
  cases hv : s.status.shriValid with
  | true => exact .inl ((hm s .shriFlag hf).symm.trans hv)
  | false =>
    have : (readAri >>= f) s = .error (.corrupt .unset) s := by simp [readAri_eq, hv]
    rw [this]
    exact .inr ⟨rfl, rfl⟩

theorem ariInit_validOrSame (c : Config) : Keeps ValidOrSame (ariInit c) := fun _ => .inl rfl

theorem ariGetcode_validOrSame (c : Config) (n : Nat) : Keeps ValidOrSame (ariGetcode c n) :=
  validOrSame_of_readAri (ariGetcode_changes c n) (by decide)

theorem ariDecsym_validOrSame (c : Config) : Keeps ValidOrSame (ariDecsym c) :=
  validOrSame_of_readAri (ariDecsym_changes c) (by decide)

theorem ariMatch_validOrSame (c : Config) (sym : Fin 499) : Keeps ValidOrSame (ariMatch c sym) :=
  validOrSame_of_readAri (ariMatch_changes c sym) (by decide)

theorem ariUpdate_validOrSame (c : Config) (sym : Nat) : Keeps ValidOrSame (ariUpdate c sym) :=
  validOrSame_of_readAri (ariUpdate_changes c sym) (by decide)

theorem shriVersion_validOrSame (c : Config) : Keeps ValidOrSame (shriVersion c) :=
  have hR := validOrSame_composes
  .bind hR (.get hR) fun _ => .ite (.raise hR _) (.bind hR (validOrSame_of_changes (chunkByte_changes _) (by decide) (by decide))
    fun _ => .ite (ariInit_validOrSame c) (.ite (.ite (.pure hR _) (.raise hR _)) (.raise hR _)))

theorem shriTurn_validOrSame (c : Config) : Keeps ValidOrSame (shriTurn c) :=
  have hR := validOrSame_composes
  .bind hR (ariDecsym_validOrSame c) fun _ => .bind hR (ariUpdate_validOrSame c _) fun _ =>
    .ite (validOrSame_of_changes (bind_changes (fwrWrb_changes _) fun _ => pure_changes _) (by decide) (by decide))
      (.bind hR
        (.ite (.bind hR (ariGetcode_validOrSame c 16) fun _ => .bind hR (ariGetcode_validOrSame c 16) fun _ => .pure hR _)
          (.bind hR (ariMatch_validOrSame c _) fun _ => .pure hR _))
        fun _ => validOrSame_of_changes (bind_changes (fwrCopyh_changes _ _) fun _ => pure_changes _) (by decide) (by decide))

/-- A loop keeps what its condition and its turn keep. -/
theorem turnLoop_keeps {R : State → State → Prop} (hR : Composes R) {going turn : M Bool} (hg : Keeps R going)
    (ht : Keeps R turn) (turns : Nat) : Keeps R (turnLoop going turn turns) := by
  have turn_keeps : Keeps R (progressing turn) := .bind hR (.get hR) fun _ => .bind hR ht fun _ => .bind hR (.get hR) fun _ =>
    .ite (.throw hR _) (.pure hR _)
  induction turns with
  | zero => exact .bind hR hg fun _ => .ite (.throw hR _) (.pure hR _)
  | succ turns ih => exact .bind hR hg fun _ => .ite (.bind hR turn_keeps fun _ => .ite ih (.pure hR _)) (.pure hR _)

theorem shriSequence_validOrSame (c : Config) : Keeps ValidOrSame (shriSequence c) := by
  have hR := validOrSame_composes
  have quiet : ∀ {α : Type} {ps : List Part} {m : M α}, Keeps (Changes ps) m → .arith ∉ ps ∧ .shriFlag ∉ ps →
      Keeps ValidOrSame m := fun hm hp => validOrSame_of_changes hm hp.1 hp.2
  refine .bind hR (quiet commonSetup_changes (by decide)) fun _ => .bind hR (shriVersion_validOrSame c) fun _ =>
    .bind hR (quiet chunkBytes_changes (by decide)) fun bytes => ?_
  cases c.shriHeader bytes with
  | none => exact .raise hR _
  | some h =>
    exact .bind hR (.get hR) fun _ => .bind hR (quiet (fcurSet_changes _ _) (by decide)) fun _ =>
      .bind hR (quiet (bitsReset_changes _ _) (by decide)) fun _ => .bind hR (quiet fwrRoom_changes (by decide)) fun _ =>
      .bind hR (.get hR) fun _ =>
      .bind hR (turnLoop_keeps hR
        (quiet (bind_changes fwrEof_changes fun _ => pure_changes _) (by decide)) (shriTurn_validOrSame c) _) fun _ =>
      .bind hR (quiet (histPush_changes c) (by decide)) fun _ => quiet macroEnd_changes (by decide)

/-- Only the ARI commands and DECOMPRESS.SHRI write ARI or SHRI_VALID. -/
theorem arith_notMem_writesOf {i : Instr} (hr : i ≠ .instReset) (h : usesAri i = false) :
    .arith ∉ writesOf i ∧ .shriFlag ∉ writesOf i := by
  cases i <;> simp_all [writesOf, usesAri]

/-- No command makes ARI present without SHRI_VALID (spec/10_state.md R40). -/
theorem bodyOf_validOrSame {i : Instr} (hr : i ≠ .instReset) : Keeps ValidOrSame (bodyOf i) := by
  have hR := validOrSame_composes
  have res : ∀ v, Keeps ValidOrSame (setRes0 v) := fun v =>
    validOrSame_of_changes (setRes0_changes v) (by decide) (by decide)
  have arg : Keeps ValidOrSame readArg0 := validOrSame_of_changes readArg0_changes (by decide) (by decide)
  cases hu : usesAri i with
  | false =>
    obtain ⟨ha, hf⟩ := arith_notMem_writesOf hr hu
    exact validOrSame_of_changes (bodyOf_changes i) (notMem_bodyWrites (by decide) ha) (notMem_bodyWrites (by decide) hf)
  | true =>
    cases i with
    | ariScale => exact validOrSame_of_changes (bodyOf_changes .ariScale) (by decide) (by decide)
    | ariGetcode n => exact .bind hR (ariGetcode_validOrSame _ _) fun _ => res _
    | ariDecsym => exact .bind hR (ariDecsym_validOrSame _) fun _ => res _
    | ariUpdate => exact .bind hR arg fun _ => ariUpdate_validOrSame _ _
    | ariInit => exact ariInit_validOrSame _
    | decompressShri => exact shriSequence_validOrSame _
    | _ => cases hu

/-! ## The form of STATUS -/

/-- A body that ends has not FAULTED the core. -/
theorem bodyOf_faulted {i : Instr} {s t : State} (h : bodyOf i s = .ok () t) : t.status.faulted = s.status.faulted := by
  have := bodyOf_host i s
  rw [h, endState_ok] at this
  simp_all [Part.Agree]

/-- What the body of a command that ends leaves in SEQ.phase, KIND and CAUSE: a DECOMPRESS command sets them, and no
other command writes them. -/
theorem bodyOf_code {i : Instr} (hr : i ≠ .instReset) {s t : State} (h : bodyOf i s = .ok () t) :
    MacroDone t ∨ t.phase = s.phase ∧ t.status.kind = s.status.kind ∧ t.status.cause = s.status.cause := by
  by_cases hm : i ∈ macros
  · exact .inl (bodyOf_macroDone hm s t h)
  · obtain ⟨hp, hc⟩ := unit_notMem_bodyWrites hr hm
    have phase := bodyOf_changes i s .phase hp
    have code := bodyOf_changes i s .code hc
    rw [h, endState_ok] at phase code
    simp only [Part.Agree, Prod.mk.injEq] at phase code
    exact .inr ⟨phase.symm, code.1.symm, code.2.symm⟩

theorem statusForm_illegalCommand {s : State} (h : s.StatusForm) : (illegalCommand s).StatusForm := by
  unfold illegalCommand
  split
  · exact h
  · obtain ⟨_, _, _, _, hv⟩ := h
    exact ⟨rfl, rfl, by simp [enterFaulted], by simp [enterFaulted], hv⟩

theorem statusForm_endCommand {i : Instr} (hr : i ≠ .instReset) {s t : State} (hf : s.status.faulted = false)
    (hs : s.StatusForm) (h : bodyOf i (beginCommand s) = .ok () t) : (endCommand t).StatusForm := by
  obtain ⟨_, hp, hk, hc, hv⟩ := hs
  have hft : t.status.faulted = false := (bodyOf_faulted h).trans hf
  have hks : s.status.kind = .ok := hk.2 hf
  have done : MacroDone t := by
    rcases bodyOf_code hr h with done | ⟨phase, kind, cause⟩
    · exact done
    · exact ⟨phase.trans hp, kind.trans hks, cause.trans (hc.2 (by simp [hks]))⟩
  obtain ⟨phase, kind, cause⟩ := done
  refine ⟨rfl, phase, by simp [kind, hft], by simp [kind, cause], fun hvt => ?_⟩
  rcases (bodyOf_validOrSame hr).ok h with valid | ⟨ari, flag⟩
  · exact absurd (hvt.symm.trans valid) (by decide)
  · exact ari.trans (hv (flag.symm.trans hvt))

theorem statusForm_errorEntry {i : Instr} (hr : i ≠ .instReset) {s t : State} {e : Raise} {k : Kind} {c : Option Cause}
    (hs : s.StatusForm) (h : bodyOf i (beginCommand s) = .error e t) (hk : k ≠ .ok) (hc : k = .corruptData ↔ c ≠ none) :
    (errorEntry (usesAri i) k c t).StatusForm := by
  obtain ⟨_, _, _, _, hv⟩ := hs
  refine ⟨by simp, by simp, by simp [hk], ?_, fun hvt => ?_⟩
  · simp only [errorEntry_cause, errorEntry_kind, Ne, hc, not_not]
  · rw [errorEntry_shriValid] at hvt
    rw [errorEntry_ari]
    rcases (bodyOf_validOrSame hr).error h with valid | ⟨ari, flag⟩
    · exact absurd (hvt.symm.trans valid) (by decide)
    · cases usesAri i with
      | true => rfl
      | false => exact ari.trans (hv (flag.symm.trans hvt))

end Sys2Proof.Machine

open Sys2Proof Sys2Proof.Machine

/-- Settles O19. -/
theorem stepKeepsStatusForm : Obligations.StepKeepsStatusForm := by
  refine step_invariant ?_ (fun s => statusForm_illegalCommand) (exec_invariant ?_ ?_ ?_)
  · intro s t hc hst hs
    have hp : s.phase = t.phase := hc .phase (by decide)
    have ha : s.ari = t.ari := hc .arith (by decide)
    rw [State.StatusForm, hst, ← hp, ← ha]
    exact hs
  · intro s _ t h
    obtain rfl := Host.Outcome.next.inj h
    exact reset_statusForm
  · intro i s t _ hr hf hs h
    exact statusForm_endCommand hr hf hs h
  · intro i s e t k c hr _ hs h hc hk
    exact statusForm_errorEntry hr hs h hk hc
end

section
/-! SUPPORT. Bodies run from two related states. `Sim E F m n` says that `m` and `n`, run from states related by `E`, answer
the same value in states related by `F`, or raise the same error. With `E` the equality of states that meet an invariant it
says that the invariant is kept; with `E` the agreement of two states in some of their parts it says that the other parts do
not matter. What a relation must allow is said operation by operation (`ReaderOps`, `WriterOps` and so on), so that one walk
through the sequencers serves every relation. -/

namespace Sys2Proof.Machine

/-! ## Two runs -/

/-- Two results are alike: the same value and related states, or the same error. -/
inductive Alike {α : Type} (F : State → State → Prop) :
    EStateM.Result Raise State α → EStateM.Result Raise State α → Prop where
  | ok {a : α} {t u : State} (h : F t u) : Alike F (.ok a t) (.ok a u)
  | error {e : Raise} {t u : State} : Alike F (.error e t) (.error e u)

/-- Runs of two bodies from related states end alike. -/
def Sim {α : Type} (E F : State → State → Prop) (m n : M α) : Prop := ∀ s s', E s s' → Alike F (m s) (n s')

/-- Runs of a body from related states end alike, in related states. -/
abbrev Stays {α : Type} (E : State → State → Prop) (m : M α) : Prop := Sim E E m m

section Rules

variable {α β : Type} {E F G : State → State → Prop}

theorem Alike.mono {r r' : EStateM.Result Raise State α} (h : Alike E r r') (hEF : ∀ s s', E s s' → F s s') :
    Alike F r r' := by
  cases h with
  | ok h => exact .ok (hEF _ _ h)
  | error => exact .error

theorem Sim.pre {m n : M α} (h : ∀ s s', E s s' → F s s') (hm : Sim F G m n) : Sim E G m n :=
  fun s s' hs => hm s s' (h s s' hs)

theorem Sim.post {m n : M α} (hm : Sim E F m n) (h : ∀ s s', F s s' → G s s') : Sim E G m n :=
  fun s s' hs => (hm s s' hs).mono h

theorem Sim.pure (a : α) : Stays E (pure a) := fun _ _ h => .ok h

theorem Sim.throw (e : Raise) : Sim E F (throw e : M α) (throw e) := fun _ _ _ => .error

theorem Sim.raise (c : Cause) : Sim E F (raise c : M α) (raise c) := fun _ _ _ => .error

theorem Sim.needed (o : Option α) : Stays E (need o) := by
  cases o with
  | none => exact Sim.raise _
  | some a => exact Sim.pure a

/-- A value that is the same in both runs. -/
theorem Sim.needed_eq {o o' : Option α} (h : o = o') : Sim E E (need o) (need o') := h ▸ Sim.needed o

/-- The second body may use what the first has answered. -/
theorem Sim.bind_ok {x y : M α} {f g : α → M β} (hx : Sim E F x y)
    (hf : ∀ a s t, x s = .ok a t → Sim F G (f a) (g a)) : Sim E G (x >>= f) (y >>= g) := by
  intro s s' h
  have hxy := hx s s' h
  rw [M.bind_apply, M.bind_apply]
  cases hxs : x s with
  | ok a t =>
    rw [hxs] at hxy
    cases hys : y s' <;> rw [hys] at hxy <;> cases hxy
    exact hf a s t hxs _ _ (by assumption)
  | error e t =>
    rw [hxs] at hxy
    cases hys : y s' <;> rw [hys] at hxy <;> cases hxy
    exact .error

theorem Sim.bind {x y : M α} {f g : α → M β} (hx : Sim E F x y) (hf : ∀ a, Sim F G (f a) (g a)) :
    Sim E G (x >>= f) (y >>= g) :=
  hx.bind_ok fun a _ _ _ => hf a

theorem Sim.ite {p : Prop} [Decidable p] {x y x' y' : M α} (hx : Sim E F x x') (hy : Sim E F y y') :
    Sim E F (if p then x else y) (if p then x' else y') := by
  split <;> assumption

/-- Both runs take the same branch, whose condition may be used. -/
theorem Sim.branch {p : Prop} [Decidable p] {x y x' y' : M α} (hx : p → Sim E F x x') (hy : ¬ p → Sim E F y y') :
    Sim E F (if p then x else y) (if p then x' else y') := by
  split
  · exact hx (by assumption)
  · exact hy (by assumption)

theorem Sim.state {f g : State → M α} (h : ∀ s s', E s s' → Sim E F (f s) (g s')) :
    Sim E F (get >>= f) (get >>= g) :=
  fun s s' hs => h s s' hs s s' hs

theorem Sim.put {t u : State} (h : F t u) : Sim E F (set t : M PUnit) (set u) := fun _ _ _ => .ok h

theorem Sim.update {f g : State → State} (h : ∀ s s', E s s' → F (f s) (g s')) :
    Sim E F (modify f : M PUnit) (modify g) :=
  fun s s' hs => .ok (h s s' hs)

/-- A register is read in both runs alike. -/
theorem Sim.register {r : State → Option α} {k : α → M β} (hr : ∀ s s', E s s' → r s = r s')
    (hk : ∀ a, Sim E F (k a) (k a)) :
    Sim E F (get >>= fun s => need (r s) >>= k) (get >>= fun s => need (r s) >>= k) :=
  Sim.state fun s s' h => by rw [hr s s' h]; exact (Sim.needed _).bind hk

/-- A number of the state is read in both runs alike. -/
theorem Sim.number {r : State → α} {k : α → M β} (hr : ∀ s s', E s s' → r s = r s') (hk : ∀ a, Sim E F (k a) (k a)) :
    Sim E F (get >>= fun s => k (r s)) (get >>= fun s => k (r s)) :=
  Sim.state fun s s' h => by rw [hr s s' h]; exact hk _

end Rules

/-- A part of the state that the relation lets both runs read and write alike. -/
structure Owns {β : Type} (E : State → State → Prop) (read : State → β) (write : β → State → State) : Prop where
  read : ∀ {s s'}, E s s' → read s = read s'
  write : ∀ {s s'} v, E s s' → E (write v s) (write v s')

theorem Owns.update {β : Type} {E : State → State → Prop} {read : State → β} {write : β → State → State}
    (h : Owns E read write) (g : β → β) : Stays E (modify fun s => write (g (read s)) s) :=
  Sim.update fun s s' hs => by rw [h.read hs]; exact h.write _ hs

/-- The relation lets both runs use the LZW unit alike. -/
abbrev OwnsLzw (E : State → State → Prop) : Prop := Owns E State.lzw fun l s => { s with lzw := l }

/-- The relation lets both runs use the adaptive tracker alike. -/
abbrev OwnsDhuf (E : State → State → Prop) : Prop := Owns E State.dhuf fun d s => { s with dhuf := d }

/-- The relation lets both runs use the SMPL accumulator alike. -/
abbrev OwnsSmplAcc (E : State → State → Prop) : Prop := Owns E State.smplAcc fun v s => { s with smplAcc := v }

/-- The relation lets both runs use the SQSH mode machine alike. -/
abbrev OwnsSqshQ (E : State → State → Prop) : Prop := Owns E State.sqshQ fun v s => { s with sqshQ := v }

/-- The relation lets both runs use the SQSH sample alike. -/
abbrev OwnsSqshSample (E : State → State → Prop) : Prop := Owns E State.sqshSample fun v s => { s with sqshSample := v }

/-! ## What a relation allows -/

/-- The relation lets both runs read the stream alike. -/
structure ReaderOps (E : State → State → Prop) : Prop where
  chunk : ∀ {s s'}, E s s' → s.chunk = s'.chunk
  chunkLen : ∀ {s s'}, E s s' → s.chunkLen = s'.chunkLen
  fcur : ∀ {s s'}, E s s' → s.fcur = s'.fcur
  bitsCnt : ∀ {s s'}, E s s' → s.bitsCnt = s'.bitsCnt
  fcurSet : ∀ start stop, Stays E (fcurSet start stop)
  fcurRdb : Stays E fcurRdb
  fcurConsume : ∀ n, Stays E (fcurConsume n)
  takeBits : ∀ n, Stays E (takeBits n)
  bitsReset : ∀ seed n, n ≤ 32 → Stays E (bitsReset seed n)

/-- The byte that was written last is the same in both runs. -/
def LastAlike (s s' : State) : Prop :=
  ∀ f, s.fwr = some f → storeRead s.raw (f.pos.toNat - 1) = storeRead s'.raw (f.pos.toNat - 1)

/-- The relation lets both runs write the output alike, and read what has been written. -/
structure WriterOps (E : State → State → Prop) : Prop where
  fwr : ∀ {s s'}, E s s' → s.fwr = s'.fwr
  written : ∀ {s s' f}, E s s' → s.fwr = some f →
    ∀ a, memBytes s.raw a (f.pos.toNat - a) = memBytes s'.raw a (f.pos.toNat - a)
  fwrWrb : ∀ b, Stays E (fwrWrb b)
  fwrCopy : ∀ d c, Sim E (fun s s' => E s s' ∧ LastAlike s s') (fwrCopy d c) (fwrCopy d c)

/-- The relation lets both runs use the backward cursor and writer alike. -/
structure BackwardOps (E : State → State → Prop) : Prop where
  bwr : ∀ {s s'}, E s s' → s.bwr = s'.bwr
  bcurSet : ∀ floor start, Stays E (bcurSet floor start)
  bcurRdb : Stays E bcurRdb
  bwrWrb : ∀ b, Stays E (bwrWrb b)
  bwrCopy : ∀ d c, Stays E (bwrCopy d c)

/-- The relation lets both runs use the known slots alike. -/
structure TableOps (known : Fin 16 → Prop) (E : State → State → Prop) : Prop where
  slot : ∀ {t s s'}, known t → E s s' → s.ht[t] = s'.ht[t]
  setSlot : ∀ t es, LawfulTable es → Stays E (setSlot t es)
  hufInsert : ∀ {t}, known t → ∀ c l code sym, Stays E (hufInsert c t l code sym)

/-- A family of relations lets both runs use LENM: in the n-th one its first n bytes are the same in both. -/
structure LensOps (E : Nat → State → State → Prop) : Prop where
  forget : ∀ {n s s'}, E n s s' → E 0 s s'
  writeLenm : ∀ i b, Sim (E i) (E (i + 1)) (writeLenm i b) (writeLenm i b)
  hufBuild : ∀ c t n, Stays (E n) (hufBuild c t n)

/-- The relation lets both runs use the move-to-front lists alike. -/
structure ListOps (E : State → State → Prop) : Prop where
  mtf1 : ∀ {s s'}, E s s' → s.mtf1 = s'.mtf1
  mtfInit : ∀ l n, Stays E (mtfInit l n)
  mtfAccess : ∀ l j, Stays E (mtfAccess l j)

/-- The selectors of the block name known slots. -/
def KnownSelectors (known : Fin 16 → Prop) (bz : Bz) : Prop :=
  ∀ sels, bz.selectors = some sels → ∀ g ∈ sels, known (groupSlot g)

/-- The relation lets both runs use the block pipeline alike, whose selectors name known slots. -/
structure BlockOps (known : Fin 16 → Prop) (E : State → State → Prop) : Prop where
  bz : ∀ {s s'}, E s s' → s.bz = s'.bz
  selectors : ∀ {s s'}, E s s' → KnownSelectors known s.bz
  write : ∀ {s s'} b, KnownSelectors known b → E s s' → E { s with bz := b } { s' with bz := b }

/-- Whether a turn has made progress is the same in both runs. -/
def ProgressAlike (E : State → State → Prop) : Prop :=
  ∀ s s' t t', E s s' → E t t' → (workLeft s ≤ workLeft t ↔ workLeft s' ≤ workLeft t')

/-! ## Reading the stream -/

section Reader

variable {E : State → State → Prop}

theorem ReaderOps.unreadBits (r : ReaderOps E) {s s' : State} (h : E s s') : unreadBits s = unreadBits s' := by
  rw [Sys2Proof.Machine.unreadBits, Sys2Proof.Machine.unreadBits, r.bitsCnt h, r.fcur h]

theorem chunkByte_stays (r : ReaderOps E) (a : Nat) : Stays E (chunkByte a) :=
  Sim.state fun s s' h => by rw [r.chunk h]; exact Sim.needed _

theorem chunkBytes_stays (r : ReaderOps E) : Stays E chunkBytes :=
  Sim.state fun s s' h => by rw [r.chunk h, r.chunkLen h]; exact Sim.needed _

theorem refill_stays (r : ReaderOps E) (src : BitSource) : Stays E (refill src) := by
  cases src with
  | group8 => exact r.fcurRdb.bind fun b => r.bitsReset _ 8 (by decide)
  | group32 =>
    exact (r.fcurConsume 4).bind fun o => (chunkByte_stays r _).bind fun _ => (chunkByte_stays r _).bind fun _ =>
      (chunkByte_stays r _).bind fun _ => (chunkByte_stays r _).bind fun _ => r.bitsReset _ 32 (by decide)

theorem refillIfEmpty_stays (r : ReaderOps E) (src : BitSource) : Stays E (refillIfEmpty src) :=
  Sim.register (fun _ _ => r.bitsCnt) fun _ => (refill_stays r src).ite (.pure _)

theorem readBitsLoop_stays (r : ReaderOps E) (src : BitSource) (turns n ret : Nat) :
    Stays E (readBitsLoop src turns n ret) := by
  induction turns generalizing n ret with
  | zero => exact .pure _
  | succ turns ih =>
    exact (Sim.pure _).ite ((refillIfEmpty_stays r src).bind fun _ => (r.takeBits n).bind fun x => ih _ _)

theorem readBits_stays (r : ReaderOps E) (src : BitSource) (n : Nat) : Stays E (readBits src n) :=
  (Sim.raise _).ite (readBitsLoop_stays r src n n 0)

theorem rd_stays (r : ReaderOps E) (n : Nat) : Stays E (rd n) := readBits_stays r _ n

theorem runField_stays {α : Type} (r : ReaderOps E) (t : BitTree α) : Stays E (runField t) := by
  induction t with
  | leaf v => exact .pure v
  | node z o hz ho => exact (rd_stays r 1).bind fun _ => hz.ite ho

theorem walk_stays (r : ReaderOps E) (src : BitSource) (es : List HufEntry) (left l c : Nat) :
    Stays E (walk src es left l c) := by
  induction left generalizing l c with
  | zero => exact .raise _
  | succ left ih =>
    refine (readBits_stays r src 1).bind fun b => ?_
    show Stays E (match es.find? (fun e => e.len == l + 1 && e.code == c * 2 + b) with | some e => pure e.sym | none => _)
    cases es.find? (fun e => e.len == l + 1 && e.code == c * 2 + b) with
    | some e => exact .pure _
    | none => exact (ih _ _).ite (.raise _)

theorem decodeFrom_stays (r : ReaderOps E) (src : BitSource) (es : List HufEntry) : Stays E (decodeFrom src es) :=
  (Sim.raise _).ite (walk_stays r src es _ _ _)

theorem hufDecode_stays {known : Fin 16 → Prop} (r : ReaderOps E) (t : TableOps known E) {slot : Fin 16}
    (hk : known slot) (src : BitSource) : Stays E (hufDecode slot src) :=
  Sim.bind (Sim.state fun s s' h => by rw [t.slot hk h]; exact Sim.needed _) fun es => decodeFrom_stays r src es

end Reader

/-! ## Loops -/

theorem progressing_stays {E : State → State → Prop} (hp : ProgressAlike E) {turn : M Bool} (ht : Stays E turn) :
    Stays E (progressing turn) := by
  intro s s' h
  have hts := ht s s' h
  rw [progressing_eq, progressing_eq]
  generalize turn s = x, turn s' = x' at hts ⊢
  cases hts with
  | error => exact .error
  | @ok goesOn t u hE =>
    cases goesOn with
    | false => exact .ok hE
    | true =>
      have hw := hp s s' t u h hE
      by_cases hle : workLeft s ≤ workLeft t
      · simp only [if_pos hle, if_pos (hw.1 hle)]; exact .error
      · simp only [if_neg hle, if_neg (mt hw.2 hle)]; exact .ok hE

theorem turnLoop_stays {E : State → State → Prop} (hp : ProgressAlike E) {going turn : M Bool} (hg : Stays E going)
    (ht : Stays E turn) (turns : Nat) : Stays E (turnLoop going turn turns) := by
  induction turns with
  | zero => exact hg.bind fun _ => (Sim.throw _).ite (.pure _)
  | succ turns ih =>
    exact hg.bind fun _ => Sim.ite ((progressing_stays hp ht).bind fun _ => ih.ite (.pure _)) (.pure _)

/-! ## The forward writer -/

section Writer

variable {E : State → State → Prop}

theorem fwrEof_stays (w : WriterOps E) : Stays E fwrEof := Sim.register (fun _ _ => w.fwr) fun _ => .pure _

theorem fwrRoom_stays (w : WriterOps E) : Stays E fwrRoom := Sim.register (fun _ _ => w.fwr) fun _ => .pure _

theorem fwrCopy_stays (w : WriterOps E) (d c : Nat) : Stays E (fwrCopy d c) := (w.fwrCopy d c).post fun _ _ h => h.1

theorem whileNotEof_stays (w : WriterOps E) (hp : ProgressAlike E) {turn : M Bool} (ht : Stays E turn) (turns : Nat) :
    Stays E (whileNotEof turn turns) :=
  turnLoop_stays hp ((fwrEof_stays w).bind fun _ => .pure _) ht turns

end Writer

end Sys2Proof.Machine
end

section
/-! SUPPORT. The walk through the units and the sequencers: a body stays in every relation that allows the operations it is
made of. -/

namespace Sys2Proof.Machine

section Units

variable {E : State → State → Prop}

/-! ## The LZW unit -/

theorem lzwSetup_stays (z : OwnsLzw E) (m n : Nat) : Stays E (lzwSetup m n) :=
  (Sim.raise _).ite ((Sim.raise _).ite (z.update fun l => { l with
    maxBits := some m, stackLength := some (toWord n), codeBits := none, freeIndex := none, prevCode := none,
    newCode := none, prefixes := [], suffixes := [] }))

theorem lzwPush_stays (z : OwnsLzw E) (b : Byte) : Stays E (lzwPush b) :=
  Sim.state fun s s' h => by rw [z.read h]; exact (Sim.needed _).bind fun _ => .put (z.write _ h)

theorem emitWalk_stays (z : OwnsLzw E) (free room c : Nat) : Stays E (emitWalk free room c) := by
  induction room generalizing c with
  | zero => exact (Sim.pure _).ite ((Sim.raise _).ite (.raise _))
  | succ room ih =>
    exact (Sim.pure _).ite ((Sim.raise _).ite (Sim.register (fun _ _ h => by rw [z.read h]) fun _ =>
      (lzwPush_stays z _).bind fun _ => Sim.register (fun _ _ h => by rw [z.read h]) fun _ => ih _))

theorem emitPops_stays (z : OwnsLzw E) (w : WriterOps E) (p : Nat) : Stays E (emitPops p) := by
  induction p with
  | zero => exact .pure _
  | succ p ih =>
    exact (z.update fun l => { l with stackPos := some p }).bind fun _ =>
      Sim.register (fun _ _ h => by rw [z.read h]) fun _ => (w.fwrWrb _).bind fun _ => ih

theorem emitChain_stays (z : OwnsLzw E) (code : Nat) : Stays E (emitChain code) :=
  (Sim.pure _).ite (Sim.register (fun _ _ h => by rw [z.read h]) fun _ => (Sim.raise _).ite
    (Sim.register (fun _ _ h => by rw [z.read h]) fun _ => emitWalk_stays z _ _ _))

theorem lzwEmit_stays (z : OwnsLzw E) (w : WriterOps E) (code : Nat) : Stays E (lzwEmit code) :=
  (z.update fun l => { l with stackPos := some 0 }).bind fun _ => (emitChain_stays z code).bind fun c =>
    (Sim.raise _).ite ((lzwPush_stays z _).bind fun _ =>
      (z.update fun l => { l with newCode := some (toWord c) }).bind fun _ =>
        Sim.register (fun _ _ h => by rw [z.read h]) fun _ => emitPops_stays z w _)

theorem lzwRestart_stays (z : OwnsLzw E) (r : ReaderOps E) (w : WriterOps E) : Stays E lzwRestart :=
  Sim.register (fun _ _ h => by rw [z.read h]) fun _ =>
    (z.update fun l => { l with codeBits := some 9, freeIndex := some lzwFirstFree }).bind fun _ =>
      (rd_stays r 9).bind fun c => (Sim.raise _).ite ((Sim.raise _).ite
        ((z.update fun l => { l with prevCode := some (toWord c) }).bind fun _ => lzwEmit_stays z w _))

theorem lzwInsert_stays (z : OwnsLzw E) : Stays E lzwInsert :=
  Sim.state fun s s' h => by
    rw [z.read h]
    exact (Sim.needed _).bind fun _ => (Sim.needed _).bind fun _ => Sim.ite
      ((Sim.needed _).bind fun _ => (Sim.needed _).bind fun _ => .put (z.write _ h)) (.pure _)

theorem lzwOutput_stays (z : OwnsLzw E) (w : WriterOps E) (code free : Nat) : Stays E (lzwOutput code free) :=
  Sim.ite (Sim.register (fun _ _ h => by rw [z.read h]) fun _ => Sim.register (fun _ _ h => by rw [z.read h]) fun _ =>
    (lzwEmit_stays z w _).bind fun _ => w.fwrWrb _) (lzwEmit_stays z w _)

theorem lzwStep_stays (z : OwnsLzw E) (r : ReaderOps E) (w : WriterOps E) : Stays E lzwStep :=
  Sim.register (fun _ _ h => by rw [z.read h]) fun n => (rd_stays r _).bind fun code =>
    (Sim.raise _).ite (Sim.ite ((lzwRestart_stays z r w).bind fun _ => .pure _)
      (Sim.ite ((z.update fun l => { l with codeBits := some (n + 1) }).bind fun _ => .pure _)
        (Sim.register (fun _ _ h => by rw [z.read h]) fun _ => (Sim.raise _).ite
          ((lzwOutput_stays z w _ _).bind fun _ => (lzwInsert_stays z).bind fun _ =>
            (z.update fun l => { l with prevCode := some (toWord code) }).bind fun _ => .pure _))))

/-! ## The adaptive tracker -/

theorem dhufInit_stays (d : OwnsDhuf E) (c : Config) (n : Word) : Stays E (dhufInit c n) :=
  (Sim.raise _).ite (d.update fun _ => some { nsym := n, tree := some (c.dhufInit n.toNat) })

theorem readDhuf_stays (d : OwnsDhuf E) : Stays E readDhuf :=
  Sim.register (fun _ _ => d.read) fun _ => (Sim.raise _).ite ((Sim.needed _).bind fun _ => .pure _)

theorem dhufDecode_stays (d : OwnsDhuf E) (r : ReaderOps E) (c : Config) (src : BitSource) : Stays E (dhufDecode c src) :=
  (readDhuf_stays d).bind fun _ => decodeFrom_stays r src _

theorem dhufUpdate_stays (d : OwnsDhuf E) (c : Config) (sym : Nat) : Stays E (dhufUpdate c sym) :=
  (readDhuf_stays d).bind fun x => (Sim.raise _).ite
    (d.update fun _ => some { nsym := x.1, tree := some (c.dhufUpdate x.2 sym) })

theorem dhufMaxF_stays (d : OwnsDhuf E) (c : Config) : Stays E (dhufMaxF c) := (readDhuf_stays d).bind fun _ => .pure _

end Units

/-! ## The block pipeline -/

section Block

variable {E : State → State → Prop} {known : Fin 16 → Prop}

/-- An update of the block pipeline. -/
theorem BlockOps.update (b : BlockOps known E) (g : Bz → Bz)
    (hg : ∀ z, KnownSelectors known z → KnownSelectors known (g z)) :
    Stays E (modify fun s => { s with bz := g s.bz }) :=
  Sim.update fun s s' h => by
    have hk := b.selectors h
    rw [b.bz h] at hk ⊢
    exact b.write _ (hg _ hk) h

theorem selectorTable_lawful : LawfulTable selectorTable := by
  refine ⟨?_, ?_⟩ <;> simp [prefixFree, selectorTable]

theorem deltaTable_lawful : LawfulTable deltaTable := by
  refine ⟨?_, ?_⟩ <;> simp [prefixFree, deltaTable]

theorem bzStart_stays (b : BlockOps known E) (t : TableOps known E) (n : Nat) : Stays E (bzStart n) :=
  (Sim.raise _).ite
    ((b.update (fun z => { z with blockSize := some n, crc := some 0#32, blk := none }) fun _ h => h).bind fun _ =>
      (t.setSlot _ _ selectorTable_lawful).bind fun _ => t.setSlot _ _ deltaTable_lawful)

theorem readDetails_stays (r : ReaderOps E) (used left : Nat) : Stays E (readDetails used left) := by
  induction left with
  | zero => exact .pure _
  | succ left ih => exact Sim.ite ((rd_stays r 16).bind fun _ => ih.bind fun _ => .pure _) ih

theorem readSymbolMap_stays (r : ReaderOps E) : Stays E readSymbolMap :=
  (rd_stays r 16).bind fun _ => readDetails_stays r _ _

theorem readSelectors_stays (r : ReaderOps E) (t : TableOps known E) (m : ListOps E) (hk : known selectorSlot)
    (nGroups left : Nat) : Stays E (readSelectors nGroups left) := by
  induction left with
  | zero => exact .pure _
  | succ left ih =>
    exact (hufDecode_stays r t hk _).bind fun _ => (m.mtfAccess _ _).bind fun _ => (Sim.raise _).ite
      (ih.bind fun _ => .pure _)

/-- The selectors that are read are below the number of groups (R300). -/
theorem readSelectors_lt {nGroups left : Nat} {s t : State} {sels : List Nat}
    (h : readSelectors nGroups left s = .ok sels t) : ∀ g ∈ sels, g < nGroups := by
  induction left generalizing s t sels with
  | zero => cases h; simp
  | succ left ih =>
    rw [readSelectors, M.bind_apply] at h
    split at h
    · rw [M.bind_apply] at h
      split at h
      · rename_i e u he
        by_cases hge : e ≥ nGroups
        · rw [if_pos hge] at h; cases h
        · rw [if_neg hge, M.bind_apply] at h
          split at h
          · cases h
            rename_i hmore
            exact fun g hg => (List.mem_cons.1 hg).elim (fun e => by omega) (ih hmore g)
          · cases h
      · cases h
    · cases h

theorem readDeltas_stays (r : ReaderOps E) (t : TableOps known E) (hk : known deltaSlot) (turns cur : Nat) :
    Stays E (readDeltas turns cur) := by
  induction turns generalizing cur with
  | zero => exact .throw _
  | succ turns ih =>
    exact (Sim.raise _).ite ((hufDecode_stays r t hk _).bind fun _ => (Sim.pure _).ite ((ih _).ite (ih _)))

theorem checkCapacity_stays (b : BlockOps known E) (n : Nat) : Stays E (checkCapacity n) :=
  Sim.register (fun _ _ h => by rw [b.bz h]) fun _ => (Sim.raise _).ite (.pure _)

theorem appendRun_stays (b : BlockOps known E) (m : ListOps E) (run : Nat) : Stays E (appendRun run) :=
  Sim.ite (Sim.state fun s s' h => by
    rw [b.bz h, m.mtf1 h]
    exact (Sim.needed _).bind fun blk => (checkCapacity_stays b _).bind fun _ => (Sim.needed _).bind fun _ =>
      (Sim.needed _).bind fun _ => (Sim.needed _).bind fun _ => (Sim.needed _).bind fun v =>
        b.update (fun z => { z with blk := some (blk ++ List.replicate run v) }) fun _ h => h) (.pure _)

theorem flushRun_stays (b : BlockOps known E) (m : ListOps E) : Stays E flushRun :=
  Sim.register (fun _ _ h => by rw [b.bz h]) fun _ => (appendRun_stays b m _).bind fun _ =>
    b.update (fun z => { z with runLength := some 0, runWeight := some 1 }) fun _ h => h

theorem runSymbol_stays (b : BlockOps known E) (sym : Nat) : Stays E (runSymbol sym) :=
  Sim.state fun s s' h => by
    have hk := b.selectors h
    rw [b.bz h] at hk ⊢
    exact (Sim.needed _).bind fun _ => (Sim.needed _).bind fun _ =>
      (Sim.put (b.write _ (by exact hk) h)).bind fun _ => checkCapacity_stays b _

theorem literalSymbol_stays (b : BlockOps known E) (m : ListOps E) (sym : Nat) : Stays E (literalSymbol sym) :=
  (flushRun_stays b m).bind fun _ => (m.mtfAccess _ _).bind fun e => Sim.state fun s s' h => by
    rw [b.bz h]
    exact (Sim.needed _).bind fun blk => (checkCapacity_stays b _).bind fun _ => (Sim.needed _).bind fun _ =>
      (Sim.needed _).bind fun v => b.update (fun z => { z with blk := some (blk ++ [v]) }) fun _ h => h

theorem bodySymbol_stays (b : BlockOps known E) (m : ListOps E) (sym : Nat) : Stays E (bodySymbol sym) :=
  (runSymbol_stays b _).ite (literalSymbol_stays b m _)

theorem readBody_stays (r : ReaderOps E) (t : TableOps known E) (b : BlockOps known E) (m : ListOps E) (nItems turns : Nat)
    {sels : List Nat} (hs : ∀ g ∈ sels, known (groupSlot g)) {tbl : Nat} (ht : known (groupSlot tbl)) (left : Nat) :
    Stays E (readBody nItems turns sels tbl left) := by
  induction turns generalizing sels tbl left with
  | zero => exact .throw _
  | succ turns ih =>
    match left, sels with
    | 0, [] => exact .raise _
    | 0, g :: rest =>
      have hg := hs g List.mem_cons_self
      exact (hufDecode_stays r t hg _).bind fun _ => (Sim.pure _).ite
        ((bodySymbol_stays b m _).bind fun _ => ih (fun g h => hs g (List.mem_cons_of_mem _ h)) hg _)
    | left + 1, sels =>
      exact (hufDecode_stays r t ht _).bind fun _ => (Sim.pure _).ite
        ((bodySymbol_stays b m _).bind fun _ => ih hs ht _)

/-- The slots that BZP2 uses are known: those of the selectors, of the deltas and of the six groups. -/
structure KnowsSlots (known : Fin 16 → Prop) : Prop where
  selector : known selectorSlot
  delta : known deltaSlot
  group : ∀ g, g < 6 → known (groupSlot g)

theorem readBlockHeader_stays (r : ReaderOps E) (t : TableOps known E) (b : BlockOps known E) (m : ListOps E)
    (hk : KnowsSlots known) : Stays E readBlockHeader := by
  refine (rd_stays r _).bind fun _ => (rd_stays r _).bind fun x =>
    (b.update (fun z => { z with randomised := some (x == 1) }) fun _ h => h).bind fun _ => (rd_stays r _).bind fun p =>
    (b.update (fun z => { z with origPtr := some (BitVec.ofNat 24 p) }) fun _ h => h).bind fun _ =>
    (readSymbolMap_stays r).bind fun values =>
    (b.update (fun z => { z with values := some values }) fun _ h => h).bind fun _ => (Sim.raise _).ite ?_
  refine (rd_stays r _).bind fun nGroups =>
    (b.update (fun z => { z with nGroups := some nGroups }) fun _ h => h).bind fun _ =>
    Sim.branch (fun _ => .raise _) fun hn => ?_
  refine (rd_stays r _).bind fun nSelectors =>
    (b.update (fun z => { z with nSelectors := some nSelectors }) fun _ h => h).bind fun _ => (Sim.raise _).ite ?_
  refine (m.mtfInit _ _).bind fun _ => (readSelectors_stays r t m hk.selector _ _).bind_ok fun sels s t hs =>
    (b.update (fun z => { z with selectors := some sels }) fun z _ => ?_).bind fun _ => .pure _
  intro _ e g hg
  cases e
  have := readSelectors_lt hs g hg
  exact hk.group g (by omega)

theorem derandomise_stays (b : BlockOps known E) (c : Config) (v : Byte) : Stays E (derandomise c v) :=
  Sim.state fun s s' h => by
    have hk := b.selectors h
    rw [b.bz h] at hk ⊢
    refine (Sim.needed _).bind fun _ => Sim.ite ?_ (.pure _)
    refine (Sim.needed _).bind fun nToGo => (Sim.needed _).bind fun tPos => ?_
    generalize (if nToGo = 0 then ((c.bzRandTable (Fin.ofNat 512 tPos) : Nat), (tPos + 1) % 512) else (nToGo, tPos)) = x
    exact (Sim.put (b.write _ (by exact hk) h)).bind fun _ => .pure _

theorem writeTimes_stays (w : WriterOps E) (v : Byte) (k : Nat) : Stays E (writeTimes v k) := by
  induction k with
  | zero => exact .pure _
  | succ k ih => exact (w.fwrWrb v).bind fun _ => ih

theorem finalRle_stays (w : WriterOps E) (b : BlockOps known E) (v : Byte) : Stays E (finalRle v) :=
  Sim.state fun s s' h => by
    rw [b.bz h]
    exact (Sim.needed _).bind fun count => Sim.ite
      ((Sim.needed _).bind fun _ => (writeTimes_stays w _ _).bind fun _ =>
        b.update (fun z => { z with curCount := some 0 }) fun _ h => h)
      (Sim.ite ((w.fwrWrb v).bind fun _ => b.update (fun z => { z with curCount := some (count + 1) }) fun _ h => h)
        ((b.update (fun z => { z with curCh := some v, curCount := some 1 }) fun _ h => h).bind fun _ => w.fwrWrb v))

theorem unbwtWalk_stays (w : WriterOps E) (b : BlockOps known E) (c : Config) (blk : List Byte) (fwd : List Nat)
    (left p : Nat) : Stays E (unbwtWalk c blk fwd left p) := by
  induction left generalizing p with
  | zero => exact .pure _
  | succ left ih =>
    exact (Sim.needed _).bind fun _ => (Sim.needed _).bind fun _ => (derandomise_stays b c _).bind fun _ =>
      (finalRle_stays w b _).bind fun _ => ih _

theorem unbwtBlock_stays (w : WriterOps E) (b : BlockOps known E) (c : Config) (blk : List Byte) :
    Stays E (unbwtBlock c blk) :=
  Sim.ite ((b.update (fun z => { z with
      sums := some (countBytes blk), rank := some (sortBlock blk).1, fwd := some (sortBlock blk).2 }) fun _ h => h).bind
    fun _ => Sim.register (fun _ _ h => by rw [b.bz h]) fun _ =>
      (b.update (fun z => { z with curCount := some 0, rNToGo := some 0, rTPos := some 0 }) fun _ h => h).bind fun _ =>
        unbwtWalk_stays w b c blk _ _ _) (.pure _)

theorem need_ok {α : Type} {o : Option α} {a : α} {s t : State} (h : need o s = .ok a t) : o = some a := by
  cases o <;> cases h; rfl

theorem bzUnbwt_stays (w : WriterOps E) (b : BlockOps known E) (c : Config) : Stays E (bzUnbwt c) :=
  Sim.state fun s s' h => by
    rw [b.bz h, w.fwr h]
    refine (Sim.needed _).bind fun blk => (Sim.needed _).bind fun f => (unbwtBlock_stays w b c blk).bind fun _ =>
      Sim.state fun t t' ht => ?_
    have hk := b.selectors ht
    have hf := w.fwr ht
    rw [b.bz ht] at hk ⊢
    refine (Sim.needed_eq hf).bind_ok fun f' _ _ hf' => ?_
    rw [w.written ht (need_ok hf')]
    exact (Sim.needed _).bind fun _ => (Sim.needed _).bind fun _ => .put (b.write _ (by exact hk) ht)

theorem headerLetter_stays (r : ReaderOps E) (a : Nat) (letter : Byte) : Stays E (headerLetter a letter) :=
  (chunkByte_stays r a).bind fun _ => (Sim.raise _).ite (.pure _)

end Block

/-! ## The sequencers -/

section Sequencers

variable {E₀ E₁ E₂ E : State → State → Prop} {L : Nat → State → State → Prop} {known : Fin 16 → Prop}

/-- The lengths that a group reads go to LENM one after another (R301). -/
theorem readLengths_sim (r : ∀ n, ReaderOps (L n)) (t : ∀ n, TableOps known (L n)) (l : LensOps L) (hk : known deltaSlot)
    (left i cur : Nat) : Sim (L i) (L (i + left)) (readLengths left i cur) (readLengths left i cur) := by
  induction left generalizing i cur with
  | zero => exact .pure _
  | succ left ih =>
    refine Sim.number (r := unreadBits) (k := fun n => readDeltas (n + 1) cur >>= fun len =>
      writeLenm i (truncByte len) >>= fun _ => readLengths left (i + 1) len) (fun _ _ => (r i).unreadBits) fun _ => ?_
    refine (readDeltas_stays (r i) (t i) hk _ _).bind fun len => (l.writeLenm i _).bind fun _ => ?_
    rw [show i + (left + 1) = i + 1 + left from by omega]
    exact ih _ _

theorem readGroups_stays (r : ∀ n, ReaderOps (L n)) (t : ∀ n, TableOps known (L n)) (l : LensOps L) (hk : known deltaSlot)
    (c : Config) (nItems left g : Nat) : Stays (L 0) (readGroups c nItems left g) := by
  induction left generalizing g with
  | zero => exact .pure _
  | succ left ih =>
    have lengths : ∀ cur, Sim (L 0) (L nItems) (readLengths nItems 0 cur) (readLengths nItems 0 cur) := fun cur => by
      have := readLengths_sim r t l hk nItems 0 cur
      rwa [Nat.zero_add] at this
    exact (rd_stays (r 0) 5).bind fun cur => (lengths cur).bind fun _ =>
      ((l.hufBuild c _ nItems).post fun _ _ => l.forget).bind fun _ => ih _

theorem readBlock_stays (r : ∀ n, ReaderOps (L n)) (t : ∀ n, TableOps known (L n)) (l : LensOps L)
    (b : BlockOps known (L 0)) (m : ListOps (L 0)) (hk : KnowsSlots known) (c : Config) : Stays (L 0) (readBlock c) := by
  refine (readBlockHeader_stays (r 0) (t 0) b m hk).bind fun nItems => Sim.register (fun _ _ h => by rw [b.bz h]) fun _ =>
    (readGroups_stays r t l hk.delta c _ _ _).bind fun _ => (m.mtfInit _ _).bind fun _ =>
    Sim.register (fun _ _ h => by rw [b.bz h]) fun _ =>
    (b.update (fun z => { z with blk := some [], runLength := some 0, runWeight := some 1 }) fun _ h => h).bind fun _ =>
    Sim.state fun s s' h => ?_
  have hsel := b.selectors h
  rw [(r 0).unreadBits h, b.bz h] at *
  refine (Sim.needed _).bind_ok fun sels _ _ hs => (readBody_stays (r 0) (t 0) b m nItems _ (hsel sels (need_ok hs))
    (hk.group 0 (by decide)) _).bind fun _ => (flushRun_stays b m).bind fun _ => Sim.state fun s s' h => ?_
  rw [b.bz h]
  exact (Sim.needed _).bind fun _ => (Sim.needed _).bind fun _ => (Sim.raise _).ite (.pure _)

theorem bzBlock_stays (r : ∀ n, ReaderOps (L n)) (t : ∀ n, TableOps known (L n)) (l : LensOps L)
    (b : BlockOps known (L 0)) (m : ListOps (L 0)) (hk : KnowsSlots known) (c : Config) : Stays (L 0) (bzBlock c) :=
  (rd_stays (r 0) 32).bind fun _ => (rd_stays (r 0) 16).bind fun _ => Sim.ite
    ((rd_stays (r 0) 32).bind fun _ => Sim.register (fun _ _ h => by rw [b.bz h]) fun _ => (Sim.throw _).ite (.pure _))
    (Sim.ite ((readBlock_stays r t l b m hk c).bind fun _ => .pure _) (.raise _))

theorem bzp2Loop_stays (r : ∀ n, ReaderOps (L n)) (w : WriterOps (L 0)) (t : ∀ n, TableOps known (L n)) (l : LensOps L)
    (b : BlockOps known (L 0)) (m : ListOps (L 0)) (hk : KnowsSlots known) (c : Config) (turns : Nat) :
    Stays (L 0) (bzp2Loop c turns) := by
  induction turns with
  | zero => exact .throw _
  | succ turns ih =>
    exact (bzBlock_stays r t l b m hk c).bind fun _ => Sim.ite ((bzUnbwt_stays w b c).bind fun _ => ih) (.pure _)

theorem bzp2Sequence_sim (setup : Sim E₀ E₁ commonSetup commonSetup)
    (clear : Sim E₁ (L 0) (modify clearBzp2) (modify clearBzp2)) (r : ∀ n, ReaderOps (L n)) (w : WriterOps (L 0))
    (t : ∀ n, TableOps known (L n)) (l : LensOps L) (b : BlockOps known (L 0)) (m : ListOps (L 0)) (hk : KnowsSlots known)
    (done : Stays (L 0) macroEnd) (c : Config) : Sim E₀ (L 0) (bzp2Sequence c) (bzp2Sequence c) :=
  setup.bind fun _ => clear.bind fun _ => ((r 0).fcurConsume 4).bind fun _ => (headerLetter_stays (r 0) _ _).bind fun _ =>
    (headerLetter_stays (r 0) _ _).bind fun _ => (headerLetter_stays (r 0) _ _).bind fun _ =>
    (chunkByte_stays (r 0) _).bind fun _ => (Sim.raise _).ite ((bzStart_stays b (t 0) _).bind fun _ =>
      Sim.number (r := unreadBits) (k := fun n => bzp2Loop c (n + 1) >>= fun _ => fwrEof >>= fun e =>
        if e then macroEnd else raise .underFill) (fun _ _ => (r 0).unreadBits) fun _ =>
      (bzp2Loop_stays r w t l b m hk c _).bind fun _ => (fwrEof_stays w).bind fun _ => done.ite (.raise _))

theorem blzwSequence_sim (setup : Sim E₀ E₁ commonSetup commonSetup)
    (clear : Sim E₁ E (modify fun s => { s with lzw := Lzw.unset }) (modify fun s => { s with lzw := Lzw.unset }))
    (r : ReaderOps E) (w : WriterOps E) (z : OwnsLzw E) (hp : ProgressAlike E) (done : Stays E macroEnd) :
    Sim E₀ E blzwSequence blzwSequence :=
  setup.bind fun _ => clear.bind fun _ => (r.fcurConsume 4).bind fun _ => (chunkByte_stays r _).bind fun _ =>
    (chunkByte_stays r _).bind fun _ => (chunkByte_stays r _).bind fun _ => (chunkByte_stays r _).bind fun _ =>
    (lzwSetup_stays z _ _).bind fun _ => (lzwRestart_stays z r w).bind fun _ =>
    Sim.number (r := unreadBits) (k := fun n => whileNotEof (lzwStep >>= fun _ => pure true) (n + 1) >>= fun _ => macroEnd)
      (fun _ _ => r.unreadBits) fun _ =>
      (whileNotEof_stays w hp ((lzwStep_stays z r w).bind fun _ => .pure _) _).bind fun _ => done

theorem lhlbTurn_stays (r : ReaderOps E) (w : WriterOps E) (d : OwnsDhuf E) (c : Config) : Stays E (lhlbTurn c) := by
  refine (dhufDecode_stays d r c _).bind fun sym =>
    ((dhufMaxF_stays d c).bind fun _ => (dhufUpdate_stays d c _).ite (.pure _)).bind fun _ =>
    Sim.ite ((w.fwrWrb _).bind fun _ => .pure _) ((Sim.raise _).ite ?_)
  split
  · exact (runField_stays r _).bind fun _ => (fwrCopy_stays w _ _).bind fun _ => .pure _
  · exact .raise _

theorem lhlbSequence_sim (setup : Sim E₀ E₁ commonSetup commonSetup)
    (clear : Sim E₁ E (modify fun s => { s with dhuf := some { nsym := 0#32, tree := none } })
      (modify fun s => { s with dhuf := some { nsym := 0#32, tree := none } }))
    (r : ReaderOps E) (w : WriterOps E) (d : OwnsDhuf E) (hp : ProgressAlike E) (done : Stays E macroEnd) (c : Config) :
    Sim E₀ E (lhlbSequence c) (lhlbSequence c) :=
  setup.bind fun _ => clear.bind fun _ => (dhufInit_stays d c _).bind fun _ => (fwrRoom_stays w).bind fun _ =>
    (whileNotEof_stays w hp (lhlbTurn_stays r w d c) _).bind fun _ => done

theorem mashLiterals_stays (r : ReaderOps E) (w : WriterOps E) (c : Config) (n : Nat) : Stays E (mashLiterals c n) := by
  induction n with
  | zero => exact .pure _
  | succ n ih => exact (runField_stays r _).bind fun _ => (w.fwrWrb _).bind fun _ => ih

theorem mashTurn_stays (r : ReaderOps E) (w : WriterOps E) (c : Config) : Stays E (mashTurn c) :=
  (runField_stays r _).bind fun _ => (mashLiterals_stays r w c _).bind fun _ => (runField_stays r _).bind fun _ =>
    (fwrEof_stays w).bind fun _ => Sim.ite ((Sim.pure _).ite (.raise _))
      ((fwrRoom_stays w).bind fun _ => Sim.ite ((fwrCopy_stays w _ _).bind fun _ => .pure _) (.pure _))

theorem mashSequence_sim (setup : Sim E₀ E commonSetup commonSetup) (clear : Stays E (hufClear 0)) (r : ReaderOps E)
    (w : WriterOps E) (hp : ProgressAlike E) (done : Stays E macroEnd) (c : Config) :
    Sim E₀ E (mashSequence c) (mashSequence c) :=
  setup.bind fun _ => clear.bind fun _ => (fwrRoom_stays w).bind fun _ =>
    (whileNotEof_stays w hp (mashTurn_stays r w c) _).bind fun _ => done

theorem rakeLengths_sim (l : LensOps L) (c : Config) (left : Nat) (h : left ≤ 255) :
    Sim (L (255 - left)) (L 255) (rakeLengths c left) (rakeLengths c left) := by
  induction left with
  | zero => exact .pure _
  | succ left ih =>
    rw [show 255 - (left + 1) = 254 - left from by omega]
    refine (l.writeLenm (254 - left) _).bind fun _ => ?_
    rw [show 254 - left + 1 = 255 - left from by omega]
    exact ih (by omega)

theorem rakeTurn_stays (r : ReaderOps E) (k : BackwardOps E) (t : TableOps known E) (hk : known 0) (c : Config) :
    Stays E (rakeTurn c) :=
  (rd_stays r 1).bind fun _ => Sim.ite (k.bcurRdb.bind fun _ => (k.bwrWrb _).bind fun _ => .pure _)
    ((hufDecode_stays r t hk _).bind fun _ =>
      ((runField_stays r _).bind fun _ => (rd_stays r _).bind fun _ => k.bcurRdb.bind fun _ => .pure _).bind fun _ =>
        (k.bwrCopy _ _).bind fun _ => .pure _)

theorem rakeSequence_sim (setup : Sim E₀ E₁ rakeSetup rakeSetup) (r₁ : ReaderOps E₁)
    (place : ∀ h, Sim E₁ (L 0) (rakePlace h) (rakePlace h)) (r : ReaderOps (L 0)) (k : BackwardOps (L 0))
    (t : TableOps known (L 0)) (hk : known 0) (l : LensOps L) (hp : ProgressAlike (L 0)) (done : Stays (L 0) macroEnd)
    (c : Config) : Sim E₀ (L 0) (rakeSequence c) (rakeSequence c) := by
  refine setup.bind fun _ => (chunkBytes_stays r₁).bind fun bytes => ?_
  cases c.rakeHeader bytes with
  | none => exact .raise _
  | some h =>
    have lengths : Sim (L 0) (L 255) (rakeLengths c 255) (rakeLengths c 255) := by
      have := rakeLengths_sim l c 255 (Nat.le_refl _)
      rwa [Nat.sub_self] at this
    exact (place h).bind fun _ => lengths.bind fun _ =>
      ((l.hufBuild c 0 255).post fun _ _ => l.forget).bind fun _ =>
      Sim.bind (Sim.register (fun _ _ => k.bwr) fun _ => .pure _) fun _ =>
      (turnLoop_stays hp (Sim.bind (Sim.register (fun _ _ => k.bwr) fun _ => .pure _) fun _ => .pure _)
        (rakeTurn_stays r k t hk c) _).bind fun _ => done

theorem smplLength_stays (r : ReaderOps E) : Stays E smplLength :=
  (rd_stays r _).bind fun _ => Sim.ite ((rd_stays r _).bind fun _ => .pure _) (.pure _)

theorem smplExplicit_stays (r : ReaderOps E) (t : TableOps known E) (hk : known 0) (c : Config) (left : Nat) :
    Stays E (smplExplicit c left) := by
  induction left with
  | zero => exact .pure _
  | succ left ih =>
    exact (smplLength_stays r).bind fun _ => ih.ite
      ((rd_stays r _).bind fun _ => (t.hufInsert hk _ _ _ _).bind fun _ => ih)

theorem smplLengths_sim (r : ∀ n, ReaderOps (L n)) (l : LensOps L) (left : Nat) (h : left ≤ 256) :
    Sim (L (256 - left)) (L 256) (smplLengths left) (smplLengths left) := by
  induction left with
  | zero => exact .pure _
  | succ left ih =>
    rw [show 256 - (left + 1) = 255 - left from by omega]
    refine (smplLength_stays (r _)).bind fun _ => (l.writeLenm (255 - left) _).bind fun _ => ?_
    rw [show 255 - left + 1 = 256 - left from by omega]
    exact ih (by omega)

theorem smplTable_sim (clear : Sim E₁ (L 0) (hufClear 0) (hufClear 0)) (r : ∀ n, ReaderOps (L n)) (t : TableOps known (L 0))
    (hk : known 0) (l : LensOps L) (c : Config) : Sim E₁ (L 0) (smplTable c) (smplTable c) := by
  refine clear.bind fun _ => ?_
  cases c.smplTableMode with
  | explicit => exact smplExplicit_stays (r 0) t hk c _
  | canonical =>
    exact (smplLengths_sim r l 256 le_rfl).bind fun _ => (l.hufBuild c 0 256).post fun _ _ => l.forget

theorem smplTurn_stays (r : ReaderOps E) (w : WriterOps E) (t : TableOps known E) (hk : known 0) (a : OwnsSmplAcc E) :
    Stays E smplTurn :=
  (hufDecode_stays r t hk _).bind fun d => Sim.register (fun _ _ => a.read) fun acc =>
    (a.update fun _ => some (truncByte (acc.toNat + d.toNat))).bind fun _ => (w.fwrWrb _).bind fun _ => .pure _

theorem smplSequence_sim (setup : Sim E₀ E₁ commonSetup commonSetup)
    (unset : Sim E₁ E₂ (modify fun s => { s with smplAcc := none }) (modify fun s => { s with smplAcc := none }))
    (r₂ : ReaderOps E₂) (clear : Sim E₂ (L 0) (hufClear 0) (hufClear 0)) (r : ∀ n, ReaderOps (L n)) (w : WriterOps (L 0))
    (t : TableOps known (L 0)) (hk : known 0) (l : LensOps L) (a : OwnsSmplAcc (L 0)) (hp : ProgressAlike (L 0))
    (done : Stays (L 0) macroEnd) (c : Config) : Sim E₀ (L 0) (smplSequence c) (smplSequence c) := by
  refine setup.bind fun _ => unset.bind fun _ => (chunkBytes_stays r₂).bind fun bytes => ?_
  cases c.smplHeader bytes with
  | none => exact .raise _
  | some fstart =>
    refine Sim.number (r := State.chunkLen) (k := fun n => fcurSet fstart n >>= fun _ => smplTable c >>= fun _ =>
      (modify fun s => { s with smplAcc := some c.smplAccInit }) >>= fun _ => fwrRoom >>= fun room =>
        whileNotEof smplTurn (room + 1) >>= fun _ => macroEnd) (fun _ _ => r₂.chunkLen) fun n => ?_
    exact (r₂.fcurSet _ _).bind fun _ => (smplTable_sim clear r t hk l c).bind fun _ =>
      (a.update fun _ => some c.smplAccInit).bind fun _ => (fwrRoom_stays w).bind fun _ =>
      (whileNotEof_stays w hp (smplTurn_stays (r 0) w t hk a) _).bind fun _ => done

theorem sqshRepeat_stays (r : ReaderOps E) (w : WriterOps E) (a : OwnsSqshSample E) (c : Config) : Stays E (sqshRepeat c) := by
  refine (runField_stays r _).bind fun _ => (rd_stays r _).bind fun _ => (runField_stays r _).bind fun _ =>
    (rd_stays r _).bind fun _ => (w.fwrCopy _ _).bind fun _ => Sim.ite ?_ ?_
  · intro s s' ⟨h, hlast⟩
    have hf := w.fwr h
    refine Sim.state (E := fun u u' => E u u' ∧ LastAlike u u') (fun u u' hu => ?_) s s' ⟨h, hlast⟩
    refine (Sim.needed_eq (w.fwr hu.1)).bind_ok fun f _ _ he => ?_
    rw [hu.2 f (need_ok he)]
    exact (Sim.needed _).bind fun b => (a.update fun _ => some b).pre fun _ _ h => h.1
  · exact (Sim.pure _).post fun _ _ h => h.1

theorem sqshLiterals_stays (r : ReaderOps E) (w : WriterOps E) (a : OwnsSqshSample E) (width left : Nat) :
    Stays E (sqshLiterals width left) := by
  induction left with
  | zero => exact .pure _
  | succ left ih =>
    exact (rd_stays r _).bind fun v => Sim.register (fun _ _ => a.read) fun x =>
      (a.update fun _ => some (sqshNextSample x v width)).bind fun _ => (w.fwrWrb _).bind fun _ => ih

theorem sqshTurn_stays (r : ReaderOps E) (w : WriterOps E) (q : OwnsSqshQ E) (a : OwnsSqshSample E) (c : Config) :
    Stays E (sqshTurn c) := by
  refine Sim.register (fun _ _ => q.read) fun _ => (runField_stays r _).bind fun x => ?_
  obtain ⟨q', mode⟩ := x
  refine (q.update fun _ => some q').bind fun _ => ?_
  cases mode with
  | repeated => exact (sqshRepeat_stays r w a c).bind fun _ => .pure _
  | literal width run => exact (sqshLiterals_stays r w a _ _).bind fun _ => .pure _

theorem sqshFirstByte_stays (r : ReaderOps E) (w : WriterOps E) (a : OwnsSqshSample E) (c : Config) :
    Stays E (sqshFirstByte c) :=
  (fwrEof_stays w).bind fun _ => (Sim.pure _).ite ((runField_stays r _).bind fun b =>
    (a.update fun _ => some b).bind fun _ => w.fwrWrb _)

theorem sqshSequence_sim (setup : Sim E₀ E₁ commonSetup commonSetup) (clear : ∀ t, Stays E₁ (hufClear t))
    (unset : Sim E₁ E (modify fun s => { s with sqshQ := none, sqshSample := none })
      (modify fun s => { s with sqshQ := none, sqshSample := none }))
    (r : ReaderOps E) (w : WriterOps E) (q : OwnsSqshQ E) (a : OwnsSqshSample E) (hp : ProgressAlike E)
    (done : Stays E macroEnd) (c : Config) : Sim E₀ E (sqshSequence c) (sqshSequence c) := by
  refine setup.bind fun _ => (clear 0).bind fun _ => (clear 1).bind fun _ => (clear 2).bind fun _ => unset.bind fun _ =>
    (chunkBytes_stays r).bind fun bytes => ?_
  cases c.sqshHeader bytes with
  | none => exact .raise _
  | some fstart =>
    refine Sim.number (r := State.chunkLen) (k := fun n => fcurSet fstart n >>= fun _ => sqshFirstByte c >>= fun _ =>
      (modify fun s => { s with sqshQ := some c.sqshQInit }) >>= fun _ => fwrRoom >>= fun room =>
        whileNotEof (sqshTurn c) (room + 1) >>= fun _ => macroEnd) (fun _ _ => r.chunkLen) fun n => ?_
    exact (r.fcurSet _ _).bind fun _ => (sqshFirstByte_stays r w a c).bind fun _ =>
      (q.update fun _ => some c.sqshQInit).bind fun _ => (fwrRoom_stays w).bind fun _ =>
      (whileNotEof_stays w hp (sqshTurn_stays r w q a c) _).bind fun _ => done

end Sequencers

end Sys2Proof.Machine
end

section
/-! SUPPORT. Lawful tables (spec/41_huffman.md R190): an insertion without clash keeps a table lawful, and the canonical codes
of any row of lengths are lawful. -/

namespace Sys2Proof.Machine

/-! ## The set of a list of entries -/

theorem addEntry_perm (e : HufEntry) (t : Table) : (addEntry e t).Perm (e :: t) := by
  induction t with
  | nil => exact .refl _
  | cons x rest ih =>
    rw [addEntry]
    split
    · exact .refl _
    · exact (ih.cons x).trans (.swap e x rest)

theorem tableOf_perm (es : List HufEntry) : (tableOf es).Perm es := by
  have fold : ∀ (es : List HufEntry) (t : Table), (es.foldl (fun t e => addEntry e t) t).Perm (es ++ t) := by
    intro es
    induction es with
    | nil => exact fun t => .refl _
    | cons e es ih => exact fun t => (ih _).trans (((addEntry_perm e t).append_left es).trans List.perm_middle)
  exact (fold es []).trans (.of_eq (List.append_nil es))

/-- Two entries do not clash. -/
theorem pathsClash_eq_false {a b : HufEntry} : pathsClash a b = false ↔
    a.code / 2 ^ (a.len - min a.len b.len) ≠ b.code / 2 ^ (b.len - min a.len b.len) := by
  simp [pathsClash]

theorem pathsClash_comm (a b : HufEntry) : pathsClash a b = pathsClash b a := by
  rw [Bool.eq_iff_iff]
  simp only [pathsClash, Nat.min_comm b.len, beq_iff_eq]
  exact eq_comm

theorem prefixFree_iff (es : List HufEntry) : prefixFree es ↔ es.Pairwise fun a b => pathsClash a b = false := by
  simp only [prefixFree, pathsClash_eq_false]

/-- Whether a table is lawful does not depend on the order of its entries. -/
theorem LawfulTable.perm {es es' : List HufEntry} (h : LawfulTable es) (hp : es'.Perm es) : LawfulTable es' := by
  refine ⟨?_, fun e he => h.2 e (hp.mem_iff.1 he)⟩
  rw [prefixFree_iff]
  exact (hp.pairwise_iff fun {a b} hab => (pathsClash_comm b a).trans hab).2 ((prefixFree_iff es).1 h.1)

/-- An entry that clashes with none keeps the table lawful (R192). -/
theorem LawfulTable.addEntry {e : HufEntry} {t : Table} (h : LawfulTable t) (hl : 1 ≤ e.len ∧ e.len ≤ 32)
    (hc : e.code < 2 ^ e.len) (hn : t.any (pathsClash e) = false) : LawfulTable (addEntry e t) := by
  refine LawfulTable.perm ⟨?_, ?_⟩ (addEntry_perm e t)
  · rw [prefixFree_iff, List.pairwise_cons]
    exact ⟨by simpa using hn, (prefixFree_iff t).1 h.1⟩
  · rintro x hx
    rcases List.mem_cons.1 hx with rfl | hx
    · exact ⟨hl.1, hl.2, hc⟩
    · exact h.2 x hx

/-! ## The canonical codes (R194) -/

theorem getD_set (next : List Nat) {l : Nat} (h : l < next.length) (v k : Nat) :
    (next.set l v).getD k 0 = if l = k then v else next.getD k 0 := by
  simp only [List.getD_eq_getElem?_getD, List.getElem?_set, h, if_true]
  split <;> rfl

/-- A code lies in the run of its length: not below the first code given out, and below it by less than the length's
count. -/
theorem assignCodes_bounds {lens next : List Nat} {i : Nat} {es : List HufEntry} (hl : ∀ l ∈ lens, l < next.length)
    (h : assignCodes lens next i = some es) {e : HufEntry} (he : e ∈ es) :
    1 ≤ e.len ∧ e.len ∈ lens ∧ e.code < 2 ^ e.len ∧ next.getD e.len 0 ≤ e.code ∧
      e.code < next.getD e.len 0 + lens.count e.len := by
  induction lens generalizing next i es with
  | nil => cases h; cases he
  | cons l rest ih =>
    have hrest : ∀ l ∈ rest, l < next.length := fun k hk => hl k (List.mem_cons_of_mem _ hk)
    rw [assignCodes] at h
    split at h
    · obtain ⟨h1, h2, h3, h4, h5⟩ := ih hrest h he
      refine ⟨h1, List.mem_cons_of_mem _ h2, h3, h4, ?_⟩
      rw [List.count_cons]
      omega
    · rename_i hl0
      dsimp only at h
      split at h
      · cases h
      · rename_i hcode
        split at h
        · cases h
        · rename_i es' hes
          cases h
          rcases List.mem_cons.1 he with rfl | he
          · simp only [List.count_cons_self]
            exact ⟨by omega, List.mem_cons_self, by omega, le_rfl, by omega⟩
          · obtain ⟨h1, h2, h3, h4, h5⟩ := ih (by simpa using hrest) hes he
            rw [getD_set next (hl l List.mem_cons_self)] at h4 h5
            rw [List.count_cons]
            refine ⟨h1, List.mem_cons_of_mem _ h2, h3, ?_, ?_⟩
            all_goals by_cases hk : l = e.len <;> simp [hk] at h4 h5 ⊢ <;> omega

/-- The codes of one length count up. -/
theorem assignCodes_increasing {lens next : List Nat} {i : Nat} {es : List HufEntry} (hl : ∀ l ∈ lens, l < next.length)
    (h : assignCodes lens next i = some es) : es.Pairwise fun a b => a.len = b.len → a.code < b.code := by
  induction lens generalizing next i es with
  | nil => cases h; exact .nil
  | cons l rest ih =>
    have hrest : ∀ l ∈ rest, l < next.length := fun k hk => hl k (List.mem_cons_of_mem _ hk)
    rw [assignCodes] at h
    split at h
    · exact ih hrest h
    · dsimp only at h
      split at h
      · cases h
      · split at h
        · cases h
        · rename_i es' hes
          cases h
          refine List.pairwise_cons.2 ⟨fun b hb heq => ?_, ih (by simpa using hrest) hes⟩
          obtain ⟨_, _, _, h4, _⟩ := assignCodes_bounds (by simpa using hrest) hes hb
          rw [getD_set next (hl l List.mem_cons_self), if_pos heq] at h4
          exact h4

/-- The first code of a longer length follows the last code of a shorter one. -/
theorem firstCode_follows (lens : List Nat) (l k : Nat) :
    (firstCode lens l + lengthCount lens l) * 2 ^ (k + 1) ≤ firstCode lens (l + k + 1) := by
  induction k with
  | zero => rw [firstCode]; simp
  | succ k ih =>
    rw [← Nat.add_assoc, firstCode, pow_succ, ← Nat.mul_assoc]
    exact Nat.mul_le_mul_right 2 (ih.trans (Nat.le_add_right _ _))

theorem firstCodes_getD (lens : List Nat) {l : Nat} (h : l < 33) :
    ((List.range (hufMaxLen + 1)).map (firstCode lens)).getD l 0 = firstCode lens l := by
  rw [List.getD_eq_getElem?_getD]
  simp [hufMaxLen, h]

/-- No canonical code begins another, and they have the lengths of the row. -/
theorem canonicalCodes_lawful {lens : List Nat} {es : List HufEntry} (hl : ∀ l ∈ lens, l ≤ 32)
    (h : canonicalCodes lens = some es) : LawfulTable es := by
  have hlen : ∀ l ∈ lens, l < ((List.range (hufMaxLen + 1)).map (firstCode lens)).length := fun l hm => by
    have := hl l hm
    simp [hufMaxLen]
    omega
  have run : ∀ e ∈ es, 1 ≤ e.len ∧ e.len ≤ 32 ∧ e.code < 2 ^ e.len ∧ firstCode lens e.len ≤ e.code ∧
      e.code < firstCode lens e.len + lengthCount lens e.len := fun e he => by
    obtain ⟨h1, h2, h3, h4, h5⟩ := assignCodes_bounds hlen h he
    have := hl _ h2
    rw [firstCodes_getD lens (by omega)] at h4 h5
    rw [lengthCount, if_neg (by omega)]
    exact ⟨h1, this, h3, h4, h5⟩
  -- a shorter path does not begin a longer one
  have shorter : ∀ a ∈ es, ∀ b ∈ es, a.len < b.len → pathsClash a b = false := fun a ha b hb hab => by
    obtain ⟨_, _, _, _, ha5⟩ := run a ha
    obtain ⟨_, _, _, hb4, _⟩ := run b hb
    have hf := firstCode_follows lens a.len (b.len - a.len - 1)
    rw [show a.len + (b.len - a.len - 1) + 1 = b.len from by omega, show b.len - a.len - 1 + 1 = b.len - a.len from by omega]
      at hf
    rw [pathsClash_eq_false, Nat.min_eq_left hab.le, Nat.sub_self, pow_zero, Nat.div_one]
    have := (Nat.le_div_iff_mul_le (Nat.two_pow_pos _)).2 (hf.trans hb4)
    omega
  refine ⟨?_, fun e he => ?_⟩
  · rw [prefixFree_iff]
    refine (assignCodes_increasing hlen h).imp_of_mem fun {a b} ha hb hab => ?_
    rcases lt_trichotomy a.len b.len with hlt | heq | hgt
    · exact shorter a ha b hb hlt
    · rw [pathsClash_eq_false, heq, Nat.min_self, Nat.sub_self, pow_zero, Nat.div_one, Nat.div_one]
      exact (hab heq).ne
    · rw [pathsClash_comm]; exact shorter b hb a ha hgt
  · obtain ⟨h1, h2, h3, _, _⟩ := run e he
    exact ⟨h1, h2, h3⟩

end Sys2Proof.Machine
end

section
/-! SUPPORT. Invariants of one run: an invariant of the cursors, writers, tables and lists that the shared operations keep is
kept by every command. -/

namespace Sys2Proof.Machine

/-- Two runs from one and the same state, which meets an invariant. -/
def SameWith (P : State → Prop) (s s' : State) : Prop := s = s' ∧ P s

section SameWith

variable {α : Type} {P : State → Prop}

theorem stays_of_ok {m : M α} (h : ∀ s a t, P s → m s = .ok a t → P t) : Stays (SameWith P) m := by
  rintro s _ ⟨rfl, hs⟩
  cases hm : m s with
  | ok a t => exact .ok ⟨rfl, h s a t hs hm⟩
  | error e t => exact .error

theorem Sim.keeps {m : M α} (h : Stays (SameWith P) m) {s t : State} {a : α} (hs : P s) (hm : m s = .ok a t) : P t := by
  have := h s s ⟨rfl, hs⟩
  rw [hm] at this
  cases this with
  | ok h => exact h.2

/-- The invariant speaks of the listed parts only. -/
def SpeaksOf (parts : List Part) (P : State → Prop) : Prop := ∀ s t, (∀ p ∈ parts, p.Agree s t) → P s → P t

/-- A body that writes none of the parts that the invariant speaks of keeps it. -/
theorem stays_of_changes {parts ps : List Part} (hP : SpeaksOf parts P) {m : M α} (hm : Keeps (Changes ps) m)
    (h : ∀ p ∈ parts, p ∉ ps) : Stays (SameWith P) m :=
  stays_of_ok fun s _ t hs e => hP s t (fun p hp => by have := hm s p (h p hp); rwa [e] at this) hs

theorem sameWith_progress : ProgressAlike (SameWith P) := by
  rintro s _ t _ ⟨rfl, _⟩ ⟨rfl, _⟩
  exact Iff.rfl

end SameWith

/-- The parts that the invariants of the readers, the writers, the tables and the lists speak of. -/
def formParts : List Part := [.reader, .backCursor, .writer, .backWriter, .tables, .lists]

/-- A part that the invariants speak of agrees where all of them hold the same. -/
theorem agree_of_mem_formParts {s t : State} {p : Part} (hp : p ∈ formParts)
    (h : (s.fcur, s.bitsAcc, s.bitsCnt, s.bcur, s.fwr, s.bwr, s.ht, s.mtf0, s.mtf1) =
      (t.fcur, t.bitsAcc, t.bitsCnt, t.bcur, t.fwr, t.bwr, t.ht, t.mtf0, t.mtf1)) : p.Agree s t := by
  simp only [Prod.mk.injEq] at h
  simp only [formParts, List.mem_cons, List.not_mem_nil, or_false] at hp
  rcases hp with rfl | rfl | rfl | rfl | rfl | rfl <;> simp only [Part.Agree, h]

/-- What the operations on these parts have to keep. -/
structure FormOps (P : State → Prop) : Prop where
  speaks : SpeaksOf formParts P
  fcurSet : ∀ start stop, Stays (SameWith P) (fcurSet start stop)
  fcurRdb : Stays (SameWith P) fcurRdb
  fcurConsume : ∀ n, Stays (SameWith P) (fcurConsume n)
  takeBits : ∀ n, Stays (SameWith P) (takeBits n)
  bitsReset : ∀ seed n, n ≤ 32 → Stays (SameWith P) (bitsReset seed n)
  bcurSet : ∀ floor start, Stays (SameWith P) (bcurSet floor start)
  bcurRdb : Stays (SameWith P) bcurRdb
  bcurConsume : ∀ n, Stays (SameWith P) (bcurConsume n)
  fwrSet : ∀ start stop, Stays (SameWith P) (fwrSet start stop)
  fwrWrb : ∀ b, Stays (SameWith P) (fwrWrb b)
  fwrCopy : ∀ d c, Stays (SameWith P) (fwrCopy d c)
  fwrCopyh : ∀ d c, Stays (SameWith P) (fwrCopyh d c)
  bwrSet : ∀ floor top, Stays (SameWith P) (bwrSet floor top)
  bwrWrb : ∀ b, Stays (SameWith P) (bwrWrb b)
  bwrCopy : ∀ d c, Stays (SameWith P) (bwrCopy d c)
  setSlot : ∀ t es, LawfulTable es → Stays (SameWith P) (setSlot t es)
  hufInsert : ∀ c t l code sym, Stays (SameWith P) (hufInsert c t l code sym)
  hufBuild : ∀ c t n, Stays (SameWith P) (hufBuild c t n)
  mtfInit : ∀ l n, Stays (SameWith P) (mtfInit l n)
  mtfAccess : ∀ l j, Stays (SameWith P) (mtfAccess l j)
  clearBzp2 : Stays (SameWith P) (modify clearBzp2)

/-- Where every slot is known, those of BZP2 are. -/
theorem knowsSlots_all : KnowsSlots fun _ => True := ⟨trivial, trivial, fun _ _ => trivial⟩

namespace FormOps

variable {α : Type} {P : State → Prop} (F : FormOps P)

include F

/-- A body that writes other parts only. -/
theorem other {ps : List Part} {m : M α} (hm : Keeps (Changes ps) m) (h : ∀ p ∈ formParts, p ∉ ps) :
    Stays (SameWith P) m :=
  stays_of_changes F.speaks hm h

/-- An update of other parts only. -/
theorem owns {β : Type} {read : State → β} {write : β → State → State} {p : Part} (hp : ∀ q ∈ formParts, q ∉ [p])
    (hw : ∀ v s, Changes [p] s (write v s)) : Owns (SameWith P) read write where
  read := by rintro s _ ⟨rfl, _⟩; rfl
  write := by
    rintro s _ v ⟨rfl, hs⟩
    exact ⟨rfl, F.speaks s _ (fun q hq => hw v s q (hp q hq)) hs⟩

theorem readerOps : ReaderOps (SameWith P) where
  chunk := by rintro s _ ⟨rfl, _⟩; rfl
  chunkLen := by rintro s _ ⟨rfl, _⟩; rfl
  fcur := by rintro s _ ⟨rfl, _⟩; rfl
  bitsCnt := by rintro s _ ⟨rfl, _⟩; rfl
  fcurSet := F.fcurSet
  fcurRdb := F.fcurRdb
  fcurConsume := F.fcurConsume
  takeBits := F.takeBits
  bitsReset := F.bitsReset

theorem writerOps : WriterOps (SameWith P) where
  fwr := by rintro s _ ⟨rfl, _⟩; rfl
  written := by rintro s _ f ⟨rfl, _⟩ _ a; rfl
  fwrWrb := F.fwrWrb
  fwrCopy d c := (F.fwrCopy d c).post (by rintro s _ ⟨rfl, h⟩; exact ⟨⟨rfl, h⟩, fun _ _ => rfl⟩)

theorem backwardOps : BackwardOps (SameWith P) where
  bwr := by rintro s _ ⟨rfl, _⟩; rfl
  bcurSet := F.bcurSet
  bcurRdb := F.bcurRdb
  bwrWrb := F.bwrWrb
  bwrCopy := F.bwrCopy

/-- In one run every slot is known. -/
theorem tableOps : TableOps (fun _ => True) (SameWith P) where
  slot := by rintro t s _ _ ⟨rfl, _⟩; rfl
  setSlot := F.setSlot
  hufInsert _ c := F.hufInsert c _

theorem lensOps : LensOps fun _ => SameWith P where
  forget h := h
  writeLenm i b := F.other (writeLenm_changes i b) (by decide)
  hufBuild := F.hufBuild

theorem listOps : ListOps (SameWith P) where
  mtf1 := by rintro s _ ⟨rfl, _⟩; rfl
  mtfInit := F.mtfInit
  mtfAccess := F.mtfAccess

theorem blockOps : BlockOps (fun _ => True) (SameWith P) where
  bz := by rintro s _ ⟨rfl, _⟩; rfl
  selectors _ _ _ _ _ := trivial
  write := by
    rintro s _ b _ ⟨rfl, hs⟩
    exact ⟨rfl, F.speaks s _ (fun q hq => agree_of_mem_formParts hq rfl) hs⟩

theorem ownsLzw : OwnsLzw (SameWith P) := F.owns (p := .dictionary) (by decide) fun v s => modify_lzw (fun _ => v) s

theorem ownsDhuf : OwnsDhuf (SameWith P) := F.owns (p := .tracker) (by decide) fun v s => modify_dhuf (fun _ => v) s

theorem ownsSmplAcc : OwnsSmplAcc (SameWith P) := F.owns (p := .smpl) (by decide) fun v s => modify_smpl (fun _ => v) s

theorem ownsSqshQ : OwnsSqshQ (SameWith P) := F.owns (p := .sqsh) (by decide) fun v s => modify_sqshQ (fun _ => v) s

theorem ownsSqshSample : OwnsSqshSample (SameWith P) :=
  F.owns (p := .sqsh) (by decide) fun v s => modify_sqshSample (fun _ => v) s

theorem hufClear (t : Fin 16) : Stays (SameWith P) (hufClear t) := F.setSlot t [] lawfulTable_nil

theorem macroEnd : Stays (SameWith P) macroEnd := F.other macroEnd_changes (by decide)

theorem commonSetup : Stays (SameWith P) commonSetup :=
  (F.other (modify_phase fun _ => .running) (by decide)).bind fun _ => Sim.state fun s s' h => by
    obtain ⟨rfl, _⟩ := h
    exact (F.fwrSet _ _).bind fun _ => (F.fcurSet _ _).bind fun _ => F.bitsReset _ _ (by decide)

theorem rakeSetup : Stays (SameWith P) rakeSetup :=
  (F.other (modify_phase fun _ => .running) (by decide)).bind fun _ => Sim.state fun s s' h => by
    obtain ⟨rfl, _⟩ := h
    exact (F.bwrSet _ _).bind fun _ => (F.fcurSet _ _).bind fun _ => (F.bitsReset _ _ (by decide)).bind fun _ =>
      F.hufClear 0

theorem rakePlace (h : RakeHeader) : Stays (SameWith P) (rakePlace h) :=
  Sim.state fun s s' e => by
    obtain ⟨rfl, _⟩ := e
    exact (F.bcurSet _ _).bind fun _ => (F.fcurSet _ _).bind fun _ => F.bitsReset _ _ (by omega)

/-! ## SHRI -/

theorem runStream (t : BitTree (Option α)) : Stays (SameWith P) (runStream t) :=
  (runField_stays F.readerOps t).bind fun v => by
    cases v with
    | none => exact .raise _
    | some a => exact .pure _

theorem ariGetcode (c : Config) (n : Nat) : Stays (SameWith P) (ariGetcode c n) :=
  (F.other readAri_changes (by decide)).bind fun _ => (F.runStream _).bind fun _ =>
    (F.other (setAri_changes _) (by decide)).bind fun _ => .pure _

theorem ariDecsym (c : Config) : Stays (SameWith P) (ariDecsym c) :=
  (F.other readAri_changes (by decide)).bind fun _ => (F.runStream _).bind fun _ =>
    (F.other (setAri_changes _) (by decide)).bind fun _ => .pure _

theorem runMatch (c : Config) (p : MatchProg) : Stays (SameWith P) (runMatch c p) := by
  induction p with
  | done r =>
    cases r with
    | none => exact .raise _
    | some r => exact .pure _
  | getCode a n next ih => exact (F.runStream _).bind fun x => ih x.1 x.2

theorem ariMatch (c : Config) (sym : Fin 499) : Stays (SameWith P) (ariMatch c sym) :=
  (F.other readAri_changes (by decide)).bind fun _ => (F.runMatch c _).bind fun _ =>
    (F.other (setAri_changes _) (by decide)).bind fun _ => .pure _

theorem shriTurn (c : Config) : Stays (SameWith P) (shriTurn c) :=
  (F.ariDecsym c).bind fun _ => (F.other (ariUpdate_changes c _) (by decide)).bind fun _ =>
    Sim.ite ((F.fwrWrb _).bind fun _ => .pure _)
      ((Sim.ite ((F.ariGetcode c 16).bind fun _ => (F.ariGetcode c 16).bind fun _ => .pure _)
        ((F.ariMatch c _).bind fun _ => .pure _)).bind fun _ => (F.fwrCopyh _ _).bind fun _ => .pure _)

theorem shriSequence (c : Config) : Stays (SameWith P) (shriSequence c) := by
  refine F.commonSetup.bind fun _ => (F.other (shriVersion_changes c) (by decide)).bind fun _ =>
    (chunkBytes_stays F.readerOps).bind fun bytes => ?_
  cases c.shriHeader bytes with
  | none => exact .raise _
  | some h =>
    refine Sim.state fun s s' e => ?_
    obtain ⟨rfl, _⟩ := e
    refine (F.fcurSet _ _).bind fun _ => (F.bitsReset _ _ (by omega)).bind fun _ =>
      (fwrRoom_stays F.writerOps).bind fun _ => Sim.state fun s s' e => ?_
    obtain ⟨rfl, _⟩ := e
    exact (whileNotEof_stays F.writerOps sameWith_progress (F.shriTurn c) _).bind fun _ =>
      (F.other (histPush_changes c) (by decide)).bind fun _ => F.macroEnd

/-! ## All commands -/

theorem arg0 {f : Word → M α} (hf : ∀ a, Stays (SameWith P) (f a)) : Stays (SameWith P) (readArg0 >>= f) :=
  (F.other readArg0_changes (by decide)).bind hf

theorem arg1 {f : Word → M α} (hf : ∀ a, Stays (SameWith P) (f a)) : Stays (SameWith P) (readArg1 >>= f) :=
  (F.other readArg1_changes (by decide)).bind hf

theorem arg2 {f : Word → M α} (hf : ∀ a, Stays (SameWith P) (f a)) : Stays (SameWith P) (readArg2 >>= f) :=
  (F.other readArg2_changes (by decide)).bind hf

theorem result {x : M α} {g : α → Word} (hx : Stays (SameWith P) x) : Stays (SameWith P) (x >>= fun a => setRes0 (g a)) :=
  hx.bind fun _ => F.other (setRes0_changes _) (by decide)

/-- The body of every well-formed command keeps the invariant. -/
theorem bodyOf {i : Instr} (hi : i.wellFormed = true) : Stays (SameWith P) (bodyOf i) := by
  have r := F.readerOps
  have w := F.writerOps
  have t := F.tableOps
  have done := F.macroEnd
  cases i with
  | instReset => exact .pure _
  | fcurSet => exact F.arg0 fun _ => F.arg1 fun _ => F.fcurSet _ _
  | fcurRdb => exact F.result F.fcurRdb
  | fcurConsume => exact F.arg0 fun _ => F.result (F.fcurConsume _)
  | bcurSet => exact F.arg0 fun _ => F.arg1 fun _ => F.bcurSet _ _
  | bcurRdb => exact F.result F.bcurRdb
  | bcurConsume => exact F.arg0 fun _ => F.result (F.bcurConsume _)
  | bitsRd8 n => exact F.result (readBits_stays r _ _)
  | bitsRd32 n => exact F.result (readBits_stays r _ _)
  | bitsReset n => exact F.arg0 fun _ => F.bitsReset _ _ (by simpa [Instr.wellFormed, legalBitCount] using hi)
  | fwrSet => exact F.arg0 fun _ => F.arg1 fun _ => F.fwrSet _ _
  | fwrWrb b => exact F.fwrWrb b
  | fwrCopy => exact F.arg0 fun _ => F.arg1 fun _ => F.fwrCopy _ _
  | fwrCopyh => exact F.arg0 fun _ => F.arg1 fun _ => F.fwrCopyh _ _
  | fwrEof => exact F.result (fwrEof_stays w)
  | fwrOff => exact F.result (F.other fwrOff_changes (by decide))
  | bwrSet => exact F.arg0 fun _ => F.arg1 fun _ => F.bwrSet _ _
  | bwrWrb b => exact F.bwrWrb b
  | bwrCopy => exact F.arg0 fun _ => F.arg1 fun _ => F.bwrCopy _ _
  | bwrEof => exact F.result (F.other bwrEof_changes (by decide))
  | bwrOff => exact F.result (F.other bwrOff_changes (by decide))
  | histPush => exact F.other (histPush_changes _) (by decide)
  | hufClear t => exact F.hufClear _
  | hufInsert t => exact F.arg0 fun _ => F.arg1 fun _ => F.arg2 fun _ => F.hufInsert _ _ _ _ _
  | hufBuild t => exact F.arg0 fun _ => F.hufBuild _ _ _
  | hufDecode slot bs => exact F.result (hufDecode_stays r t trivial _)
  | dhufInit => exact F.arg0 fun _ => dhufInit_stays F.ownsDhuf _ _
  | dhufDecode bs => exact F.result (dhufDecode_stays F.ownsDhuf r _ _)
  | dhufUpdate => exact F.arg0 fun _ => dhufUpdate_stays F.ownsDhuf _ _
  | dhufMaxf => exact F.result (dhufMaxF_stays F.ownsDhuf _)
  | mtfInit l => exact F.arg0 fun _ => F.mtfInit _ _
  | mtfAccess l => exact F.arg0 fun _ => F.result (F.mtfAccess _ _)
  | lzwSetup => exact F.arg0 fun _ => F.arg1 fun _ => lzwSetup_stays F.ownsLzw _ _
  | lzwRestart => exact lzwRestart_stays F.ownsLzw r w
  | lzwStep => exact F.result (lzwStep_stays F.ownsLzw r w)
  | bzStart => exact F.arg0 fun _ => bzStart_stays F.blockOps t _
  | bzBlock =>
    exact F.result (bzBlock_stays (fun _ => r) (fun _ => t) F.lensOps F.blockOps F.listOps knowsSlots_all _)
  | bzUnbwt => exact bzUnbwt_stays w F.blockOps _
  | ariScale =>
    exact F.arg0 fun _ => F.arg1 fun _ => F.arg2 fun _ => F.result (F.other (ariScale_changes _ _ _ _) (by decide))
  | ariGetcode n => exact F.result (F.ariGetcode _ _)
  | ariDecsym => exact F.result (F.ariDecsym _)
  | ariUpdate => exact F.arg0 fun _ => F.other (ariUpdate_changes _ _) (by decide)
  | ariInit => exact F.other (ariInit_changes _) (by decide)
  | decompressBlzw =>
    exact blzwSequence_sim F.commonSetup (F.ownsLzw.update fun _ => Lzw.unset) r w F.ownsLzw sameWith_progress done
  | decompressBzp2 =>
    exact bzp2Sequence_sim F.commonSetup F.clearBzp2 (fun _ => r) w (fun _ => t) F.lensOps F.blockOps F.listOps
      knowsSlots_all done _
  | decompressLhlb =>
    exact lhlbSequence_sim F.commonSetup (F.ownsDhuf.update fun _ => some { nsym := 0#32, tree := none }) r w F.ownsDhuf
      sameWith_progress done _
  | decompressMash => exact mashSequence_sim F.commonSetup (F.hufClear 0) r w sameWith_progress done _
  | decompressRake =>
    exact rakeSequence_sim F.rakeSetup r F.rakePlace r F.backwardOps t trivial F.lensOps sameWith_progress done _
  | decompressShri => exact F.shriSequence _
  | decompressSmpl =>
    exact smplSequence_sim F.commonSetup (F.ownsSmplAcc.update fun _ => none) r (F.hufClear 0) (fun _ => r) w t trivial
      F.lensOps F.ownsSmplAcc sameWith_progress done _
  | decompressSqsh =>
    exact sqshSequence_sim F.commonSetup F.hufClear (F.other (modify_sqsh _ _) (by decide)) r w F.ownsSqshQ
      F.ownsSqshSample sameWith_progress done _

end FormOps

/-! ## From the commands to the step -/

theorem illegalCommand_agree (s : State) {p : Part} (hp : p ∈ formParts) : p.Agree s (illegalCommand s) := by
  unfold illegalCommand
  split
  · exact agree_of_mem_formParts hp rfl
  · exact agree_of_mem_formParts hp rfl

/-- An invariant of these parts that holds at reset and where everything is lost is kept by every step. -/
theorem FormOps.step {P : State → Prop} (F : FormOps P) (reset : P State.reset)
    (lost : ∀ d k c s, P (errorEntry d k c s)) : ∀ s t, P s → step s = .next t → P t := by
  have notMem : ∀ p ∈ formParts, p ∉ [Part.host, .lengths] := by decide
  refine step_invariant (fun s t hc _ hs => F.speaks s t (fun p hp => hc p (notMem p hp)) hs)
    (fun s hs => F.speaks s _ (fun p => illegalCommand_agree s) hs) (exec_invariant ?_ ?_ ?_)
  · intro s _ t h
    obtain rfl := Host.Outcome.next.inj h
    exact F.speaks State.reset _ (fun p hp => agree_of_mem_formParts hp rfl) reset
  · intro i s t hi _ _ hs h
    have begun : P (beginCommand s) := F.speaks s _ (fun p hp => agree_of_mem_formParts hp rfl) hs
    exact F.speaks t _ (fun p hp => agree_of_mem_formParts hp rfl) ((F.bodyOf hi).keeps begun h)
  · exact fun i s e t k c _ _ _ _ _ _ => lost _ _ _ _

/-! ## The cursors and the writers (spec/10_state.md R28 to R32) -/

theorem readerForm_speaks : SpeaksOf [.reader, .backCursor, .writer, .backWriter] State.ReaderForm := by
  intro s t h hs
  have hr := h .reader (by decide)
  have hb := h .backCursor (by decide)
  have hw := h .writer (by decide)
  have hv := h .backWriter (by decide)
  simp only [Part.Agree, Prod.mk.injEq] at hr hb hw hv
  unfold State.ReaderForm
  rw [← hr.1, ← hr.2.1, ← hr.2.2, ← hb, ← hw, ← hv]
  exact hs

theorem readerForm_fcurSet (start stop : Word) : Stays (SameWith State.ReaderForm) (fcurSet start stop) := by
  refine stays_of_ok fun s _ t ⟨_, hb, hbits, hw, hv⟩ h => ?_
  rw [fcurSet_eq] at h
  split at h
  · cases h
  · cases h
    exact ⟨fun f hf => by cases hf; dsimp only; omega, hb, hbits, hw, hv⟩

theorem toWord_toNat_of_le {n : Nat} {w : Word} (h : n ≤ w.toNat) : (toWord n).toNat = n :=
  toWord_toNat_of_lt (h.trans_lt w.isLt)

theorem readerForm_fcurRdb : Stays (SameWith State.ReaderForm) fcurRdb := by
  refine stays_of_ok fun s _ t ⟨_, hb, hbits, hw, hv⟩ h => ?_
  rw [fcurRdb_eq] at h
  repeat' split at h
  all_goals cases h
  rename_i f hf hlt _ _
  have hlt : f.pos.toNat + 1 ≤ f.stop.toNat := by have := fcurEnd_le_stop f s; omega
  refine ⟨fun f' hf' => ?_, hb, hbits, hw, hv⟩
  cases hf'
  rwa [toWord_toNat_of_le hlt]

theorem readerForm_fcurConsume (n : Nat) : Stays (SameWith State.ReaderForm) (fcurConsume n) := by
  refine stays_of_ok fun s _ t ⟨_, hb, hbits, hw, hv⟩ h => ?_
  rw [fcurConsume_eq] at h
  split at h
  · cases h
  · rename_i f hf
    have hstop := fcurEnd_le_stop f s
    by_cases hn : f.pos.toNat + n > (if n = 0 then f.stop.toNat else fcurEnd f s)
    · rw [if_pos hn] at h
      cases h
    · rw [if_neg hn] at h
      cases h
      have hle : f.pos.toNat + n ≤ f.stop.toNat := by split at hn <;> omega
      refine ⟨fun f' hf' => ?_, hb, hbits, hw, hv⟩
      cases hf'
      rwa [toWord_toNat_of_le hle]

theorem readerForm_takeBits (n : Nat) : Stays (SameWith State.ReaderForm) (takeBits n) := by
  refine stays_of_ok fun s _ t ⟨hf, hb, hbits, hw, hv⟩ h => ?_
  rw [takeBits_eq] at h
  split at h
  · rename_i cnt acc hc ha
    cases h
    refine ⟨hf, hb, fun k hk => ?_, hw, hv⟩
    cases hk
    have := (hbits cnt hc).1
    exact ⟨by omega, .inr ⟨acc, ha⟩⟩
  · cases h

theorem readerForm_bitsReset (seed : Word) (n : Nat) (hn : n ≤ 32) : Stays (SameWith State.ReaderForm) (bitsReset seed n) := by
  refine stays_of_ok fun s _ t ⟨hf, hb, _, hw, hv⟩ h => ?_
  cases h
  exact ⟨hf, hb, fun k hk => by cases hk; exact ⟨hn, .inr ⟨seed, rfl⟩⟩, hw, hv⟩

theorem readerForm_bcurSet (floor start : Word) : Stays (SameWith State.ReaderForm) (bcurSet floor start) := by
  refine stays_of_ok fun s _ t ⟨hf, _, hbits, hw, hv⟩ h => ?_
  rw [bcurSet_eq] at h
  split at h
  · cases h
  · cases h
    exact ⟨hf, fun f hf => by cases hf; dsimp only; omega, hbits, hw, hv⟩

theorem readerForm_bcurRdb : Stays (SameWith State.ReaderForm) bcurRdb := by
  refine stays_of_ok fun s _ t ⟨hf, _, hbits, hw, hv⟩ h => ?_
  rw [bcurRdb_eq] at h
  repeat' split at h
  all_goals cases h
  rename_i f hb hlt _ _
  refine ⟨hf, fun f' hf' => ?_, hbits, hw, hv⟩
  cases hf'
  rw [toWord_toNat_of_le (w := f.pos) (by omega)]
  dsimp only
  omega

theorem readerForm_bcurConsume (n : Nat) : Stays (SameWith State.ReaderForm) (bcurConsume n) := by
  refine stays_of_ok fun s _ t ⟨hf, _, hbits, hw, hv⟩ h => ?_
  rw [bcurConsume_eq] at h
  repeat' split at h
  all_goals cases h
  rename_i f hb hlt
  refine ⟨hf, fun f' hf' => ?_, hbits, hw, hv⟩
  cases hf'
  rw [toWord_toNat_of_le (w := f.pos) (by omega)]
  dsimp only
  omega

theorem readerForm_fwrSet (start stop : Word) : Stays (SameWith State.ReaderForm) (fwrSet start stop) := by
  refine stays_of_ok fun s _ t ⟨hf, hb, hbits, _, hv⟩ h => ?_
  rw [fwrSet_eq] at h
  split at h
  · cases h
  · cases h
    exact ⟨hf, hb, hbits, fun f hf => by cases hf; dsimp only; omega, hv⟩

/-- A byte that is written below the end of the span leaves the writer in form. -/
theorem readerForm_fwrPut {s : State} {f : Fwr} (b : Byte) (hs : s.ReaderForm) (hf : s.fwr = some f)
    (hlt : f.pos.toNat < f.stop.toNat) : (fwrPut f b s).ReaderForm := by
  obtain ⟨hc, hb, hbits, hw, hv⟩ := hs
  refine ⟨hc, hb, hbits, fun f' hf' => ?_, hv⟩
  have := hw f hf
  rw [fwrPut_fwr] at hf'
  cases hf'
  rw [toWord_toNat_of_le (w := f.stop) (by omega)]
  dsimp only
  omega

theorem readerForm_fwrWrb (b : Byte) : Stays (SameWith State.ReaderForm) (fwrWrb b) := by
  refine stays_of_ok fun s _ t hs h => ?_
  rw [fwrWrb_eq] at h
  repeat' split at h
  all_goals cases h
  exact readerForm_fwrPut b hs (by assumption) (by omega)

/-- A copy loop of the forward writer with the room that was checked before it. -/
theorem readerForm_fwrCopyLoop (d : Nat) {c : Nat} {s t : State} (hs : s.ReaderForm)
    (hroom : ∀ f, s.fwr = some f → f.pos.toNat + c ≤ f.stop.toNat) (h : fwrCopyLoop d c s = .ok () t) : t.ReaderForm := by
  induction c generalizing s with
  | zero => cases h; exact hs
  | succ c ih =>
    rw [fwrCopyLoop_succ] at h
    split at h
    · cases h
    · rename_i f hf
      have := hroom f hf
      split at h
      · cases h
      · refine ih (readerForm_fwrPut _ hs hf (by omega)) (fun f' hf' => ?_) h
        cases hf'
        rw [toWord_toNat_of_le (w := f.stop) (by omega)]
        dsimp only
        omega

theorem readerForm_fwrCopyhLoop (history : List Byte) (d : Nat) {c : Nat} {s t : State} (hs : s.ReaderForm)
    (hroom : ∀ f, s.fwr = some f → f.pos.toNat + c ≤ f.stop.toNat) (h : fwrCopyhLoop history d c s = .ok () t) :
    t.ReaderForm := by
  induction c generalizing s with
  | zero => cases h; exact hs
  | succ c ih =>
    rw [fwrCopyhLoop_succ] at h
    split at h
    · cases h
    · rename_i f hf
      have := hroom f hf
      split at h
      · cases h
      · refine ih (readerForm_fwrPut _ hs hf (by omega)) (fun f' hf' => ?_) h
        cases hf'
        rw [toWord_toNat_of_le (w := f.stop) (by omega)]
        dsimp only
        omega

theorem readerForm_fwrCopy (d c : Nat) : Stays (SameWith State.ReaderForm) (fwrCopy d c) := by
  refine stays_of_ok fun s _ t hs h => ?_
  rw [fwrCopy_eq] at h
  split at h
  · cases h
  · split at h
    · cases h
    · rename_i f hf
      split at h
      · cases h
      · split at h
        · cases h
        · exact readerForm_fwrCopyLoop d hs (fun f' hf' => by cases hf.symm.trans hf'; omega) h

theorem readerForm_fwrCopyh (d c : Nat) : Stays (SameWith State.ReaderForm) (fwrCopyh d c) := by
  refine stays_of_ok fun s _ t hs h => ?_
  rw [fwrCopyh_eq] at h
  split at h
  · cases h
  · split at h
    · cases h
    · rename_i f hf
      split at h
      · cases h
      · split at h
        · cases h
        · exact readerForm_fwrCopyhLoop _ d hs (fun f' hf' => by cases hf.symm.trans hf'; omega) h

theorem readerForm_bwrSet (floor top : Word) : Stays (SameWith State.ReaderForm) (bwrSet floor top) := by
  refine stays_of_ok fun s _ t ⟨hf, hb, hbits, hw, _⟩ h => ?_
  rw [bwrSet_eq] at h
  split at h
  · cases h
  · cases h
    exact ⟨hf, hb, hbits, hw, fun f hf => by cases hf; dsimp only; omega⟩

/-- A byte that is written above the floor leaves the backward writer in form. -/
theorem readerForm_bwrPut {s : State} {f : Bwr} (b : Byte) (hs : s.ReaderForm) (hf : s.bwr = some f)
    (hlt : f.floor.toNat < f.pos.toNat) : (bwrPut f b s).ReaderForm := by
  obtain ⟨hc, hb, hbits, hw, hv⟩ := hs
  refine ⟨hc, hb, hbits, hw, fun f' hf' => ?_⟩
  have := hv f hf
  rw [bwrPut_bwr] at hf'
  cases hf'
  rw [toWord_toNat_of_le (w := f.pos) (by omega)]
  dsimp only
  omega

theorem readerForm_bwrWrb (b : Byte) : Stays (SameWith State.ReaderForm) (bwrWrb b) := by
  refine stays_of_ok fun s _ t hs h => ?_
  rw [bwrWrb_eq] at h
  repeat' split at h
  all_goals cases h
  exact readerForm_bwrPut b hs (by assumption) (by omega)

/-- A copy loop of the backward writer with the room that was checked before it. -/
theorem readerForm_bwrCopyLoop (d : Nat) {c : Nat} {s t : State} (hs : s.ReaderForm)
    (hroom : ∀ f, s.bwr = some f → f.floor.toNat + c ≤ f.pos.toNat) (h : bwrCopyLoop d c s = .ok () t) :
    t.ReaderForm := by
  induction c generalizing s with
  | zero => cases h; exact hs
  | succ c ih =>
    rw [bwrCopyLoop_succ] at h
    split at h
    · cases h
    · rename_i f hf
      have := hroom f hf
      split at h
      · cases h
      · refine ih (readerForm_bwrPut _ hs hf (by omega)) (fun f' hf' => ?_) h
        cases hf'
        rw [toWord_toNat_of_le (w := f.pos) (by omega)]
        dsimp only
        omega

theorem readerForm_bwrCopy (d c : Nat) : Stays (SameWith State.ReaderForm) (bwrCopy d c) := by
  refine stays_of_ok fun s _ t hs h => ?_
  rw [bwrCopy_eq] at h
  split at h
  · cases h
  · split at h
    · cases h
    · rename_i f hf
      split at h
      · cases h
      · split at h
        · cases h
        · exact readerForm_bwrCopyLoop d hs (fun f' hf' => by cases hf.symm.trans hf'; omega) h

theorem readerForm_ops : FormOps State.ReaderForm where
  speaks s t h := readerForm_speaks s t fun p hp =>
    h p ((by decide : ∀ p ∈ [Part.reader, .backCursor, .writer, .backWriter], p ∈ formParts) p hp)
  fcurSet := readerForm_fcurSet
  fcurRdb := readerForm_fcurRdb
  fcurConsume := readerForm_fcurConsume
  takeBits := readerForm_takeBits
  bitsReset := readerForm_bitsReset
  bcurSet := readerForm_bcurSet
  bcurRdb := readerForm_bcurRdb
  bcurConsume := readerForm_bcurConsume
  fwrSet := readerForm_fwrSet
  fwrWrb := readerForm_fwrWrb
  fwrCopy := readerForm_fwrCopy
  fwrCopyh := readerForm_fwrCopyh
  bwrSet := readerForm_bwrSet
  bwrWrb := readerForm_bwrWrb
  bwrCopy := readerForm_bwrCopy
  setSlot t es _ := stays_of_changes readerForm_speaks (setSlot_changes t es) (by decide)
  hufInsert c t l code sym := stays_of_changes readerForm_speaks (hufInsert_changes c t l code sym) (by decide)
  hufBuild c t n := stays_of_changes readerForm_speaks (hufBuild_changes c t n) (by decide)
  mtfInit l n := stays_of_changes readerForm_speaks (mtfInit_changes l n) (by decide)
  mtfAccess l j := stays_of_changes readerForm_speaks (mtfAccess_changes l j) (by decide)
  clearBzp2 := stays_of_changes readerForm_speaks (modify_changes _ clearBzp2_changes) (by decide)

/-! ## The tables and the lists (spec/10_state.md R34, R37) -/

theorem tableForm_speaks : SpeaksOf [.tables, .lists] State.TableForm := by
  intro s t h hs
  have ht := h .tables (by decide)
  have hl := h .lists (by decide)
  simp only [Part.Agree, Prod.mk.injEq] at ht hl
  have hm : ∀ l, mtfOf l t = mtfOf l s := fun l => by cases l <;> simp [mtfOf, hl]
  refine ⟨fun k es => ?_, fun l xs => ?_⟩
  · rw [← ht]; exact hs.1 k es
  · rw [hm]; exact hs.2 l xs

/-- A slot that is set to a lawful table leaves the tables in form. -/
theorem tableForm_set {s : State} (hs : s.TableForm) (t : Fin 16) {es : Table} (he : LawfulTable es) :
    ({ s with ht := s.ht.set t (some es) } : State).TableForm := by
  refine ⟨fun k es' hk => ?_, fun l xs hx => hs.2 l xs (by cases l <;> exact hx)⟩
  dsimp only at hk
  by_cases hkt : t = k
  · subst hkt
    simp only [Fin.getElem_fin, Vector.getElem_set_self] at hk
    exact Option.some.inj hk ▸ he
  · simp only [Fin.getElem_fin] at hk
    rw [Vector.getElem_set_ne _ _ (by omega)] at hk
    exact hs.1 k es' hk

theorem tableForm_setSlot (t : Fin 16) (es : Table) (he : LawfulTable es) : Stays (SameWith State.TableForm) (setSlot t es) := by
  refine stays_of_ok fun s _ u hs h => ?_
  cases h
  exact tableForm_set hs t he

theorem tableForm_hufInsert (c : Config) (t : Fin 16) (l code : Nat) (sym : Word) :
    Stays (SameWith State.TableForm) (hufInsert c t l code sym) := by
  refine stays_of_ok fun s _ u hs h => ?_
  rw [hufInsert_eq] at h
  split at h
  · cases h
  · split at h
    · cases h
    · rename_i hl table ht
      split at h
      · cases h
      · rename_i hclash
        split at h
        · cases h
        · cases h
          refine tableForm_set hs t ((hs.1 t table ht).addEntry ?_ ?_ (by simpa using hclash))
          · dsimp only; omega
          · exact Nat.mod_lt _ (Nat.two_pow_pos _)

theorem tableForm_hufBuild (c : Config) (t : Fin 16) (n : Nat) : Stays (SameWith State.TableForm) (hufBuild c t n) := by
  refine stays_of_ok fun s _ u hs h => ?_
  rw [hufBuild_eq] at h
  split at h
  · cases h
  · split at h
    · cases h
    · split at h
      · cases h
      · rename_i hlen
        split at h
        · cases h
        · rename_i es hes
          split at h
          · cases h
          · cases h
            refine tableForm_set hs t ((canonicalCodes_lawful (fun l hl => ?_) hes).perm (tableOf_perm es))
            by_contra hgt
            exact hlen (List.any_eq_true.2 ⟨l, hl, by simpa using hgt⟩)

/-- A list that is a permutation leaves the lists in form. -/
theorem tableForm_withMtf {s : State} (hs : s.TableForm) (l : MtfStore) {xs : List Nat} (hl : xs.length ≤ 256)
    (hp : xs.Perm (List.range xs.length)) : (withMtf l xs s).TableForm := by
  refine ⟨fun k es hk => hs.1 k es (by rwa [withMtf_ht] at hk), fun k ys hy => ?_⟩
  cases l <;> cases k
  case selectors.selectors => cases hy; exact ⟨hl, hp⟩
  case data.data => cases hy; exact ⟨hl, hp⟩
  case selectors.data => exact hs.2 .data ys hy
  case data.selectors => exact hs.2 .selectors ys hy

theorem tableForm_mtfInit (l : MtfStore) (n : Nat) : Stays (SameWith State.TableForm) (mtfInit l n) := by
  refine stays_of_ok fun s _ u hs h => ?_
  rw [mtfInit_eq] at h
  split at h
  · cases h
  · cases h
    exact tableForm_withMtf hs l (by simp; omega) (by simp)

/-- An access permutes the list (R291, R292). -/
theorem moveToFront_perm {xs : List Nat} {j e : Nat} (h : xs[j]? = some e) : (moveToFront xs j e).Perm xs := by
  obtain ⟨hj, rfl⟩ := List.getElem?_eq_some_iff.1 h
  exact List.getElem_cons_eraseIdx_perm hj

theorem tableForm_mtfAccess (l : MtfStore) (j : Nat) : Stays (SameWith State.TableForm) (mtfAccess l j) := by
  refine stays_of_ok fun s _ u hs h => ?_
  rw [mtfAccess_eq] at h
  split at h
  · cases h
  · rename_i xs hx
    split at h
    · cases h
    · rename_i e he
      cases h
      have hp := moveToFront_perm he
      obtain ⟨hl, hr⟩ := hs.2 l xs hx
      exact tableForm_withMtf hs l (hp.length_eq ▸ hl) (hp.length_eq ▸ hp.trans hr)

/-- Slots that are cleared leave the tables in form. -/
theorem tableForm_clearSlots {s : State} (hs : s.TableForm) (ts : List Nat) :
    ({ s with ht := ts.foldl (fun h t => h.set (Fin.ofNat 16 t) (some [])) s.ht } : State).TableForm := by
  induction ts generalizing s with
  | nil => exact hs
  | cons t ts ih => exact ih (tableForm_set hs (Fin.ofNat 16 t) lawfulTable_nil)

theorem tableForm_clearBzp2 : Stays (SameWith State.TableForm) (modify clearBzp2) := by
  refine stays_of_ok fun s _ u hs h => ?_
  cases h
  refine ⟨(tableForm_clearSlots hs (List.range 8)).1, fun l xs hx => ?_⟩
  cases l <;> cases hx <;> exact ⟨Nat.zero_le _, List.Perm.refl _⟩

theorem tableForm_ops : FormOps State.TableForm where
  speaks s t h := tableForm_speaks s t fun p hp =>
    h p ((by decide : ∀ p ∈ [Part.tables, .lists], p ∈ formParts) p hp)
  fcurSet start stop := stays_of_changes tableForm_speaks (fcurSet_changes start stop) (by decide)
  fcurRdb := stays_of_changes tableForm_speaks fcurRdb_changes (by decide)
  fcurConsume n := stays_of_changes tableForm_speaks (fcurConsume_changes n) (by decide)
  takeBits n := stays_of_changes tableForm_speaks (takeBits_changes n) (by decide)
  bitsReset seed n _ := stays_of_changes tableForm_speaks (bitsReset_changes seed n) (by decide)
  bcurSet floor start := stays_of_changes tableForm_speaks (bcurSet_changes floor start) (by decide)
  bcurRdb := stays_of_changes tableForm_speaks bcurRdb_changes (by decide)
  bcurConsume n := stays_of_changes tableForm_speaks (bcurConsume_changes n) (by decide)
  fwrSet start stop := stays_of_changes tableForm_speaks (fwrSet_changes start stop) (by decide)
  fwrWrb b := stays_of_changes tableForm_speaks (fwrWrb_changes b) (by decide)
  fwrCopy d c := stays_of_changes tableForm_speaks (fwrCopy_changes d c) (by decide)
  fwrCopyh d c := stays_of_changes tableForm_speaks (fwrCopyh_changes d c) (by decide)
  bwrSet floor top := stays_of_changes tableForm_speaks (bwrSet_changes floor top) (by decide)
  bwrWrb b := stays_of_changes tableForm_speaks (bwrWrb_changes b) (by decide)
  bwrCopy d c := stays_of_changes tableForm_speaks (bwrCopy_changes d c) (by decide)
  setSlot := tableForm_setSlot
  hufInsert := tableForm_hufInsert
  hufBuild := tableForm_hufBuild
  mtfInit := tableForm_mtfInit
  mtfAccess := tableForm_mtfAccess
  clearBzp2 := tableForm_clearBzp2

/-- Where everything is lost, nothing is out of form. -/
theorem readerForm_errorEntry (d : Bool) (k : Kind) (c : Option Cause) (s : State) : (errorEntry d k c s).ReaderForm := by
  simp [State.ReaderForm]

theorem tableForm_errorEntry (d : Bool) (k : Kind) (c : Option Cause) (s : State) : (errorEntry d k c s).TableForm := by
  refine ⟨fun t es h => ?_, fun l xs h => ?_⟩
  · simp at h
  · cases l <;> simp [mtfOf] at h

end Sys2Proof.Machine

open Sys2Proof Sys2Proof.Machine

/-- Settles O17: every shared operation keeps the cursors and writers in form. -/
theorem stepKeepsReaderForm : Obligations.StepKeepsReaderForm :=
  readerForm_ops.step reset_readerForm readerForm_errorEntry

/-- Settles O18: an insertion checks for clashes, a build gives canonical codes, an access permutes its list. -/
theorem stepKeepsTableForm : Obligations.StepKeepsTableForm :=
  tableForm_ops.step reset_tableForm tableForm_errorEntry

end

section
/-! SUPPORT. Two runs of a stateless DECOMPRESS command. They begin in states of which only CHUNK, CHUNK_LEN and RAW_LEN
agree; from the setup of the sequencer on they agree in everything that the sequencer reads (`Twin`). -/

namespace Sys2Proof.Machine

/-- The forward writer is the same in both runs, ends at `len`, and what is below its position has been written alike. -/
def ForwardAlike (len : Word) (s s' : State) : Prop :=
  s.fwr = s'.fwr ∧ ∃ f, s.fwr = some f ∧ f.stop = len ∧ ∀ k, k < f.pos.toNat → storeRead s.raw k = storeRead s'.raw k

/-- The backward writer is the same in both runs, spans 0 to `len`, and what is above its position has been written
alike. -/
def BackwardAlike (len : Word) (s s' : State) : Prop :=
  s.bwr = s'.bwr ∧ ∃ f, s.bwr = some f ∧ f.top = len ∧ f.floor = 0#32 ∧
    ∀ k, f.pos.toNat ≤ k → k < len.toNat → storeRead s.raw k = storeRead s'.raw k

/-- What two runs that began in `s₀` and `s₀'` agree in: the input and its reader, the listed parts, the known slots of HT
and the first `n` bytes of LENM. A writer that is not listed is as it was at the begin of its run. -/
structure Twin (s₀ s₀' : State) (ps : List Part) (known : Fin 16 → Prop) (n : Nat) (s s' : State) : Prop where
  chunk : s.chunk = s'.chunk
  chunkLen : s.chunkLen = s'.chunkLen
  fcur : s.fcur = s'.fcur
  bitsAcc : s.bitsAcc = s'.bitsAcc
  bitsCnt : s.bitsCnt = s'.bitsCnt
  slot : ∀ t, known t → s.ht[t] = s'.ht[t]
  lens : ∀ k, k < n → storeRead s.lenm k = storeRead s'.lenm k
  fwr : .writer ∉ ps → s.fwr = s₀.fwr ∧ s'.fwr = s₀'.fwr := by exact fun h => absurd (by decide) h
  forward : .writer ∈ ps → ForwardAlike s₀.rawLen s s' := by exact fun h => absurd h (by decide)
  bwr : .backWriter ∉ ps → s.bwr = s₀.bwr ∧ s'.bwr = s₀'.bwr := by exact fun h => absurd (by decide) h
  backward : .backWriter ∈ ps → BackwardAlike s₀.rawLen s s' := by exact fun h => absurd h (by decide)
  bcur : .backCursor ∈ ps → s.bcur = s'.bcur := by exact fun h => absurd h (by decide)
  dhuf : .tracker ∈ ps → s.dhuf = s'.dhuf := by exact fun h => absurd h (by decide)
  mtf0 : .lists ∈ ps → s.mtf0 = s'.mtf0 := by exact fun h => absurd h (by decide)
  mtf1 : .lists ∈ ps → s.mtf1 = s'.mtf1 := by exact fun h => absurd h (by decide)
  lzw : .dictionary ∈ ps → s.lzw = s'.lzw := by exact fun h => absurd h (by decide)
  bz : .block ∈ ps → s.bz = s'.bz ∧ KnownSelectors known s.bz := by exact fun h => absurd h (by decide)
  smplAcc : .smpl ∈ ps → s.smplAcc = s'.smplAcc := by exact fun h => absurd h (by decide)
  sqshQ : .sqsh ∈ ps → s.sqshQ = s'.sqshQ := by exact fun h => absurd h (by decide)
  sqshSample : .sqsh ∈ ps → s.sqshSample = s'.sqshSample := by exact fun h => absurd h (by decide)

section Twin

variable {s₀ s₀' : State} {ps : List Part} {known : Fin 16 → Prop} {n : Nat} {s s' : State}

/-! ## The stream -/

theorem twin_fcurSet (start stop : Word) : Stays (Twin s₀ s₀' ps known n) (fcurSet start stop) := fun s s' h => by
  rw [fcurSet_eq, fcurSet_eq, h.chunkLen]
  split
  · exact .error
  · exact .ok { h with chunkLen := rfl, fcur := rfl }

theorem Twin.fcurEnd (h : Twin s₀ s₀' ps known n s s') (f : Fcur) : fcurEnd f s = fcurEnd f s' := by
  rw [Machine.fcurEnd, Machine.fcurEnd, h.chunkLen]

theorem twin_fcurRdb : Stays (Twin s₀ s₀' ps known n) fcurRdb := fun s s' h => by
  rw [fcurRdb_eq, fcurRdb_eq, h.fcur]
  split
  · exact .error
  · rename_i f hf
    rw [h.fcurEnd f, h.chunk]
    split
    · exact .error
    · split
      · exact .error
      · exact .ok { h with chunk := rfl, fcur := rfl }

theorem twin_fcurConsume (k : Nat) : Stays (Twin s₀ s₀' ps known n) (fcurConsume k) := fun s s' h => by
  rw [fcurConsume_eq, fcurConsume_eq, h.fcur]
  split
  · exact .error
  · rename_i f hf
    rw [h.fcurEnd f]
    by_cases hk : f.pos.toNat + k > (if k = 0 then f.stop.toNat else Machine.fcurEnd f s')
    · rw [if_pos hk, if_pos hk]; exact .error
    · rw [if_neg hk, if_neg hk]; exact .ok { h with fcur := rfl }

theorem twin_takeBits (k : Nat) : Stays (Twin s₀ s₀' ps known n) (takeBits k) := fun s s' h => by
  rw [takeBits_eq, takeBits_eq, h.bitsCnt, h.bitsAcc]
  split
  · exact .ok { h with bitsAcc := rfl, bitsCnt := rfl }
  · exact .error

theorem twin_readerOps : ReaderOps (Twin s₀ s₀' ps known n) where
  chunk h := h.chunk
  chunkLen h := h.chunkLen
  fcur h := h.fcur
  bitsCnt h := h.bitsCnt
  fcurSet := twin_fcurSet
  fcurRdb := twin_fcurRdb
  fcurConsume := twin_fcurConsume
  takeBits := twin_takeBits
  bitsReset _ _ _ := Sim.update fun _ _ h => { h with bitsAcc := rfl, bitsCnt := rfl }

/-! ## The forward writer -/

/-- A byte written alike below the end of the span. -/
theorem ForwardAlike.put {len : Word} (h : ForwardAlike len s s') {f : Fwr} (hf : s.fwr = some f)
    (hlt : f.pos.toNat < f.stop.toNat) (b : Byte) : ForwardAlike len (fwrPut f b s) (fwrPut f b s') := by
  obtain ⟨_, f', hf', hstop, hraw⟩ := h
  obtain rfl : f = f' := Option.some.inj (hf.symm.trans hf')
  refine ⟨rfl, _, fwrPut_fwr _ _ _, hstop, fun k hk => ?_⟩
  rw [toWord_toNat_of_le (w := f.stop) hlt] at hk
  rw [fwrPut_raw, fwrPut_raw, storeRead_write, storeRead_write]
  split
  · rfl
  · exact hraw k (by omega)

/-- What has been written reads alike. -/
theorem ForwardAlike.read {len : Word} (h : ForwardAlike len s s') {f : Fwr} (hf : s.fwr = some f) {k : Nat}
    (hk : k < f.pos.toNat) : storeRead s.raw k = storeRead s'.raw k := by
  obtain ⟨_, f', hf', _, hraw⟩ := h
  obtain rfl : f = f' := Option.some.inj (hf.symm.trans hf')
  exact hraw k hk

/-- A byte written alike by the forward writer, where the backward writer is not in use. -/
theorem Twin.fwrPut (h : Twin s₀ s₀' ps known n s s') (hw : .writer ∈ ps) (hb : .backWriter ∉ ps) {f : Fwr}
    (hf : s.fwr = some f) (hlt : f.pos.toNat < f.stop.toNat) (b : Byte) :
    Twin s₀ s₀' ps known n (fwrPut f b s) (fwrPut f b s') :=
  { h with
    fwr := fun h => absurd hw h, forward := fun _ => (h.forward hw).put hf hlt b,
    backward := fun h => absurd h hb }

theorem twin_fwrWrb (hw : .writer ∈ ps) (hb : .backWriter ∉ ps) (b : Byte) :
    Stays (Twin s₀ s₀' ps known n) (fwrWrb b) := fun s s' h => by
  rw [fwrWrb_eq, fwrWrb_eq, ← (h.forward hw).1]
  split
  · exact .error
  · rename_i f hf
    split
    · exact .error
    · exact .ok (h.fwrPut hw hb hf (by omega) b)

/-- A copy of `c` bytes at distance `d` has its source below the position and room above it. -/
def CopyFits (d c : Nat) (s : State) : Prop :=
  ∀ f, s.fwr = some f → d ≤ f.pos.toNat ∧ f.pos.toNat + c ≤ f.stop.toNat

theorem twin_fwrCopyLoop (hw : .writer ∈ ps) (hb : .backWriter ∉ ps) {d : Nat} (hd : 0 < d) (c : Nat) :
    Sim (fun s s' => Twin s₀ s₀' ps known n s s' ∧ CopyFits d c s)
      (fun s s' => Twin s₀ s₀' ps known n s s' ∧ CopyFits d 0 s) (fwrCopyLoop d c) (fwrCopyLoop d c) := by
  induction c with
  | zero => exact .pure _
  | succ c ih =>
    rintro s s' ⟨h, hfits⟩
    rw [fwrCopyLoop_succ, fwrCopyLoop_succ, ← (h.forward hw).1]
    split
    · exact .error
    · rename_i f hf
      obtain ⟨hdist, hroom⟩ := hfits f hf
      rw [(h.forward hw).read hf (show f.pos.toNat - d < f.pos.toNat by omega)]
      split
      · exact .error
      · refine ih _ _ ⟨h.fwrPut hw hb hf (by omega) _, fun f' hf' => ?_⟩
        cases hf'
        rw [toWord_toNat_of_le (w := f.stop) (by omega)]
        dsimp only
        omega

theorem twin_fwrCopy (hw : .writer ∈ ps) (hb : .backWriter ∉ ps) (d c : Nat) :
    Sim (Twin s₀ s₀' ps known n) (fun s s' => Twin s₀ s₀' ps known n s s' ∧ LastAlike s s') (fwrCopy d c)
      (fwrCopy d c) := by
  intro s s' h
  rw [fwrCopy_eq, fwrCopy_eq, ← (h.forward hw).1]
  split
  · exact .error
  · split
    · exact .error
    · rename_i f hf
      split
      · exact .error
      · split
        · exact .error
        · refine (twin_fwrCopyLoop hw hb (by omega) c s s' ⟨h, fun f' hf' => ?_⟩).mono fun t t' ⟨ht, hfits⟩ => ⟨ht, ?_⟩
          · cases hf.symm.trans hf'
            omega
          · intro f hf
            have := hfits f hf
            exact (ht.forward hw).read hf (by omega)

theorem twin_writerOps (hw : .writer ∈ ps) (hb : .backWriter ∉ ps) : WriterOps (Twin s₀ s₀' ps known n) where
  fwr h := (h.forward hw).1
  written h hf _ := memBytes_congr fun _ _ => (h.forward hw).read hf (by omega)
  fwrWrb := twin_fwrWrb hw hb
  fwrCopy := twin_fwrCopy hw hb

/-! ## The backward cursor and writer -/

/-- A byte written alike above the floor. -/
theorem BackwardAlike.put {len : Word} (h : BackwardAlike len s s') {f : Bwr} (hf : s.bwr = some f) (b : Byte) :
    BackwardAlike len (bwrPut f b s) (bwrPut f b s') := by
  obtain ⟨_, f', hf', htop, hfloor, hraw⟩ := h
  obtain rfl : f = f' := Option.some.inj (hf.symm.trans hf')
  refine ⟨rfl, _, bwrPut_bwr _ _ _, htop, hfloor, fun k hk hlt => ?_⟩
  rw [toWord_toNat_of_le (w := f.pos) (by omega)] at hk
  rw [bwrPut_raw, bwrPut_raw, storeRead_write, storeRead_write]
  split
  · rfl
  · exact hraw k (by omega) hlt

/-- A byte written alike by the backward writer, where the forward writer is not in use. -/
theorem Twin.bwrPut (h : Twin s₀ s₀' ps known n s s') (hb : .backWriter ∈ ps) (hw : .writer ∉ ps) {f : Bwr}
    (hf : s.bwr = some f) (b : Byte) : Twin s₀ s₀' ps known n (bwrPut f b s) (bwrPut f b s') :=
  { h with
    bwr := fun h => absurd hb h, backward := fun _ => (h.backward hb).put hf b, forward := fun h => absurd h hw }

theorem twin_bwrWrb (hb : .backWriter ∈ ps) (hw : .writer ∉ ps) (b : Byte) :
    Stays (Twin s₀ s₀' ps known n) (bwrWrb b) := fun s s' h => by
  rw [bwrWrb_eq, bwrWrb_eq, ← (h.backward hb).1]
  split
  · exact .error
  · rename_i f hf
    split
    · exact .error
    · exact .ok (h.bwrPut hb hw hf b)

/-- A copy of `c` bytes at distance `d` has its source above the position and room below it. -/
def BackCopyFits (d c : Nat) (s : State) : Prop :=
  ∀ f, s.bwr = some f → f.pos.toNat + d ≤ f.top.toNat ∧ c ≤ f.pos.toNat

theorem twin_bwrCopyLoop (hb : .backWriter ∈ ps) (hw : .writer ∉ ps) {d : Nat} (hd : 0 < d) (c : Nat) :
    Sim (fun s s' => Twin s₀ s₀' ps known n s s' ∧ BackCopyFits d c s) (Twin s₀ s₀' ps known n) (bwrCopyLoop d c)
      (bwrCopyLoop d c) := by
  induction c with
  | zero => exact (Sim.pure _).post fun _ _ h => h.1
  | succ c ih =>
    rintro s s' ⟨h, hfits⟩
    rw [bwrCopyLoop_succ, bwrCopyLoop_succ, ← (h.backward hb).1]
    split
    · exact .error
    · rename_i f hf
      obtain ⟨hdist, hroom⟩ := hfits f hf
      obtain ⟨_, f', hf', htop, _, hraw⟩ := h.backward hb
      obtain rfl : f = f' := Option.some.inj (hf.symm.trans hf')
      rw [hraw (f.pos.toNat - 1 + d) (by omega) (by rw [← htop]; omega)]
      split
      · exact .error
      · refine ih _ _ ⟨h.bwrPut hb hw hf _, fun f' hf' => ?_⟩
        cases hf'
        rw [toWord_toNat_of_le (w := f.pos) (by omega)]
        dsimp only
        omega

theorem twin_bwrCopy (hb : .backWriter ∈ ps) (hw : .writer ∉ ps) (d c : Nat) :
    Stays (Twin s₀ s₀' ps known n) (bwrCopy d c) := fun s s' h => by
  rw [bwrCopy_eq, bwrCopy_eq, ← (h.backward hb).1]
  split
  · exact .error
  · split
    · exact .error
    · rename_i f hf
      split
      · exact .error
      · split
        · exact .error
        · refine twin_bwrCopyLoop hb hw (by omega) c s s' ⟨h, fun f' hf' => ?_⟩
          cases hf.symm.trans hf'
          omega

theorem twin_bcurSet (floor start : Word) : Stays (Twin s₀ s₀' ps known n) (bcurSet floor start) := fun s s' h => by
  rw [bcurSet_eq, bcurSet_eq, h.chunkLen]
  split
  · exact .error
  · exact .ok { h with chunkLen := rfl, bcur := fun _ => rfl }

theorem twin_bcurRdb (hc : .backCursor ∈ ps) : Stays (Twin s₀ s₀' ps known n) bcurRdb := fun s s' h => by
  rw [bcurRdb_eq, bcurRdb_eq, h.bcur hc, h.chunkLen, h.chunk]
  split
  · exact .error
  · split
    · exact .error
    · split
      · exact .error
      · exact .ok { h with chunk := rfl, chunkLen := rfl, bcur := fun _ => rfl }

theorem twin_backwardOps (hb : .backWriter ∈ ps) (hw : .writer ∉ ps) (hc : .backCursor ∈ ps) :
    BackwardOps (Twin s₀ s₀' ps known n) where
  bwr h := (h.backward hb).1
  bcurSet := twin_bcurSet
  bcurRdb := twin_bcurRdb hc
  bwrWrb := twin_bwrWrb hb hw
  bwrCopy := twin_bwrCopy hb hw

/-! ## The tables and LENM -/

/-- A slot that is set alike is the same in both runs, and so is every slot that was. -/
theorem set_alike {v v' : Vector (Option Table) 16} {e : Option Table} (t k : Fin 16) (h : k ≠ t → v[k] = v'[k]) :
    (v.set t e)[k] = (v'.set t e)[k] := by
  by_cases hkt : k = t
  · subst hkt
    simp
  · simp only [Fin.getElem_fin] at h ⊢
    rw [Vector.getElem_set_ne _ _ (by omega), Vector.getElem_set_ne _ _ (by omega), h hkt]

theorem Twin.setSlot (h : Twin s₀ s₀' ps known n s s') (t : Fin 16) (e : Option Table) :
    Twin s₀ s₀' ps known n { s with ht := s.ht.set t e } { s' with ht := s'.ht.set t e } :=
  { h with slot := fun k hk => set_alike t k fun _ => h.slot k hk }

theorem twin_hufInsert {t : Fin 16} (ht : known t) (c : Config) (l code : Nat) (sym : Word) :
    Stays (Twin s₀ s₀' ps known n) (hufInsert c t l code sym) := fun s s' h => by
  rw [hufInsert_eq, hufInsert_eq, h.slot t ht]
  split
  · exact .error
  · cases s'.ht[t] with
    | none => exact .error
    | some table =>
      dsimp only
      split
      · exact .error
      · split
        · exact .error
        · exact .ok (h.setSlot t _)

theorem twin_tableOps : TableOps known (Twin s₀ s₀' ps known n) where
  slot ht h := h.slot _ ht
  setSlot t _ _ := Sim.update fun _ _ h => h.setSlot t _
  hufInsert := twin_hufInsert

theorem twin_writeLenm (i : Nat) (b : Byte) :
    Sim (Twin s₀ s₀' ps known i) (Twin s₀ s₀' ps known (i + 1)) (writeLenm i b) (writeLenm i b) :=
  Sim.update fun s s' h => { h with
    lens := fun k hk => by
      dsimp only
      rw [storeRead_write, storeRead_write]
      split
      · rfl
      · exact h.lens k (by omega) }

theorem twin_hufBuild (c : Config) (t : Fin 16) (n : Nat) : Stays (Twin s₀ s₀' ps known n) (hufBuild c t n) :=
  fun s s' h => by
  rw [hufBuild_eq, hufBuild_eq, memBytes_congr fun i hi => h.lens (0 + i) (by omega)]
  split
  · exact .error
  · split
    · exact .error
    · split
      · exact .error
      · split
        · exact .error
        · split
          · exact .error
          · exact .ok (h.setSlot t _)

theorem twin_lensOps : LensOps fun n => Twin s₀ s₀' ps known n where
  forget h := { h with lens := fun _ hk => absurd hk (Nat.not_lt_zero _) }
  writeLenm := twin_writeLenm
  hufBuild := twin_hufBuild

/-! ## The lists and the units -/

theorem Twin.mtfOf (h : Twin s₀ s₀' ps known n s s') (hl : .lists ∈ ps) (l : MtfStore) : mtfOf l s = mtfOf l s' := by
  cases l
  · exact h.mtf0 hl
  · exact h.mtf1 hl

theorem Twin.withMtf (h : Twin s₀ s₀' ps known n s s') (l : MtfStore) (xs : List Nat) :
    Twin s₀ s₀' ps known n (withMtf l xs s) (withMtf l xs s') := by
  cases l
  · exact { h with mtf0 := fun _ => rfl }
  · exact { h with mtf1 := fun _ => rfl }

theorem twin_mtfInit (l : MtfStore) (k : Nat) : Stays (Twin s₀ s₀' ps known n) (mtfInit l k) := fun s s' h => by
  rw [mtfInit_eq, mtfInit_eq]
  split
  · exact .error
  · exact .ok (h.withMtf l _)

theorem twin_mtfAccess (hl : .lists ∈ ps) (l : MtfStore) (j : Nat) : Stays (Twin s₀ s₀' ps known n) (mtfAccess l j) :=
  fun s s' h => by
  rw [mtfAccess_eq, mtfAccess_eq, h.mtfOf hl]
  split
  · exact .error
  · split
    · exact .error
    · exact .ok (h.withMtf l _)

theorem twin_listOps (hl : .lists ∈ ps) : ListOps (Twin s₀ s₀' ps known n) where
  mtf1 h := h.mtf1 hl
  mtfInit := twin_mtfInit
  mtfAccess := twin_mtfAccess hl

theorem twin_blockOps (hb : .block ∈ ps) : BlockOps known (Twin s₀ s₀' ps known n) where
  bz h := (h.bz hb).1
  selectors h := (h.bz hb).2
  write _ hk h := { h with bz := fun _ => ⟨rfl, hk⟩ }

theorem twin_ownsLzw (hp : .dictionary ∈ ps) : OwnsLzw (Twin s₀ s₀' ps known n) where
  read h := h.lzw hp
  write _ h := { h with lzw := fun _ => rfl }

theorem twin_ownsDhuf (hp : .tracker ∈ ps) : OwnsDhuf (Twin s₀ s₀' ps known n) where
  read h := h.dhuf hp
  write _ h := { h with dhuf := fun _ => rfl }

theorem twin_ownsSmplAcc (hp : .smpl ∈ ps) : OwnsSmplAcc (Twin s₀ s₀' ps known n) where
  read h := h.smplAcc hp
  write _ h := { h with smplAcc := fun _ => rfl }

theorem twin_ownsSqshQ (hp : .sqsh ∈ ps) : OwnsSqshQ (Twin s₀ s₀' ps known n) where
  read h := h.sqshQ hp
  write _ h := { h with sqshQ := fun _ => rfl }

theorem twin_ownsSqshSample (hp : .sqsh ∈ ps) : OwnsSqshSample (Twin s₀ s₀' ps known n) where
  read h := h.sqshSample hp
  write _ h := { h with sqshSample := fun _ => rfl }

theorem twin_macroEnd : Stays (Twin s₀ s₀' ps known n) macroEnd := Sim.update fun _ _ h => { h with }

/-- The input and the space that are left differ in both runs by what an unused writer had at their begin. -/
theorem twin_progress : ProgressAlike (Twin s₀ s₀' ps known n) := by
  intro s s' t t' h ht
  have unread := twin_readerOps.unreadBits h
  have unread' := twin_readerOps.unreadBits ht
  unfold workLeft
  rw [unread, unread']
  by_cases hw : .writer ∈ ps
  · rw [(h.forward hw).1, (ht.forward hw).1]
    by_cases hb : .backWriter ∈ ps
    · rw [(h.backward hb).1, (ht.backward hb).1]
    · rw [(h.bwr hb).1, (h.bwr hb).2, (ht.bwr hb).1, (ht.bwr hb).2]
      omega
  · rw [(h.fwr hw).1, (h.fwr hw).2, (ht.fwr hw).1, (ht.fwr hw).2]
    by_cases hb : .backWriter ∈ ps
    · rw [(h.backward hb).1, (ht.backward hb).1]
      omega
    · rw [(h.bwr hb).1, (h.bwr hb).2, (ht.bwr hb).1, (ht.bwr hb).2]
      omega

end Twin

end Sys2Proof.Machine
end

section
/-! SUPPORT. The seven stateless DECOMPRESS commands: from the setup, which makes two runs alike, to the output. -/

namespace Sys2Proof.Machine

/-! ## The begin of two runs -/

/-- The input of a stateless command is the same. -/
structure SameInput (s s' : State) : Prop where
  chunk : s.chunk = s'.chunk
  chunkLen : s.chunkLen = s'.chunkLen
  rawLen : s.rawLen = s'.rawLen

/-- Two runs stand at their begin. -/
def At (s₀ s₀' s s' : State) : Prop := s = s₀ ∧ s' = s₀'

/-- The parts of the units, which a sequencer makes alike where it clears them. -/
def unitParts : List Part := [.backCursor, .tracker, .lists, .dictionary, .block, .smpl, .sqsh]

/-- No slot of HT. -/
def noSlot (_ : Fin 16) : Prop := False

/-- The slots that BZP2 uses. -/
def blockSlot (t : Fin 16) : Prop := t.val < 8

theorem knowsSlots_blockSlot : KnowsSlots blockSlot where
  selector := show (6 : Nat) < 8 by decide
  delta := show (7 : Nat) < 8 by decide
  group g hg := by
    show g % 16 < 8
    omega

section Setup

variable {s₀ s₀' : State} {ps : List Part} {known : Fin 16 → Prop} {n : Nat} {s s' : State}

/-- A part that is alike may be listed. -/
theorem Twin.gain (h : Twin s₀ s₀' ps known n s s') {p : Part} (hp : p ∈ unitParts) (ha : p.Agree s s')
    (hk : p = .block → KnownSelectors known s.bz) : Twin s₀ s₀' (p :: ps) known n s s' := by
  have gained : ∀ {q : Part} {x : Prop}, (p = q → x) → (q ∈ ps → x) → q ∈ p :: ps → x := fun new old hq =>
    (List.mem_cons.1 hq).elim (fun e => new e.symm) old
  have writer : p ≠ .writer := by rintro rfl; exact absurd hp (by decide)
  have backWriter : p ≠ .backWriter := by rintro rfl; exact absurd hp (by decide)
  exact { h with
    fwr := fun hq => h.fwr fun hw => hq (List.mem_cons_of_mem _ hw)
    forward := gained (fun e => absurd e writer) h.forward
    bwr := fun hq => h.bwr fun hw => hq (List.mem_cons_of_mem _ hw)
    backward := gained (fun e => absurd e backWriter) h.backward
    bcur := gained (fun e => by subst e; exact ha) h.bcur
    dhuf := gained (fun e => by subst e; exact ha) h.dhuf
    mtf0 := gained (fun e => by subst e; exact (Prod.mk.inj ha).1) h.mtf0
    mtf1 := gained (fun e => by subst e; exact (Prod.mk.inj ha).2) h.mtf1
    lzw := gained (fun e => by subst e; exact ha) h.lzw
    bz := gained (fun e => by subst e; exact ⟨ha, hk rfl⟩) h.bz
    smplAcc := gained (fun e => by subst e; exact ha) h.smplAcc
    sqshQ := gained (fun e => by subst e; exact (Prod.mk.inj ha).1) h.sqshQ
    sqshSample := gained (fun e => by subst e; exact (Prod.mk.inj ha).2) h.sqshSample }

/-- An update that makes a part alike. -/
theorem twin_update_gain {p : Part} {write : State → State}
    (hw : ∀ s s', Twin s₀ s₀' ps known n s s' → Twin s₀ s₀' ps known n (write s) (write s')) (hp : p ∈ unitParts)
    (ha : ∀ s s', p.Agree (write s) (write s')) (hb : p ≠ .block) :
    Sim (Twin s₀ s₀' ps known n) (Twin s₀ s₀' (p :: ps) known n) (modify write) (modify write) :=
  Sim.update fun s s' h => (hw s s' h).gain hp (ha s s') fun e => absurd e hb

theorem twin_commonSetup (h : SameInput s₀ s₀') :
    Sim (At s₀ s₀') (Twin s₀ s₀' [.writer] noSlot 0) commonSetup commonSetup := by
  rintro s s' ⟨rfl, rfl⟩
  rw [commonSetup_eq, commonSetup_eq, h.chunkLen, h.rawLen]
  exact .ok {
    chunk := h.chunk, chunkLen := rfl, fcur := rfl, bitsAcc := rfl, bitsCnt := rfl
    slot := fun _ hk => hk.elim
    lens := fun _ hk => absurd hk (Nat.not_lt_zero _)
    forward := fun _ => ⟨rfl, _, rfl, h.rawLen.symm, fun _ hk => absurd hk (Nat.not_lt_zero _)⟩
    bwr := fun _ => ⟨rfl, rfl⟩ }

/-- A slot that is cleared in both runs is known from there on. -/
theorem twin_hufClear_known (t : Fin 16) (hb : .block ∉ ps) :
    Sim (Twin s₀ s₀' ps noSlot n) (Twin s₀ s₀' ps (fun k => k = t) n) (hufClear t) (hufClear t) :=
  Sim.update fun _ _ h => { h with
    slot := fun k hk => set_alike t k fun hne => absurd hk hne
    bz := fun hm => absurd hm hb }

/-! ## The sequencers -/

theorem blzwSequence_alike (h : SameInput s₀ s₀') :
    Sim (At s₀ s₀') (Twin s₀ s₀' [.dictionary, .writer] noSlot 0) blzwSequence blzwSequence :=
  blzwSequence_sim (twin_commonSetup h)
    (twin_update_gain (p := .dictionary) (fun _ _ ht => { ht with lzw := fun _ => rfl }) (by decide)
      (fun _ _ => rfl) (by decide))
    twin_readerOps (twin_writerOps (by decide) (by decide)) (twin_ownsLzw (by decide)) twin_progress twin_macroEnd

theorem lhlbSequence_alike (h : SameInput s₀ s₀') (c : Config) :
    Sim (At s₀ s₀') (Twin s₀ s₀' [.tracker, .writer] noSlot 0) (lhlbSequence c) (lhlbSequence c) :=
  lhlbSequence_sim (twin_commonSetup h)
    (twin_update_gain (p := .tracker) (fun _ _ ht => { ht with dhuf := fun _ => rfl }) (by decide)
      (fun _ _ => rfl) (by decide))
    twin_readerOps (twin_writerOps (by decide) (by decide)) (twin_ownsDhuf (by decide)) twin_progress twin_macroEnd c

theorem mashSequence_alike (h : SameInput s₀ s₀') (c : Config) :
    Sim (At s₀ s₀') (Twin s₀ s₀' [.writer] noSlot 0) (mashSequence c) (mashSequence c) :=
  mashSequence_sim (twin_commonSetup h) (twin_tableOps.setSlot 0 [] lawfulTable_nil) twin_readerOps
    (twin_writerOps (by decide) (by decide)) twin_progress twin_macroEnd c

theorem smplSequence_alike (h : SameInput s₀ s₀') (c : Config) :
    Sim (At s₀ s₀') (Twin s₀ s₀' [.smpl, .writer] (fun k => k = 0) 0) (smplSequence c) (smplSequence c) :=
  smplSequence_sim (E₂ := Twin s₀ s₀' [.smpl, .writer] noSlot 0) (L := Twin s₀ s₀' [.smpl, .writer] fun k => k = 0)
    (twin_commonSetup h)
    (twin_update_gain (p := .smpl) (fun _ _ ht => { ht with smplAcc := fun _ => rfl }) (by decide)
      (fun _ _ => rfl) (by decide))
    twin_readerOps (twin_hufClear_known 0 (by decide)) (fun _ => twin_readerOps)
    (twin_writerOps (by decide) (by decide)) twin_tableOps rfl twin_lensOps (twin_ownsSmplAcc (by decide)) twin_progress
    twin_macroEnd c

theorem sqshSequence_alike (h : SameInput s₀ s₀') (c : Config) :
    Sim (At s₀ s₀') (Twin s₀ s₀' [.sqsh, .writer] noSlot 0) (sqshSequence c) (sqshSequence c) :=
  sqshSequence_sim (twin_commonSetup h) (fun t => twin_tableOps.setSlot t [] lawfulTable_nil)
    (twin_update_gain (p := .sqsh) (fun _ _ ht => { ht with sqshQ := fun _ => rfl, sqshSample := fun _ => rfl }) (by decide)
      (fun _ _ => rfl) (by decide))
    twin_readerOps (twin_writerOps (by decide) (by decide)) (twin_ownsSqshQ (by decide))
    (twin_ownsSqshSample (by decide)) twin_progress twin_macroEnd c

/-! ## BZP2 -/

/-- Slots that are cleared in both runs are the same in both, and so are those that were. -/
theorem clearSlots_alike {v v' : Vector (Option Table) 16} (ts : List Nat) (t : Fin 16)
    (h : t ∉ ts.map (Fin.ofNat 16) → v[t] = v'[t]) :
    (ts.foldl (fun h t => h.set (Fin.ofNat 16 t) (some [])) v)[t] =
      (ts.foldl (fun h t => h.set (Fin.ofNat 16 t) (some [])) v')[t] := by
  induction ts generalizing v v' with
  | nil => exact h (by simp)
  | cons x ts ih =>
    exact ih fun hts => set_alike _ t fun hx => h fun hm => (List.mem_cons.1 hm).elim hx hts

theorem blockSlot_cleared {t : Fin 16} (h : blockSlot t) : t ∈ (List.range 8).map (Fin.ofNat 16) := by
  revert h t
  unfold blockSlot
  decide

theorem twin_clearBzp2 : Sim (Twin s₀ s₀' [.writer] noSlot 0) (Twin s₀ s₀' [.block, .lists, .writer] blockSlot 0)
    (modify clearBzp2) (modify clearBzp2) :=
  Sim.update fun s s' h => by
    have cleared : Twin s₀ s₀' [.writer] blockSlot 0 (clearBzp2 s) (clearBzp2 s') := { h with
      slot := fun t hk => clearSlots_alike _ t fun hn => absurd (blockSlot_cleared hk) hn
      mtf0 := fun _ => rfl
      mtf1 := fun _ => rfl
      bz := fun hm => absurd hm (by decide) }
    exact (cleared.gain (p := .lists) (by decide) rfl nofun).gain (p := .block) (by decide) rfl fun _ _ hs => nomatch hs

theorem bzp2Sequence_alike (h : SameInput s₀ s₀') (c : Config) :
    Sim (At s₀ s₀') (Twin s₀ s₀' [.block, .lists, .writer] blockSlot 0) (bzp2Sequence c) (bzp2Sequence c) :=
  bzp2Sequence_sim (L := Twin s₀ s₀' [.block, .lists, .writer] blockSlot) (twin_commonSetup h) twin_clearBzp2
    (fun _ => twin_readerOps) (twin_writerOps (by decide) (by decide)) (fun _ => twin_tableOps) twin_lensOps
    (twin_blockOps (by decide)) (twin_listOps (by decide)) knowsSlots_blockSlot twin_macroEnd c

/-! ## RAKE -/

theorem rakeSetup_eq (s : State) :
    rakeSetup s = .ok ()
      { s with
        phase := .running, bwr := some { top := s.rawLen, pos := s.rawLen, floor := 0#32 },
        fcur := some { pos := 0#32, stop := s.chunkLen }, bitsAcc := some 0#32, bitsCnt := some 0,
        ht := s.ht.set (0 : Fin 16) (some []) } := by
  simp [rakeSetup, bwrSet_eq, fcurSet_eq, bitsReset_eq, hufClear, setSlot]

theorem twin_rakeSetup (h : SameInput s₀ s₀') :
    Sim (At s₀ s₀') (Twin s₀ s₀' [.backWriter] (fun k => k = 0) 0) rakeSetup rakeSetup := by
  rintro s s' ⟨rfl, rfl⟩
  rw [rakeSetup_eq, rakeSetup_eq, h.chunkLen, h.rawLen]
  exact .ok {
    chunk := h.chunk, chunkLen := rfl, fcur := rfl, bitsAcc := rfl, bitsCnt := rfl
    slot := fun k hk => set_alike 0 k fun hne => absurd hk hne
    lens := fun _ hk => absurd hk (Nat.not_lt_zero _)
    fwr := fun _ => ⟨rfl, rfl⟩
    backward := fun _ => ⟨rfl, _, rfl, h.rawLen.symm, rfl, fun k hge hlt => by
      rw [h.rawLen] at hlt
      exact absurd hlt (Nat.not_lt.2 hge)⟩ }

/-- The backward cursor is alike from where it is set. -/
theorem twin_bcurSet_gain (floor start : Word) :
    Sim (Twin s₀ s₀' ps known n) (Twin s₀ s₀' (.backCursor :: ps) known n) (bcurSet floor start)
      (bcurSet floor start) := fun s s' h => by
  have placed : Twin s₀ s₀' ps known n { s with bcur := some { pos := start, floor := floor } }
      { s' with bcur := some { pos := start, floor := floor } } := { h with bcur := fun _ => rfl }
  rw [bcurSet_eq, bcurSet_eq]
  by_cases hr : floor.toNat > start.toNat ∨ start.toNat > s.chunkLen.toNat
  · rw [if_pos hr, if_pos (h.chunkLen ▸ hr)]
    exact .error
  · rw [if_neg hr, if_neg (h.chunkLen ▸ hr)]
    exact .ok (placed.gain (p := .backCursor) (by decide) rfl nofun)

theorem twin_rakePlace (p : RakeHeader) :
    Sim (Twin s₀ s₀' ps known n) (Twin s₀ s₀' (.backCursor :: ps) known n) (rakePlace p) (rakePlace p) :=
  Sim.state fun s s' h => by
    rw [h.chunkLen]
    exact (twin_bcurSet_gain _ _).bind fun _ => (twin_fcurSet _ _).bind fun _ =>
      twin_readerOps.bitsReset _ _ (by omega)

theorem rakeSequence_alike (h : SameInput s₀ s₀') (c : Config) :
    Sim (At s₀ s₀') (Twin s₀ s₀' [.backCursor, .backWriter] (fun k => k = 0) 0) (rakeSequence c) (rakeSequence c) :=
  rakeSequence_sim (L := Twin s₀ s₀' [.backCursor, .backWriter] fun k => k = 0) (twin_rakeSetup h) twin_readerOps
    twin_rakePlace twin_readerOps (twin_backwardOps (by decide) (by decide) (by decide)) twin_tableOps rfl twin_lensOps
    twin_progress twin_macroEnd c

/-! ## The output -/

/-- The first `len` bytes of RAW are the same. -/
def OutputAlike (len : Word) (t t' : State) : Prop := ∀ k, k < len.toNat → storeRead t.raw k = storeRead t'.raw k

/-- A forward writer that is full has written all of the output. -/
theorem Twin.forward_output (h : Twin s₀ s₀' ps known n s s') (hw : .writer ∈ ps) (hfull : FwrFull s) :
    OutputAlike s₀.rawLen s s' := by
  obtain ⟨f, hf, hpos⟩ := hfull
  obtain ⟨_, f', hf', hstop, hraw⟩ := h.forward hw
  obtain rfl : f = f' := Option.some.inj (hf.symm.trans hf')
  exact fun k hk => hraw k (by rwa [hpos, hstop])

/-- A backward writer that is full has written all of the output. -/
theorem Twin.backward_output (h : Twin s₀ s₀' ps known n s s') (hb : .backWriter ∈ ps) (hfull : BwrFull s) :
    OutputAlike s₀.rawLen s s' := by
  obtain ⟨f, hf, hpos⟩ := hfull
  obtain ⟨_, f', hf', _, hfloor, hraw⟩ := h.backward hb
  obtain rfl : f = f' := Option.some.inj (hf.symm.trans hf')
  exact fun k hk => hraw k (by rw [hpos, hfloor]; exact Nat.zero_le k) hk

/-- The relation at the end of two bodies may use what holds at every end of the first. -/
theorem Sim.ends {E F G : State → State → Prop} {Q : State → Prop} {m m' : M Unit} (hm : Sim E F m m') (he : Ends Q m)
    (h : ∀ t t', F t t' → Q t → G t t') : Sim E G m m' := fun s s' hs => by
  have hmm := hm s s' hs
  cases hr : m s with
  | error e t =>
    rw [hr] at hmm
    cases hr' : m' s' <;> rw [hr'] at hmm <;> cases hmm
    exact .error
  | ok a t =>
    rw [hr] at hmm
    cases hr' : m' s' <;> rw [hr'] at hmm <;> cases hmm
    exact .ok (h _ _ (by assumption) (he s t hr))

/-- The seven stateless sequencers write the same output from the same input. -/
theorem statelessBody_output {i : Instr} (hi : i ∈ statelessMacros) (h : SameInput s₀ s₀') :
    Sim (At s₀ s₀') (OutputAlike s₀.rawLen) (bodyOf i) (bodyOf i) := by
  simp only [statelessMacros, List.mem_cons, List.not_mem_nil, or_false] at hi
  rcases hi with rfl | rfl | rfl | rfl | rfl | rfl | rfl
  · exact (blzwSequence_alike h).ends blzwSequence_ends fun _ _ ht q => ht.forward_output (by decide) q.2
  · exact (bzp2Sequence_alike h _).ends (bzp2Sequence_ends _) fun _ _ ht q => ht.forward_output (by decide) q.2
  · exact (lhlbSequence_alike h _).ends (lhlbSequence_ends _) fun _ _ ht q => ht.forward_output (by decide) q.2
  · exact (mashSequence_alike h _).ends (mashSequence_ends _) fun _ _ ht q => ht.forward_output (by decide) q.2
  · exact (rakeSequence_alike h _).ends (rakeSequence_ends _) fun _ _ ht q => ht.backward_output (by decide) q.2
  · exact (smplSequence_alike h _).ends (smplSequence_ends _) fun _ _ ht q => ht.forward_output (by decide) q.2
  · exact (sqshSequence_alike h _).ends (sqshSequence_ends _) fun _ _ ht q => ht.forward_output (by decide) q.2

/-! ## The results -/

theorem bodyOf_rawLen (i : Instr) (s : State) : (endState (bodyOf i s)).rawLen = s.rawLen := by
  have := bodyOf_host i s
  simp only [Part.Agree, Prod.mk.injEq] at this
  exact this.2.2.1.symm

/-- Two ends of a DECOMPRESS command with the same output. -/
theorem sameResult_endCommand {i : Instr} (hi : i ∈ macros) {t t' : State} (hf : s.status.faulted = false)
    (hf' : s'.status.faulted = false) (hr : s.rawLen = s'.rawLen) (ht : bodyOf i (beginCommand s) = .ok () t)
    (ht' : bodyOf i (beginCommand s') = .ok () t') (h : OutputAlike s.rawLen t t') :
    (endCommand t).SameResult (endCommand t') := by
  obtain ⟨_, hk, hc⟩ := bodyOf_macroDone hi _ _ ht
  obtain ⟨_, hk', hc'⟩ := bodyOf_macroDone hi _ _ ht'
  have len : t.rawLen = s.rawLen := by have := bodyOf_rawLen i (beginCommand s); rwa [ht] at this
  have len' : t'.rawLen = s'.rawLen := by have := bodyOf_rawLen i (beginCommand s'); rwa [ht'] at this
  refine ⟨hk.trans hk'.symm, hc.trans hc'.symm, ?_, len.trans (hr.trans len'.symm), fun k hlt => h k (len ▸ hlt)⟩
  exact ((bodyOf_faulted ht).trans hf).trans ((bodyOf_faulted ht').trans hf').symm

/-- Two error ends with the same code: RAW is lost in both. -/
theorem sameResult_errorEntry {i : Instr} {e e' : Raise} {t t' : State} (hr : s.rawLen = s'.rawLen)
    (ht : bodyOf i (beginCommand s) = .error e t) (ht' : bodyOf i (beginCommand s') = .error e' t') (d : Bool) (k : Kind)
    (c : Option Cause) : (errorEntry d k c t).SameResult (errorEntry d k c t') := by
  have len : t.rawLen = s.rawLen := by have := bodyOf_rawLen i (beginCommand s); rwa [ht] at this
  have len' : t'.rawLen = s'.rawLen := by have := bodyOf_rawLen i (beginCommand s'); rwa [ht'] at this
  simp [State.SameResult, len, len', hr]

/-- Two runs of a DECOMPRESS command whose bodies end alike give the same result. -/
theorem sameResult_of_output {i : Instr} (hi : i ∈ macros) (hs : s.Ready) (hs' : s'.Ready) (hr : s.rawLen = s'.rawLen)
    (h : Alike (OutputAlike s.rawLen) (bodyOf i (beginCommand s)) (bodyOf i (beginCommand s'))) :
    ∃ t t', exec i s = .next t ∧ exec i s' = .next t' ∧ t.SameResult t' := by
  have hne : i ≠ .instReset := by rintro rfl; exact absurd hi (by decide)
  rw [exec_eq_runCommand hne, exec_eq_runCommand hne, runCommand, runCommand, hs.1, hs'.1]
  cases hb : bodyOf i (beginCommand s) with
  | ok a t =>
    rw [hb] at h
    cases hb' : bodyOf i (beginCommand s') <;> rw [hb'] at h <;> cases h
    exact ⟨_, _, rfl, rfl, sameResult_endCommand hi hs.1 hs'.1 hr hb hb' (by assumption)⟩
  | error e t =>
    rw [hb] at h
    cases hb' : bodyOf i (beginCommand s') <;> rw [hb'] at h <;> cases h
    cases e with
    | corrupt c => exact ⟨_, _, rfl, rfl, sameResult_errorEntry hr hb hb' _ _ _⟩
    | checksum => exact ⟨_, _, rfl, rfl, sameResult_errorEntry hr hb hb' _ _ _⟩
    | noProgress => exact ⟨_, _, rfl, rfl, sameResult_errorEntry hr hb hb' _ _ _⟩

end Setup

end Sys2Proof.Machine

open Sys2Proof Sys2Proof.Machine

/-- Settles O13: from the setup on two runs agree in all that the sequencer reads, and each ends with its writer full. -/
theorem statelessFormats : Obligations.StatelessFormats := by
  intro i s s' hi hs hs' hchunk hlen hraw
  have begun : SameInput (beginCommand s) (beginCommand s') := ⟨hchunk.symm, hlen.symm, hraw.symm⟩
  exact sameResult_of_output (List.mem_cons_of_mem _ hi) hs hs' hraw.symm (statelessBody_output hi begun _ _ ⟨rfl, rfl⟩)

end

section
/-! SUPPORT. The form of the memories (spec/20_memory.md R70, R74): every write goes through `storeWrite`, which keeps a
memory canonical, at an offset that the space of the memory has. CHUNK and RAW are written at 32-bit offsets; LENM is
written by the host below its size, and by a command at the number of a symbol, of which there are fewer. -/

namespace Sys2Proof.Machine

/-! ## One memory, and the arrays of the LZW unit -/

/-- A byte memory in canonical form that lists only offsets of a space of `size` bytes. -/
def MemoryIn (size : Nat) (m : Memory) : Prop := m.wf = true ∧ ∀ a b, storeRead m a = some b → a < size

/-- The arrays of the LZW unit are in canonical form. -/
def ArraysForm (l : Lzw) : Prop :=
  storeWf l.prefixes = true ∧ storeWf l.suffixes = true ∧ storeWf l.stack = true

theorem memoryForm_iff {s : State} : s.MemoryForm ↔
    MemoryIn (2 ^ 32) s.chunk ∧ MemoryIn (2 ^ 32) s.raw ∧ MemoryIn lenmSize s.lenm ∧ ArraysForm s.lzw := by
  constructor
  · rintro ⟨hc, hr, hl, hp, hs, hk, inChunk, inRaw, inLenm⟩
    exact ⟨⟨hc, inChunk⟩, ⟨hr, inRaw⟩, ⟨hl, inLenm⟩, hp, hs, hk⟩
  · rintro ⟨⟨hc, inChunk⟩, ⟨hr, inRaw⟩, ⟨hl, inLenm⟩, hp, hs, hk⟩
    exact ⟨hc, hr, hl, hp, hs, hk, inChunk, inRaw, inLenm⟩

theorem memoryIn_nil (size : Nat) : MemoryIn size [] := ⟨rfl, fun _ _ h => nomatch h⟩

theorem arraysForm_unset : ArraysForm Lzw.unset := ⟨rfl, rfl, rfl⟩

/-- A write inside the space keeps the form. -/
theorem MemoryIn.write {size : Nat} {m : Memory} (hm : MemoryIn size m) {a : Nat} (ha : a < size) (b : Byte) :
    MemoryIn size (storeWrite m a b) := by
  refine ⟨storeWrite_wf a b hm.1, fun k v hk => ?_⟩
  rw [storeRead_write] at hk
  split at hk
  · omega
  · exact hm.2 k v hk

/-! ## One update of the state -/

theorem memoryForm_chunk {s : State} (hs : s.MemoryForm) (a : Word) (b : Byte) :
    ({ s with chunk := storeWrite s.chunk a.toNat b } : State).MemoryForm := by
  obtain ⟨hc, rest⟩ := memoryForm_iff.1 hs
  exact memoryForm_iff.2 ⟨hc.write a.isLt b, rest⟩

theorem memoryForm_fwrPut {s : State} (hs : s.MemoryForm) (f : Fwr) (b : Byte) : (fwrPut f b s).MemoryForm := by
  obtain ⟨hc, hr, rest⟩ := memoryForm_iff.1 hs
  exact memoryForm_iff.2 ⟨hc, hr.write f.pos.isLt b, rest⟩

theorem memoryForm_bwrPut {s : State} (hs : s.MemoryForm) (f : Bwr) (b : Byte) : (bwrPut f b s).MemoryForm := by
  obtain ⟨hc, hr, rest⟩ := memoryForm_iff.1 hs
  exact memoryForm_iff.2 ⟨hc, hr.write (by have := f.pos.isLt; omega) b, rest⟩

theorem memoryForm_lenm {s : State} (hs : s.MemoryForm) {i : Nat} (hi : i < lenmSize) (b : Byte) :
    ({ s with lenm := storeWrite s.lenm i b } : State).MemoryForm := by
  obtain ⟨hc, hr, hl, hz⟩ := memoryForm_iff.1 hs
  exact memoryForm_iff.2 ⟨hc, hr, hl.write hi b, hz⟩

theorem memoryForm_lzw {s : State} (hs : s.MemoryForm) {l : Lzw} (hl : ArraysForm s.lzw → ArraysForm l) :
    ({ s with lzw := l } : State).MemoryForm := by
  obtain ⟨hc, hr, hm, hz⟩ := memoryForm_iff.1 hs
  exact memoryForm_iff.2 ⟨hc, hr, hm, hl hz⟩

/-- An error takes away every memory but CHUNK, which no body writes. -/
theorem memoryForm_errorEntry {s t : State} (hs : s.MemoryForm) (h : t.chunk = s.chunk) (d : Bool) (k : Kind)
    (c : Option Cause) : (errorEntry d k c t).MemoryForm := by
  obtain ⟨hc, _⟩ := memoryForm_iff.1 hs
  refine memoryForm_iff.2 ⟨?_, ?_, ?_, ?_⟩
  · rwa [errorEntry_chunk, h]
  · rw [errorEntry_raw]; exact memoryIn_nil _
  · rw [errorEntry_lenm]; exact memoryIn_nil _
  · rw [errorEntry_lzw]; exact arraysForm_unset

theorem memoryForm_illegalCommand {s : State} (hs : s.MemoryForm) : (illegalCommand s).MemoryForm := by
  unfold illegalCommand
  split
  · exact hs
  · exact hs

/-! ## Bodies that keep the form -/

/-- The parts of the state that hold a memory. -/
def memoryParts : List Part := [.host, .output, .lengths, .dictionary]

theorem memoryForm_speaks : SpeaksOf memoryParts State.MemoryForm := by
  intro s t h hs
  have hc := h .host (by decide)
  have hr := h .output (by decide)
  have hl := h .lengths (by decide)
  have hz := h .dictionary (by decide)
  simp only [Part.Agree, Prod.mk.injEq] at hc hr hl hz
  rw [memoryForm_iff] at hs ⊢
  rwa [← hc.1, ← hr, ← hl, ← hz]

/-- Where the body ends without a raise, the form of the memories is kept. -/
abbrev KeepsMemory {α : Type} (m : M α) : Prop := Stays (SameWith State.MemoryForm) m

section Rules

variable {α : Type}

/-- A body that writes no memory. -/
theorem memory_frame {ps : List Part} {m : M α} (hm : Keeps (Changes ps) m)
    (h : ∀ p ∈ memoryParts, p ∉ ps := by decide) : KeepsMemory m :=
  stays_of_changes memoryForm_speaks hm h

theorem memory_get : KeepsMemory (get : M State) := memory_frame get_changes

theorem memory_state {f : State → M α} (h : ∀ s, s.MemoryForm → KeepsMemory (f s)) : KeepsMemory (get >>= f) :=
  Sim.state fun s _ ⟨e, hs⟩ => e ▸ h s hs

theorem memory_put {t : State} (h : t.MemoryForm) : KeepsMemory (set t : M PUnit) := Sim.put ⟨rfl, h⟩

theorem memory_update {f : State → State} (h : ∀ s, s.MemoryForm → (f s).MemoryForm) :
    KeepsMemory (modify f : M PUnit) :=
  Sim.update fun s s' e => by
    obtain ⟨rfl, hs⟩ := e
    exact ⟨rfl, h s hs⟩

/-- A register is read. -/
theorem memory_register {β : Type} {r : State → Option β} {k : β → M α} (hk : ∀ a, KeepsMemory (k a)) :
    KeepsMemory (get >>= fun s => need (r s) >>= k) :=
  Sim.register (fun _ _ h => congrArg r h.1) hk

theorem memory_arg0 {f : Word → M α} (hf : ∀ a, KeepsMemory (f a)) : KeepsMemory (readArg0 >>= f) :=
  Sim.bind (memory_frame readArg0_changes) hf

theorem memory_arg1 {f : Word → M α} (hf : ∀ a, KeepsMemory (f a)) : KeepsMemory (readArg1 >>= f) :=
  Sim.bind (memory_frame readArg1_changes) hf

theorem memory_result {x : M α} {g : α → Word} (hx : KeepsMemory x) : KeepsMemory (x >>= fun a => setRes0 (g a)) :=
  Sim.bind hx fun _ => memory_frame (setRes0_changes _)

end Rules

/-! ## The writers -/

theorem fwrWrb_keepsMemory (b : Byte) : KeepsMemory (fwrWrb b) :=
  memory_state fun _ hs => (Sim.needed _).bind fun f => (Sim.raise _).ite (memory_put (memoryForm_fwrPut hs f b))

theorem fwrCopyLoop_keepsMemory (d c : Nat) : KeepsMemory (fwrCopyLoop d c) := by
  induction c with
  | zero => exact .pure _
  | succ c ih =>
    exact memory_state fun s hs => (Sim.needed _).bind fun f => (Sim.needed _).bind fun b =>
      (memory_put (memoryForm_fwrPut hs f b)).bind fun _ => ih

theorem fwrCopy_keepsMemory (d c : Nat) : KeepsMemory (fwrCopy d c) :=
  (Sim.raise _).ite (memory_register fun _ => (Sim.raise _).ite ((Sim.raise _).ite (fwrCopyLoop_keepsMemory d c)))

theorem fwrCopyhLoop_keepsMemory (history : List Byte) (d c : Nat) : KeepsMemory (fwrCopyhLoop history d c) := by
  induction c with
  | zero => exact .pure _
  | succ c ih =>
    exact memory_state fun s hs => (Sim.needed _).bind fun f => (Sim.needed _).bind fun b =>
      (memory_put (memoryForm_fwrPut hs f b)).bind fun _ => ih

theorem fwrCopyh_keepsMemory (d c : Nat) : KeepsMemory (fwrCopyh d c) :=
  (Sim.raise _).ite (memory_state fun _ _ => (Sim.needed _).bind fun _ => (Sim.raise _).ite ((Sim.raise _).ite
    (fwrCopyhLoop_keepsMemory _ d c)))

theorem bwrWrb_keepsMemory (b : Byte) : KeepsMemory (bwrWrb b) :=
  memory_state fun _ hs => (Sim.needed _).bind fun f => (Sim.raise _).ite (memory_put (memoryForm_bwrPut hs f b))

theorem bwrCopyLoop_keepsMemory (d c : Nat) : KeepsMemory (bwrCopyLoop d c) := by
  induction c with
  | zero => exact .pure _
  | succ c ih =>
    exact memory_state fun s hs => (Sim.needed _).bind fun f => (Sim.needed _).bind fun b =>
      (memory_put (memoryForm_bwrPut hs f b)).bind fun _ => ih

theorem bwrCopy_keepsMemory (d c : Nat) : KeepsMemory (bwrCopy d c) :=
  (Sim.raise _).ite (memory_register fun _ => (Sim.raise _).ite ((Sim.raise _).ite (bwrCopyLoop_keepsMemory d c)))

/-! ## The units that write no memory of their own -/

/-- An update of a part that holds no memory. -/
theorem memory_owns {β : Type} {read : State → β} {write : β → State → State}
    (hw : ∀ v s, s.MemoryForm → (write v s).MemoryForm) : Owns (SameWith State.MemoryForm) read write where
  read h := congrArg read h.1
  write v := by
    rintro ⟨rfl, hs⟩
    exact ⟨rfl, hw v _ hs⟩

theorem memory_readerOps : ReaderOps (SameWith State.MemoryForm) where
  chunk h := congrArg State.chunk h.1
  chunkLen h := congrArg State.chunkLen h.1
  fcur h := congrArg State.fcur h.1
  bitsCnt h := congrArg State.bitsCnt h.1
  fcurSet start stop := memory_frame (fcurSet_changes start stop)
  fcurRdb := memory_frame fcurRdb_changes
  fcurConsume n := memory_frame (fcurConsume_changes n)
  takeBits n := memory_frame (takeBits_changes n)
  bitsReset seed n _ := memory_frame (bitsReset_changes seed n)

theorem memory_writerOps : WriterOps (SameWith State.MemoryForm) where
  fwr h := congrArg State.fwr h.1
  written h _ _ := by rw [h.1]
  fwrWrb := fwrWrb_keepsMemory
  fwrCopy d c := (fwrCopy_keepsMemory d c).post (by rintro s _ ⟨rfl, h⟩; exact ⟨⟨rfl, h⟩, fun _ _ => rfl⟩)

theorem memory_blockOps : BlockOps (fun _ => True) (SameWith State.MemoryForm) where
  bz h := congrArg State.bz h.1
  selectors _ _ _ _ _ := trivial
  write b _ := by
    rintro ⟨rfl, hs⟩
    exact ⟨rfl, hs⟩

theorem memory_ownsDhuf : OwnsDhuf (SameWith State.MemoryForm) := memory_owns fun _ _ h => h

theorem memory_ownsSqshQ : OwnsSqshQ (SameWith State.MemoryForm) := memory_owns fun _ _ h => h

theorem memory_ownsSqshSample : OwnsSqshSample (SameWith State.MemoryForm) := memory_owns fun _ _ h => h

theorem whileNotEof_keepsMemory {turn : M Bool} (ht : KeepsMemory turn) (turns : Nat) :
    KeepsMemory (whileNotEof turn turns) :=
  whileNotEof_stays memory_writerOps sameWith_progress ht turns

theorem commonSetup_keepsMemory : KeepsMemory commonSetup := memory_frame commonSetup_changes

theorem macroEnd_keepsMemory : KeepsMemory macroEnd := memory_frame macroEnd_changes

theorem bzUnbwt_keepsMemory (c : Config) : KeepsMemory (bzUnbwt c) := bzUnbwt_stays memory_writerOps memory_blockOps c

/-! ## The LZW unit -/

theorem lzwSetup_keepsMemory (m n : Nat) : KeepsMemory (lzwSetup m n) :=
  (Sim.raise _).ite ((Sim.raise _).ite (memory_update fun _ hs =>
    memoryForm_lzw hs fun ⟨_, _, hk⟩ => ⟨rfl, rfl, hk⟩))

theorem lzwPush_keepsMemory (b : Byte) : KeepsMemory (lzwPush b) :=
  memory_state fun _ hs => (Sim.needed _).bind fun p =>
    memory_put (memoryForm_lzw hs fun ⟨hp, hx, hk⟩ => ⟨hp, hx, storeWrite_wf p b hk⟩)

theorem lzwInsert_keepsMemory : KeepsMemory lzwInsert :=
  memory_state fun _ hs => (Sim.needed _).bind fun _ => (Sim.needed _).bind fun _ => Sim.ite
    ((Sim.needed _).bind fun _ => (Sim.needed _).bind fun _ =>
      memory_put (memoryForm_lzw hs fun ⟨hp, hx, hk⟩ => ⟨storeWrite_wf _ _ hp, storeWrite_wf _ _ hx, hk⟩))
    (.pure _)

theorem emitWalk_keepsMemory (free room c : Nat) : KeepsMemory (emitWalk free room c) := by
  induction room generalizing c with
  | zero => exact (Sim.pure _).ite ((Sim.raise _).ite (.raise _))
  | succ room ih =>
    exact (Sim.pure _).ite ((Sim.raise _).ite (memory_register fun _ => (lzwPush_keepsMemory _).bind fun _ =>
      memory_register fun _ => ih _))

theorem emitPops_keepsMemory (p : Nat) : KeepsMemory (emitPops p) := by
  induction p with
  | zero => exact .pure _
  | succ p ih =>
    exact Sim.bind (memory_update fun _ hs => hs) fun _ => memory_register fun _ =>
      (fwrWrb_keepsMemory _).bind fun _ => ih

theorem emitChain_keepsMemory (code : Nat) : KeepsMemory (emitChain code) :=
  (Sim.pure _).ite (memory_register fun _ => (Sim.raise _).ite (memory_register fun _ => emitWalk_keepsMemory _ _ _))

theorem lzwEmit_keepsMemory (code : Nat) : KeepsMemory (lzwEmit code) :=
  Sim.bind (memory_update fun _ hs => hs) fun _ => (emitChain_keepsMemory code).bind fun _ =>
    (Sim.raise _).ite ((lzwPush_keepsMemory _).bind fun _ => Sim.bind (memory_update fun _ hs => hs) fun _ =>
      memory_register fun _ => emitPops_keepsMemory _)

theorem lzwRestart_keepsMemory : KeepsMemory lzwRestart :=
  memory_register fun _ => Sim.bind (memory_update fun _ hs => hs) fun _ => (memory_frame (rd_changes 9)).bind fun _ =>
    (Sim.raise _).ite ((Sim.raise _).ite
      (Sim.bind (memory_update fun _ hs => hs) fun _ => lzwEmit_keepsMemory _))

theorem lzwOutput_keepsMemory (code free : Nat) : KeepsMemory (lzwOutput code free) :=
  Sim.ite (memory_register fun _ => memory_register fun _ => (lzwEmit_keepsMemory _).bind fun _ => fwrWrb_keepsMemory _)
    (lzwEmit_keepsMemory _)

theorem lzwStep_keepsMemory : KeepsMemory lzwStep :=
  memory_register fun n => (memory_frame (rd_changes n)).bind fun code => (Sim.raise _).ite
    (Sim.ite (lzwRestart_keepsMemory.bind fun _ => .pure _)
      (Sim.ite (Sim.bind (memory_update fun _ hs => hs) fun _ => .pure _)
        (memory_register fun _ => (Sim.raise _).ite ((lzwOutput_keepsMemory _ _).bind fun _ =>
          lzwInsert_keepsMemory.bind fun _ => Sim.bind (memory_update fun _ hs => hs) fun _ => .pure _))))

theorem blzwSequence_keepsMemory : KeepsMemory blzwSequence :=
  commonSetup_keepsMemory.bind fun _ =>
    Sim.bind (memory_update fun _ hs => memoryForm_lzw hs fun _ => arraysForm_unset) fun _ =>
    (memory_frame (fcurConsume_changes 4)).bind fun _ => (memory_frame (chunkByte_changes _)).bind fun _ =>
    (memory_frame (chunkByte_changes _)).bind fun _ => (memory_frame (chunkByte_changes _)).bind fun _ =>
    (memory_frame (chunkByte_changes _)).bind fun _ => (lzwSetup_keepsMemory _ _).bind fun _ =>
    lzwRestart_keepsMemory.bind fun _ => memory_get.bind fun _ =>
    (whileNotEof_keepsMemory (lzwStep_keepsMemory.bind fun _ => .pure _) _).bind fun _ => macroEnd_keepsMemory

/-! ## The lengths of a block (spec/45_bzp2.md R298, R301) -/

/-- Every value that a body ends with has a property. -/
def Answers {α : Type} (Q : α → Prop) (m : M α) : Prop := ∀ s a t, m s = .ok a t → Q a

section Answers

variable {α β : Type} {Q : β → Prop}

theorem Answers.pure {b : β} (h : Q b) : Answers Q (pure b) := fun _ _ _ e => by cases e; exact h

theorem Answers.raise (c : Cause) : Answers Q (raise c) := fun _ _ _ e => nomatch e

theorem Answers.bind {R : α → Prop} {x : M α} {f : α → M β} (hx : Answers R x)
    (hf : ∀ a, R a → Answers Q (f a)) :
    Answers Q (x >>= f) := by
  intro s b t h
  rw [M.bind_apply] at h
  split at h
  · exact hf _ (hx _ _ _ (by assumption)) _ _ _ h
  · cases h

/-- Whatever the first part answers. -/
theorem Answers.after {x : M α} {f : α → M β} (hf : ∀ a, Answers Q (f a)) : Answers Q (x >>= f) :=
  Answers.bind (R := fun _ => True) (fun _ _ _ _ => trivial) fun a _ => hf a

theorem Answers.ite {p : Prop} [Decidable p] {x y : M β} (hx : Answers Q x) (hy : Answers Q y) :
    Answers Q (if p then x else y) := by
  split <;> assumption

end Answers

theorem detailValues_length (g d left : Nat) : (detailValues g d left).length ≤ left := by
  induction left with
  | zero => exact le_rfl
  | succ left ih =>
    rw [detailValues]
    split
    · exact Nat.succ_le_succ ih
    · exact Nat.le_succ_of_le ih

theorem readDetails_length (used left : Nat) : Answers (fun vs => vs.length ≤ 16 * left) (readDetails used left) := by
  induction left with
  | zero => exact .pure (Nat.zero_le _)
  | succ left ih =>
    refine Answers.ite (.after fun d => ih.bind fun more hm => .pure ?_) fun s vs t h => ?_
    · have := detailValues_length (15 - left) d 16
      rw [List.length_append]
      omega
    · have := ih s vs t h
      dsimp only at this ⊢
      omega

/-- A block has at most 256 literal values, so at most 258 symbols (R298, R301). -/
theorem readBlockHeader_le : Answers (· ≤ 258) readBlockHeader := by
  have values : Answers (fun vs => vs.length ≤ 256) readSymbolMap := .after fun used => readDetails_length used 16
  exact .after fun _ => .after fun _ => .after fun _ => .after fun _ => .after fun _ => values.bind fun vs hvs =>
    .after fun _ => (Answers.raise _).ite (.after fun _ => .after fun _ => (Answers.raise _).ite
      (.after fun _ => .after fun _ => (Answers.raise _).ite
        (.after fun _ => .after fun _ => .after fun _ => .pure (Nat.add_le_add_right hvs 2))))

theorem writeLenm_keepsMemory {i : Nat} (hi : i < lenmSize) (b : Byte) : KeepsMemory (writeLenm i b) :=
  memory_update fun _ hs => memoryForm_lenm hs hi b

theorem readLengths_keepsMemory (left i cur : Nat) (h : i + left ≤ lenmSize) :
    KeepsMemory (readLengths left i cur) := by
  induction left generalizing i cur with
  | zero => exact .pure _
  | succ left ih =>
    exact memory_get.bind fun _ => (memory_frame (readDeltas_changes _ _)).bind fun _ =>
      (writeLenm_keepsMemory (by omega) _).bind fun _ => ih _ _ (by omega)

theorem readGroups_keepsMemory (c : Config) {nItems : Nat} (h : nItems ≤ lenmSize) (left t : Nat) :
    KeepsMemory (readGroups c nItems left t) := by
  induction left generalizing t with
  | zero => exact .pure _
  | succ left ih =>
    exact (memory_frame (rd_changes 5)).bind fun _ => (readLengths_keepsMemory nItems 0 _ (by omega)).bind fun _ =>
      (memory_frame (hufBuild_changes _ _ _)).bind fun _ => ih _

theorem readBlock_keepsMemory (c : Config) : KeepsMemory (readBlock c) := by
  refine Sim.bind_ok (memory_frame readBlockHeader_changes) fun nItems s t h => ?_
  have hn : nItems ≤ lenmSize := (readBlockHeader_le s nItems t h).trans (by decide)
  exact memory_register fun _ => (readGroups_keepsMemory c hn _ _).bind fun _ =>
    (memory_frame (mtfInit_changes _ _)).bind fun _ => memory_register fun _ =>
    (memory_frame (modify_bz _)).bind fun _ => memory_get.bind fun _ => (Sim.needed _).bind fun _ =>
    (memory_frame (readBody_changes _ _ _ _ _)).bind fun _ => (memory_frame flushRun_changes).bind fun _ =>
    memory_get.bind fun _ => (Sim.needed _).bind fun _ => (Sim.needed _).bind fun _ => (Sim.raise _).ite (.pure _)

theorem bzBlock_keepsMemory (c : Config) : KeepsMemory (bzBlock c) :=
  (memory_frame (rd_changes 32)).bind fun _ => (memory_frame (rd_changes 16)).bind fun _ => Sim.ite
    ((memory_frame (rd_changes 32)).bind fun _ => memory_register fun _ => (Sim.throw _).ite (.pure _))
    (Sim.ite ((readBlock_keepsMemory c).bind fun _ => .pure _) (.raise _))

/-! ## The sequencers -/

theorem bzp2Loop_keepsMemory (c : Config) (turns : Nat) : KeepsMemory (bzp2Loop c turns) := by
  induction turns with
  | zero => exact .throw _
  | succ turns ih =>
    exact (bzBlock_keepsMemory c).bind fun _ => Sim.ite ((bzUnbwt_keepsMemory c).bind fun _ => ih) (.pure _)

theorem bzp2Sequence_keepsMemory (c : Config) : KeepsMemory (bzp2Sequence c) :=
  commonSetup_keepsMemory.bind fun _ => Sim.bind (memory_update fun _ hs => hs) fun _ =>
    (memory_frame (fcurConsume_changes 4)).bind fun _ => (memory_frame (headerLetter_changes _ _)).bind fun _ =>
    (memory_frame (headerLetter_changes _ _)).bind fun _ => (memory_frame (headerLetter_changes _ _)).bind fun _ =>
    (memory_frame (chunkByte_changes _)).bind fun _ => (Sim.raise _).ite
      ((memory_frame (bzStart_changes _)).bind fun _ => memory_get.bind fun _ =>
        (bzp2Loop_keepsMemory c _).bind fun _ => (memory_frame fwrEof_changes).bind fun _ =>
        macroEnd_keepsMemory.ite (.raise _))

theorem rakeLengths_keepsMemory (c : Config) (left : Nat) : KeepsMemory (rakeLengths c left) := by
  induction left with
  | zero => exact .pure _
  | succ left ih => exact (writeLenm_keepsMemory (by unfold lenmSize; omega) _).bind fun _ => ih

theorem rakeTurn_keepsMemory (c : Config) : KeepsMemory (rakeTurn c) :=
  (memory_frame (rd_changes 1)).bind fun _ => Sim.ite
    ((memory_frame bcurRdb_changes).bind fun _ => (bwrWrb_keepsMemory _).bind fun _ => .pure _)
    ((memory_frame (hufDecode_changes _ _)).bind fun _ => Sim.bind
      ((memory_frame (runField_changes _)).bind fun _ => (memory_frame (rd_changes _)).bind fun _ =>
        (memory_frame bcurRdb_changes).bind fun _ => .pure _)
      fun _ => (bwrCopy_keepsMemory _ _).bind fun _ => .pure _)

theorem rakeSequence_keepsMemory (c : Config) : KeepsMemory (rakeSequence c) := by
  refine Sim.bind (memory_frame rakeSetup_changes) fun _ => Sim.bind (memory_frame chunkBytes_changes) fun bytes => ?_
  cases c.rakeHeader bytes with
  | none => exact .raise _
  | some h =>
    have place : KeepsMemory (rakePlace h) :=
      memory_get.bind fun _ => (memory_frame (bcurSet_changes _ _)).bind fun _ =>
        (memory_frame (fcurSet_changes _ _)).bind fun _ => memory_frame (bitsReset_changes _ _)
    have going : KeepsMemory (do return !(← bwrEof)) := (memory_frame bwrEof_changes).bind fun _ => .pure _
    exact place.bind fun _ => (rakeLengths_keepsMemory c _).bind fun _ =>
      (memory_frame (hufBuild_changes _ _ _)).bind fun _ => (memory_frame bwrRoom_changes).bind fun _ =>
      (turnLoop_stays sameWith_progress going (rakeTurn_keepsMemory c) _).bind fun _ => macroEnd_keepsMemory

theorem smplLengths_keepsMemory (left : Nat) : KeepsMemory (smplLengths left) := by
  induction left with
  | zero => exact .pure _
  | succ left ih =>
    exact (memory_frame smplLength_changes).bind fun _ =>
      (writeLenm_keepsMemory (by unfold lenmSize; omega) _).bind fun _ => ih

theorem smplTable_keepsMemory (c : Config) : KeepsMemory (smplTable c) := by
  refine Sim.bind (memory_frame (setSlot_changes _ _)) fun _ => ?_
  cases c.smplTableMode with
  | explicit => exact memory_frame (smplExplicit_changes c _)
  | canonical => exact (smplLengths_keepsMemory _).bind fun _ => memory_frame (hufBuild_changes _ _ _)

theorem smplTurn_keepsMemory : KeepsMemory smplTurn :=
  (memory_frame (hufDecode_changes _ _)).bind fun _ => memory_register fun _ =>
    (memory_frame (modify_smpl _)).bind fun _ => (fwrWrb_keepsMemory _).bind fun _ => .pure _

theorem smplSequence_keepsMemory (c : Config) : KeepsMemory (smplSequence c) := by
  refine commonSetup_keepsMemory.bind fun _ => Sim.bind (memory_frame (modify_smpl _)) fun _ =>
    Sim.bind (memory_frame chunkBytes_changes) fun bytes => ?_
  cases c.smplHeader bytes with
  | none => exact .raise _
  | some fstart =>
    exact memory_get.bind fun _ => (memory_frame (fcurSet_changes _ _)).bind fun _ =>
      (smplTable_keepsMemory c).bind fun _ => (memory_frame (modify_smpl _)).bind fun _ =>
      (memory_frame fwrRoom_changes).bind fun _ =>
      (whileNotEof_keepsMemory smplTurn_keepsMemory _).bind fun _ => macroEnd_keepsMemory

theorem shriTurn_keepsMemory (c : Config) : KeepsMemory (shriTurn c) :=
  (memory_frame (ariDecsym_changes c)).bind fun _ => (memory_frame (ariUpdate_changes c _)).bind fun _ =>
    Sim.ite ((fwrWrb_keepsMemory _).bind fun _ => .pure _)
      (Sim.bind (Sim.ite
        ((memory_frame (ariGetcode_changes c 16)).bind fun _ =>
          (memory_frame (ariGetcode_changes c 16)).bind fun _ => .pure _)
        ((memory_frame (ariMatch_changes c _)).bind fun _ => .pure _)) fun _ =>
        (fwrCopyh_keepsMemory _ _).bind fun _ => .pure _)

theorem shriSequence_keepsMemory (c : Config) : KeepsMemory (shriSequence c) := by
  refine commonSetup_keepsMemory.bind fun _ => Sim.bind (memory_frame (shriVersion_changes c)) fun _ =>
    Sim.bind (memory_frame chunkBytes_changes) fun bytes => ?_
  cases c.shriHeader bytes with
  | none => exact .raise _
  | some h =>
    exact memory_get.bind fun _ => (memory_frame (fcurSet_changes _ _)).bind fun _ =>
      (memory_frame (bitsReset_changes _ _)).bind fun _ => (memory_frame fwrRoom_changes).bind fun _ =>
      memory_get.bind fun _ => (whileNotEof_keepsMemory (shriTurn_keepsMemory c) _).bind fun _ =>
      (memory_frame (histPush_changes c)).bind fun _ => macroEnd_keepsMemory

/-! ## All commands, and the step -/

theorem bodyOf_keepsMemory (i : Instr) : KeepsMemory (bodyOf i) := by
  have r := memory_readerOps
  have w := memory_writerOps
  have setup := commonSetup_keepsMemory
  have clear := fun t => memory_frame (setSlot_changes t [])
  have done := macroEnd_keepsMemory
  cases i with
  | instReset => exact .pure _
  | fwrWrb b => exact fwrWrb_keepsMemory b
  | fwrCopy => exact memory_arg0 fun _ => memory_arg1 fun _ => fwrCopy_keepsMemory _ _
  | fwrCopyh => exact memory_arg0 fun _ => memory_arg1 fun _ => fwrCopyh_keepsMemory _ _
  | bwrWrb b => exact bwrWrb_keepsMemory b
  | bwrCopy => exact memory_arg0 fun _ => memory_arg1 fun _ => bwrCopy_keepsMemory _ _
  | lzwSetup => exact memory_arg0 fun _ => memory_arg1 fun _ => lzwSetup_keepsMemory _ _
  | lzwRestart => exact lzwRestart_keepsMemory
  | lzwStep => exact memory_result lzwStep_keepsMemory
  | bzBlock => exact memory_result (bzBlock_keepsMemory _)
  | bzUnbwt => exact bzUnbwt_keepsMemory _
  | decompressBlzw => exact blzwSequence_keepsMemory
  | decompressBzp2 => exact bzp2Sequence_keepsMemory _
  | decompressLhlb =>
    exact lhlbSequence_sim setup (memory_frame (modify_dhuf _)) r w memory_ownsDhuf sameWith_progress done _
  | decompressMash => exact mashSequence_sim setup (clear 0) r w sameWith_progress done _
  | decompressRake => exact rakeSequence_keepsMemory _
  | decompressShri => exact shriSequence_keepsMemory _
  | decompressSmpl => exact smplSequence_keepsMemory _
  | decompressSqsh =>
    exact sqshSequence_sim setup clear (memory_frame (modify_sqsh _ _)) r w memory_ownsSqshQ memory_ownsSqshSample
      sameWith_progress done _
  | _ => exact memory_frame (bodyOf_changes _) (by simp [memoryParts, bodyWrites, writesOf])

theorem exec_memoryForm : ∀ i s t, i.wellFormed = true → s.MemoryForm → exec i s = .next t → t.MemoryForm := by
  refine exec_invariant ?_ ?_ ?_
  · intro s _ t h
    obtain rfl := Host.Outcome.next.inj h
    exact reset_memoryForm
  · exact fun i s t _ _ _ hs h => show t.MemoryForm from (bodyOf_keepsMemory i).keeps (s := beginCommand s) hs h
  · intro i s e t k c _ _ hs h _ _
    have host := bodyOf_host i (beginCommand s)
    rw [h] at host
    exact memoryForm_errorEntry hs (congrArg Prod.fst host).symm _ _ _

/-- A write of the host stays inside the space it names, or it is refused (R70). -/
theorem hostAccess_memoryForm {c : Config} {m : HostMove} {s t : State} (hs : s.MemoryForm)
    (h : hostAccess c m s = .next t) : t.MemoryForm := by
  have delivered : ∀ v, (hostDeliver c v s).MemoryForm := fun v => by cases v <;> exact hs
  have deliveredByte : ∀ v, (hostDeliverByte c v s).MemoryForm := fun v => by cases v <;> exact hs
  cases m with
  | command w => obtain rfl := Host.Outcome.next.inj h; exact hs
  | writeCsr n v =>
    obtain rfl := Host.Outcome.next.inj h
    rw [hostWriteCsr_eq]
    exact hs
  | writeChunk a b => obtain rfl := Host.Outcome.next.inj h; exact memoryForm_chunk hs a b
  | writeLenm a b =>
    rw [hostAccess, insideSpace_eq] at h
    split at h
    · obtain rfl := Host.Outcome.next.inj h
      exact memoryForm_lenm hs (by assumption) b
    · cases h
  | readCsr n => obtain rfl := Host.Outcome.next.inj h; exact delivered _
  | readRaw a => obtain rfl := insideSpace_next h; exact deliveredByte _
  | readChunk a => obtain rfl := insideSpace_next h; exact deliveredByte _
  | readLenm a => obtain rfl := insideSpace_next h; exact deliveredByte _

/-- What a step can do: nothing, a command word, or another access of the host; the move is taken off the port first.
(`step_invariant` is for invariants that do not speak of what the host writes.) -/
theorem step_cases {s t : State} (h : step s = .next t) :
    t = s ∨ ∃ rest, (∃ w, issue w { s with port := rest } = .next t) ∨
      ∃ m, hostAccess Config.core m { s with port := rest } = .next t := by
  by_cases hb : s.status.busy = true
  · simp [step, hb] at h
  have hb : s.status.busy = false := by simpa using hb
  cases hp : s.port with
  | nil => exact .inl (by simpa [step, hb, hp] using h.symm)
  | cons m rest =>
    refine .inr ⟨rest, ?_⟩
    by_cases hm : ∃ w, m = .command w
    · obtain ⟨w, rfl⟩ := hm
      exact .inl ⟨w, (step_command hb hp).symm.trans h⟩
    · exact .inr ⟨m, (step_access hb hp fun w e => hm ⟨w, e⟩).symm.trans h⟩

theorem issue_memoryForm {w : BitVec 32} {s t : State} (hs : s.MemoryForm) (h : issue w s = .next t) : t.MemoryForm := by
  cases hd : decode w with
  | ok i =>
    rw [issue_of_decode hd] at h
    exact exec_memoryForm i s t (wellFormed_of_decode hd) hs h
  | error r =>
    simp only [issue, hd] at h
    exact Host.Outcome.next.inj h ▸ memoryForm_illegalCommand hs

end Sys2Proof.Machine

open Sys2Proof Sys2Proof.Machine

/-- Settles O16: the host and the commands write a memory inside its space only. -/
theorem stepKeepsMemoryForm : Obligations.StepKeepsMemoryForm := by
  intro s t hs h
  rcases step_cases h with rfl | ⟨rest, ⟨w, hw⟩ | ⟨m, hm⟩⟩
  · exact hs
  · exact issue_memoryForm (s := { s with port := rest }) hs hw
  · exact hostAccess_memoryForm (s := { s with port := rest }) hs hm

end

section
/-! SUPPORT. Decoding and encoding of command words (spec/30_encoding.md R101 to R108). A word splits into the bits
that its format's mask fixes, which hold OPC, and the bits that the mask leaves free, which hold the operand fields:
`rowOf_encode` reads a command's fields back from its word, `rowOf_eq_some` says that the fields read from a word fill
its free bits, and each direction of the round trip puts the two parts together. -/

namespace Sys2Proof

/-- The format of a command (R102). By `rowOf_encode` it is the format of the command's row. -/
def Instr.format : Instr → Format
  | .bitsRd8 _ | .bitsRd32 _ | .bitsReset _ | .ariGetcode _ => .i6
  | .fwrWrb _ | .bwrWrb _ => .i8
  | .hufClear _ | .hufInsert _ | .hufBuild _ => .t
  | .hufDecode _ _ => .tb
  | .dhufDecode _ => .b
  | .mtfInit _ | .mtfAccess _ => .l
  | _ => .n

/-- What decoding checks, in one line: the row of the word's OPC, the row's mask, and the bit count. -/
theorem decode_eq_ok_iff {w : BitVec 32} {i : Instr} :
    decode w = .ok i ↔ ∃ f, rowOf (fieldOpc w) w = some (f, i) ∧
      w &&& f.mask = (fieldOpc w).setWidth 32 <<< 24 ∧ i.wellFormed = true := by
  unfold decode
  rcases rowOf (fieldOpc w) w with _ | ⟨f, j⟩
  · simp
  · by_cases hmask : w &&& f.mask = (fieldOpc w).setWidth 32 <<< 24
    · cases hwf : j.wellFormed <;> simpa [hmask, hwf] using fun e : j = i => e ▸ hwf
    · simp [hmask]

/-! ## Masks -/

/-- Every mask covers OPC and the bits 19..17 that no format uses (R102). -/
theorem Format.mask_and_fixed (f : Format) : f.mask &&& 0xFF0E0000#32 = 0xFF0E0000#32 := by
  cases f <;> rfl

/-- Bits 31..24 are under every mask. -/
theorem Format.getLsbD_mask_of_le (f : Format) {k : Nat} (hk : 24 ≤ k) (hk' : k < 32) : f.mask.getLsbD k = true := by
  cases f <;> interval_cases k <;> rfl

/-- OPC lies under every mask. -/
theorem opcodeBits_and_mask (opc : BitVec 8) (f : Format) :
    opc.setWidth 32 <<< 24 &&& f.mask = opc.setWidth 32 <<< 24 := by
  ext k hk
  by_cases h : k < 24
  · simp [h]
  · simp [← BitVec.getLsbD_eq_getElem, f.getLsbD_mask_of_le (Nat.le_of_not_lt h) hk]

/-! ## Reading a field of an encoded word -/

/-- A field below OPC is read from the operand bits of the word. -/
theorem extractLsb'_opcodeBits_or (opc : BitVec 8) (x : BitVec 32) {start len : Nat} (h : start + len ≤ 24) :
    (opc.setWidth 32 <<< 24 ||| x).extractLsb' start len = x.extractLsb' start len := by
  ext k hk
  have : start + k < 24 := by omega
  simp [this]

/-- A bit below OPC is read from the operand bits of the word. -/
theorem getLsbD_opcodeBits_or (opc : BitVec 8) (x : BitVec 32) {k : Nat} (h : k < 24) :
    (opc.setWidth 32 <<< 24 ||| x).getLsbD k = x.getLsbD k := by
  simp [h]

theorem fieldImm6_encoded (opc : BitVec 8) (n : BitVec 6) :
    fieldImm6 (opc.setWidth 32 <<< 24 ||| n.setWidth 32) = n := by
  rw [fieldImm6, extractLsb'_opcodeBits_or _ _ (by decide)]
  revert n; decide

theorem fieldImm8_encoded (opc b : BitVec 8) : fieldImm8 (opc.setWidth 32 <<< 24 ||| b.setWidth 32) = b := by
  rw [fieldImm8, extractLsb'_opcodeBits_or _ _ (by decide)]
  revert b; decide

theorem fieldT_encoded (opc : BitVec 8) (t : BitVec 4) :
    fieldT (opc.setWidth 32 <<< 24 ||| t.setWidth 32 <<< 20) = t := by
  rw [fieldT, extractLsb'_opcodeBits_or _ _ (by decide)]
  revert t; decide

theorem fieldT_encoded_bs (opc : BitVec 8) (t : BitVec 4) (bs : BitSource) :
    fieldT (opc.setWidth 32 <<< 24 ||| (t.setWidth 32 <<< 20 ||| encodeBs bs)) = t := by
  rw [fieldT, extractLsb'_opcodeBits_or _ _ (by decide)]
  cases bs <;> revert t <;> decide

theorem fieldBs_encoded_t (opc : BitVec 8) (t : BitVec 4) (bs : BitSource) :
    fieldBs (opc.setWidth 32 <<< 24 ||| (t.setWidth 32 <<< 20 ||| encodeBs bs)) = bs := by
  rw [fieldBs, getLsbD_opcodeBits_or _ _ (by decide)]
  cases bs <;> revert t <;> decide

theorem fieldBs_encoded (opc : BitVec 8) (bs : BitSource) :
    fieldBs (opc.setWidth 32 <<< 24 ||| encodeBs bs) = bs := by
  rw [fieldBs, getLsbD_opcodeBits_or _ _ (by decide)]
  cases bs <;> rfl

theorem fieldL_encoded (opc : BitVec 8) (l : MtfStore) :
    fieldL (opc.setWidth 32 <<< 24 ||| encodeL l) = l := by
  rw [fieldL, getLsbD_opcodeBits_or _ _ (by decide)]
  cases l <;> rfl

/-! ## The operand fields of a command -/

/-- The operand fields leave alone every bit that the mask covers (R108). -/
theorem fieldBits_and_mask (i : Instr) : i.fieldBits &&& i.format.mask = 0#32 := by
  cases i
  case bitsRd8 n | bitsRd32 n | bitsReset n | ariGetcode n => revert n; decide
  case fwrWrb b | bwrWrb b => revert b; decide
  case hufClear t | hufInsert t | hufBuild t => revert t; decide
  case hufDecode t bs => cases bs <;> revert t <;> decide
  case dhufDecode bs => cases bs <;> rfl
  case mtfInit l | mtfAccess l => cases l <;> rfl
  all_goals rfl

/-- The row that a command's OPC names, read from the command's word, is the command's format and the command itself. -/
theorem rowOf_encode (i : Instr) : rowOf i.opcode (encode i) = some (i.format, i) := by
  cases i
  case bitsRd8 n | bitsRd32 n | bitsReset n | ariGetcode n =>
    exact congrArg (fun j => some (Format.i6, j)) (congrArg _ (fieldImm6_encoded _ n))
  case fwrWrb b | bwrWrb b => exact congrArg (fun j => some (Format.i8, j)) (congrArg _ (fieldImm8_encoded _ b))
  case hufClear t | hufInsert t | hufBuild t =>
    exact congrArg (fun j => some (Format.t, j)) (congrArg _ (fieldT_encoded _ t))
  case hufDecode t bs =>
    exact congrArg (fun j => some (Format.tb, j)) (congrArg₂ _ (fieldT_encoded_bs _ t bs) (fieldBs_encoded_t _ t bs))
  case dhufDecode bs => exact congrArg (fun j => some (Format.b, j)) (congrArg _ (fieldBs_encoded _ bs))
  case mtfInit l | mtfAccess l => exact congrArg (fun j => some (Format.l, j)) (congrArg _ (fieldL_encoded _ l))
  all_goals rfl

/-! ## Writing the fields of a word back -/

/-- A field of a word, put back at its place, is the word with every other bit cleared. -/
theorem extractLsb'_shiftLeft (w : BitVec 32) (start len : Nat) :
    (w.extractLsb' start len).setWidth 32 <<< start = w &&& (BitVec.allOnes len).setWidth 32 <<< start := by
  ext k hk
  by_cases h : k < start
  · simp [h]
  · simp [h, Nat.add_sub_cancel' (Nat.le_of_not_lt h), BitVec.getLsbD_eq_getElem hk, Bool.and_comm]

theorem fieldImm6_bits (w : BitVec 32) : (fieldImm6 w).setWidth 32 = w &&& ~~~Format.i6.mask := by
  simpa [fieldImm6, Format.mask] using extractLsb'_shiftLeft w 0 6

theorem fieldImm8_bits (w : BitVec 32) : (fieldImm8 w).setWidth 32 = w &&& ~~~Format.i8.mask := by
  simpa [fieldImm8, Format.mask] using extractLsb'_shiftLeft w 0 8

theorem fieldT_bits (w : BitVec 32) : (fieldT w).setWidth 32 <<< 20 = w &&& ~~~Format.t.mask :=
  extractLsb'_shiftLeft w 20 4

theorem fieldBs_bits (w : BitVec 32) : encodeBs (fieldBs w) = w &&& ~~~Format.b.mask := by
  rw [show ~~~Format.b.mask = BitVec.twoPow 32 16 from rfl, BitVec.and_twoPow, fieldBs]
  cases w.getLsbD 16 <;> rfl

theorem fieldL_bits (w : BitVec 32) : encodeL (fieldL w) = w &&& ~~~Format.l.mask := by
  rw [show ~~~Format.l.mask = BitVec.twoPow 32 20 from rfl, BitVec.and_twoPow, fieldL]
  cases w.getLsbD 20 <;> rfl

/-- What format TB leaves free is what T and B leave free. -/
theorem freeBits_tb (w : BitVec 32) :
    w &&& ~~~Format.t.mask ||| w &&& ~~~Format.b.mask = w &&& ~~~Format.tb.mask :=
  BitVec.and_or_distrib_left.symm

theorem noField_bits (w : BitVec 32) : 0#32 = w &&& ~~~Format.n.mask := by
  simp [Format.mask]

/-- A row names the command of its OPC and its format, with the bits that the format leaves free as operand fields. -/
theorem rowOf_eq_some {opc : BitVec 8} {w : BitVec 32} {f : Format} {i : Instr} (h : rowOf opc w = some (f, i)) :
    i.opcode = opc ∧ i.fieldBits = w &&& ~~~f.mask := by
  unfold rowOf at h
  split at h
  all_goals cases h -- the 51 rows stay, the unlisted OPC has none
  all_goals refine ⟨rfl, ?_⟩
  all_goals simp only [Instr.fieldBits, fieldImm6_bits, fieldImm8_bits, fieldT_bits, fieldBs_bits, fieldL_bits,
    freeBits_tb, ← noField_bits]

/-! ## The word of a command -/

/-- The mask of a command's format keeps the OPC of its word and clears its operand fields. -/
theorem encode_and_mask (i : Instr) : encode i &&& i.format.mask = i.opcode.setWidth 32 <<< 24 := by
  rw [encode, BitVec.and_or_distrib_right, opcodeBits_and_mask, fieldBits_and_mask, BitVec.or_zero]

theorem fieldOpc_encode (i : Instr) : fieldOpc (encode i) = i.opcode := by
  refine (Laws.EncodedOpcode.of_fields i ?_).1
  rw [← i.format.mask_and_fixed, ← BitVec.and_assoc, fieldBits_and_mask, BitVec.zero_and]

end Sys2Proof

open Sys2Proof

/-- Settles O1: the word carries the command's OPC, the row of that OPC reads the command back, and the row's mask finds
nothing beside the OPC. -/
theorem decodeOfEncode : Obligations.DecodeOfEncode := by
  intro i hwf
  rw [decode_eq_ok_iff, fieldOpc_encode]
  exact ⟨i.format, rowOf_encode i, encode_and_mask i, hwf⟩

/-- Settles O2: the bits under the mask are the OPC, the free bits are the operand fields, and together they are the
word. -/
theorem encodeOfDecode : Obligations.EncodeOfDecode := by
  intro w i h
  obtain ⟨f, hrow, hmask, hwf⟩ := decode_eq_ok_iff.1 h
  obtain ⟨hopc, hfields⟩ := rowOf_eq_some hrow
  refine ⟨hwf, ?_⟩
  calc encode i
      = (fieldOpc w).setWidth 32 <<< 24 ||| i.fieldBits := by rw [encode, hopc]
    _ = w &&& f.mask ||| w &&& ~~~f.mask := by rw [hmask, hfields]
    _ = w := by rw [← BitVec.and_or_distrib_left, BitVec.or_not_self, BitVec.and_allOnes]

/-- Settles O3, by running the decoder on the eighteen words. -/
theorem decodedWords : Obligations.DecodedWords := by
  unfold Obligations.DecodedWords
  decide

end

section
/-! SUPPORT. A command from its body: what a command that is not of the ARI unit does to a ready core is what its body
answers, or the error state of what the body raises. -/

namespace Sys2Proof.Machine

/-! ## From a body to its command -/

/-- ARI and SHRI_VALID are written by the commands of the ARI unit and DECOMPRESS.SHRI only, but for INST.RESET. -/
theorem ari_notMem_writesOf {i : Instr} (hr : i ≠ .instReset) (ha : usesAri i = false) :
    .arith ∉ writesOf i ∧ .shriFlag ∉ writesOf i := by
  cases i with
  | instReset => exact absurd rfl hr
  | ariScale | ariGetcode _ | ariDecsym | ariUpdate | ariInit | decompressShri => cases ha
  | _ => simp [writesOf]

/-- A body that raises has written only what the error takes away. -/
theorem bodyOf_error_changes {i : Instr} (hr : i ≠ .instReset) (ha : usesAri i = false) {s t : State} {e : Raise}
    (h : bodyOf i s = .error e t) : Changes lostParts s t := by
  have kept : ∀ p, p ≠ .phase → p ∉ writesOf i → p.Agree s t := fun p hp hi => by
    have := bodyOf_agree hp hi s
    rwa [h] at this
  obtain ⟨hari, hflag⟩ := ari_notMem_writesOf hr ha
  intro p hp
  cases p with
  | host => exact kept _ (by decide) (host_notMem_writesOf hr)
  | history => exact (bodyOf_error_hist hr h).symm
  | arith => exact kept _ (by decide) hari
  | shriFlag => exact kept _ (by decide) hflag
  | _ => exact absurd (by decide) hp

/-- A body that raises CorruptData(c) leaves the core in the error state of c (spec/60_exceptions.md R466). -/
theorem exec_corrupted {i : Instr} {s : State} {c : Cause} (hs : s.Ready) (h : Raises (bodyOf i) (beginCommand s) c)
    (hr : i ≠ .instReset := by nofun) (ha : usesAri i = false := by rfl) : exec i s = .next (s.corrupted c) := by
  obtain ⟨t, ht⟩ := h
  rw [exec_eq_runCommand hr, ha]
  exact run_error hs ht (bodyOf_error_changes hr ha ht)

/-- A body that ends gives the next state. -/
theorem exec_ended {i : Instr} {s t : State} (hs : s.Ready) (h : bodyOf i (beginCommand s) = .ok () (beginCommand t))
    (ht : t.status = s.status) (hr : i ≠ .instReset := by nofun) : exec i s = .next t := by
  rw [exec_eq_runCommand hr]
  exact run_ok hs h (ht ▸ hs.2.1)

theorem Raises.of_eq {α : Type} {m : M α} {s t : State} {c : Cause} (h : m s = .error (.corrupt c) t) : Raises m s c :=
  ⟨t, h⟩

/-- What raises first raises. -/
theorem Raises.bind {α β : Type} {x : M α} {f : α → M β} {s : State} {c : Cause} (h : Raises x s c) :
    Raises (x >>= f) s c := by
  obtain ⟨t, ht⟩ := h
  exact ⟨t, by rw [M.bind_apply, ht]⟩

/-- What raises after a first part raises. -/
theorem Raises.after {α β : Type} {x : M α} {f : α → M β} {s t : State} {a : α} {c : Cause} (hx : x s = .ok a t)
    (h : Raises (f a) t c) : Raises (x >>= f) s c := by
  obtain ⟨u, hu⟩ := h
  exact ⟨u, by rw [M.bind_apply, hx]; exact hu⟩

theorem arg0_apply {α : Type} {f : Word → M α} {s : State} {a : Word} (h : s.arg0 = some a) :
    (readArg0 >>= f) s = f a s := by
  simp [h]

theorem arg01_apply {α : Type} {f : Word → Word → M α} {s : State} {a b : Word} (h0 : s.arg0 = some a)
    (h1 : s.arg1 = some b) : (readArg0 >>= fun a => readArg1 >>= fun b => f a b) s = f a b s := by
  simp [h0, h1]

theorem Raises.arg0 {α : Type} {f : Word → M α} {s : State} {a : Word} {c : Cause} (h : s.arg0 = some a)
    (hf : Raises (f a) s c) : Raises (readArg0 >>= f) s c := by
  obtain ⟨t, ht⟩ := hf
  exact ⟨t, (arg0_apply h).trans ht⟩

theorem arg0_raises {α : Type} {f : Word → M α} {s : State} (h : s.arg0 = none) : Raises (readArg0 >>= f) s .unset :=
  ⟨s, by simp [h]⟩

/-- A command whose body ends by writing what `x` answers to RES[0]. -/
theorem exec_result {i : Instr} {α : Type} {x : M α} {g : α → Word} {s t : State} {a : α} (hs : s.Ready)
    (hbody : bodyOf i (beginCommand s) = (x >>= fun a => setRes0 (g a)) (beginCommand s))
    (hx : x (beginCommand s) = .ok a (beginCommand t)) (ht : t.status = s.status) (hr : i ≠ .instReset := by nofun) :
    exec i s = .next { t with res0 := some (g a) } :=
  exec_ended hs (by rw [hbody, M.bind_apply, hx]; rfl) ht hr

/-! ## Positions as words -/

theorem toWord_toNat_add (a b : Word) : toWord (a.toNat + b.toNat) = a + b :=
  BitVec.eq_of_toNat_eq (by rw [toWord_toNat, BitVec.toNat_add])

theorem toWord_toNat_succ (a : Word) : toWord (a.toNat + 1) = a + 1 := toWord_toNat_add a 1

theorem toWord_toNat_sub {a b : Word} (h : b.toNat ≤ a.toNat) : toWord (a.toNat - b.toNat) = a - b := by
  apply BitVec.eq_of_toNat_eq
  rw [BitVec.toNat_sub_of_le (BitVec.le_def.2 h), toWord_toNat_of_lt (by omega)]

theorem toWord_toNat_pred {a : Word} (h : 0 < a.toNat) : toWord (a.toNat - 1) = a - 1 := toWord_toNat_sub (b := 1) h

theorem toWord_flagBit_beq (a b : Word) : toWord (flagBit (a == b)) = if a = b then 1#32 else 0#32 := by
  by_cases h : a = b <;> simp [h, flagBit, toWord]

theorem toNat_pos_of_ne_zero {a : Word} (h : a ≠ 0#32) : 0 < a.toNat :=
  Nat.pos_of_ne_zero fun e => h (BitVec.eq_of_toNat_eq e)

end Sys2Proof.Machine

end

section
/-! SUPPORT. The stream unit (spec/40_stream_primitives.md R140 to R165): spans, cursors and writers of one byte, and
HIST.PUSH. -/

namespace Sys2Proof.Machine

/-! ## The cursors, case by case -/

theorem fcurRdb_of_byte {s : State} {f : Fcur} {b : Byte} (hf : s.fcur = some f) (hlt : f.pos.toNat < fcurEnd f s)
    (hb : storeRead s.chunk f.pos.toNat = some b) :
    fcurRdb s = .ok b { s with fcur := some { f with pos := f.pos + 1 } } := by
  rw [fcurRdb_eq, ← toWord_toNat_succ]
  simp only [hf, hb, if_neg (Nat.not_le.2 hlt)]

theorem fcurRdb_raises_of_none {s : State} (hf : s.fcur = none) : Raises fcurRdb s .unset :=
  ⟨s, by rw [fcurRdb_eq, hf]⟩

theorem fcurRdb_raises_unexpectedEnd {s : State} {f : Fcur} (hf : s.fcur = some f) (hle : fcurEnd f s ≤ f.pos.toNat) :
    Raises fcurRdb s .unexpectedEnd :=
  ⟨s, by rw [fcurRdb_eq]; simp only [hf, if_pos hle]⟩

theorem fcurRdb_raises_unset {s : State} {f : Fcur} (hf : s.fcur = some f) (hlt : f.pos.toNat < fcurEnd f s)
    (hb : storeRead s.chunk f.pos.toNat = none) : Raises fcurRdb s .unset :=
  ⟨s, by rw [fcurRdb_eq]; simp only [hf, hb, if_neg (Nat.not_le.2 hlt)]⟩

theorem bcurRdb_of_byte {s : State} {f : Bcur} {b : Byte} (hf : s.bcur = some f) (hlt : f.floor.toNat < f.pos.toNat)
    (hle : f.pos.toNat ≤ s.chunkLen.toNat) (hb : storeRead s.chunk (f.pos.toNat - 1) = some b) :
    bcurRdb s = .ok b { s with bcur := some { f with pos := f.pos - 1 } } := by
  rw [bcurRdb_eq, ← toWord_toNat_pred (Nat.zero_lt_of_lt hlt)]
  simp only [hf, hb]
  rw [if_neg (by omega)]

theorem bcurRdb_raises_of_none {s : State} (hf : s.bcur = none) : Raises bcurRdb s .unset :=
  ⟨s, by rw [bcurRdb_eq, hf]⟩

theorem bcurRdb_raises_unexpectedEnd {s : State} {f : Bcur} (hf : s.bcur = some f)
    (h : f.pos.toNat ≤ f.floor.toNat ∨ s.chunkLen.toNat < f.pos.toNat) : Raises bcurRdb s .unexpectedEnd :=
  ⟨s, by rw [bcurRdb_eq]; simp only [hf]; rw [if_pos h]⟩

theorem bcurRdb_raises_unset {s : State} {f : Bcur} (hf : s.bcur = some f) (hlt : f.floor.toNat < f.pos.toNat)
    (hle : f.pos.toNat ≤ s.chunkLen.toNat) (hb : storeRead s.chunk (f.pos.toNat - 1) = none) :
    Raises bcurRdb s .unset :=
  ⟨s, by rw [bcurRdb_eq]; simp only [hf, hb]; rw [if_neg (by omega)]⟩

/-- Where a view of `n` bytes must end: at the bound of the cursor, and at CHUNK_LEN too where the view is not empty. -/
def viewEnd (f : Fcur) (n : Nat) (s : State) : Nat := if n = 0 then f.stop.toNat else fcurEnd f s

theorem fcurConsume_of_le {s : State} {f : Fcur} {n : Word} (hf : s.fcur = some f)
    (hle : f.pos.toNat + n.toNat ≤ viewEnd f n.toNat s) :
    fcurConsume n.toNat s = .ok f.pos { s with fcur := some { f with pos := f.pos + n } } := by
  rw [fcurConsume_eq, ← toWord_toNat_add]
  simp only [hf]
  exact if_neg (Nat.not_lt.2 hle)

theorem fcurConsume_raises_of_none {s : State} {n : Nat} (hf : s.fcur = none) : Raises (fcurConsume n) s .unset :=
  ⟨s, by rw [fcurConsume_eq, hf]⟩

theorem fcurConsume_raises_unexpectedEnd {s : State} {f : Fcur} {n : Nat} (hf : s.fcur = some f)
    (hlt : viewEnd f n s < f.pos.toNat + n) : Raises (fcurConsume n) s .unexpectedEnd :=
  ⟨s, by rw [fcurConsume_eq]; simp only [hf]; exact if_pos hlt⟩

theorem bcurConsume_of_le {s : State} {f : Bcur} {n : Word} (hf : s.bcur = some f)
    (hfloor : f.floor.toNat + n.toNat ≤ f.pos.toNat) (hlen : n.toNat = 0 ∨ f.pos.toNat ≤ s.chunkLen.toNat) :
    bcurConsume n.toNat s = .ok (f.pos - n) { s with bcur := some { f with pos := f.pos - n } } := by
  rw [bcurConsume_eq, ← toWord_toNat_sub (by omega)]
  simp only [hf]
  rw [if_neg (by omega)]

theorem bcurConsume_raises_of_none {s : State} {n : Nat} (hf : s.bcur = none) : Raises (bcurConsume n) s .unset :=
  ⟨s, by rw [bcurConsume_eq, hf]⟩

theorem bcurConsume_raises_unexpectedEnd {s : State} {f : Bcur} {n : Nat} (hf : s.bcur = some f)
    (h : f.pos.toNat < f.floor.toNat + n ∨ n ≠ 0 ∧ s.chunkLen.toNat < f.pos.toNat) :
    Raises (bcurConsume n) s .unexpectedEnd :=
  ⟨s, by rw [bcurConsume_eq]; simp only [hf]; rw [if_pos h]⟩

/-! ## The writers, case by case -/

theorem fwrWrb_of_room {s : State} {f : Fwr} (hf : s.fwr = some f) (hlt : f.pos.toNat < f.stop.toNat) (b : Byte) :
    fwrWrb b s = .ok () { s with
      raw := storeWrite s.raw f.pos.toNat b, fwr := some { f with pos := f.pos + 1 } } := by
  rw [fwrWrb_eq, ← toWord_toNat_succ]
  simp only [hf, if_neg (Nat.not_le.2 hlt)]
  rfl

theorem fwrWrb_raises_of_none {s : State} (hf : s.fwr = none) (b : Byte) : Raises (fwrWrb b) s .unset :=
  ⟨s, by rw [fwrWrb_eq, hf]⟩

theorem fwrWrb_raises_overrun {s : State} {f : Fwr} (hf : s.fwr = some f) (hle : f.stop.toNat ≤ f.pos.toNat)
    (b : Byte) : Raises (fwrWrb b) s .overrun :=
  ⟨s, by rw [fwrWrb_eq]; simp only [hf, if_pos hle]⟩

theorem bwrWrb_of_room {s : State} {f : Bwr} (hf : s.bwr = some f) (hlt : f.floor.toNat < f.pos.toNat) (b : Byte) :
    bwrWrb b s = .ok () { s with
      raw := storeWrite s.raw (f.pos.toNat - 1) b, bwr := some { f with pos := f.pos - 1 } } := by
  rw [bwrWrb_eq, ← toWord_toNat_pred (Nat.zero_lt_of_lt hlt)]
  simp only [hf, if_neg (Nat.not_le.2 hlt)]
  rfl

theorem bwrWrb_raises_of_none {s : State} (hf : s.bwr = none) (b : Byte) : Raises (bwrWrb b) s .unset :=
  ⟨s, by rw [bwrWrb_eq, hf]⟩

theorem bwrWrb_raises_overrun {s : State} {f : Bwr} (hf : s.bwr = some f) (hle : f.pos.toNat ≤ f.floor.toNat)
    (b : Byte) : Raises (bwrWrb b) s .overrun :=
  ⟨s, by rw [bwrWrb_eq]; simp only [hf, if_pos hle]⟩

/-! ## Commands that place a span -/

/-- A command that places a span from ARG[0] to ARG[1] in a memory does so where the span is inside it, and raises Range
elsewhere. -/
theorem exec_spanSet {i : Instr} {span : Word → Word → M Unit} {len : Word} {place : State → State} {s : State}
    {a b : Word} (hs : s.Ready) (h0 : s.arg0 = some a) (h1 : s.arg1 = some b)
    (hbody : bodyOf i = readArg0 >>= fun a => readArg1 >>= fun b => span a b)
    (hspan : span a b (beginCommand s) =
      if a.toNat > b.toNat ∨ b.toNat > len.toNat then .error (.corrupt .range) (beginCommand s)
      else .ok () (beginCommand (place s)))
    (hplace : (place s).status = s.status := by rfl) (hr : i ≠ .instReset := by nofun)
    (ha : usesAri i = false := by rfl) :
    (a.toNat ≤ b.toNat → b.toNat ≤ len.toNat → exec i s = .next (place s)) ∧
    (b.toNat < a.toNat ∨ len.toNat < b.toNat → exec i s = .next (s.corrupted .range)) := by
  have body : bodyOf i (beginCommand s) = span a b (beginCommand s) := by
    rw [hbody]
    exact arg01_apply h0 h1
  constructor
  · intro hab hb
    exact exec_ended hs (by rw [body, hspan, if_neg (by omega)]) hplace hr
  · intro hout
    exact exec_corrupted hs (.of_eq (by rw [body, hspan, if_pos (by omega)])) hr ha

end Sys2Proof.Machine

open Sys2Proof Sys2Proof.Machine

/-- Settles O23: the four commands differ in the memory and in what they place. -/
theorem spansSet : Obligations.SpansSet := by
  intro s a b hs h0 h1
  obtain ⟨fcurIn, fcurOut⟩ := exec_spanSet (i := .fcurSet) hs h0 h1 rfl (fcurSet_eq a b (beginCommand s))
    (place := fun s => { s with fcur := some { pos := a, stop := b } })
  obtain ⟨bcurIn, bcurOut⟩ := exec_spanSet (i := .bcurSet) hs h0 h1 rfl (bcurSet_eq a b (beginCommand s))
    (place := fun s => { s with bcur := some { pos := b, floor := a } })
  obtain ⟨fwrIn, fwrOut⟩ := exec_spanSet (i := .fwrSet) hs h0 h1 rfl (fwrSet_eq a b (beginCommand s))
    (place := fun s => { s with fwr := some { start := a, pos := a, stop := b } })
  obtain ⟨bwrIn, bwrOut⟩ := exec_spanSet (i := .bwrSet) hs h0 h1 rfl (bwrSet_eq a b (beginCommand s))
    (place := fun s => { s with bwr := some { top := b, pos := b, floor := a } })
  exact ⟨fun hab hb => ⟨fcurIn hab hb, bcurIn hab hb⟩, fun h => ⟨fcurOut h, bcurOut h⟩,
    fun hab hb => ⟨fwrIn hab hb, bwrIn hab hb⟩, fun h => ⟨fwrOut h, bwrOut h⟩⟩

/-- Settles O33: the push finds a byte without value, a full store, or neither, in this order. -/
theorem histPush : Obligations.HistPush := by
  intro s hs
  have body := histPush_eq Config.core (beginCommand s)
  simp only [beginCommand_raw, beginCommand_rawLen, beginCommand_hist] at body
  refine ⟨fun buffer hb => ?_, fun hb => ?_⟩
  · rw [hb] at body
    simp only [List.length_append, List.length_singleton, List.length_flatten, List.map_append, List.map_singleton,
      List.sum_append, List.sum_singleton] at body
    split
    · next full => exact exec_corrupted hs (.of_eq (body.trans (if_pos full)))
    · next room => exact exec_ended hs (body.trans (if_neg room)) rfl
  · rw [hb] at body
    exact exec_corrupted hs (.of_eq body)

/-- Settles O32: each query writes to RES[0] what its writer's operation answers. -/
theorem writerQueries : Obligations.WriterQueries := by
  intro s hs
  refine ⟨fun hf => ⟨?_, ?_⟩, fun hf => ⟨?_, ?_⟩, fun f hf hle => ⟨?_, ?_⟩, fun f hf hle => ⟨?_, ?_⟩⟩
  · exact exec_corrupted hs (.bind (.of_eq (by rw [fwrEof_eq, beginCommand_fwr, hf])))
  · exact exec_corrupted hs (.bind (.of_eq (by rw [fwrOff_eq, beginCommand_fwr, hf])))
  · exact exec_corrupted hs (.bind (.of_eq (by rw [bwrEof_eq, beginCommand_bwr, hf])))
  · exact exec_corrupted hs (.bind (.of_eq (by rw [bwrOff_eq, beginCommand_bwr, hf])))
  · rw [← toWord_flagBit_beq]
    exact exec_result (x := fwrEof) (g := fun e => toWord (flagBit e)) hs rfl
      (by rw [fwrEof_eq, beginCommand_fwr, hf]) rfl
  · rw [← toWord_toNat_sub hle]
    exact exec_result hs rfl (by rw [fwrOff_eq, beginCommand_fwr, hf]) rfl
  · rw [← toWord_flagBit_beq]
    exact exec_result (x := bwrEof) (g := fun e => toWord (flagBit e)) hs rfl
      (by rw [bwrEof_eq, beginCommand_bwr, hf]) rfl
  · rw [← toWord_toNat_sub hle]
    exact exec_result hs rfl (by rw [bwrOff_eq, beginCommand_bwr, hf]) rfl

/-- Settles O24, by the cases of the two reads. -/
theorem cursorReadByte : Obligations.CursorReadByte := by
  intro s hs
  refine ⟨fun hf => ?_, fun hf => ?_, fun f hf hend hlen hb => ?_, fun f hf hfloor hlen hb => ?_,
    fun f b hf hend hlen hb => ?_, fun f hf hend => ?_, fun f b hf hfloor hlen hb => ?_, fun f hf hend => ?_⟩
  · exact exec_corrupted hs (.bind (fcurRdb_raises_of_none hf))
  · exact exec_corrupted hs (.bind (bcurRdb_raises_of_none hf))
  · exact exec_corrupted hs (.bind (fcurRdb_raises_unset hf (lt_min hend hlen) hb))
  · exact exec_corrupted hs (.bind (bcurRdb_raises_unset hf hfloor hlen hb))
  · exact exec_result (t := { s with fcur := some { f with pos := f.pos + 1 } }) hs rfl
      (fcurRdb_of_byte hf (lt_min hend hlen) hb) rfl
  · exact exec_corrupted hs (.bind (fcurRdb_raises_unexpectedEnd hf (min_le_iff.2 hend)))
  · exact exec_result (t := { s with bcur := some { f with pos := f.pos - 1 } }) hs rfl
      (bcurRdb_of_byte hf hfloor hlen hb) rfl
  · exact exec_corrupted hs (.bind (bcurRdb_raises_unexpectedEnd hf hend))

/-- Settles O25: the bound of a view is that of its cursor, and CHUNK_LEN too where the view is not empty. -/
theorem cursorConsume : Obligations.CursorConsume := by
  refine ⟨fun s hs h0 => ⟨exec_corrupted hs (arg0_raises h0), exec_corrupted hs (arg0_raises h0)⟩, fun s n hs h0 => ?_⟩
  have zero : n = 0#32 ↔ n.toNat = 0 := BitVec.toNat_inj.symm
  simp only [ne_eq, zero]
  refine ⟨fun hf => ?_, fun hf => ?_, fun f hf hend hlen => ?_, fun f hf hend => ?_, fun f hf hfloor hlen => ?_,
    fun f hf hend => ?_⟩
  · exact exec_corrupted hs (.arg0 h0 (.bind (fcurConsume_raises_of_none hf)))
  · exact exec_corrupted hs (.arg0 h0 (.bind (bcurConsume_raises_of_none hf)))
  · have inside : f.pos.toNat + n.toNat ≤ viewEnd f n.toNat s := by
      unfold viewEnd fcurEnd; split <;> omega
    exact exec_result (x := fcurConsume n.toNat) (g := id) (t := { s with fcur := some { f with pos := f.pos + n } }) hs
      (arg0_apply h0) (fcurConsume_of_le hf inside) rfl
  · have outside : viewEnd f n.toNat s < f.pos.toNat + n.toNat := by
      unfold viewEnd fcurEnd; split <;> omega
    exact exec_corrupted hs (.arg0 h0 (.bind (fcurConsume_raises_unexpectedEnd hf outside)))
  · exact exec_result (x := bcurConsume n.toNat) (g := id) (t := { s with bcur := some { f with pos := f.pos - n } }) hs
      (arg0_apply h0) (bcurConsume_of_le hf hfloor hlen) rfl
  · exact exec_corrupted hs (.arg0 h0 (.bind (bcurConsume_raises_unexpectedEnd hf hend)))

/-- Settles O28: a write inside the span is one write of RAW. -/
theorem writeByte : Obligations.WriteByte := by
  intro s b hs
  refine ⟨fun hf => ?_, fun hf => ?_, fun f hf hlt => ?_, fun f hf hle => ?_, fun f hf hlt => ?_, fun f hf hle => ?_⟩
  · exact exec_corrupted hs (fwrWrb_raises_of_none (s := beginCommand s) hf b)
  · exact exec_corrupted hs (bwrWrb_raises_of_none (s := beginCommand s) hf b)
  · exact ⟨_, exec_ended hs (fwrWrb_of_room (s := beginCommand s) hf hlt b) rfl, fun k => storeRead_write _ _ k _⟩
  · exact exec_corrupted hs (fwrWrb_raises_overrun (s := beginCommand s) hf hle b)
  · exact ⟨_, exec_ended hs (bwrWrb_of_room (s := beginCommand s) hf hlt b) rfl, fun k => storeRead_write _ _ k _⟩
  · exact exec_corrupted hs (bwrWrb_raises_overrun (s := beginCommand s) hf hle b)

end

section
/-! SUPPORT. The copies (spec/40_stream_primitives.md R153, R154, R159, R163). A byte-serial loop leaves a memory in which every
byte of the copy equals the byte `d` before it in the stream that the writer has written; so the copy repeats the `d` bytes
before it, whatever the direction. -/

namespace Sys2Proof.Machine

/-! ## Repetition -/

/-- Where every element from `n` on equals the one `d` before it, the `d` elements before `n` repeat. -/
theorem repeats_mod {α : Type} {g : Nat → α} {n d c : Nat} (hd : 0 < d) (hn : d ≤ n)
    (h : ∀ i, i < c → g (n + i) = g (n + i - d)) (i : Nat) (hi : i < c) : g (n + i) = g (n - d + i % d) := by
  induction i using Nat.strong_induction_on with
  | _ i ih =>
    rw [h i hi]
    rcases Nat.lt_or_ge i d with hlt | hge
    · rw [Nat.mod_eq_of_lt hlt, Nat.sub_add_comm hn]
    · rw [Nat.add_sub_assoc hge, ih (i - d) (by omega) (by omega), ← Nat.mod_eq_sub_mod hge]

/-! ## The checks of a copy command -/

/-- A copy command raises ZeroDistance, then Distance, then Overrun, before any byte moves; where none of them holds it runs
its loop (R153, R154, R159). `n` is how far the distance can reach. -/
theorem exec_copy {i : Instr} {copy : Nat → Nat → M Unit} {loop : M Unit} {n : Nat} {full : Prop} [Decidable full]
    {s : State} {d c : Word} (hs : s.Ready) (h0 : s.arg0 = some d) (h1 : s.arg1 = some c)
    (hbody : bodyOf i = readArg0 >>= fun d => readArg1 >>= fun c => copy d.toNat c.toNat)
    (check : copy d.toNat c.toNat (beginCommand s) =
      if d.toNat = 0 then .error (.corrupt .zeroDistance) (beginCommand s)
      else if d.toNat > n then .error (.corrupt .distance) (beginCommand s)
      else if full then .error (.corrupt .overrun) (beginCommand s)
      else loop (beginCommand s))
    (hr : i ≠ .instReset := by nofun) (ha : usesAri i = false := by rfl) :
    (d = 0#32 → exec i s = .next (s.corrupted .zeroDistance)) ∧
    (d ≠ 0#32 → n < d.toNat → exec i s = .next (s.corrupted .distance)) ∧
    (d ≠ 0#32 → d.toNat ≤ n → full → exec i s = .next (s.corrupted .overrun)) ∧
    (d ≠ 0#32 → d.toNat ≤ n → ¬ full → ∀ t, t.status = s.status →
      loop (beginCommand s) = .ok () (beginCommand t) → exec i s = .next t) := by
  have body : bodyOf i (beginCommand s) = copy d.toNat c.toNat (beginCommand s) := by
    rw [hbody]
    exact arg01_apply (f := fun d c => copy d.toNat c.toNat) h0 h1
  rw [← body] at check
  refine ⟨fun hd => exec_corrupted hs (.of_eq (check.trans (if_pos (congrArg BitVec.toNat hd)))) hr ha,
    fun hd far => exec_corrupted hs ⟨beginCommand s, ?_⟩ hr ha, fun hd near hfull => exec_corrupted hs ⟨beginCommand s, ?_⟩ hr ha,
    fun hd near room t ht run => exec_ended hs ?_ ht hr⟩
  all_goals rw [check, if_neg (Nat.ne_of_gt (toNat_pos_of_ne_zero hd))]
  · exact if_pos far
  · exact (if_neg (Nat.not_lt.2 near)).trans (if_pos hfull)
  · exact (if_neg (Nat.not_lt.2 near)).trans ((if_neg room).trans run)

/-! ## The forward writer -/

/-- How many bytes a copy can reach back: the history, and what the writer has written (R154). -/
def reach (history : List Byte) (f : Fwr) : Nat := history.length + (f.pos.toNat - f.start.toNat)

theorem fwrCopyhLoop_step {history : List Byte} {d c : Nat} {s : State} {f : Fwr} {b : Byte} (hf : s.fwr = some f)
    (hb : logicalByte history f s.raw (reach history f - d) = some b) :
    fwrCopyhLoop history d (c + 1) s = fwrCopyhLoop history d c (fwrPut f b s) := by
  rw [fwrCopyhLoop_succ]
  simp only [hf]
  rw [show history.length + (f.pos.toNat - f.start.toNat) - d = reach history f - d from rfl, hb]

/-- The logical stream at and beyond the writer's position is RAW from the position on. -/
theorem logicalByte_ahead {history : List Byte} {f : Fwr} (hle : f.start.toNat ≤ f.pos.toNat) (m : Memory) (i : Nat) :
    logicalByte history f m (reach history f + i) = storeRead m (f.pos.toNat + i) := by
  rw [logicalByte, reach, if_neg (by omega)]
  congr 1
  omega

/-- The logical stream before the position does not see the bytes at and beyond it. -/
theorem logicalByte_congr {history : List Byte} {f : Fwr} {m m' : Memory}
    (h : ∀ k, k < f.pos.toNat → storeRead m k = storeRead m' k) {j : Nat} (hj : j < reach history f) :
    logicalByte history f m j = logicalByte history f m' j := by
  unfold logicalByte
  split
  · rfl
  · exact h _ (by unfold reach at hj; omega)

/-- The loop of FWR.COPYH: it moves the writer by `c`, leaves every other byte, and every byte of the copy equals the byte
`d` before it in the logical stream. -/
theorem fwrCopyhLoop_repeats {history : List Byte} {d : Nat} (hd : 0 < d) (c : Nat) {s : State} {f : Fwr}
    (hf : s.fwr = some f) (hle : f.start.toNat ≤ f.pos.toNat) (hroom : f.pos.toNat + c < 2 ^ 32)
    (hreach : d ≤ reach history f)
    (known : ∀ j, reach history f - d ≤ j → j < reach history f → ∃ b, logicalByte history f s.raw j = some b) :
    ∃ m, fwrCopyhLoop history d c s =
        .ok () { s with raw := m, fwr := some { f with pos := toWord (f.pos.toNat + c) } } ∧
      (∀ i, i < c → logicalByte history f m (reach history f + i) = logicalByte history f m (reach history f + i - d)) ∧
      ∀ k, k < f.pos.toNat ∨ f.pos.toNat + c ≤ k → storeRead m k = storeRead s.raw k := by
  induction c generalizing s f with
  | zero =>
    refine ⟨s.raw, ?_, fun i hi => absurd hi (Nat.not_lt_zero i), fun _ _ => rfl⟩
    rw [fwrCopyhLoop_zero, Nat.add_zero, toWord_toNat_self, ← hf]
  | succ c ih =>
    obtain ⟨b, hb⟩ := known (reach history f - d) le_rfl (by omega)
    have hpos : (toWord (f.pos.toNat + 1)).toNat = f.pos.toNat + 1 := toWord_toNat_of_lt (by omega)
    have hnext : reach history { f with pos := toWord (f.pos.toNat + 1) } = reach history f + 1 := by
      simp only [reach, hpos]; omega
    have before : ∀ k, k < f.pos.toNat → storeRead (fwrPut f b s).raw k = storeRead s.raw k :=
      fun k hk => storeRead_write_other _ _ (by omega)
    have written : storeRead (fwrPut f b s).raw f.pos.toNat = some b := storeRead_write_same _ _ _
    have known' : ∀ j, reach history f + 1 - d ≤ j → j < reach history f + 1 →
        ∃ b', logicalByte history f (fwrPut f b s).raw j = some b' := fun j hj hj' => by
      rcases Nat.lt_succ_iff_lt_or_eq.1 hj' with hlt | rfl
      · rw [logicalByte_congr before hlt]; exact known j (by omega) hlt
      · exact ⟨b, (logicalByte_ahead hle _ 0).trans written⟩
    obtain ⟨m, run, same, rest⟩ := ih (s := fwrPut f b s) (f := { f with pos := toWord (f.pos.toNat + 1) }) rfl
      (by simp only [hpos]; omega) (by simp only [hpos]; omega) (by omega) (by rw [hnext]; exact known')
    simp only [hpos, hnext] at run same rest
    refine ⟨m, ?_, fun i hi => ?_, fun k hk => ?_⟩
    · rw [fwrCopyhLoop_step hf hb, run, Nat.add_right_comm]
      rfl
    · cases i with
      | zero =>
        have unread : ∀ k, k < f.pos.toNat → storeRead m k = storeRead s.raw k := fun k hk =>
          (rest k (by omega)).trans (before k hk)
        rw [logicalByte_ahead hle, Nat.add_zero, Nat.add_zero, rest _ (by omega), written,
          logicalByte_congr unread (by omega), hb]
      | succ i =>
        rw [show reach history f + (i + 1) = reach history f + 1 + i from by omega]
        exact same i (by omega)
    · rw [rest k (by omega)]
      exact storeRead_write_other _ _ (by omega)

/-- FWR.COPYH where its checks pass: byte `i` of the copy is byte `i mod d` of the `d` bytes before the position in the
logical stream, and every other byte is as before (R154, R163). -/
theorem fwrCopyhLoop_copies {history : List Byte} {d c : Nat} {s : State} {f : Fwr} (hd : 0 < d) (hf : s.fwr = some f)
    (hle : f.start.toNat ≤ f.pos.toNat) (hroom : f.pos.toNat + c < 2 ^ 32) (hreach : d ≤ reach history f)
    (known : ∀ j, reach history f - d ≤ j → j < reach history f → ∃ b, logicalByte history f s.raw j = some b) :
    ∃ m, fwrCopyhLoop history d c s =
        .ok () { s with raw := m, fwr := some { f with pos := toWord (f.pos.toNat + c) } } ∧
      (∀ i, i < c → storeRead m (f.pos.toNat + i) = logicalByte history f s.raw (reach history f - d + i % d)) ∧
      ∀ k, k < f.pos.toNat ∨ f.pos.toNat + c ≤ k → storeRead m k = storeRead s.raw k := by
  obtain ⟨m, run, same, rest⟩ := fwrCopyhLoop_repeats hd c hf hle hroom hreach known
  refine ⟨m, run, fun i hi => ?_, rest⟩
  have := Nat.mod_lt i hd
  rw [← logicalByte_ahead hle, repeats_mod (g := logicalByte history f m) hd hreach same i hi,
    logicalByte_congr (fun k hk => rest k (.inl hk)) (by omega)]

/-- FWR.COPY is FWR.COPYH without a history, where the distance lies in what has been written. -/
theorem fwrCopyLoop_eq_fwrCopyhLoop {d : Nat} (c : Nat) {s : State} {f : Fwr} (hf : s.fwr = some f)
    (hroom : f.pos.toNat + c < 2 ^ 32) (hd : f.start.toNat + d ≤ f.pos.toNat) :
    fwrCopyLoop d c s = fwrCopyhLoop [] d c s := by
  induction c generalizing s f with
  | zero => rfl
  | succ c ih =>
    have source : logicalByte [] f s.raw (([] : List Byte).length + (f.pos.toNat - f.start.toNat) - d) =
        storeRead s.raw (f.pos.toNat - d) := by
      rw [logicalByte, if_neg (by simp), List.length_nil]
      congr 1
      omega
    have hpos : (toWord (f.pos.toNat + 1)).toNat = f.pos.toNat + 1 := toWord_toNat_of_lt (by omega)
    rw [fwrCopyLoop_succ, fwrCopyhLoop_succ]
    simp only [hf, source]
    cases storeRead s.raw (f.pos.toNat - d) with
    | none => rfl
    | some b =>
      show fwrCopyLoop d c (fwrPut f b s) = fwrCopyhLoop [] d c (fwrPut f b s)
      exact ih (f := { f with pos := toWord (f.pos.toNat + 1) }) rfl (by simp only [hpos]; omega)
        (by simp only [hpos]; omega)

/-! ## The backward writer -/

theorem bwrCopyLoop_step {d c : Nat} {s : State} {f : Bwr} {b : Byte} (hf : s.bwr = some f)
    (hb : storeRead s.raw (f.pos.toNat - 1 + d) = some b) :
    bwrCopyLoop d (c + 1) s = bwrCopyLoop d c (bwrPut f b s) := by
  rw [bwrCopyLoop_succ]
  simp only [hf, hb]

/-- The loop of BWR.COPY: it moves the writer down by `c`, leaves every other byte, and every byte of the copy equals the
byte `d` above it. -/
theorem bwrCopyLoop_repeats {d : Nat} (hd : 0 < d) (c : Nat) {s : State} {f : Bwr} (hf : s.bwr = some f)
    (hroom : c ≤ f.pos.toNat) (known : ∀ k, f.pos.toNat ≤ k → k < f.pos.toNat + d → ∃ b, storeRead s.raw k = some b) :
    ∃ m, bwrCopyLoop d c s = .ok () { s with raw := m, bwr := some { f with pos := toWord (f.pos.toNat - c) } } ∧
      (∀ i, i < c → storeRead m (f.pos.toNat - 1 - i) = storeRead m (f.pos.toNat - 1 - i + d)) ∧
      ∀ k, k < f.pos.toNat - c ∨ f.pos.toNat ≤ k → storeRead m k = storeRead s.raw k := by
  induction c generalizing s f with
  | zero =>
    refine ⟨s.raw, ?_, fun i hi => absurd hi (Nat.not_lt_zero i), fun _ _ => rfl⟩
    rw [bwrCopyLoop_zero, Nat.sub_zero, toWord_toNat_self, ← hf]
  | succ c ih =>
    obtain ⟨b, hb⟩ := known (f.pos.toNat - 1 + d) (by omega) (by omega)
    have hpos : (toWord (f.pos.toNat - 1)).toNat = f.pos.toNat - 1 := toWord_toNat_of_lt (by omega)
    have above : ∀ k, f.pos.toNat ≤ k → storeRead (bwrPut f b s).raw k = storeRead s.raw k :=
      fun k hk => storeRead_write_other _ _ (by omega)
    have written : storeRead (bwrPut f b s).raw (f.pos.toNat - 1) = some b := storeRead_write_same _ _ _
    have known' : ∀ k, f.pos.toNat - 1 ≤ k → k < f.pos.toNat - 1 + d →
        ∃ b', storeRead (bwrPut f b s).raw k = some b' := fun k hk hk' => by
      rcases Nat.eq_or_lt_of_le hk with rfl | hlt
      · exact ⟨b, written⟩
      · rw [above k (by omega)]; exact known k (by omega) (by omega)
    obtain ⟨m, run, same, rest⟩ := ih (s := bwrPut f b s) (f := { f with pos := toWord (f.pos.toNat - 1) }) rfl
      (by simp only [hpos]; omega) (by simp only [hpos]; exact known')
    simp only [hpos] at run same rest
    refine ⟨m, ?_, fun i hi => ?_, fun k hk => ?_⟩
    · rw [bwrCopyLoop_step hf hb, run, Nat.sub_right_comm]
      rfl
    · cases i with
      | zero =>
        rw [Nat.sub_zero, rest _ (by omega), written, rest _ (by omega), above _ (by omega), hb]
      | succ i =>
        rw [show f.pos.toNat - 1 - (i + 1) = f.pos.toNat - 1 - 1 - i from by omega]
        exact same i (by omega)
    · rw [rest k (by omega)]
      exact storeRead_write_other _ _ (by omega)

/-- BWR.COPY where its checks pass: the mirror image of FWR.COPY (R159). The stream of the bytes written, first byte first,
is RAW read downwards from the top. -/
theorem bwrCopyLoop_copies {d c : Nat} {s : State} {f : Bwr} (hd : 0 < d) (hf : s.bwr = some f)
    (hreach : f.pos.toNat + d ≤ f.top.toNat) (hroom : c ≤ f.pos.toNat)
    (known : ∀ k, f.pos.toNat ≤ k → k < f.pos.toNat + d → ∃ b, storeRead s.raw k = some b) :
    ∃ m, bwrCopyLoop d c s = .ok () { s with raw := m, bwr := some { f with pos := toWord (f.pos.toNat - c) } } ∧
      (∀ i, i < c → storeRead m (f.pos.toNat - 1 - i) = storeRead s.raw (f.pos.toNat + d - 1 - i % d)) ∧
      ∀ k, k < f.pos.toNat - c ∨ f.pos.toNat ≤ k → storeRead m k = storeRead s.raw k := by
  obtain ⟨m, run, same, rest⟩ := bwrCopyLoop_repeats hd c hf hroom known
  refine ⟨m, run, fun i hi => ?_, rest⟩
  have := Nat.mod_lt i hd
  have downwards := repeats_mod (g := fun j => storeRead m (f.top.toNat - 1 - j)) (n := f.top.toNat - f.pos.toNat) hd
    (by omega) (c := c) (fun i hi => by
      show storeRead m _ = storeRead m _
      rw [show f.top.toNat - 1 - (f.top.toNat - f.pos.toNat + i) = f.pos.toNat - 1 - i by omega, same i hi]
      congr 1
      omega) i hi
  calc storeRead m (f.pos.toNat - 1 - i)
      = storeRead m (f.top.toNat - 1 - (f.top.toNat - f.pos.toNat + i)) := by congr 1; omega
    _ = storeRead m (f.top.toNat - 1 - (f.top.toNat - f.pos.toNat - d + i % d)) := downwards
    _ = storeRead m (f.pos.toNat + d - 1 - i % d) := by congr 1; omega
    _ = storeRead s.raw (f.pos.toNat + d - 1 - i % d) := rest _ (.inr (by omega))

end Sys2Proof.Machine

open Sys2Proof Sys2Proof.Machine

/-- Settles O30: the source bytes of the logical stream all hold values, so the loop never stops. -/
theorem historyCopy : Obligations.HistoryCopy := by
  intro s f d c written hs hf hle h0 h1 hw
  have total : (s.hist.flatten ++ written).length = reach s.hist.flatten f := by
    rw [List.length_append, memBytes_length hw, reach]
  have stream : ∀ j, j < reach s.hist.flatten f →
      logicalByte s.hist.flatten f s.raw j = (s.hist.flatten ++ written)[j]? := fun j hj => by
    unfold logicalByte
    split
    · next h => rw [List.getElem?_append_left h]
    · next h => rw [List.getElem?_append_right (by omega), memBytes_get hw (by unfold reach at hj; omega)]
  have check := fwrCopyh_eq d.toNat c.toNat (beginCommand s)
  simp only [beginCommand_fwr, beginCommand_hist, hf] at check
  obtain ⟨zero, far, full, run⟩ := exec_copy (i := .fwrCopyh) hs h0 h1 rfl check
  rw [total]
  refine ⟨zero, far, full, fun hd hge hroom => ?_⟩
  have hpos := toNat_pos_of_ne_zero hd
  obtain ⟨m, loop, copied, rest⟩ := fwrCopyhLoop_copies (s := beginCommand s) hpos hf hle
    (lt_of_le_of_lt hroom f.stop.isLt) hge fun j _ hj =>
      ⟨_, (stream j hj).trans (List.getElem?_eq_getElem (total ▸ hj))⟩
  refine ⟨m, ?_, fun i hi => ?_, rest⟩
  · rw [← toWord_toNat_add]
    exact run hd hge (Nat.not_lt.2 hroom) _ rfl loop
  · have := Nat.mod_lt i hpos
    rw [copied i hi]
    exact stream _ (by omega)

/-- Settles O29: a forward copy is a copy over the empty history. -/
theorem forwardCopy : Obligations.ForwardCopy := by
  intro s f d c hs hf hle h0 h1
  have check := fwrCopy_eq d.toNat c.toNat (beginCommand s)
  simp only [beginCommand_fwr, hf] at check
  obtain ⟨zero, far, full, run⟩ := exec_copy (i := .fwrCopy) hs h0 h1 rfl check
  refine ⟨zero, fun hd hlt => far hd (by omega), fun hd hge => full hd (by omega), fun hd hge hroom known => ?_⟩
  have hpos := toNat_pos_of_ne_zero hd
  have hword := lt_of_le_of_lt hroom f.stop.isLt
  have reached : reach [] f = f.pos.toNat - f.start.toNat := by simp [reach]
  have source : ∀ j, logicalByte [] f s.raw j = storeRead s.raw (f.start.toNat + j) := fun j => by simp [logicalByte]
  have asHistory := fwrCopyLoop_eq_fwrCopyhLoop (s := beginCommand s) c.toNat hf hword hge
  obtain ⟨m, loop, copied, rest⟩ := fwrCopyhLoop_copies (s := beginCommand s) (history := []) hpos hf hle hword
    (by omega) fun j hj hj' => by
      rw [beginCommand_raw, source]
      exact known _ (by omega) (by omega)
  refine ⟨m, ?_, fun i hi => ?_, rest⟩
  · rw [← toWord_toNat_add]
    exact run hd (by omega) (Nat.not_lt.2 hroom) _ rfl (asHistory.trans loop)
  · rw [copied i hi, beginCommand_raw, source, reached]
    congr 1
    omega

/-- Settles O31: the bytes written, first byte first, are RAW read downwards from the top. -/
theorem backwardCopy : Obligations.BackwardCopy := by
  intro s f d c hs hf hle h0 h1
  have check := bwrCopy_eq d.toNat c.toNat (beginCommand s)
  simp only [beginCommand_bwr, hf] at check
  obtain ⟨zero, far, full, run⟩ := exec_copy (i := .bwrCopy) hs h0 h1 rfl check
  refine ⟨zero, fun hd hlt => far hd (by omega), fun hd hge => full hd (by omega), fun hd hge hroom known => ?_⟩
  have fits : c.toNat ≤ f.pos.toNat := by omega
  obtain ⟨m, loop, copied, rest⟩ :=
    bwrCopyLoop_copies (s := beginCommand s) (toNat_pos_of_ne_zero hd) hf hge fits known
  refine ⟨m, ?_, copied, rest⟩
  rw [← toWord_toNat_sub fits]
  exact run hd (by omega) (Nat.not_lt.2 hroom) _ rfl loop

end

section
/-! SUPPORT. The bit reader (spec/40_stream_primitives.md R146 to R150): what a read raises where the stream is too short, what
a read leaves of the stream, and the stream that a sequence of reads delivers. -/

namespace Sys2Proof.Machine

/-! ## Where the stream ends -/

/-- The bytes to be read end at the bound of the cursor, or before a byte without value. -/
theorem storeRead_knownBytes_length {m : Memory} {a n : Nat} (h : (knownBytes m a n).length < n) :
    storeRead m (a + (knownBytes m a n).length) = none := by
  induction n generalizing a with
  | zero => exact absurd h (Nat.not_lt_zero _)
  | succ n ih =>
    rw [knownBytes] at h ⊢
    cases hb : storeRead m a with
    | none => exact hb
    | some b =>
      simp only [hb, List.length_cons, Nat.succ_lt_succ_iff] at h ⊢
      rw [← ih h]
      congr 1
      omega

theorem unreadBytes_stop {s : State} {f : Fcur} (hf : s.fcur = some f)
    (h : f.pos.toNat + s.unreadBytes.length < fcurEnd f s) :
    storeRead s.chunk (f.pos.toNat + s.unreadBytes.length) = none := by
  simp only [State.unreadBytes, hf] at h ⊢
  exact storeRead_knownBytes_length (by unfold fcurEnd at h; omega)

theorem unreadBytes_of_none {s : State} (hf : s.fcur = none) : s.unreadBytes = [] := by
  simp [State.unreadBytes, hf]

/-- What a refill raises that comes to the end of the whole groups of bytes: Unset where there is no cursor, or the cursor
still spans a group, of which a byte then holds no value; else UnexpectedEnd. -/
def State.endCause (src : BitSource) (s : State) : Cause :=
  match s.fcur with
  | none => .unset
  | some f =>
    if fcurEnd f s < f.pos.toNat + groupBytes src * (s.unreadBytes.length / groupBytes src + 1) then .unexpectedEnd
    else .unset

theorem endCause_of_none {src : BitSource} {s : State} (hf : s.fcur = none) : s.endCause src = .unset := by
  simp [State.endCause, hf]

theorem endCause_of_some {src : BitSource} {s : State} {f : Fcur} (hf : s.fcur = some f) :
    s.endCause src =
      if fcurEnd f s < f.pos.toNat + groupBytes src * (s.unreadBytes.length / groupBytes src + 1) then .unexpectedEnd
      else .unset := by
  simp [State.endCause, hf]

/-- Where every byte holds a value, the stream ends with the cursor's span. -/
theorem endCause_of_whole {src : BitSource} {s : State} (h : s.WholeStream) : s.endCause src = .unexpectedEnd := by
  obtain ⟨f, hf, hlen⟩ := h
  have := Nat.lt_mul_div_succ s.unreadBytes.length (groupBytes_pos src)
  rw [endCause_of_some hf, if_pos (by unfold fcurEnd; omega)]

/-- A byte-wise reader comes to the byte without value. -/
theorem endCause_of_not_whole {s : State} {f : Fcur} (hf : s.fcur = some f) (h : ¬ s.WholeStream) :
    s.endCause .group8 = .unset := by
  have hne : s.unreadBytes.length ≠ fcurEnd f s - f.pos.toNat := fun e => h ⟨f, hf, e⟩
  have := unreadBytes_length_le hf
  rw [endCause_of_some hf, if_neg (by simp only [groupBytes]; omega)]

/-- A refill does not change where the stream ends. -/
theorem endCause_refilled {src : BitSource} {s : State} (h : groupBytes src ≤ s.unreadBytes.length) :
    (s.refilled src).endCause src = s.endCause src := by
  cases hf : s.fcur with
  | none => rw [unreadBytes_of_none hf] at h; exact absurd h (Nat.not_le.2 (groupBytes_pos src))
  | some f =>
    have hle := unreadBytes_length_le hf
    have hword := lt_of_le_of_lt (fcurEnd_le_stop f s) f.stop.isLt
    have hpos : (toWord (f.pos.toNat + groupBytes src)).toNat = f.pos.toNat + groupBytes src :=
      toWord_toNat_of_lt (by omega)
    have groups : groupBytes src + groupBytes src * ((s.unreadBytes.length - groupBytes src) / groupBytes src + 1) =
        groupBytes src * (s.unreadBytes.length / groupBytes src + 1) := by
      rw [← Nat.div_eq_sub_div (groupBytes_pos src) h]; ring
    rw [endCause_of_some hf,
      endCause_of_some (f := { f with pos := toWord (f.pos.toNat + groupBytes src) }) (by simp [State.refilled, hf]),
      refilled_unreadBytes h, List.length_drop, hpos, Nat.add_assoc, groups]
    rfl

/-- A byte of CHUNK is read; where it holds no value, that is Unset. -/
theorem chunkByte_bind_raises {α : Type} {a : Nat} {f : Byte → M α} {s : State}
    (h : ∀ b, storeRead s.chunk a = some b → Raises (f b) s .unset) : Raises (chunkByte a >>= f) s .unset := by
  cases hb : storeRead s.chunk a with
  | none => exact .bind ⟨s, by rw [chunkByte_eq, hb]; rfl⟩
  | some b => exact .after (by rw [chunkByte_eq, hb]; rfl) (h b hb)

/-- A refill without a whole group raises, and says why. -/
theorem refill_raises {src : BitSource} {s : State} (h : s.unreadBytes.length < groupBytes src) :
    Raises (refill src) s (s.endCause src) := by
  cases hf : s.fcur with
  | none =>
    rw [endCause_of_none hf]
    cases src with
    | group8 => exact .bind (fcurRdb_raises_of_none hf)
    | group32 => exact .bind (fcurConsume_raises_of_none hf)
  | some f =>
    rw [endCause_of_some hf, Nat.div_eq_of_lt h, Nat.zero_add, Nat.mul_one]
    split
    · next hend =>
      cases src with
      | group8 => exact .bind (fcurRdb_raises_unexpectedEnd hf (by simp only [groupBytes] at hend; omega))
      | group32 => exact .bind (fcurConsume_raises_unexpectedEnd hf hend)
    · next hend =>
      have stop := unreadBytes_stop hf (by omega)
      cases src with
      | group8 =>
        simp only [groupBytes] at h hend
        rw [Nat.lt_one_iff.1 h] at stop
        exact .bind (fcurRdb_raises_unset hf (by omega) stop)
      | group32 =>
        refine .after (fcurConsume_of_le (n := 4#32) hf (Nat.not_lt.1 hend)) ?_
        refine chunkByte_bind_raises fun b0 h0 => chunkByte_bind_raises fun b1 h1 => chunkByte_bind_raises fun b2 h2 =>
          chunkByte_bind_raises fun b3 h3 => ?_
        have short : s.unreadBytes.length = 0 ∨ s.unreadBytes.length = 1 ∨ s.unreadBytes.length = 2 ∨
            s.unreadBytes.length = 3 := by simp only [groupBytes] at h; omega
        rcases short with e | e | e | e
        all_goals rw [e] at stop
        · exact nomatch h0.symm.trans stop
        · exact nomatch h1.symm.trans stop
        · exact nomatch h2.symm.trans stop
        · exact nomatch h3.symm.trans stop

/-! ## A read that fails -/

/-- The reader is short of the bytes that the refills of a read take. -/
def State.Short (src : BitSource) (n : Nat) (s : State) : Prop :=
  s.unreadBytes.length < groupBytes src * s.refills src n

theorem short_of_not_canRead {src : BitSource} {n : Nat} {s : State} (hs : s.ReaderSet) (h : ¬ s.CanRead src n) :
    s.Short src n :=
  Nat.not_le.1 fun hle => h ⟨hs, hle⟩

/-- A reader that is short has fewer bits buffered than are wanted. -/
theorem lt_of_short {src : BitSource} {n cnt : Nat} {s : State} (hc : s.bitsCnt = some cnt) (h : s.Short src n) :
    cnt < n := by
  by_contra hle
  rw [State.Short, refills_zero hc (Nat.not_lt.1 hle)] at h
  exact Nat.not_lt_zero _ h

/-- What is buffered does not mend it. -/
theorem short_emptied {src : BitSource} {n cnt : Nat} {s : State} (hc : s.bitsCnt = some cnt) (h : s.Short src n) :
    ({ s with bitsCnt := some 0 } : State).Short src (n - cnt) := by
  have same : ({ s with bitsCnt := some 0 } : State).refills src (n - cnt) = s.refills src n := by
    simp [State.refills, hc]
  rw [State.Short, same]
  exact h

theorem short_refilled {src : BitSource} {n : Nat} {s : State} (hc : s.bitsCnt = some 0) (h : s.Short src n)
    (hu : groupBytes src ≤ s.unreadBytes.length) : (s.refilled src).Short src n := by
  unfold State.Short at h ⊢
  rw [refills_refilled hc (lt_of_short hc h), Nat.mul_succ] at h
  rw [refilled_unreadBytes hu, List.length_drop]
  omega

/-- Once bits are buffered, a turn of a read that is short takes them all. -/
theorem readBitsLoop_turn_raises {src : BitSource} {turns n ret cnt : Nat} {c : Cause} {s : State}
    (hc : s.bitsCnt = some cnt) (hacc : ∃ a, s.bitsAcc = some a) (h : s.Short src n)
    (next : ∀ ret', Raises (readBitsLoop src turns (n - cnt) ret') { s with bitsCnt := some 0 } c) :
    Raises (takeBits n >>= fun x => readBitsLoop src turns (n - x.1) (ret * 2 ^ x.1 + x.2)) s c := by
  obtain ⟨a, ha⟩ := hacc
  have all : min n cnt = cnt := Nat.min_eq_right (lt_of_short hc h).le
  have taken := takeBits_of (n := n) hc ha
  rw [all, Nat.sub_self] at taken
  exact .after taken (next _)

/-- A read that is short of bytes raises, wherever it comes to the end. -/
theorem readBitsLoop_raises {src : BitSource} (turns n ret : Nat) {s : State} (hn : n ≤ turns) (hs : s.ReaderSet)
    (h : s.Short src n) : Raises (readBitsLoop src turns n ret) s (s.endCause src) := by
  induction turns generalizing n ret s with
  | zero =>
    obtain ⟨cnt, hc, _⟩ := hs
    have := lt_of_short hc h
    omega
  | succ turns ih =>
    obtain ⟨cnt, hc, hacc⟩ := hs
    have hlt := lt_of_short hc h
    rw [readBitsLoop, if_neg (by omega)]
    by_cases hz : cnt = 0
    · subst hz
      by_cases hu : s.unreadBytes.length < groupBytes src
      · obtain ⟨t, ht⟩ := refill_raises hu
        exact .bind ⟨t, by rw [refillIfEmpty_eq, hc]; exact ht⟩
      · have hu := Nat.not_lt.1 hu
        have filled : refillIfEmpty src s = .ok () (s.refilled src) := by
          rw [refillIfEmpty_eq, hc]; exact refill_eq hu
        have short := short_refilled hc h hu
        refine .after filled (readBitsLoop_turn_raises rfl ⟨_, rfl⟩ short fun ret' => ?_)
        rw [← endCause_refilled hu]
        have := groupBytes_pos src
        exact ih _ ret' (by omega) ⟨0, rfl, .inl rfl⟩ (short_emptied rfl short)
    · have kept : refillIfEmpty src s = .ok () s := by
        rw [refillIfEmpty_eq, hc]; exact if_neg hz
      exact .after kept (readBitsLoop_turn_raises hc (hacc.resolve_left hz) h fun ret' =>
        ih _ ret' (by omega) ⟨0, rfl, .inl rfl⟩ (short_emptied hc h))

/-- A read that the bytes do not suffice for raises what its last refill raises. -/
theorem readBits_raises {src : BitSource} {n : Nat} {s : State} (hn : n ≤ 32) (hs : s.ReaderSet)
    (h : ¬ s.CanRead src n) : Raises (readBits src n) s (s.endCause src) := by
  obtain ⟨t, ht⟩ := readBitsLoop_raises n n 0 le_rfl hs (short_of_not_canRead hs h)
  exact ⟨t, by rw [readBits_eq, if_neg (Nat.not_lt.2 hn)]; exact ht⟩

/-- Without BITS.cnt a read of a bit or more raises Unset. -/
theorem readBits_raises_of_none {src : BitSource} {n : Nat} {s : State} (hn : n ≤ 32) (hpos : 0 < n)
    (hc : s.bitsCnt = none) : Raises (readBits src n) s .unset := by
  obtain ⟨k, rfl⟩ := Nat.exists_eq_add_one.2 hpos
  have empty : refillIfEmpty src s = .error (.corrupt .unset) s := by rw [refillIfEmpty_eq, hc]
  exact ⟨s, by rw [readBits_eq, if_neg (Nat.not_lt.2 hn), readBitsLoop, if_neg (Nat.succ_ne_zero k), M.bind_apply,
    empty]⟩

/-! ## What a read leaves -/

theorem afterBits_of_no_refill {src : BitSource} {n : Nat} {s : State} (h : s.refills src n = 0) :
    s.afterBits src n = { s with bitsCnt := some (s.bitsCnt.getD 0 - n) } := if_pos h

theorem afterBits_of_refills {src : BitSource} {n : Nat} {s : State} (h : s.refills src n ≠ 0) :
    s.afterBits src n =
      { s with
        bitsCnt := some (s.bitsCnt.getD 0 + 8 * groupBytes src * s.refills src n - n),
        bitsAcc := some (toWord (bitsValue (byteBits
          ((s.unreadBytes.drop (groupBytes src * (s.refills src n - 1))).take (groupBytes src))))),
        fcur := s.fcur.map fun f => { f with pos := toWord (f.pos.toNat + groupBytes src * s.refills src n) } } :=
  if_neg h

theorem afterBits_readerSet {src : BitSource} {n : Nat} {s : State} (hs : s.ReaderSet) :
    (s.afterBits src n).ReaderSet := by
  obtain ⟨cnt, hc, hacc⟩ := hs
  by_cases h : s.refills src n = 0
  · rw [afterBits_of_no_refill h]
    exact ⟨_, rfl, hacc.imp_left fun h0 => by rw [hc, h0]; exact Nat.zero_sub n⟩
  · rw [afterBits_of_refills h]
    exact ⟨_, rfl, .inr ⟨_, rfl⟩⟩

/-- A read leaves STATUS and SEQ.phase, and with them the core ready. -/
theorem afterBits_status_phase (src : BitSource) (n : Nat) (s : State) :
    (s.afterBits src n).status = s.status ∧ (s.afterBits src n).phase = s.phase := by
  by_cases h : s.refills src n = 0
  · rw [afterBits_of_no_refill h]; exact ⟨rfl, rfl⟩
  · rw [afterBits_of_refills h]; exact ⟨rfl, rfl⟩

theorem afterBits_beginCommand (src : BitSource) (n : Nat) (s : State) :
    (beginCommand s).afterBits src n = beginCommand (s.afterBits src n) := by
  by_cases h : s.refills src n = 0
  · rw [afterBits_of_no_refill h, afterBits_of_no_refill (s := beginCommand s) h]; rfl
  · rw [afterBits_of_refills h, afterBits_of_refills (s := beginCommand s) h]; rfl

theorem canRead_emptied {src : BitSource} {n cnt : Nat} {s : State} (hc : s.bitsCnt = some cnt) (h : s.CanRead src n) :
    ({ s with bitsCnt := some 0 } : State).CanRead src (n - cnt) := by
  have same : ({ s with bitsCnt := some 0 } : State).refills src (n - cnt) = s.refills src n := by
    simp [State.refills, hc]
  exact ⟨⟨0, rfl, .inl rfl⟩, by rw [same]; exact h.2⟩

/-- A reader that is empty and can deliver a bit can deliver as many after a refill, for which the bytes are there. -/
theorem canRead_refilled {src : BitSource} {n : Nat} {s : State} (hc : s.bitsCnt = some 0) (hn : 0 < n)
    (h : s.CanRead src n) : groupBytes src ≤ s.unreadBytes.length ∧ (s.refilled src).CanRead src n := by
  have room := h.2
  rw [refills_refilled hc hn, Nat.mul_succ] at room
  have hu : groupBytes src ≤ s.unreadBytes.length := by omega
  exact ⟨hu, ⟨_, rfl, .inr ⟨_, rfl⟩⟩, by rw [refilled_unreadBytes hu, List.length_drop]; omega⟩

/-- A read of `n` bits takes the first `n` bits off the stream. -/
theorem afterBits_bitStream {src : BitSource} (n : Nat) {s : State} (h : s.CanRead src n) :
    (s.afterBits src n).bitStream = s.bitStream.drop n := by
  induction n using Nat.strong_induction_on generalizing s with
  | _ n ih =>
    -- once bits are buffered: the read takes `n` of them, or all of them and then the rest
    have buffered : ∀ (t : State) (k : Nat), t.bitsCnt = some k → 0 < k → t.CanRead src n →
        (t.afterBits src n).bitStream = t.bitStream.drop n := by
      intro t k hk hkpos ht
      rcases Nat.lt_or_ge k n with hlt | hge
      · rw [← afterBits_emptied hk hlt, ih (n - k) (by omega) (canRead_emptied hk ht)]
        have taken := bitStream_drop_buffered hk le_rfl
        rw [Nat.sub_self] at taken
        rw [← taken, List.drop_drop, Nat.add_sub_cancel' hlt.le]
      · rw [afterBits_buffered hk hge, bitStream_drop_buffered hk hge]
    obtain ⟨cnt, hc, _⟩ := h.1
    rcases Nat.eq_zero_or_pos n with rfl | hn
    · rw [afterBits_zero h.1, List.drop_zero]
    rcases Nat.eq_zero_or_pos cnt with rfl | hcnt
    · obtain ⟨hu, hr⟩ := canRead_refilled hc hn h
      rw [← afterBits_refilled hc hn hu, ← refilled_bitStream hc hu]
      exact buffered _ _ rfl (Nat.mul_pos (by decide) (groupBytes_pos src)) hr
    · exact buffered s cnt hc hcnt h

/-! ## The read commands -/

theorem readCommand_ne_instReset (src : BitSource) (n : BitVec 6) : readCommand src n ≠ .instReset := by
  cases src <;> nofun

theorem bodyOf_readCommand (src : BitSource) (n : BitVec 6) :
    bodyOf (readCommand src n) = readBits src n.toNat >>= fun v => setRes0 (toWord v) := by
  cases src <;> rfl

/-- A read command delivers the next bits of the stream. -/
theorem exec_readCommand {src : BitSource} {n : BitVec 6} {s : State} (hs : s.Ready) (hn : n.toNat ≤ 32)
    (h : s.CanRead src n.toNat) :
    exec (readCommand src n) s = .next
      { s.afterBits src n.toNat with res0 := some (toWord (bitsValue (s.bitStream.take n.toNat))) } := by
  have read := readBits_eq_stream (s := beginCommand s) hn h
  rw [afterBits_beginCommand] at read
  exact exec_result (g := toWord) hs (by rw [bodyOf_readCommand]) read (afterBits_status_phase _ _ _).1
    (readCommand_ne_instReset src n)

theorem exec_readCommand_corrupted {src : BitSource} {n : BitVec 6} {s : State} {c : Cause} (hs : s.Ready)
    (h : Raises (readBits src n.toNat) (beginCommand s) c) :
    exec (readCommand src n) s = .next (s.corrupted c) :=
  exec_corrupted hs (by rw [bodyOf_readCommand]; exact .bind h) (readCommand_ne_instReset src n) (by cases src <;> rfl)

/-- A ready core whose reader is short of bytes ends in the error state of the stream's end. -/
theorem exec_readCommand_short {src : BitSource} {n : BitVec 6} {s : State} (hs : s.Ready) (hn : n.toNat ≤ 32)
    (hset : s.ReaderSet) (h : ¬ s.CanRead src n.toNat) :
    exec (readCommand src n) s = .next (s.corrupted (s.endCause src)) :=
  exec_readCommand_corrupted hs (readBits_raises (s := beginCommand s) hn hset h)

/-- The core after a read command is ready for the next one, with the read bits in RES[0] and the rest in its stream. -/
theorem exec_readCommand_takes {src : BitSource} {n : BitVec 6} {s : State} (hs : s.Ready) (hn : n.toNat ≤ 32)
    (h : s.CanRead src n.toNat) :
    ∃ t, exec (readCommand src n) s = .next t ∧ t.Ready ∧ t.ReaderSet ∧
      t.res0 = some (toWord (bitsValue (s.bitStream.take n.toNat))) ∧ t.bitStream = s.bitStream.drop n.toNat := by
  obtain ⟨status, phase⟩ := afterBits_status_phase src n.toNat s
  have ready : (s.afterBits src n.toNat).Ready := by rwa [State.Ready, status, phase]
  exact ⟨_, exec_readCommand hs hn h, ready, afterBits_readerSet h.1, rfl, afterBits_bitStream n.toNat h⟩

theorem readAll_cons {src : BitSource} {n : BitVec 6} {rest : List (BitSource × BitVec 6)} {s t : State} {v : Word}
    (he : exec (readCommand src n) s = .next t) (hf : t.status.faulted = false) (hv : t.res0 = some v) :
    readAll ((src, n) :: rest) s = (readAll rest t).map (bitsOf n.toNat v.toNat ++ ·) := by
  rw [readAll, he]
  simp [hf, hv]

/-- The result of a read of at most 32 bits, written as a bit string. -/
theorem bitsOf_toWord_bitsValue {bits : List Bool} (h : bits.length ≤ 32) :
    bitsOf bits.length (toWord (bitsValue bits)).toNat = bits := by
  have := lt_of_lt_of_le (bitsValue_lt bits) (Nat.pow_le_pow_right (by decide) h)
  rw [toWord_toNat_of_lt this, bitsOf_bitsValue]

/-- A sequence of reads none of which fails delivers the bit string of the stream, whatever is buffered at its start. -/
theorem readAll_eq_take {reads : List (BitSource × BitVec 6)} {s : State} {bits : List Bool} (hs : s.Ready)
    (hset : s.ReaderSet) (hn : ∀ r ∈ reads, r.2.toNat ≤ 32) (h : readAll reads s = some bits) :
    bits = s.bitStream.take (reads.map fun r => r.2.toNat).sum ∧
    (reads.map fun r => r.2.toNat).sum ≤ s.bitStream.length := by
  induction reads generalizing s bits with
  | nil => exact ⟨by simpa [readAll] using h.symm, Nat.zero_le _⟩
  | cons r rest ih =>
    obtain ⟨src, n⟩ := r
    have hn0 : n.toNat ≤ 32 := hn _ List.mem_cons_self
    by_cases hcan : s.CanRead src n.toNat
    · obtain ⟨t, run, ready, isSet, result, stream⟩ := exec_readCommand_takes hs hn0 hcan
      obtain ⟨cnt, hc, _⟩ := hset
      have bound := canRead_bound hc hcan
      have taken : (s.bitStream.take n.toNat).length = n.toNat := List.length_take_of_le bound
      have first := bitsOf_toWord_bitsValue (taken.trans_le hn0)
      rw [taken] at first
      rw [readAll_cons run ready.1 result] at h
      obtain ⟨later, hlater, rfl⟩ := Option.map_eq_some_iff.1 h
      obtain ⟨hlater, room⟩ := ih ready isSet (fun r hr => hn r (List.mem_cons_of_mem _ hr)) hlater
      rw [stream] at hlater room
      rw [List.length_drop] at room
      simp only [List.map_cons, List.sum_cons]
      exact ⟨by rw [first, hlater, List.take_add], by omega⟩
    · rw [readAll, exec_readCommand_short hs hn0 hset hcan] at h
      simp [State.corrupted] at h

end Sys2Proof.Machine

open Sys2Proof Sys2Proof.Machine

/-- Settles O27: an empty reader's stream is the bits of the bytes from the cursor on. -/
theorem bitOrderLaw : Obligations.BitOrderLaw := by
  intro s reads bits hs hc hn h
  obtain ⟨delivered, room⟩ := readAll_eq_take hs ⟨0, hc, .inl rfl⟩ hn h
  have stream : s.bitStream = byteBits s.unreadBytes := bitStream_eq hc
  rw [stream] at delivered room
  exact ⟨delivered, by rw [delivered, List.length_take, Nat.min_eq_left room]⟩

/-- Settles O26: a read that can be delivered is, and one that cannot raises what the end of the stream raises. -/
theorem bitReads : Obligations.BitReads := by
  intro s n src hs hn
  refine ⟨fun hcan => exec_readCommand hs hn hcan, fun hset whole hcan => ?_, fun hpos unset => ?_,
    fun f hf hsrc hset whole hcan => ?_, fun h0 => exec_corrupted hs (arg0_raises h0), fun seed h0 => ?_⟩
  · rw [exec_readCommand_short hs hn hset hcan, endCause_of_whole whole]
  · have hpos : 0 < n.toNat := Nat.pos_of_ne_zero fun e => hpos (BitVec.eq_of_toNat_eq e)
    rcases unset with hc | ⟨hc, hf⟩
    · exact exec_readCommand_corrupted hs (readBits_raises_of_none hn hpos hc)
    · have empty : ¬ s.CanRead src n.toNat := fun hcan => by
        have room := (canRead_refilled hc hpos hcan).1
        rw [unreadBytes_of_none hf] at room
        exact absurd room (Nat.not_le.2 (groupBytes_pos src))
      rw [exec_readCommand_short hs hn ⟨0, hc, .inl rfl⟩ empty, endCause_of_none hf]
  · subst hsrc
    rw [exec_readCommand_short hs hn hset hcan, endCause_of_not_whole hf whole]
  · exact exec_ended hs (arg0_apply h0) rfl

end

section
/-! SUPPORT. The canonical assignment (spec/41_huffman.md R194): each code is the first code of its length and the number of
earlier symbols of that length, and the first codes are the shares of the code space that the shorter lengths take up. -/

namespace Sys2Proof.Machine

-- The proofs below are checked one after another: in parallel, with those before them still running, they ask for more
-- threads than the check allows.
set_option Elab.async false

/-! ## The codes that an assignment gives out -/

/-- A used length takes the next code of its length where that fits, and leaves the rest with the code after it. -/
theorem assignCodes_cons {l : Nat} (h0 : l ≠ 0) (rest next : List Nat) (i : Nat) :
    assignCodes (l :: rest) next i =
      if 2 ^ l ≤ next.getD l 0 then none
      else (assignCodes rest (next.set l (next.getD l 0 + 1)) (i + 1)).map
        ({ len := l, code := next.getD l 0, sym := toWord i } :: ·) := by
  rw [assignCodes, if_neg h0]
  dsimp only
  split
  · rfl
  · cases assignCodes rest (next.set l (next.getD l 0 + 1)) (i + 1) <;> rfl

theorem assignCodes_cons_zero (rest next : List Nat) (i : Nat) :
    assignCodes (0 :: rest) next i = assignCodes rest next (i + 1) := by
  rw [assignCodes, if_pos rfl]

/-- The code of a used length fits, and the rest gets its codes, where an assignment succeeds. -/
theorem assignCodes_cons_eq_some {l : Nat} (h0 : l ≠ 0) {rest next : List Nat} {i : Nat} {es : List HufEntry}
    (h : assignCodes (l :: rest) next i = some es) :
    ∃ es', assignCodes rest (next.set l (next.getD l 0 + 1)) (i + 1) = some es' ∧
      es = { len := l, code := next.getD l 0, sym := toWord i } :: es' := by
  rw [assignCodes_cons h0] at h
  split at h
  · cases h
  · obtain ⟨es', run, rfl⟩ := Option.map_eq_some_iff.1 h
    exact ⟨es', run, rfl⟩

/-- Giving out a code moves it from what is to come of its length to what has been given out. -/
theorem getD_set_add_count {l : Nat} {next : List Nat} (hl : l < next.length) (rest : List Nat) (k : Nat) :
    (next.set l (next.getD l 0 + 1)).getD k 0 + rest.count k = next.getD k 0 + (l :: rest).count k := by
  rw [getD_set next hl, List.count_cons]
  by_cases h : l = k
  · simp [h]; omega
  · simp [h]

/-- An assignment fails exactly where a used length has more codes than fit. -/
theorem assignCodes_eq_none_iff {lens next : List Nat} {i : Nat} (hl : ∀ l ∈ lens, l < next.length) :
    assignCodes lens next i = none ↔ ∃ l ∈ lens, l ≠ 0 ∧ 2 ^ l < next.getD l 0 + lens.count l := by
  induction lens generalizing next i with
  | nil => simp [assignCodes]
  | cons l rest ih =>
    obtain ⟨hhead, hrest⟩ := List.forall_mem_cons.1 hl
    by_cases h0 : l = 0
    · subst h0
      rw [assignCodes_cons_zero, ih hrest]
      constructor
      · rintro ⟨k, hk, hk0, hfull⟩
        exact ⟨k, List.mem_cons_of_mem _ hk, hk0, by rwa [List.count_cons_of_ne (Ne.symm hk0)]⟩
      · rintro ⟨k, hk, hk0, hfull⟩
        exact ⟨k, (List.mem_cons.1 hk).resolve_left hk0, hk0, by rwa [List.count_cons_of_ne (Ne.symm hk0)] at hfull⟩
    · have same := getD_set_add_count hhead rest
      rw [assignCodes_cons h0]
      split
      · next full =>
        refine iff_of_true rfl ⟨l, List.mem_cons_self, h0, ?_⟩
        rw [List.count_cons_self]
        omega
      · next fits =>
        rw [Option.map_eq_none_iff, ih (by simpa using hrest)]
        simp only [same]
        constructor
        · rintro ⟨k, hk, hfull⟩
          exact ⟨k, List.mem_cons_of_mem _ hk, hfull⟩
        · rintro ⟨k, hk, hk0, hfull⟩
          refine ⟨k, ?_, hk0, hfull⟩
          rcases List.mem_cons.1 hk with rfl | hk
          · -- the one code of a length that does not come again fits
            by_contra hlast
            rw [List.count_cons_self, List.count_eq_zero_of_not_mem hlast] at hfull
            omega
          · exact hk

/-- The lengths and symbols of the entries are those of the used symbols, in order. -/
theorem assignCodes_symbols {lens next : List Nat} {i : Nat} {es : List HufEntry} (h : assignCodes lens next i = some es) :
    es.map (fun e => (e.len, e.sym)) =
      ((lens.zipIdx i).filter fun x => x.1 != 0).map fun x => (x.1, BitVec.ofNat 32 x.2) := by
  induction lens generalizing next i es with
  | nil => cases h; rfl
  | cons l rest ih =>
    by_cases h0 : l = 0
    · subst h0
      rw [assignCodes_cons_zero] at h
      simpa using ih h
    · obtain ⟨es', run, rfl⟩ := assignCodes_cons_eq_some h0 h
      simp [h0, ih run, toWord]

/-- An entry stands for one length of the row, and its code counts the earlier ones of its length. -/
theorem assignCodes_split {lens next : List Nat} {i : Nat} {es : List HufEntry} (hl : ∀ l ∈ lens, l < next.length)
    (h : assignCodes lens next i = some es) {pre post : List HufEntry} {e : HufEntry} (he : es = pre ++ e :: post) :
    ∃ before after, lens = before ++ e.len :: after ∧ e.sym = toWord (i + before.length) ∧
      (pre.map HufEntry.len).count e.len = before.count e.len ∧
      e.code = next.getD e.len 0 + before.count e.len := by
  induction lens generalizing next i es pre with
  | nil => cases h; simp at he
  | cons l rest ih =>
    obtain ⟨hhead, hrest⟩ := List.forall_mem_cons.1 hl
    by_cases h0 : l = 0
    · subst h0
      have hlen : e.len ≠ 0 := Nat.one_le_iff_ne_zero.1 (assignCodes_bounds hl h (by simp [he])).1
      rw [assignCodes_cons_zero] at h
      obtain ⟨before, after, rfl, hsym, hcount, hcode⟩ := ih hrest h he
      refine ⟨0 :: before, after, rfl, by rw [hsym, List.length_cons]; congr 1; omega, ?_, ?_⟩
      all_goals rw [List.count_cons_of_ne hlen.symm]; assumption
    · obtain ⟨es', run, hes⟩ := assignCodes_cons_eq_some h0 h
      rw [hes] at he
      cases pre with
      | nil =>
        obtain ⟨rfl, rfl⟩ := List.cons.inj he
        exact ⟨[], rest, rfl, rfl, rfl, rfl⟩
      | cons x pre =>
        obtain ⟨rfl, htail⟩ := List.cons.inj he
        obtain ⟨before, after, rfl, hsym, hcount, hcode⟩ := ih (by simpa using hrest) run htail
        refine ⟨l :: before, after, rfl, by rw [hsym, List.length_cons]; congr 1; omega, ?_, ?_⟩
        · rw [List.map_cons, List.count_cons, List.count_cons, hcount]
        · rw [hcode, getD_set_add_count hhead]

/-! ## The shares of the code space -/

/-- The part of the code space, of size 2^32, that a symbol of a length takes up; an unused one takes none. -/
def share (l : Nat) : Nat := if l = 0 then 0 else 2 ^ (32 - l)

theorem kraftSum_eq (lens : List Nat) : kraftSum lens = (lens.map share).sum := rfl

@[simp] theorem kraftSum_cons (l : Nat) (lens : List Nat) : kraftSum (l :: lens) = share l + kraftSum lens := rfl

theorem kraftSum_le_of_sublist {a b : List Nat} (h : a.Sublist b) : kraftSum a ≤ kraftSum b :=
  (h.map share).sum_le_sum (by simp)

@[simp] theorem kraftSum_replicate (n l : Nat) : kraftSum (List.replicate n l) = n * share l := by
  simp [kraftSum_eq]

/-- Two kinds of symbols that have none in common take up their shares side by side. -/
theorem kraftSum_filter_or {α : Type} (f : α → Nat) (p q : α → Bool) {xs : List α}
    (h : ∀ x ∈ xs, p x = true → q x = false) :
    kraftSum ((xs.filter fun x => p x || q x).map f) = kraftSum ((xs.filter p).map f) + kraftSum ((xs.filter q).map f) := by
  induction xs with
  | nil => rfl
  | cons x xs ih =>
    obtain ⟨hx, hxs⟩ := List.forall_mem_cons.1 h
    have ih := ih hxs
    cases hp : p x
    · cases hq : q x <;> simp [hp, hq, ih]; omega
    · simp [hp, hx hp, ih]; omega

/-- The lengths below `l + 1` are those below `l` and those that are `l`. -/
theorem kraftSum_filter_lt_succ (lens : List Nat) (l : Nat) :
    kraftSum (lens.filter (· < l + 1)) = kraftSum (lens.filter (· < l)) + lens.count l * share l := by
  have split := kraftSum_filter_or id (· < l) (· == l) (xs := lens) (by simp; omega)
  simp only [List.map_id] at split
  rw [← kraftSum_replicate, ← List.filter_beq, ← split]
  congr 2
  funext k
  simp [Nat.le_iff_lt_or_eq, Bool.beq_eq_decide_eq]

/-- The first code of a length, padded, is where the shares of the shorter lengths end. -/
theorem firstCode_mul_share (lens : List Nat) {l : Nat} (hl : l ≤ 32) :
    firstCode lens l * 2 ^ (32 - l) = kraftSum (lens.filter (· < l)) := by
  induction l with
  | zero => simp [firstCode, kraftSum]
  | succ l ih =>
    have half : 2 ^ (32 - l) = 2 * 2 ^ (32 - (l + 1)) := by rw [← pow_succ']; congr 1; omega
    have counted : lengthCount lens l * 2 ^ (32 - l) = lens.count l * share l := by
      unfold lengthCount share; split <;> simp
    rw [kraftSum_filter_lt_succ, ← ih (by omega), ← counted, firstCode, half]
    ring

/-- The codes of a used length, padded, end where the shares of the lengths up to it end. -/
theorem lastCode_mul_share (lens : List Nat) {l : Nat} (hl : l ≤ 32) (h0 : l ≠ 0) :
    (firstCode lens l + lens.count l) * 2 ^ (32 - l) = kraftSum (lens.filter (· < l + 1)) := by
  rw [Nat.add_mul, firstCode_mul_share lens hl, kraftSum_filter_lt_succ, share, if_neg h0]

/-- The shares of the symbols before the one between `before` and `after`, by length and then by index. -/
theorem kraftSum_before (before after : List Nat) (l : Nat) :
    kraftSum (((before ++ l :: after).zipIdx.filter fun x =>
      x.1 < l || x.1 == l && decide (x.2 < before.length)).map (·.1)) =
    kraftSum ((before ++ l :: after).filter (· < l)) + before.count l * share l := by
  have shorter : ((before ++ l :: after).zipIdx.filter fun x => x.1 < l).map (·.1) =
      (before ++ l :: after).filter (· < l) := by
    conv_rhs => rw [← List.zipIdx_map_fst 0 (before ++ l :: after), List.filter_map]
    rfl
  have earlier : ((before ++ l :: after).zipIdx.filter fun x => x.1 == l && decide (x.2 < before.length)).map (·.1) =
      List.replicate (before.count l) l := by
    have inside : (before.zipIdx.filter fun x => x.1 == l && decide (x.2 < before.length)) =
        before.zipIdx.filter ((· == l) ∘ (·.1)) :=
      List.filter_congr fun x hx => by simpa using fun _ => List.snd_lt_of_mem_zipIdx hx
    have outside : ((l :: after).zipIdx before.length).filter (fun x => x.1 == l && decide (x.2 < before.length)) = [] :=
      List.filter_eq_nil_iff.2 fun x hx => by simp [List.le_snd_of_mem_zipIdx hx]
    rw [List.zipIdx_append, List.filter_append, Nat.zero_add, inside, outside, List.append_nil, ← List.filter_map,
      List.zipIdx_map_fst, List.filter_beq]
  rw [kraftSum_filter_or, shorter, earlier, kraftSum_replicate]
  intro x _
  simp
  omega

/-! ## The canonical codes of a row -/

theorem firstCodes_length (lens : List Nat) {l : Nat} (h : l ≤ 32) :
    l < ((List.range (hufMaxLen + 1)).map (firstCode lens)).length := by
  simp [hufMaxLen]
  omega

/-- No codes exactly where the lengths break the Kraft inequality. -/
theorem canonicalCodes_eq_none_iff {lens : List Nat} (hl : ∀ l ∈ lens, l ≤ 32) :
    canonicalCodes lens = none ↔ 2 ^ 32 < kraftSum lens := by
  have whole : ∀ l ≤ 32, 2 ^ l * 2 ^ (32 - l) = 2 ^ 32 := fun l h => by rw [← pow_add, Nat.add_sub_cancel' h]
  rw [canonicalCodes, assignCodes_eq_none_iff fun l h => firstCodes_length lens (hl l h)]
  constructor
  · rintro ⟨l, hmem, h0, full⟩
    have h32 := hl l hmem
    rw [firstCodes_getD lens (by omega)] at full
    calc 2 ^ 32 = 2 ^ l * 2 ^ (32 - l) := (whole l h32).symm
      _ < (firstCode lens l + lens.count l) * 2 ^ (32 - l) := Nat.mul_lt_mul_of_pos_right full (Nat.two_pow_pos _)
      _ = kraftSum (lens.filter (· < l + 1)) := lastCode_mul_share lens h32 h0
      _ ≤ kraftSum lens := kraftSum_le_of_sublist List.filter_sublist
  · contrapose!
    intro fits
    -- the lengths up to `l` respect the inequality, for `l` from 0 to 32
    have upTo : ∀ l ≤ 32, kraftSum (lens.filter (· < l + 1)) ≤ 2 ^ 32 := by
      intro l
      induction l with
      | zero => rw [kraftSum_filter_lt_succ]; simp [kraftSum, share]
      | succ l ih =>
        intro h32
        by_cases hmem : l + 1 ∈ lens
        · have fit := fits (l + 1) hmem (Nat.succ_ne_zero l)
          rw [firstCodes_getD lens (by omega)] at fit
          rw [← lastCode_mul_share lens h32 (Nat.succ_ne_zero l), ← whole (l + 1) h32]
          exact Nat.mul_le_mul_right _ fit
        · rw [kraftSum_filter_lt_succ, List.count_eq_zero_of_not_mem hmem, Nat.zero_mul]
          exact ih (by omega)
    have all := upTo 32 le_rfl
    rwa [List.filter_eq_self.2 fun l h => decide_eq_true (Nat.lt_succ_of_le (hl l h))] at all

/-- Where an entry stands in the row: its code is the first of its length and one more for each earlier symbol of it. -/
theorem canonicalCodes_split {lens : List Nat} {es pre post : List HufEntry} {e : HufEntry} (hl : ∀ l ∈ lens, l ≤ 32)
    (h : canonicalCodes lens = some es) (he : es = pre ++ e :: post) :
    ∃ before after, lens = before ++ e.len :: after ∧ e.sym = toWord before.length ∧
      (pre.map HufEntry.len).count e.len = before.count e.len ∧
      e.code = firstCode lens e.len + before.count e.len := by
  obtain ⟨before, after, hlens, hsym, hcount, hcode⟩ := assignCodes_split (fun l h => firstCodes_length lens (hl l h)) h he
  have h32 := hl e.len (by simp [hlens])
  rw [firstCodes_getD lens (by omega)] at hcode
  exact ⟨before, after, hlens, by rw [hsym, Nat.zero_add], hcount, hcode⟩

/-- Two codes of one length with none of it between them are consecutive. -/
theorem canonicalCodes_consecutive {lens : List Nat} {es pre mid post : List HufEntry} {e e' : HufEntry}
    (hl : ∀ l ∈ lens, l ≤ 32) (h : canonicalCodes lens = some es) (he : es = pre ++ e :: mid ++ e' :: post)
    (same : e.len = e'.len) (between : ∀ x ∈ mid, x.len ≠ e.len) : e'.code = e.code + 1 := by
  obtain ⟨_, _, _, _, earlier, code⟩ := canonicalCodes_split hl h (he.trans (List.append_assoc ..))
  obtain ⟨_, _, _, _, earlier', code'⟩ := canonicalCodes_split hl h he
  have absent : (mid.map HufEntry.len).count e.len = 0 := List.count_eq_zero.2 (by simpa using between)
  rw [← same] at earlier' code'
  simp only [List.map_append, List.map_cons, List.count_append, List.count_cons_self, absent] at earlier'
  omega

/-- A padded code is the sum of the shares of the symbols before its own, by length and then by index. -/
theorem canonicalCodes_code_eq {lens : List Nat} {es : List HufEntry} {e : HufEntry} (hl : ∀ l ∈ lens, l ≤ 32)
    (hn : lens.length ≤ 1024) (h : canonicalCodes lens = some es) (he : e ∈ es) :
    e.code * 2 ^ (32 - e.len) = kraftSum ((lens.zipIdx.filter fun x =>
      x.1 < e.len || x.1 == e.len && decide (x.2 < e.sym.toNat)).map (·.1)) := by
  have hlen := (canonicalCodes_lawful hl h).2 e he
  obtain ⟨pre, post, hes⟩ := List.append_of_mem he
  obtain ⟨before, after, hlens, hsym, _, hcode⟩ := canonicalCodes_split hl h hes
  have index : e.sym.toNat = before.length := by
    rw [hsym, toWord_toNat_of_lt]
    rw [hlens, List.length_append] at hn
    omega
  rw [index, hcode, Nat.add_mul, firstCode_mul_share lens hlen.2.1, hlens, kraftSum_before, share, if_neg (by omega)]

/-- A shorter code, padded, is smaller. -/
theorem canonicalCodes_shorter_lt {lens : List Nat} {es : List HufEntry} {e e' : HufEntry} (hl : ∀ l ∈ lens, l ≤ 32)
    (h : canonicalCodes lens = some es) (he : e ∈ es) (he' : e' ∈ es) (hlt : e.len < e'.len) :
    e.code * 2 ^ (32 - e.len) < e'.code * 2 ^ (32 - e'.len) := by
  have hlen := (canonicalCodes_lawful hl h).2 e he
  have hlen' := (canonicalCodes_lawful hl h).2 e' he'
  obtain ⟨pre, post, hes⟩ := List.append_of_mem he
  obtain ⟨pre', post', hes'⟩ := List.append_of_mem he'
  obtain ⟨before, after, hlens, _, _, hcode⟩ := canonicalCodes_split hl h hes
  obtain ⟨_, _, _, _, _, hcode'⟩ := canonicalCodes_split hl h hes'
  have below : e.code < firstCode lens e.len + lens.count e.len := by
    have : lens.count e.len = before.count e.len + (after.count e.len + 1) := by
      rw [hlens, List.count_append, List.count_cons_self]
    omega
  calc e.code * 2 ^ (32 - e.len)
      < (firstCode lens e.len + lens.count e.len) * 2 ^ (32 - e.len) :=
        Nat.mul_lt_mul_of_pos_right below (Nat.two_pow_pos _)
    _ = kraftSum (lens.filter (· < e.len + 1)) := lastCode_mul_share lens hlen.2.1 (by omega)
    _ ≤ kraftSum (lens.filter (· < e'.len)) := kraftSum_le_of_sublist (List.monotone_filter_right _ (by simp; omega))
    _ = firstCode lens e'.len * 2 ^ (32 - e'.len) := (firstCode_mul_share lens hlen'.2.1).symm
    _ ≤ e'.code * 2 ^ (32 - e'.len) := Nat.mul_le_mul_right _ (by omega)

end Sys2Proof.Machine

open Sys2Proof Sys2Proof.Machine

/-- Settles O36: every clause follows from the place in the row that an entry stands for. -/
theorem canonicalAssignment : Obligations.CanonicalAssignment := by
  intro lens hl hn
  refine ⟨canonicalCodes_eq_none_iff hl, fun es h => ⟨canonicalCodes_lawful hl h, assignCodes_symbols h, ?_, ?_, ?_⟩⟩
  · exact fun pre e mid e' post => canonicalCodes_consecutive hl h
  · exact fun e he e' he' => canonicalCodes_shorter_lt hl h he he'
  · exact fun e he => canonicalCodes_code_eq hl hn h he

end

section
/-! SUPPORT. The commands that change a table (spec/41_huffman.md R191 to R193). -/

namespace Sys2Proof.Machine

/-! ## Paths -/

@[simp] theorem pathBits_length (e : HufEntry) : (pathBits e).length = e.len := bitsOf_length _ _

theorem take_pathBits (e : HufEntry) {m : Nat} (h : m ≤ e.len) :
    (pathBits e).take m = bitsOf m (e.code / 2 ^ (e.len - m)) := by
  have split := bitsOf_append m (e.len - m) e.code
  rw [Nat.add_sub_cancel' h] at split
  rw [pathBits, split, List.take_left' (bitsOf_length _ _)]

/-- The value of the first bits of a path. -/
theorem bitsValue_take_pathBits {e : HufEntry} (hc : e.code < 2 ^ e.len) {m : Nat} (h : m ≤ e.len) :
    bitsValue ((pathBits e).take m) = e.code / 2 ^ (e.len - m) := by
  rw [take_pathBits e h, bitsValue_bitsOf, Nat.mod_eq_of_lt]
  rwa [Nat.div_lt_iff_lt_mul (Nat.two_pow_pos _), ← pow_add, Nat.add_sub_cancel' h]

/-- Two entries clash where the shorter path begins the longer one. -/
theorem pathsClash_iff_of_le {a b : HufEntry} (ha : a.code < 2 ^ a.len) (hb : b.code < 2 ^ b.len) (h : a.len ≤ b.len) :
    pathsClash a b = true ↔ pathBits a <+: pathBits b := by
  have value : bitsValue (pathBits a) = a.code := by rw [pathBits, bitsValue_bitsOf, Nat.mod_eq_of_lt ha]
  rw [pathsClash, Nat.min_eq_left h, Nat.sub_self, pow_zero, Nat.div_one, beq_iff_eq, List.prefix_iff_eq_take,
    pathBits_length]
  constructor
  · intro same
    rw [take_pathBits b h, ← same, pathBits]
  · intro same
    rw [← bitsValue_take_pathBits hb h, ← same, value]

/-- Two entries clash where one path begins the other. -/
theorem pathsClash_iff {a b : HufEntry} (ha : a.code < 2 ^ a.len) (hb : b.code < 2 ^ b.len) :
    pathsClash a b = true ↔ pathBits a <+: pathBits b ∨ pathBits b <+: pathBits a := by
  -- a path that begins a shorter one is that path
  have swap : ∀ {x y : HufEntry}, x.len ≤ y.len → pathBits y <+: pathBits x → pathBits x <+: pathBits y :=
    fun h hp => by rw [hp.eq_of_length_le (by simpa using h)]
  rcases Nat.le_total a.len b.len with h | h
  · rw [pathsClash_iff_of_le ha hb h]
    exact ⟨.inl, Or.rec id (swap h)⟩
  · rw [pathsClash_comm, pathsClash_iff_of_le hb ha h]
    exact ⟨.inr, Or.rec (swap h) id⟩

/-! ## Replacing a table -/

theorem arg012_apply {α : Type} {f : Word → Word → Word → M α} {s : State} {a b c : Word} (h0 : s.arg0 = some a)
    (h1 : s.arg1 = some b) (h2 : s.arg2 = some c) :
    (readArg0 >>= fun a => readArg1 >>= fun b => readArg2 >>= fun c => f a b c) s = f a b c s := by
  simp [h0, h1, h2]

/-- A slot with its table replaced. -/
def State.withTable (t : BitVec 4) (es : Table) (s : State) : State :=
  { s with ht := s.ht.set t.toNat (some es) t.isLt }

/-- A command that ends by placing a table in its slot, where it has the room. -/
theorem exec_tableSet {i : Instr} {s : State} {t : BitVec 4} {es : Table} (hs : s.Ready)
    (hbody : bodyOf i (beginCommand s) =
      if tooManyNodes Config.core es then .error (.corrupt .capacity) (beginCommand s)
      else .ok () (beginCommand (s.withTable t es)))
    (hr : i ≠ .instReset := by nofun) (ha : usesAri i = false := by rfl) :
    exec i s = .next (if tooManyNodes Config.core es then s.corrupted .capacity else s.withTable t es) := by
  cases h : tooManyNodes Config.core es
  · exact exec_ended hs (by rw [hbody, h]; rfl) rfl hr
  · exact exec_corrupted hs (.of_eq (by rw [hbody, h]; rfl)) hr ha

end Sys2Proof.Machine

open Sys2Proof Sys2Proof.Machine

/-- Settles O34: paths clash where one begins the other, and the new entry joins the set by `addEntry`. -/
theorem hufClearInsert : Obligations.HufClearInsert := by
  intro s t hs
  refine ⟨exec_ended hs rfl rfl, fun l c y es h0 h1 h2 hes lawful => ?_⟩
  have body : bodyOf (.hufInsert t) (beginCommand s) =
      hufInsert Config.core t.toFin l.toNat c.toNat y (beginCommand s) := arg012_apply h0 h1 h2
  rw [hufInsert_eq] at body
  constructor
  · intro outside
    exact exec_corrupted hs (.of_eq (body.trans (if_pos outside)))
  · intro hl hl' e
    have slot : (beginCommand s).ht[t.toFin] = some es := hes
    have code : e.code < 2 ^ e.len := Nat.mod_lt _ (Nat.two_pow_pos _)
    rw [if_neg (by omega), slot] at body
    dsimp only at body
    constructor
    · rintro ⟨x, hx, hclash⟩
      have clash : es.any (pathsClash e) = true :=
        List.any_eq_true.2 ⟨x, hx, (pathsClash_iff code (lawful.2 x hx).2.2).2 hclash⟩
      exact exec_corrupted hs (.of_eq (body.trans (if_pos clash)))
    · intro free
      have apart : ¬ es.any (pathsClash e) = true := fun clash => by
        obtain ⟨x, hx, hclash⟩ := List.any_eq_true.1 clash
        exact ((pathsClash_iff code (lawful.2 x hx).2.2).1 hclash).elim (free x hx).1 (free x hx).2
      refine ⟨addEntry e es, fun x => (addEntry_perm e es).mem_iff.trans List.mem_cons, ?_⟩
      exact exec_tableSet hs (body.trans (if_neg apart))

/-- Settles O35: the lengths are checked, then their Kraft sum, then the room for the codes. -/
theorem hufBuild : Obligations.HufBuild := by
  intro s t n hs h0
  have body : bodyOf (.hufBuild t) (beginCommand s) = Machine.hufBuild Config.core t.toFin n.toNat (beginCommand s) :=
    arg0_apply h0
  rw [hufBuild_eq] at body
  refine ⟨fun long => exec_corrupted hs (.of_eq (body.trans (if_pos long))), fun bytes hn hbytes => ?_⟩
  have read : memBytes (beginCommand s).lenm 0 n.toNat = some bytes := hbytes
  rw [if_neg (by omega), read] at body
  dsimp only at body
  have any : (bytes.map BitVec.toNat).any (fun l => decide (l > 32)) = true ↔ ∃ b ∈ bytes, 32 < b.toNat := by simp
  refine ⟨fun long => exec_corrupted hs (.of_eq (body.trans (if_pos (any.2 long)))), fun short large => ?_,
    fun short kraft => ?_⟩
  all_goals
    have lens : ∀ l ∈ bytes.map BitVec.toNat, l ≤ 32 := by simpa using short
    rw [if_neg fun long => by
      obtain ⟨b, hb, hlt⟩ := any.1 long
      exact Nat.not_lt.2 (short b hb) hlt] at body
  · rw [(canonicalCodes_eq_none_iff lens).2 large] at body
    exact exec_corrupted hs (.of_eq body)
  · obtain ⟨es, hes⟩ := Option.ne_none_iff_exists'.1 fun failed =>
      Nat.not_lt.2 kraft ((canonicalCodes_eq_none_iff lens).1 failed)
    rw [hes] at body
    exact ⟨es, tableOf es, hes, fun x => (tableOf_perm es).mem_iff, exec_tableSet hs body⟩

end

section
/-! SUPPORT. HUF.DECODE as a walk over the bits of the stream (spec/41_huffman.md R195 to R197, R200): bit after bit, the
reader's state is the one after as many bits, and the walk ends at the first path that is complete, at the first bit that
leaves the trie, or with the stream. -/

namespace Sys2Proof.Machine

/-! ## Reading on from where a read has ended -/

/-- Two reads are one read of as many bits. -/
theorem afterBits_add {src : BitSource} (m n : Nat) {s : State} (h : s.CanRead src (m + n)) :
    (s.afterBits src m).afterBits src n = s.afterBits src (m + n) := by
  induction m using Nat.strong_induction_on generalizing s with
  | _ m ih =>
    -- once bits are buffered: the first read takes some of them, or all of them and then the rest
    have buffered : ∀ (t : State) (k : Nat), t.bitsCnt = some k → 0 < k → t.CanRead src (m + n) →
        (t.afterBits src m).afterBits src n = t.afterBits src (m + n) := by
      intro t k hk hkpos ht
      rcases Nat.lt_or_ge k m with hlt | hge
      · have rest := canRead_emptied hk ht
        rw [Nat.sub_add_comm hlt.le] at rest
        rw [← afterBits_emptied hk hlt, ih (m - k) (by omega) rest, ← Nat.sub_add_comm hlt.le,
          afterBits_emptied hk (by omega)]
      · rw [afterBits_buffered hk hge]
        rcases Nat.lt_or_ge k (m + n) with hlt | hge'
        · rw [← afterBits_emptied (n := n) rfl (by omega), ← afterBits_emptied hk hlt]
          congr 1
          omega
        · rw [afterBits_buffered (n := n) rfl (by omega), afterBits_buffered hk hge', Nat.sub_sub]
    obtain ⟨cnt, hc, _⟩ := h.1
    rcases Nat.eq_zero_or_pos m with rfl | hm
    · rw [afterBits_zero h.1, Nat.zero_add]
    rcases Nat.eq_zero_or_pos cnt with rfl | hcnt
    · obtain ⟨hu, hr⟩ := canRead_refilled hc (by omega) h
      rw [← afterBits_refilled hc hm hu, ← afterBits_refilled hc (by omega) hu]
      exact buffered _ _ rfl (Nat.mul_pos (by decide) (groupBytes_pos src)) hr
    · exact buffered s cnt hc hcnt h

/-- The refills of a read take their bytes off those to be read. -/
theorem afterBits_unreadBytes {src : BitSource} {n : Nat} {s : State} (h : s.CanRead src n) :
    (s.afterBits src n).unreadBytes = s.unreadBytes.drop (groupBytes src * s.refills src n) := by
  by_cases h0 : s.refills src n = 0
  · rw [afterBits_of_no_refill h0, h0, Nat.mul_zero, List.drop_zero]; rfl
  · cases hf : s.fcur with
    | none =>
      have := Nat.mul_pos (groupBytes_pos src) (Nat.pos_of_ne_zero h0)
      have room := h.2
      rw [unreadBytes_of_none hf, List.length_nil] at room
      omega
    | some f =>
      rw [afterBits_of_refills h0]
      exact unreadBytes_advance hf h.2 rfl rfl (by rw [hf]; rfl)

theorem deliverable_length (src : BitSource) (s : State) :
    (s.deliverable src).length =
      s.bitsCnt.getD 0 + 8 * groupBytes src * (s.unreadBytes.length / groupBytes src) := by
  have := Nat.mul_div_le s.unreadBytes.length (groupBytes src)
  rw [State.deliverable, List.length_take, State.bitStream, List.length_append, bitsOf_length, byteBits_length,
    Nat.mul_assoc]
  omega

theorem deliverable_prefix (src : BitSource) (s : State) : s.deliverable src <+: s.bitStream := List.take_prefix _ _

/-- A reader that is set can read the bits that are deliverable, and no more. -/
theorem canRead_iff {src : BitSource} {n : Nat} {s : State} (hs : s.ReaderSet) :
    s.CanRead src n ↔ n ≤ (s.deliverable src).length := by
  have hg := groupBytes_pos src
  rw [State.CanRead, deliverable_length, Nat.mul_comm (groupBytes src), ← Nat.le_div_iff_mul_le hg, State.refills]
  generalize s.unreadBytes.length / groupBytes src = u
  have hw : 0 < 8 * groupBytes src := by omega
  generalize 8 * groupBytes src = w at hw ⊢
  rw [← Nat.lt_succ_iff, Nat.div_lt_iff_lt_mul hw, Nat.succ_mul, Nat.mul_comm u]
  simp only [hs, true_and]
  omega

theorem canRead_of_le {src : BitSource} {m n : Nat} {s : State} (h : s.CanRead src n) (hle : m ≤ n) : s.CanRead src m :=
  (canRead_iff h.1).2 (hle.trans ((canRead_iff h.1).1 h))

/-- What a reader can deliver after a read is what it could, but for the bits read. -/
theorem deliverable_length_afterBits {src : BitSource} {n : Nat} {s : State} (h : s.CanRead src n) :
    ((s.afterBits src n).deliverable src).length = (s.deliverable src).length - n := by
  have count : (s.afterBits src n).bitsCnt.getD 0 = s.bitsCnt.getD 0 + 8 * groupBytes src * s.refills src n - n := by
    by_cases h0 : s.refills src n = 0
    · rw [afterBits_of_no_refill h0, h0]; rfl
    · rw [afterBits_of_refills h0]; rfl
  have groups : s.refills src n ≤ s.unreadBytes.length / groupBytes src :=
    (Nat.le_div_iff_mul_le (groupBytes_pos src)).2 (Nat.mul_comm .. ▸ h.2)
  have enough : n ≤ s.bitsCnt.getD 0 + 8 * groupBytes src * s.refills src n := by
    have hw : 0 < 8 * groupBytes src := Nat.mul_pos (by decide) (groupBytes_pos src)
    have := Nat.lt_mul_div_succ (n - s.bitsCnt.getD 0 + (8 * groupBytes src - 1)) hw
    rw [Nat.mul_succ] at this
    unfold State.refills
    omega
  rw [deliverable_length, deliverable_length, count, afterBits_unreadBytes h, List.length_drop,
    Nat.sub_mul_div_of_le _ _ _ h.2]
  obtain ⟨rest, hrest⟩ := Nat.exists_eq_add_of_le groups
  rw [hrest, Nat.add_sub_cancel_left, Nat.mul_add]
  omega

theorem canRead_afterBits {src : BitSource} {m n : Nat} {s : State} (h : s.CanRead src m) :
    (s.afterBits src m).CanRead src n ↔ s.CanRead src (m + n) := by
  have := (canRead_iff h.1).1 h
  rw [canRead_iff (afterBits_readerSet h.1), canRead_iff h.1, deliverable_length_afterBits h]
  omega

theorem afterBits_wholeStream {src : BitSource} {n : Nat} {s : State} (h : s.CanRead src n) (hw : s.WholeStream) :
    (s.afterBits src n).WholeStream := by
  obtain ⟨f, hf, hlen⟩ := hw
  have hu := afterBits_unreadBytes h
  by_cases h0 : s.refills src n = 0
  · rw [afterBits_of_no_refill h0]
    exact ⟨f, hf, hlen⟩
  · have room := h.2
    have bound := lt_of_le_of_lt (fcurEnd_le_stop f s) f.stop.isLt
    have advanced : (s.afterBits src n).fcur =
          some { f with pos := toWord (f.pos.toNat + groupBytes src * s.refills src n) } ∧
        (s.afterBits src n).chunkLen = s.chunkLen := by
      rw [afterBits_of_refills h0, hf]
      exact ⟨rfl, rfl⟩
    refine ⟨_, advanced.1, ?_⟩
    have room := h.2
    have fits : f.pos.toNat + groupBytes src * s.refills src n < 2 ^ 32 := by unfold fcurEnd at bound; omega
    rw [hu, List.length_drop, hlen, advanced.2, toWord_toNat_of_lt fits, Nat.sub_sub]

/-! ## Entries and paths along a bit string -/

/-- The first bits of the first bits of a string, as numbers. -/
theorem bitsValue_take_div {bits : List Bool} {m n : Nat} (hm : m ≤ n) (hn : n ≤ bits.length) :
    bitsValue (bits.take n) / 2 ^ (n - m) = bitsValue (bits.take m) := by
  have later : ((bits.drop m).take (n - m)).length = n - m := by
    rw [List.length_take, List.length_drop]
    omega
  have hlt := bitsValue_lt ((bits.drop m).take (n - m))
  rw [← Nat.add_sub_cancel' hm, List.take_add, bitsValue_append, Nat.add_sub_cancel_left, later]
  rw [later] at hlt
  rw [Nat.mul_comm, Nat.mul_add_div (Nat.two_pow_pos _), Nat.div_eq_of_lt hlt, Nat.add_zero]

theorem le_longestLen {es : List HufEntry} {e : HufEntry} (he : e ∈ es) : e.len ≤ longestLen es := by
  have fold : ∀ (es : List HufEntry) (m : Nat),
      m ≤ es.foldl (fun m e => max m e.len) m ∧ ∀ e ∈ es, e.len ≤ es.foldl (fun m e => max m e.len) m := by
    intro es
    induction es with
    | nil => exact fun m => ⟨le_rfl, nofun⟩
    | cons x es ih =>
      intro m
      obtain ⟨start, rest⟩ := ih (max m x.len)
      exact ⟨(Nat.le_max_left _ _).trans start,
        List.forall_mem_cons.2 ⟨(Nat.le_max_right _ _).trans start, rest⟩⟩
  exact (fold es 0).2 e he

theorem entryAt_eq_some {es : List HufEntry} {bits : List Bool} {l : Nat} {e : HufEntry}
    (h : entryAt es bits l = some e) : e ∈ es ∧ e.len = l ∧ e.code = bitsValue (bits.take l) := by
  have found := List.find?_some h
  simp only [Bool.and_eq_true, beq_iff_eq] at found
  exact ⟨List.mem_of_find?_eq_some h, found.1, found.2⟩

/-- Some path goes on after the first `l` bits of a string. -/
theorem goesOn_take_iff {es : List HufEntry} {bits : List Bool} {l : Nat} (hl : l ≤ bits.length) :
    goesOn es (bits.take l) = true ↔ ∃ e ∈ es, l < e.len ∧ e.code / 2 ^ (e.len - l) = bitsValue (bits.take l) := by
  simp [goesOn, List.length_take_of_le hl]

/-- A path that begins as a string does goes on after every shorter part of it. -/
theorem goesOn_take_of_mem {es : List HufEntry} {bits : List Bool} {e : HufEntry} {m n : Nat} (he : e ∈ es)
    (hlen : n ≤ e.len) (hcode : e.code / 2 ^ (e.len - n) = bitsValue (bits.take n)) (hm : m < n) (hn : n ≤ bits.length) :
    goesOn es (bits.take m) = true := by
  refine (goesOn_take_iff (by omega)).2 ⟨e, he, by omega, ?_⟩
  rw [← bitsValue_take_div hm.le hn, ← hcode, Nat.div_div_eq_div_mul, ← pow_add]
  congr 2
  omega

theorem goesOn_take_of_goesOn {es : List HufEntry} {bits : List Bool} {m n : Nat} (h : goesOn es (bits.take n) = true)
    (hm : m ≤ n) (hn : n ≤ bits.length) : goesOn es (bits.take m) = true := by
  rcases hm.eq_or_lt with rfl | hlt
  · exact h
  · obtain ⟨e, he, hlen, hcode⟩ := (goesOn_take_iff hn).1 h
    exact goesOn_take_of_mem he hlen.le hcode hlt hn

theorem goesOn_take_of_entryAt {es : List HufEntry} {bits : List Bool} {e : HufEntry} {m n : Nat}
    (h : entryAt es bits n = some e) (hm : m < n) (hn : n ≤ bits.length) : goesOn es (bits.take m) = true := by
  obtain ⟨he, rfl, hcode⟩ := entryAt_eq_some h
  exact goesOn_take_of_mem he le_rfl (by rw [Nat.sub_self, pow_zero, Nat.div_one, hcode]) hm hn

/-! ## The walk -/

section Walk
variable {src : BitSource} {es : List HufEntry} {s : State} {bits : List Bool}

/-- The walk after `l` bits of a string that the reader presents. -/
theorem walk_step (hpre : bits <+: s.bitStream) (hcan : s.CanRead src bits.length) (left : Nat) {l : Nat}
    (hl : l < bits.length) :
    walk src es (left + 1) l (bitsValue (bits.take l)) (s.afterBits src l) =
      match entryAt es bits (l + 1) with
      | some e => .ok e.sym (s.afterBits src (l + 1))
      | none =>
        if goesOn es (bits.take (l + 1)) then
          walk src es left (l + 1) (bitsValue (bits.take (l + 1))) (s.afterBits src (l + 1))
        else .error (.corrupt .walkOff) (s.afterBits src (l + 1)) := by
  have upTo : s.CanRead src (l + 1) := canRead_of_le hcan hl
  have read := readBits_eq_stream (n := 1) (by decide) ((canRead_afterBits (canRead_of_le hcan hl.le)).2 upTo)
  have value : bitsValue (bits.take l) * 2 + bitsValue ((s.afterBits src l).bitStream.take 1) =
      bitsValue (bits.take (l + 1)) := by
    obtain ⟨rest, hrest⟩ := hpre
    have next : (s.bitStream.drop l).take 1 = (bits.drop l).take 1 := by
      rw [← hrest, List.drop_append_of_le_length hl.le, List.take_append_of_le_length (by simp; omega)]
    have one : ((bits.drop l).take 1).length = 1 := by rw [List.length_take, List.length_drop]; omega
    rw [afterBits_bitStream l (canRead_of_le hcan hl.le), next, List.take_add, bitsValue_append, one, pow_one]
  rw [afterBits_add l 1 upTo] at read
  rw [walk_succ, read]
  simp only [value]
  unfold goesOn
  rw [List.length_take_of_le (show l + 1 ≤ bits.length from hl)]
  rfl

/-- The walk comes to every place up to which no path is complete and some path goes on. -/
theorem walk_from_start (hpre : bits <+: s.bitStream) (hcan : s.CanRead src bits.length) {k : Nat} (hk : k ≤ bits.length)
    (before : ∀ j < k, entryAt es bits (j + 1) = none) (on : ∀ j < k, goesOn es (bits.take (j + 1)) = true) (left : Nat) :
    walk src es (left + k) 0 0 s = walk src es left k (bitsValue (bits.take k)) (s.afterBits src k) := by
  induction k generalizing left with
  | zero => rw [afterBits_zero hcan.1]; rfl
  | succ k ih =>
    rw [show left + (k + 1) = left + 1 + k from by omega,
      ih (by omega) (fun j hj => before j (by omega)) (fun j hj => on j (by omega)) (left + 1),
      walk_step hpre hcan left hk, before k (by omega)]
    exact if_pos (on k (by omega))

/-- The decoder comes there with a bit more that it can take. -/
theorem decodeFrom_at (hne : es ≠ []) (hpre : bits <+: s.bitStream) (hcan : s.CanRead src bits.length) {k : Nat}
    (hk : k ≤ bits.length) (before : ∀ j < k, entryAt es bits (j + 1) = none)
    (on : ∀ j < k, goesOn es (bits.take (j + 1)) = true) :
    ∃ left, decodeFrom src es s = walk src es (left + 1) k (bitsValue (bits.take k)) (s.afterBits src k) := by
  have room : k < max 1 (longestLen es) := by
    cases k with
    | zero => omega
    | succ k =>
      obtain ⟨e, he, hlen, _⟩ := (goesOn_take_iff hk).1 (on k (Nat.lt_succ_self k))
      have := le_longestLen he
      omega
  obtain ⟨left, hleft⟩ := Nat.exists_eq_add_of_lt room
  refine ⟨left, ?_⟩
  rw [decodeFrom_walk hne, hleft, ← walk_from_start hpre hcan hk before on]
  congr 1
  omega

/-- The first path that is complete gives its symbol, and its bits are taken. -/
theorem decodeFrom_of_entryAt (hpre : bits <+: s.bitStream) (hcan : s.CanRead src bits.length) {k : Nat} {e : HufEntry}
    (hk : k < bits.length) (before : ∀ j < k, entryAt es bits (j + 1) = none) (h : entryAt es bits (k + 1) = some e) :
    decodeFrom src es s = .ok e.sym (s.afterBits src e.len) := by
  obtain ⟨he, hlen, _⟩ := entryAt_eq_some h
  obtain ⟨left, run⟩ := decodeFrom_at (List.ne_nil_of_mem he) hpre hcan hk.le before fun j hj =>
    goesOn_take_of_entryAt h (by omega) hk
  rw [run, walk_step hpre hcan left hk, h, hlen]

/-- A walk that leaves the trie ends at the first bit that does so. -/
theorem decodeFrom_walkOff (hpre : bits <+: s.bitStream) (hcan : s.CanRead src bits.length) (hbits : bits ≠ [])
    (noEntry : ∀ j < bits.length, entryAt es bits (j + 1) = none) (off : goesOn es bits = false) :
    Raises (decodeFrom src es) s .walkOff := by
  by_cases hne : es = []
  · exact ⟨s, by rw [hne, decodeFrom_nil]⟩
  have leaves : ∃ k, k < bits.length ∧ goesOn es (bits.take (k + 1)) = false := by
    have pos := List.length_pos_iff.2 hbits
    refine ⟨bits.length - 1, by omega, ?_⟩
    rwa [Nat.sub_add_cancel pos, List.take_length]
  classical
  obtain ⟨hk, offAt⟩ := Nat.find_spec leaves
  have on : ∀ j < Nat.find leaves, goesOn es (bits.take (j + 1)) = true := fun j hj => by
    simpa [hj.trans hk] using Nat.find_min leaves hj
  obtain ⟨left, run⟩ := decodeFrom_at hne hpre hcan hk.le (fun j hj => noEntry j (hj.trans hk)) on
  exact ⟨_, by rw [run, walk_step hpre hcan left hk, noEntry _ hk, offAt]; rfl⟩

/-- A walk that comes to the end of the stream inside a path raises what the end of the stream raises. -/
theorem decodeFrom_end (hne : es ≠ []) (hpre : bits <+: s.bitStream) (hcan : s.CanRead src bits.length)
    (hend : ¬ s.CanRead src (bits.length + 1)) (noEntry : ∀ j < bits.length, entryAt es bits (j + 1) = none)
    (on : bits = [] ∨ goesOn es bits = true) :
    Raises (decodeFrom src es) s ((s.afterBits src bits.length).endCause src) := by
  obtain ⟨left, run⟩ := decodeFrom_at hne hpre hcan le_rfl noEntry fun j hj => by
    refine goesOn_take_of_goesOn (n := bits.length) ?_ hj le_rfl
    rw [List.take_length]
    exact on.resolve_left (List.ne_nil_of_length_pos (by omega))
  obtain ⟨t, ht⟩ := readBits_raises (n := 1) (by decide) (afterBits_readerSet hcan.1) fun more =>
    hend ((canRead_afterBits hcan).1 more)
  exact ⟨t, by rw [run, walk_succ, ht]⟩

end Walk

/-! ## The walk over the bits that can be delivered -/

theorem findSome?_range_eq_some {α : Type} {f : Nat → Option α} {n : Nat} {a : α}
    (h : (List.range n).findSome? f = some a) : ∃ k < n, f k = some a ∧ ∀ j < k, f j = none := by
  induction n with
  | zero => cases h
  | succ n ih =>
    rw [List.range_succ, List.findSome?_append] at h
    cases hn : (List.range n).findSome? f with
    | some b =>
      rw [hn] at h
      obtain ⟨k, hk, rest⟩ := ih (hn.trans h)
      exact ⟨k, hk.trans (Nat.lt_succ_self n), rest⟩
    | none =>
      rw [hn] at h
      exact ⟨n, Nat.lt_succ_self n, by simpa using h, by simpa using hn⟩

/-- Decoding a symbol is the walk of R195 over the bits that the source can deliver. -/
theorem decodeFrom_eq_walkBits (src : BitSource) (es : List HufEntry) {s : State} (hset : s.ReaderSet)
    (whole : s.WholeStream) :
    match walkBits es (s.deliverable src) with
    | .ok (sym, k) => decodeFrom src es s = .ok sym (s.afterBits src k)
    | .error c => Raises (decodeFrom src es) s c := by
  have hpre := deliverable_prefix src s
  have hcan : s.CanRead src (s.deliverable src).length := (canRead_iff hset).2 le_rfl
  have hend : ¬ s.CanRead src ((s.deliverable src).length + 1) := fun h => Nat.not_succ_le_self _ ((canRead_iff hset).1 h)
  have cause := endCause_of_whole (src := src) (afterBits_wholeStream hcan whole)
  generalize s.deliverable src = bits at *
  unfold walkBits
  by_cases hne : es = []
  · rw [if_pos (by simp [hne])]
    exact ⟨s, by rw [hne, decodeFrom_nil]⟩
  rw [if_neg (by simpa using hne)]
  cases found : (List.range bits.length).findSome? fun k => entryAt es bits (k + 1) with
  | some e =>
    obtain ⟨k, hk, hat, before⟩ := findSome?_range_eq_some found
    exact decodeFrom_of_entryAt hpre hcan hk before hat
  | none =>
    have noEntry : ∀ j < bits.length, entryAt es bits (j + 1) = none := by simpa using found
    by_cases on : bits = [] ∨ goesOn es bits = true
    · rw [if_pos (by simpa using on), ← cause]
      exact decodeFrom_end hne hpre hcan hend noEntry on
    · rw [if_neg (by simpa using on)]
      exact decodeFrom_walkOff hpre hcan (fun h => on (.inl h)) noEntry (by simpa using fun h => on (.inr h))

/-- A command that decodes a symbol into RES[0]. -/
theorem exec_decode {i : Instr} {src : BitSource} {es : List HufEntry} {s : State} (hs : s.Ready) (hset : s.ReaderSet)
    (whole : s.WholeStream)
    (hbody : bodyOf i (beginCommand s) = (decodeFrom src es >>= fun sym => setRes0 sym) (beginCommand s))
    (hr : i ≠ .instReset := by nofun) (ha : usesAri i = false := by rfl) :
    exec i s = .next (match walkBits es (s.deliverable src) with
      | .ok (sym, k) => { s.afterBits src k with res0 := some sym }
      | .error c => s.corrupted c) := by
  have run := decodeFrom_eq_walkBits src es (s := beginCommand s) hset whole
  rw [show (beginCommand s).deliverable src = s.deliverable src from rfl] at run
  cases walked : walkBits es (s.deliverable src) with
  | error c =>
    rw [walked] at run
    obtain ⟨t, ht⟩ := run
    exact exec_corrupted hs (.of_eq (by rw [hbody, M.bind_apply, ht])) hr ha
  | ok x =>
    rw [walked] at run
    exact exec_result (g := id) hs hbody (by rw [← afterBits_beginCommand]; exact run) (afterBits_status_phase _ _ _).1 hr

theorem bodyOf_hufDecode {t : BitVec 4} {src : BitSource} {es : List HufEntry} {s : State}
    (h : s.ht[t.toNat]'t.isLt = some es) :
    bodyOf (.hufDecode t src) s = (decodeFrom src es >>= fun sym => setRes0 sym) s := by
  have slot : readSlot t.toFin s = .ok es s := by rw [readSlot_apply, show s.ht[t.toFin] = some es from h]; rfl
  rw [bodyOf, M.bind_apply, hufDecode, M.bind_apply, slot, M.bind_apply]

/-! ## The round trip -/

theorem LawfulTable.apart {es : List HufEntry} (h : LawfulTable es) {a b : HufEntry} (ha : a ∈ es) (hb : b ∈ es)
    (hne : a ≠ b) : pathsClash a b = false := by
  have : Std.Symm fun a b => pathsClash a b = false := ⟨fun a b hab => (pathsClash_comm b a).trans hab⟩
  exact ((prefixFree_iff es).1 h.1).forall ha hb hne

/-- The path of an entry of a lawful table leads to it, and no shorter part of it to another. -/
theorem entryAt_pathBits {es tbl : List HufEntry} {e : HufEntry} (lawful : LawfulTable es) (same : ∀ x, x ∈ tbl ↔ x ∈ es)
    (he : e ∈ es) :
    entryAt tbl (pathBits e) e.len = some e ∧ ∀ l < e.len, entryAt tbl (pathBits e) l = none := by
  have hc := (lawful.2 e he).2.2
  -- an entry found on the path begins it, and so is the entry itself
  have unique : ∀ x l, l ≤ e.len → entryAt tbl (pathBits e) l = some x → x = e := fun x l hl found => by
    obtain ⟨hx, hlen, hcode⟩ := entryAt_eq_some found
    have hx := (same x).1 hx
    by_contra hne
    refine pathsClash_eq_false.1 (lawful.apart hx he hne) ?_
    rw [hlen, Nat.min_eq_left hl, Nat.sub_self, pow_zero, Nat.div_one, hcode, bitsValue_take_pathBits hc hl]
  constructor
  · have isFound : (entryAt tbl (pathBits e) e.len).isSome = true := List.find?_isSome.2
      ⟨e, (same e).2 he, by simp [bitsValue_take_pathBits hc le_rfl]⟩
    obtain ⟨x, found⟩ := Option.isSome_iff_exists.1 isFound
    rw [found, unique x e.len le_rfl found]
  · intro l hl
    by_contra hsome
    obtain ⟨x, found⟩ := Option.ne_none_iff_exists'.1 hsome
    obtain ⟨-, hlen, -⟩ := entryAt_eq_some found
    rw [unique x l hl.le found] at hlen
    omega

end Sys2Proof.Machine

open Sys2Proof Sys2Proof.Machine

/-- Settles O37: the command's body is the slot's walk over the deliverable bits. -/
theorem hufDecode : Obligations.HufDecode :=
  fun _ _ _ _ hs slot hset whole => exec_decode hs hset whole (bodyOf_hufDecode slot)

/-- Settles O38: the walk over the path of a code ends with its last bit. -/
theorem hufRoundTrip : Obligations.HufRoundTrip := by
  intro lens es tbl e s t src hl _ h same he hs slot hcan hpath
  have lawful := canonicalCodes_lawful hl h
  obtain ⟨hat, before⟩ := entryAt_pathBits lawful same he
  have pos := (lawful.2 e he).1
  have run : decodeFrom src tbl (beginCommand s) = .ok e.sym ((beginCommand s).afterBits src e.len) := by
    refine decodeFrom_of_entryAt (s := beginCommand s) (bits := pathBits e) (k := e.len - 1) hpath ?_ ?_ ?_ ?_
    · rw [pathBits_length]; exact hcan
    · rw [pathBits_length]; omega
    · exact fun j hj => before (j + 1) (by omega)
    · rwa [Nat.sub_add_cancel pos]
  rw [afterBits_beginCommand] at run
  exact exec_result (g := id) hs (bodyOf_hufDecode slot) run (afterBits_status_phase _ _ _).1

end

section
/-! SUPPORT. The commands of the adaptive tracker (spec/42_adaptive_huffman.md R221 to R224): each reads the model first, and
DHUF.DECODE is the walk of HUF.DECODE over the model's codes. -/

namespace Sys2Proof.Machine

/-- Before an initialisation the model does not answer. -/
theorem readDhuf_raises_unset {s : State} {tree : Option DhufTree} (h : s.dhuf = some { nsym := 0#32, tree := tree }) :
    Raises readDhuf s .unset :=
  .of_eq (by rw [readDhuf_eq, h]; rfl)

theorem bodyOf_dhufInit {s : State} {a : Word} (h0 : s.arg0 = some a) :
    bodyOf .dhufInit s = dhufInit Config.core a s :=
  arg0_apply h0

section Initialised
variable {s : State} {n : Word} {tree : DhufTree}

theorem bodyOf_dhufDecode (src : BitSource) (h : s.dhuf = some { nsym := n, tree := some tree }) (hn : n ≠ 0#32) :
    bodyOf (.dhufDecode src) s = (decodeFrom src (Config.core.dhufCodes tree) >>= fun sym => setRes0 sym) s := by
  rw [bodyOf, M.bind_apply, M.bind_apply, dhufDecode_eq, readDhuf_of h hn]

theorem bodyOf_dhufUpdate {a : Word} (h0 : s.arg0 = some a) (h : s.dhuf = some { nsym := n, tree := some tree })
    (hn : n ≠ 0#32) :
    bodyOf .dhufUpdate s =
      if a.toNat ≥ n.toNat then .error (.corrupt .index) s
      else .ok () { s with dhuf := some { nsym := n, tree := some (Config.core.dhufUpdate tree a.toNat) } } := by
  rw [bodyOf, arg0_apply h0, dhufUpdate_eq, readDhuf_of h hn]

end Initialised

end Sys2Proof.Machine

open Sys2Proof Sys2Proof.Machine

/-- Settles O40: the command's body is the walk of HUF.DECODE over the model's codes. -/
theorem trackerDecode : Obligations.TrackerDecode := fun _ src hs =>
  ⟨fun _ _ h hn hset whole => exec_decode hs hset whole (bodyOf_dhufDecode src h hn),
    fun _ h => exec_corrupted hs (.bind (.bind (readDhuf_raises_unset h)))⟩

/-- Settles O39: DHUF.INIT by the bounds of its operand, the others by whether the model is set and has the symbol. -/
theorem trackerCommands : Obligations.TrackerCommands := by
  intro s a hs h0
  have init := (bodyOf_dhufInit (s := beginCommand s) h0).trans (dhufInit_eq _ _ _)
  refine ⟨fun pos le => ?_, fun out => ?_, fun n tree h hn => ⟨fun symbol => ?_, fun other => ?_, ?_⟩,
    fun tree h => ⟨?_, ?_⟩⟩
  · exact exec_ended hs (init.trans (if_neg (by omega))) rfl
  · exact exec_corrupted hs (.of_eq (init.trans (if_pos out)))
  · exact exec_ended hs ((bodyOf_dhufUpdate (s := beginCommand s) h0 h hn).trans (if_neg (by omega))) rfl
  · exact exec_corrupted hs (.of_eq ((bodyOf_dhufUpdate (s := beginCommand s) h0 h hn).trans (if_pos other)))
  · exact exec_result (t := s) (g := id) hs rfl (by rw [dhufMaxF_eq, readDhuf_of (s := beginCommand s) h hn]) rfl
  · exact exec_corrupted hs (.arg0 h0 (.bind (readDhuf_raises_unset h)))
  · exact exec_corrupted hs (.bind (.bind (readDhuf_raises_unset h)))

end

section
/-! SUPPORT. Termination (spec/43_decompress_common.md R243): what a run that never ends in the raise of a loop without
progress may do, and the resources that a turn of a loop uses up: bits to be read, space of the writers. -/

namespace Sys2Proof.Machine

/-! ## Runs that are never stuck -/

/-- A run from `s` never ends in the raise of a loop without progress, and its answer and end state are as `Q` says. -/
def Goes {α : Type} (Q : α → State → Prop) (m : M α) (s : State) : Prop :=
  match m s with
  | .ok a t => Q a t
  | .error e _ => e ≠ .noProgress

/-- From every state a run goes on, and where it answers its first and last state are related. -/
def Steady {α : Type} (R : State → State → Prop) (m : M α) : Prop := ∀ s, Goes (fun _ t => R s t) m s

section Goes

variable {α β : Type} {s : State}

theorem Goes.of_ok {Q : α → State → Prop} {m : M α} {a : α} {t : State} (e : m s = .ok a t) (h : Q a t) : Goes Q m s := by
  rw [Goes, e]; exact h

theorem Goes.of_corrupt {Q : α → State → Prop} {m : M α} {c : Cause} {t : State} (e : m s = .error (.corrupt c) t) :
    Goes Q m s := by
  rw [Goes, e]; exact nofun

theorem Goes.pure {Q : α → State → Prop} {a : α} (h : Q a s) : Goes Q (pure a) s := h

theorem Goes.raise {Q : α → State → Prop} (c : Cause) : Goes Q (raise c) s := .of_corrupt rfl

theorem Goes.mono {Q Q' : α → State → Prop} {m : M α} (h : Goes Q m s) (hQ : ∀ a t, Q a t → Q' a t) : Goes Q' m s := by
  unfold Goes at h ⊢
  cases e : m s with
  | ok a t => rw [e] at h; exact hQ a t h
  | error r t => rw [e] at h; exact h

theorem Goes.bind {Q : α → State → Prop} {Q' : β → State → Prop} {x : M α} {f : α → M β} (hx : Goes Q x s)
    (hf : ∀ a t, Q a t → Goes Q' (f a) t) : Goes Q' (x >>= f) s := by
  unfold Goes at hx ⊢
  rw [M.bind_apply]
  cases e : x s with
  | ok a t => rw [e] at hx; exact hf a t hx
  | error r t => rw [e] at hx; exact hx

theorem Goes.get {Q : α → State → Prop} {f : State → M α} (h : Goes Q (f s) s) : Goes Q (get >>= f) s := h

theorem Goes.need {Q : β → State → Prop} {o : Option α} {f : α → M β} (h : ∀ a, o = some a → Goes Q (f a) s) :
    Goes Q (need o >>= f) s := by
  cases o with
  | none => exact .of_corrupt rfl
  | some a => exact h a rfl

theorem Goes.ite {Q : α → State → Prop} {p : Prop} [Decidable p] {x y : M α} (hx : p → Goes Q x s)
    (hy : ¬ p → Goes Q y s) : Goes Q (if p then x else y) s := by
  split
  · exact hx ‹_›
  · exact hy ‹_›

theorem NeverStuck.of_goes {Q : State → α → State → Prop} {m : M α} (h : ∀ s, Goes (Q s) m s) : NeverStuck m := by
  intro s t e
  have := h s
  rw [Goes, e] at this
  exact this rfl

theorem Steady.neverStuck {R : State → State → Prop} {m : M α} (h : Steady R m) : NeverStuck m := .of_goes h

theorem Goes.of_neverStuck {m : M α} (h : NeverStuck m) : Goes (fun _ _ => True) m s := by
  unfold Goes
  cases e : m s with
  | ok a t => trivial
  | error r t => rintro rfl; exact h s t e

/-- What comes after a part that is never stuck. -/
theorem Goes.after {Q : β → State → Prop} {x : M α} {f : α → M β} (hx : NeverStuck x) (hf : ∀ a t, Goes Q (f a) t) :
    Goes Q (x >>= f) s :=
  (Goes.of_neverStuck hx).bind fun a t _ => hf a t

end Goes

/-! ## What a run uses up -/

/-- The bytes of space left to the forward writer. -/
def forwardRoom (s : State) : Nat := match s.fwr with | some f => f.stop.toNat - f.pos.toNat | none => 0

/-- The bytes of space left to the backward writer. -/
def backwardRoom (s : State) : Nat := match s.bwr with | some f => f.pos.toNat - f.floor.toNat | none => 0

/-- The forward writer has not passed its end. -/
def WriterInside (s : State) : Prop := ∀ f, s.fwr = some f → f.pos.toNat ≤ f.stop.toNat

/-- A code of the LZW unit has at least one bit. -/
def WidthPositive (s : State) : Prop := ∀ n, s.lzw.codeBits = some n → 0 < n

/-- A run gives back neither input nor space, and the writer stays inside its span. -/
structure Onward (s t : State) : Prop where
  bits : unreadBits t ≤ unreadBits s
  forward : forwardRoom t ≤ forwardRoom s
  backward : backwardRoom t ≤ backwardRoom s
  inside : WriterInside s → WriterInside t
  width : WidthPositive s → WidthPositive t

theorem Onward.refl (s : State) : Onward s s := ⟨le_rfl, le_rfl, le_rfl, id, id⟩

theorem Onward.trans {s t u : State} (h : Onward s t) (h' : Onward t u) : Onward s u :=
  ⟨h'.bits.trans h.bits, h'.forward.trans h.forward, h'.backward.trans h.backward, h'.inside ∘ h.inside,
    h'.width ∘ h.width⟩

/-- Whatever leaves the writers as they are, gives back no input and keeps code widths positive. -/
theorem Onward.of_writers {s t : State} (hbits : unreadBits t ≤ unreadBits s) (hfwr : t.fwr = s.fwr)
    (hbwr : t.bwr = s.bwr) (hwidth : WidthPositive s → WidthPositive t) : Onward s t where
  bits := hbits
  forward := by rw [forwardRoom, forwardRoom, hfwr]
  backward := by rw [backwardRoom, backwardRoom, hbwr]
  inside h f hf := h f (hfwr ▸ hf)
  width := hwidth

theorem unreadBits_congr {s t : State} (hcnt : t.bitsCnt = s.bitsCnt) (hcur : t.fcur = s.fcur) :
    unreadBits t = unreadBits s := by
  rw [unreadBits, unreadBits, hcnt, hcur]

/-- Whatever leaves reader, writers and the code width as they are. -/
theorem Onward.of_same {s t : State} (hcnt : t.bitsCnt = s.bitsCnt) (hcur : t.fcur = s.fcur) (hfwr : t.fwr = s.fwr)
    (hbwr : t.bwr = s.bwr) (hwidth : t.lzw.codeBits = s.lzw.codeBits) : Onward s t :=
  .of_writers (unreadBits_congr hcnt hcur).le hfwr hbwr fun h n hn => h n (hwidth ▸ hn)

/-- A new code width that is positive. -/
theorem Onward.of_width {s t : State} {n : Nat} (hcnt : t.bitsCnt = s.bitsCnt) (hcur : t.fcur = s.fcur)
    (hfwr : t.fwr = s.fwr) (hbwr : t.bwr = s.bwr) (hwidth : t.lzw.codeBits = some (n + 1)) : Onward s t :=
  .of_writers (unreadBits_congr hcnt hcur).le hfwr hbwr fun _ m hm => by
    rw [hwidth] at hm
    cases hm
    exact Nat.succ_pos n

/-- What bounds the turns of a loop. -/
inductive Resource where
  | input | forwardSpace | backwardSpace | inputAndSpace

/-- How much of a resource is left. -/
def Resource.left : Resource → State → Nat
  | .input, s => unreadBits s
  | .forwardSpace, s => forwardRoom s
  | .backwardSpace, s => backwardRoom s
  | .inputAndSpace, s => unreadBits s + forwardRoom s

theorem workLeft_eq (s : State) : workLeft s = unreadBits s + forwardRoom s + backwardRoom s := rfl

theorem Onward.left_le {s t : State} (h : Onward s t) (r : Resource) : r.left t ≤ r.left s := by
  cases r with
  | input => exact h.bits
  | forwardSpace => exact h.forward
  | backwardSpace => exact h.backward
  | inputAndSpace => exact Nat.add_le_add h.bits h.forward

/-- A run goes on and uses up some of a resource. -/
def Lowers (r : Resource) (s t : State) : Prop := Onward s t ∧ r.left t < r.left s

theorem Lowers.onward {r : Resource} {s t : State} (h : Lowers r s t) : Onward s t := h.1

theorem Lowers.trans_onward {r : Resource} {s t u : State} (h : Lowers r s t) (h' : Onward t u) : Lowers r s u :=
  ⟨h.1.trans h', (h'.left_le r).trans_lt h.2⟩

theorem Onward.trans_lowers {r : Resource} {s t u : State} (h : Onward s t) (h' : Lowers r t u) : Lowers r s u :=
  ⟨h.trans h'.1, h'.2.trans_le (h.left_le r)⟩

theorem Lowers.workLeft_lt {r : Resource} {s t : State} (h : Lowers r s t) : workLeft t < workLeft s := by
  obtain ⟨⟨hb, hf, hw, _, _⟩, hlt⟩ := h
  cases r <;> simp only [Resource.left] at hlt <;> rw [workLeft_eq, workLeft_eq] <;> omega

theorem Lowers.of_input {s t : State} (h : Lowers .input s t) : Lowers .inputAndSpace s t :=
  ⟨h.1, Nat.add_lt_add_of_lt_of_le h.2 h.1.forward⟩

theorem Lowers.of_forwardSpace {s t : State} (h : Lowers .forwardSpace s t) : Lowers .inputAndSpace s t :=
  ⟨h.1, Nat.add_lt_add_of_le_of_lt h.1.bits h.2⟩

/-! ## Rules -/

section Rules

variable {α β : Type} {r : Resource}

theorem Steady.mono {R R' : State → State → Prop} {m : M α} (h : Steady R m) (hR : ∀ s t, R s t → R' s t) :
    Steady R' m :=
  fun s => (h s).mono fun _ t => hR s t

theorem Steady.onward {m : M α} (h : Steady (Lowers r) m) : Steady Onward m := h.mono fun _ _ => Lowers.onward

theorem Steady.pure (a : α) : Steady Onward (pure a) := fun s => Onward.refl s

theorem Steady.raise {R : State → State → Prop} (c : Cause) : Steady R (raise c : M α) := fun _ => Goes.raise c

theorem Steady.get : Steady Onward (get : M State) := fun s => Onward.refl s

/-- An update, which by default leaves reader, writers and the code width as they are. -/
theorem Steady.modify {f : State → State} (h : ∀ s, Onward s (f s) := by exact fun _ => .of_same rfl rfl rfl rfl rfl) :
    Steady Onward (modify f : M PUnit) := h

theorem Steady.need (o : Option α) : Steady Onward (need o) := by
  cases o with
  | none => exact Steady.raise _
  | some a => exact Steady.pure a

theorem Steady.bind {x : M α} {f : α → M β} (hx : Steady Onward x) (hf : ∀ a, Steady Onward (f a)) :
    Steady Onward (x >>= f) :=
  fun s => (hx s).bind fun a t h => (hf a t).mono fun _ _ => h.trans

/-- A first part from one state on, then parts that go on from every state. -/
theorem Goes.onward {x : M α} {f : α → M β} {s : State} (hx : Goes (fun _ t => Onward s t) x s)
    (hf : ∀ a, Steady Onward (f a)) : Goes (fun _ t => Onward s t) (x >>= f) s :=
  hx.bind fun a t h => (hf a t).mono fun _ _ => h.trans

/-- The first part uses up some of the resource. -/
theorem Steady.first {x : M α} {f : α → M β} (hx : Steady (Lowers r) x) (hf : ∀ a, Steady Onward (f a)) :
    Steady (Lowers r) (x >>= f) :=
  fun s => (hx s).bind fun a t h => (hf a t).mono fun _ _ => h.trans_onward

/-- What comes after the first part uses up some of the resource. -/
theorem Steady.later {x : M α} {f : α → M β} (hx : Steady Onward x) (hf : ∀ a, Steady (Lowers r) (f a)) :
    Steady (Lowers r) (x >>= f) :=
  fun s => (hx s).bind fun a t h => (hf a t).mono fun _ _ => h.trans_lowers

theorem Steady.ite {R : State → State → Prop} {p : Prop} [Decidable p] {x y : M α} (hx : Steady R x) (hy : Steady R y) :
    Steady R (if p then x else y) := by
  split
  · exact hx
  · exact hy

end Rules

/-! ## The reader -/

theorem unreadBits_withCnt {s : State} {n : Nat} (h : s.bitsCnt = some n) (m : Nat) :
    unreadBits { s with bitsCnt := some m } + n = unreadBits s + m := by
  rw [unreadBits, unreadBits, h, Option.getD_some, Option.getD_some]
  dsimp only
  omega

/-- Refilling gives back no input: the byte it buffers was one to be read. -/
theorem refill8_goes {s : State} (h : s.bitsCnt = some 0) :
    Goes (fun _ t => Onward s t ∧ t.bitsCnt = some 8) refill8 s := by
  unfold Goes
  rw [refill8_eq, fcurRdb_eq]
  cases hf : s.fcur with
  | none => exact nofun
  | some f =>
    by_cases hpos : f.pos.toNat ≥ fcurEnd f s
    · simp [hpos]
    · cases hb : storeRead s.chunk f.pos.toNat with
      | none => simp [hpos, hb]
      | some b =>
        simp only [hpos, if_false, hb]
        refine ⟨.of_writers ?_ rfl rfl id, trivial⟩
        have hstop := fcurEnd_le_stop f s
        have hlt := f.stop.isLt
        simp only [unreadBits, hf, h, Option.getD_some, toWord_toNat]
        omega

theorem refillIfEmpty_goes (s : State) :
    Goes (fun _ t => Onward s t ∧ ∃ n, t.bitsCnt = some n ∧ 0 < n) (refillIfEmpty .group8) s := by
  refine Goes.get (Goes.need fun n hn => Goes.ite (fun h0 => ?_) fun h0 => ?_)
  · exact (refill8_goes (h0 ▸ hn)).mono fun _ t h => ⟨h.1, 8, h.2, by decide⟩
  · exact ⟨Onward.refl s, n, hn, Nat.pos_of_ne_zero h0⟩

theorem takeBits_goes {n cnt : Nat} {s : State} (h : s.bitsCnt = some cnt) (hn : 0 < n) (hcnt : 0 < cnt) :
    Goes (fun _ t => Lowers .input s t) (takeBits n) s := by
  unfold Goes
  rw [takeBits_eq, h]
  cases s.bitsAcc with
  | none => exact nofun
  | some acc =>
    have hcount := unreadBits_withCnt h (cnt - min n cnt)
    have hlt : unreadBits { s with bitsCnt := some (cnt - min n cnt) } < unreadBits s := by omega
    exact ⟨.of_writers hlt.le rfl rfl id, hlt⟩

/-- A turn of the loop of ReadBits takes at least one bit. -/
theorem readBitsLoop_turn {turns : Nat} (h : ∀ n ret, Steady Onward (readBitsLoop .group8 turns n ret)) {n : Nat}
    (hn : 0 < n) (ret : Nat) : Steady (Lowers .input) (readBitsLoop .group8 (turns + 1) n ret) := by
  rw [readBitsLoop, if_neg hn.ne']
  exact fun s => (refillIfEmpty_goes s).bind fun _ t ⟨hst, cnt, hcnt, hpos⟩ =>
    (takeBits_goes hcnt hn hpos).bind fun x u htu =>
      (h (n - x.1) (ret * 2 ^ x.1 + x.2) u).mono fun _ _ hu => hst.trans_lowers (htu.trans_onward hu)

theorem readBitsLoop_onward (turns n ret : Nat) : Steady Onward (readBitsLoop .group8 turns n ret) := by
  induction turns generalizing n ret with
  | zero => exact Steady.pure ret
  | succ turns ih =>
    rcases Nat.eq_zero_or_pos n with rfl | hn
    · exact Steady.pure ret
    · exact (readBitsLoop_turn ih hn ret).onward

theorem rd_lowers {n : Nat} (hn : 0 < n) : Steady (Lowers .input) (rd n) := by
  cases n with
  | zero => exact absurd hn (lt_irrefl 0)
  | succ n => exact Steady.ite (Steady.raise _) (readBitsLoop_turn (readBitsLoop_onward n) hn 0)

theorem rd_onward (n : Nat) : Steady Onward (rd n) :=
  Steady.ite (Steady.raise _) (readBitsLoop_onward n n 0)

theorem runField_onward {α : Type} (tree : BitTree α) : Steady Onward (runField tree) := by
  induction tree with
  | leaf v => exact Steady.pure v
  | node z o hz ho => exact (rd_onward 1).bind fun _ => Steady.ite hz ho

/-- A field with a bit to decide takes it. -/
theorem runField_node_lowers {α : Type} (z o : BitTree α) : Steady (Lowers .input) (runField (.node z o)) :=
  (rd_lowers one_pos).first fun _ => Steady.ite (runField_onward z) (runField_onward o)

theorem fcurConsume_onward (n : Nat) : Steady Onward (fcurConsume n) := by
  refine fun s => Goes.get (Goes.need fun f hf => Goes.ite (fun _ => Goes.raise _) fun hle => ?_)
  refine Onward.of_writers ?_ rfl rfl id
  have hstop := fcurEnd_le_stop f s
  have hlt := f.stop.isLt
  have hend : f.pos.toNat + n ≤ f.stop.toNat := by
    split at hle <;> omega
  simp only [unreadBits, hf, toWord_toNat]
  omega

theorem bcurRdb_onward : Steady Onward bcurRdb :=
  fun _ => Goes.get (Goes.need fun _ _ => Goes.ite (fun _ => Goes.raise _) fun _ => Goes.need fun _ _ =>
    Onward.of_same rfl rfl rfl rfl rfl)

theorem chunkByte_onward (a : Nat) : Steady Onward (chunkByte a) := Steady.get.bind fun _ => Steady.need _

theorem chunkBytes_onward : Steady Onward chunkBytes := Steady.get.bind fun _ => Steady.need _

/-! ## Tables -/

/-- What a turn of the walk does once it has read its bit. -/
theorem walk_turn {es : List HufEntry} {left l : Nat} (h : ∀ l c, Steady Onward (walk .group8 es left l c)) (c : Nat) :
    Steady (Lowers .input) (walk .group8 es (left + 1) l c) := by
  refine (rd_lowers one_pos).first fun b => ?_
  dsimp only
  split
  · exact Steady.pure _
  · exact Steady.ite (h _ _) (Steady.raise _)

theorem walk_onward (es : List HufEntry) (left l c : Nat) : Steady Onward (walk .group8 es left l c) := by
  induction left generalizing l c with
  | zero => exact Steady.raise _
  | succ left ih => exact (walk_turn ih c).onward

/-- Decoding a symbol takes at least one bit. -/
theorem decodeFrom_lowers (es : List HufEntry) : Steady (Lowers .input) (decodeFrom .group8 es) := by
  obtain ⟨left, h⟩ : ∃ left, max 1 (longestLen es) = left + 1 := ⟨max 1 (longestLen es) - 1, by omega⟩
  rw [decodeFrom, h]
  exact Steady.ite (Steady.raise _) (walk_turn (walk_onward es left) 0)

theorem hufDecode_lowers (t : Fin 16) : Steady (Lowers .input) (hufDecode t .group8) :=
  (Steady.get.bind fun _ => Steady.need _).later fun es => decodeFrom_lowers es

theorem setSlot_onward (t : Fin 16) (e : Table) : Steady Onward (setSlot t e) :=
  Steady.modify

theorem hufClear_onward (t : Fin 16) : Steady Onward (hufClear t) := setSlot_onward t []

theorem hufInsert_onward (c : Config) (t : Fin 16) (l code : Nat) (sym : Word) :
    Steady Onward (hufInsert c t l code sym) :=
  Steady.ite (Steady.raise _) <| (Steady.get.bind fun _ => Steady.need _).bind fun _ =>
    Steady.ite (Steady.raise _) (Steady.ite (Steady.raise _) (setSlot_onward t _))

theorem hufBuild_onward (c : Config) (t : Fin 16) (n : Nat) : Steady Onward (hufBuild c t n) := by
  refine Steady.ite (Steady.raise _) <| Steady.get.bind fun _ => (Steady.need _).bind fun bytes =>
    Steady.ite (Steady.raise _) ?_
  cases canonicalCodes (bytes.map BitVec.toNat) with
  | none => exact Steady.raise _
  | some es => exact Steady.ite (Steady.raise _) (setSlot_onward t _)

theorem writeLenm_onward (i : Nat) (b : Byte) : Steady Onward (writeLenm i b) :=
  Steady.modify

end Sys2Proof.Machine

end

section
/-! SUPPORT. The writers: what a write and a copy do, whatever bytes they write, and that they use up space. -/

namespace Sys2Proof.Machine

/-! ## The forward writer -/

theorem forwardRoom_of {s : State} {f : Fwr} (h : s.fwr = some f) : forwardRoom s = f.stop.toNat - f.pos.toNat := by
  rw [forwardRoom, h]

theorem backwardRoom_of {s : State} {f : Bwr} (h : s.bwr = some f) : backwardRoom s = f.pos.toNat - f.floor.toNat := by
  rw [backwardRoom, h]

/-- The writer that has moved on by one position. -/
theorem fwrPut_pos {f : Fwr} (h : f.pos.toNat < f.stop.toNat) : (toWord (f.pos.toNat + 1)).toNat = f.pos.toNat + 1 :=
  toWord_toNat_of_lt (by have := f.stop.isLt; omega)

/-- `c` bytes were written from the position of the forward writer on, which moved on by as many; no other byte and no
other piece of state changed. -/
structure Advances (f : Fwr) (c : Nat) (s t : State) : Prop where
  state : t = { s with raw := t.raw, fwr := some { f with pos := toWord (f.pos.toNat + c) } }
  filled : ∀ k, f.pos.toNat ≤ k → k < f.pos.toNat + c → ∃ b, storeRead t.raw k = some b
  other : ∀ k, k < f.pos.toNat ∨ f.pos.toNat + c ≤ k → storeRead t.raw k = storeRead s.raw k

theorem Advances.refl {s : State} {f : Fwr} (hf : s.fwr = some f) : Advances f 0 s s where
  state := by rw [Nat.add_zero, toWord_toNat_self, ← hf]
  filled k hk hk' := absurd hk' (by omega)
  other _ _ := rfl

/-- One byte, then the rest from the next position on. -/
theorem Advances.cons {s t : State} {f : Fwr} {b : Byte} {c : Nat} (h : f.pos.toNat < f.stop.toNat)
    (ht : Advances { f with pos := toWord (f.pos.toNat + 1) } c (fwrPut f b s) t) : Advances f (c + 1) s t := by
  obtain ⟨hstate, hfilled, hother⟩ := ht
  have hpos := fwrPut_pos h
  simp only [hpos] at hstate hfilled hother
  refine ⟨?_, fun k hk hk' => ?_, fun k hk => ?_⟩
  · rw [hstate, Nat.add_right_comm, ← Nat.add_assoc]
    rfl
  · rcases Nat.eq_or_lt_of_le hk with rfl | hk
    · exact ⟨b, by rw [hother _ (.inl (Nat.lt_succ_self _))]; exact storeRead_write_same _ _ _⟩
    · exact hfilled k hk (by omega)
  · rw [hother k (by omega)]
    exact storeRead_write_other _ _ (by omega)

theorem fwrPut_advances {s : State} {f : Fwr} (h : f.pos.toNat < f.stop.toNat) (b : Byte) :
    Advances f 1 s (fwrPut f b s) :=
  .cons h (.refl rfl)

/-- A loop that writes one byte a turn, wherever it takes the byte from, writes as many bytes as it has turns. -/
theorem putLoop_advances {loop : Nat → M Unit} {next : Fwr → State → Option Byte} (hzero : loop 0 = pure ())
    (hsucc : ∀ c, loop (c + 1) = do
      let s ← get
      let f ← need s.fwr
      let b ← need (next f s)
      set (fwrPut f b s)
      loop c) (c : Nat) {s : State} {f : Fwr} (hf : s.fwr = some f) (h : f.pos.toNat + c ≤ f.stop.toNat) :
    Goes (fun _ t => Advances f c s t) (loop c) s := by
  induction c generalizing s f with
  | zero => rw [hzero]; exact Advances.refl hf
  | succ c ih =>
    rw [hsucc]
    refine Goes.get (Goes.need fun g hg => Goes.need fun b _ => ?_)
    obtain rfl : f = g := by rw [hf] at hg; exact Option.some.inj hg
    have hlt : f.pos.toNat < f.stop.toNat := by omega
    have hpos := fwrPut_pos hlt
    exact (ih (s := fwrPut f b s) rfl (by show (toWord _).toNat + c ≤ f.stop.toNat; omega)).mono fun _ t ht => .cons hlt ht

theorem fwrCopyLoop_advances {d c : Nat} {s : State} {f : Fwr} (hf : s.fwr = some f)
    (h : f.pos.toNat + c ≤ f.stop.toNat) : Goes (fun _ t => Advances f c s t) (fwrCopyLoop d c) s :=
  putLoop_advances (next := fun f s => storeRead s.raw (f.pos.toNat - d)) rfl (fun _ => rfl) c hf h

theorem fwrCopyhLoop_advances {history : List Byte} {d c : Nat} {s : State} {f : Fwr} (hf : s.fwr = some f)
    (h : f.pos.toNat + c ≤ f.stop.toNat) : Goes (fun _ t => Advances f c s t) (fwrCopyhLoop history d c) s :=
  putLoop_advances
    (next := fun f s => logicalByte history f s.raw (history.length + (f.pos.toNat - f.start.toNat) - d)) rfl
    (fun _ => rfl) c hf h

/-- The writer of a state advances by `c` bytes inside its span. -/
def Writes (c : Nat) (s t : State) : Prop := ∃ f, s.fwr = some f ∧ f.pos.toNat + c ≤ f.stop.toNat ∧ Advances f c s t

theorem fwrWrb_writes (b : Byte) : Steady (Writes 1) (fwrWrb b) :=
  fun _ => Goes.get <| Goes.need fun f hf => Goes.ite (fun _ => Goes.raise _) fun h =>
    ⟨f, hf, Nat.lt_of_not_le h, fwrPut_advances (Nat.lt_of_not_le h) b⟩

theorem fwrCopy_writes (d c : Nat) : Steady (Writes c) (fwrCopy d c) :=
  Steady.ite (Steady.raise _) fun _ => Goes.get <| Goes.need fun f hf => Goes.ite (fun _ => Goes.raise _) fun _ =>
    Goes.ite (fun _ => Goes.raise _) fun h =>
      (fwrCopyLoop_advances hf (Nat.le_of_not_lt h)).mono fun _ _ ht => ⟨f, hf, Nat.le_of_not_lt h, ht⟩

theorem fwrCopyh_writes (d c : Nat) : Steady (Writes c) (fwrCopyh d c) :=
  Steady.ite (Steady.raise _) fun _ => Goes.get <| Goes.need fun f hf => Goes.ite (fun _ => Goes.raise _) fun _ =>
    Goes.ite (fun _ => Goes.raise _) fun h =>
      (fwrCopyhLoop_advances hf (Nat.le_of_not_lt h)).mono fun _ _ ht => ⟨f, hf, Nat.le_of_not_lt h, ht⟩

/-! ## The backward writer -/

/-- `c` bytes were written below the position of the backward writer, which stepped down by as many; no other byte and no
other piece of state changed. -/
structure Recedes (f : Bwr) (c : Nat) (s t : State) : Prop where
  state : t = { s with raw := t.raw, bwr := some { f with pos := toWord (f.pos.toNat - c) } }
  filled : ∀ k, k < f.pos.toNat → f.pos.toNat ≤ k + c → ∃ b, storeRead t.raw k = some b
  other : ∀ k, f.pos.toNat ≤ k ∨ k + c < f.pos.toNat → storeRead t.raw k = storeRead s.raw k

theorem Recedes.refl {s : State} {f : Bwr} (hf : s.bwr = some f) : Recedes f 0 s s where
  state := by rw [Nat.sub_zero, toWord_toNat_self, ← hf]
  filled k hk hk' := absurd hk' (by omega)
  other _ _ := rfl

theorem bwrPut_pos (f : Bwr) : (toWord (f.pos.toNat - 1)).toNat = f.pos.toNat - 1 :=
  toWord_toNat_of_lt (by have := f.pos.isLt; omega)

/-- One byte, then the rest from the next lower position on. -/
theorem Recedes.cons {s t : State} {f : Bwr} {b : Byte} {c : Nat} (h : 0 < f.pos.toNat)
    (ht : Recedes { f with pos := toWord (f.pos.toNat - 1) } c (bwrPut f b s) t) : Recedes f (c + 1) s t := by
  obtain ⟨hstate, hfilled, hother⟩ := ht
  simp only [bwrPut_pos] at hstate hfilled hother
  refine ⟨?_, fun k hk hk' => ?_, fun k hk => ?_⟩
  · rw [hstate, Nat.add_comm, ← Nat.sub_sub]
    rfl
  · rcases Nat.eq_or_lt_of_le (Nat.le_sub_one_of_lt hk) with rfl | hk
    · exact ⟨b, by rw [hother _ (.inl le_rfl)]; exact storeRead_write_same _ _ _⟩
    · exact hfilled k hk (by omega)
  · rw [hother k (by omega)]
    exact storeRead_write_other _ _ (by omega)

/-- The backward writer of a state steps down by `c` bytes inside its span. -/
def WritesBack (c : Nat) (s t : State) : Prop := ∃ f, s.bwr = some f ∧ f.floor.toNat + c ≤ f.pos.toNat ∧ Recedes f c s t

theorem bwrWrb_writes (b : Byte) : Steady (WritesBack 1) (bwrWrb b) :=
  fun _ => Goes.get <| Goes.need fun f hf => Goes.ite (fun _ => Goes.raise _) fun h =>
    ⟨f, hf, Nat.lt_of_not_le h, .cons (by omega) (.refl rfl)⟩

theorem bwrCopyLoop_recedes {d : Nat} (c : Nat) {s : State} {f : Bwr} (hf : s.bwr = some f)
    (h : f.floor.toNat + c ≤ f.pos.toNat) : Goes (fun _ t => Recedes f c s t) (bwrCopyLoop d c) s := by
  induction c generalizing s f with
  | zero => exact Recedes.refl hf
  | succ c ih =>
    refine Goes.get (Goes.need fun g hg => Goes.need fun b _ => ?_)
    obtain rfl : f = g := by rw [hf] at hg; exact Option.some.inj hg
    have hpos := bwrPut_pos f
    exact (ih (s := bwrPut f b s) rfl (by show f.floor.toNat + c ≤ (toWord _).toNat; omega)).mono fun _ t ht => .cons (by omega) ht

theorem bwrCopy_writes (d c : Nat) : Steady (WritesBack c) (bwrCopy d c) :=
  Steady.ite (Steady.raise _) fun _ => Goes.get <| Goes.need fun f hf => Goes.ite (fun _ => Goes.raise _) fun _ =>
    Goes.ite (fun _ => Goes.raise _) fun h =>
      (bwrCopyLoop_recedes c hf (Nat.le_of_not_lt h)).mono fun _ _ ht => ⟨f, hf, Nat.le_of_not_lt h, ht⟩

/-! ## Space -/

/-- The writer that has moved on inside its span. -/
theorem fwr_pos_add {f : Fwr} {c : Nat} (h : f.pos.toNat + c ≤ f.stop.toNat) :
    (toWord (f.pos.toNat + c)).toNat = f.pos.toNat + c :=
  toWord_toNat_of_lt (h.trans_lt f.stop.isLt)

theorem bwr_pos_sub (f : Bwr) (c : Nat) : (toWord (f.pos.toNat - c)).toNat = f.pos.toNat - c :=
  toWord_toNat_of_lt ((Nat.sub_le _ _).trans_lt f.pos.isLt)

theorem Writes.room {c : Nat} {s t : State} (h : Writes c s t) : forwardRoom s = forwardRoom t + c := by
  obtain ⟨f, hf, hle, ht⟩ := h
  have hpos := fwr_pos_add hle
  rw [ht.state, forwardRoom_of hf, forwardRoom_of rfl]
  show _ = f.stop.toNat - (toWord (f.pos.toNat + c)).toNat + c
  omega

theorem Writes.onward {c : Nat} {s t : State} (h : Writes c s t) : Onward s t := by
  have hroom := h.room
  obtain ⟨f, hf, hle, ht⟩ := h
  have hpos := fwr_pos_add hle
  have hstate := ht.state
  refine ⟨?_, by omega, ?_, fun _ g hg => ?_, fun hw => ?_⟩
  · rw [hstate]; exact le_rfl
  · rw [hstate]; exact le_rfl
  · rw [hstate] at hg
    cases hg
    exact hpos.trans_le hle
  · rw [hstate]; exact hw

theorem Writes.lowers {c : Nat} {s t : State} (h : Writes c s t) (hc : 0 < c) : Lowers .forwardSpace s t :=
  ⟨h.onward, by have := h.room; show forwardRoom t < forwardRoom s; omega⟩

theorem WritesBack.room {c : Nat} {s t : State} (h : WritesBack c s t) : backwardRoom s = backwardRoom t + c := by
  obtain ⟨f, hf, hle, ht⟩ := h
  have hpos := bwr_pos_sub f c
  rw [ht.state, backwardRoom_of hf, backwardRoom_of rfl]
  show _ = (toWord (f.pos.toNat - c)).toNat - f.floor.toNat + c
  omega

theorem WritesBack.lowers {c : Nat} {s t : State} (h : WritesBack c s t) (hc : 0 < c) : Lowers .backwardSpace s t := by
  have hroom := h.room
  obtain ⟨f, hf, hle, ht⟩ := h
  have hstate := ht.state
  have hlt : backwardRoom t < backwardRoom s := by omega
  refine ⟨⟨?_, ?_, hlt.le, fun hs => ?_, fun hs => ?_⟩, hlt⟩
  · rw [hstate]; exact le_rfl
  · rw [hstate]; exact le_rfl
  · rw [hstate]; exact hs
  · rw [hstate]; exact hs

theorem fwrWrb_lowers (b : Byte) : Steady (Lowers .forwardSpace) (fwrWrb b) :=
  (fwrWrb_writes b).mono fun _ _ h => h.lowers one_pos

theorem fwrWrb_onward (b : Byte) : Steady Onward (fwrWrb b) := (fwrWrb_lowers b).onward

theorem fwrCopy_lowers (d : Nat) {c : Nat} (hc : 0 < c) : Steady (Lowers .forwardSpace) (fwrCopy d c) :=
  (fwrCopy_writes d c).mono fun _ _ h => h.lowers hc

theorem fwrCopyh_onward (d c : Nat) : Steady Onward (fwrCopyh d c) :=
  (fwrCopyh_writes d c).mono fun _ _ => Writes.onward

theorem fwrCopyh_lowers (d : Nat) {c : Nat} (hc : 0 < c) : Steady (Lowers .forwardSpace) (fwrCopyh d c) :=
  (fwrCopyh_writes d c).mono fun _ _ h => h.lowers hc

theorem bwrWrb_lowers (b : Byte) : Steady (Lowers .backwardSpace) (bwrWrb b) :=
  (bwrWrb_writes b).mono fun _ _ h => h.lowers one_pos

theorem bwrCopy_lowers (d : Nat) {c : Nat} (hc : 0 < c) : Steady (Lowers .backwardSpace) (bwrCopy d c) :=
  (bwrCopy_writes d c).mono fun _ _ h => h.lowers hc

theorem fwrEof_goes (s : State) :
    Goes (fun e t => t = s ∧ (e = true → forwardRoom s = 0) ∧ (e = false → WriterInside s → 0 < forwardRoom s))
      fwrEof s := by
  refine Goes.get (Goes.need fun f hf => Goes.pure ⟨rfl, fun he => ?_, fun he hin => ?_⟩)
  · rw [fwrEofFlag, beq_iff_eq] at he
    rw [forwardRoom_of hf, he, Nat.sub_self]
  · have hne : f.pos.toNat ≠ f.stop.toNat := fun h => by
      rw [fwrEofFlag, BitVec.eq_of_toNat_eq h, beq_self_eq_true] at he
      cases he
    have hle := hin f hf
    rw [forwardRoom_of hf]
    omega

theorem fwrRoom_goes (s : State) : Goes (fun room t => t = s ∧ room = forwardRoom s) fwrRoom s :=
  Goes.get (Goes.need fun _ hf => ⟨rfl, (forwardRoom_of hf).symm⟩)

theorem bwrEof_goes (s : State) : Goes (fun _ t => t = s) bwrEof s := Goes.get (Goes.need fun _ _ => rfl)

theorem bwrRoom_goes (s : State) : Goes (fun room t => t = s ∧ room = backwardRoom s) bwrRoom s :=
  Goes.get (Goes.need fun _ hf => ⟨rfl, (backwardRoom_of hf).symm⟩)

end Sys2Proof.Machine

end

section
/-! SUPPORT. No loop of BZ.BLOCK and of the sequencers is stuck (spec/43_decompress_common.md R243). -/

namespace Sys2Proof.Machine

/-! ## Loops -/

/-- The main loop of a sequencer: where every turn uses up some of a resource that bounds the turns, it goes on to its
end. `E` is what holds between the turns, and the condition that holds at a turn follows from it. -/
theorem turnLoop_goes {r : Resource} {E : State → Prop} {going turn : M Bool} {room : State → Prop}
    (hE : ∀ s t, Onward s t → E s → E t)
    (hgoing : ∀ s, E s → Goes (fun b t => t = s ∧ (b = true → room s)) going s)
    (hturn : ∀ s, E s → room s → Goes (fun _ t => Lowers r s t) turn s) (turns : Nat) {s : State} (hs : E s)
    (hfuel : r.left s < turns) : Goes (fun _ t => Onward s t) (turnLoop going turn turns) s := by
  induction turns generalizing s with
  | zero => exact absurd hfuel (Nat.not_lt_zero _)
  | succ turns ih =>
    refine (hgoing s hs).bind fun b t ⟨ht, hroom⟩ => ?_
    subst ht
    refine Goes.ite (fun hb => ?_) fun _ => Goes.pure (Onward.refl t)
    have hprogress : Goes (fun _ u => Lowers r t u) (progressing turn) t :=
      Goes.get <| (hturn t hs (hroom hb)).bind fun goesOn u hu => Goes.get <| Goes.ite
        (fun hstuck => absurd hu.workLeft_lt (by simp at hstuck; omega)) fun _ => Goes.pure hu
    refine hprogress.bind fun goesOn u hu => Goes.ite (fun _ => ?_) fun _ => Goes.pure hu.onward
    have hfuel' : r.left u < turns := Nat.lt_of_lt_of_le hu.2 (Nat.le_of_lt_succ hfuel)
    exact (ih (hE t u hu.onward hs) hfuel').mono fun _ _ => hu.onward.trans

theorem notEof_goes (s : State) :
    Goes (fun b t => t = s ∧ (b = true → WriterInside s → 0 < forwardRoom s)) (do return !(← fwrEof)) s :=
  (fwrEof_goes s).bind fun e _ ⟨ht, _, he⟩ => Goes.pure ⟨ht, fun h => he (by simpa using h)⟩

/-- The loop over the forward writer, whose turns use up some of a resource wherever they start. -/
theorem whileNotEof_goes {r : Resource} {turn : M Bool} (hturn : Steady (Lowers r) turn) {turns : Nat} {s : State}
    (hfuel : r.left s < turns) : Goes (fun _ t => Onward s t) (whileNotEof turn turns) s :=
  turnLoop_goes (E := fun _ => True) (fun _ _ _ => id) (fun s _ => notEof_goes s) (fun s _ _ => hturn s) turns trivial
    hfuel

/-! ## Setting up -/

theorem bitsReset_neverStuck (x : Word) (n : Nat) : NeverStuck (bitsReset x n) :=
  .of_goes (Q := fun _ _ _ => True) fun _ => trivial

theorem modify_neverStuck (f : State → State) : NeverStuck (modify f : M PUnit) :=
  .of_goes (Q := fun _ _ _ => True) fun _ => trivial

theorem macroEnd_neverStuck : NeverStuck macroEnd :=
  .of_goes (Q := fun _ _ _ => True) fun _ => trivial

theorem fcurSet_neverStuck (x y : Word) : NeverStuck (fcurSet x y) :=
  .of_goes (Q := fun _ _ _ => True) fun _ => Goes.get <| Goes.ite (fun _ => Goes.raise _) fun _ => trivial

theorem bcurSet_neverStuck (x y : Word) : NeverStuck (bcurSet x y) :=
  .of_goes (Q := fun _ _ _ => True) fun _ => Goes.get <| Goes.ite (fun _ => Goes.raise _) fun _ => trivial

theorem bwrSet_neverStuck (x y : Word) : NeverStuck (bwrSet x y) :=
  .of_goes (Q := fun _ _ _ => True) fun _ => Goes.get <| Goes.ite (fun _ => Goes.raise _) fun _ => trivial

theorem commonSetup_goes (s : State) : Goes (fun _ t => WriterInside t) commonSetup s :=
  Goes.of_ok (commonSetup_eq s) fun f hf => by cases hf; exact Nat.zero_le _

theorem commonSetup_neverStuck : NeverStuck commonSetup := .of_goes commonSetup_goes

theorem NeverStuck.bind {α β : Type} {x : M α} {f : α → M β} (hx : NeverStuck x) (hf : ∀ a, NeverStuck (f a)) :
    NeverStuck (x >>= f) :=
  .of_goes (Q := fun _ _ _ => True) fun _ => Goes.after hx fun a _ => Goes.of_neverStuck (hf a)

/-! ## BLZW -/

theorem lzwPush_onward (b : Byte) : Steady Onward (lzwPush b) :=
  fun _ => Goes.get <| Goes.need fun _ _ => Onward.of_same rfl rfl rfl rfl rfl

theorem emitWalk_onward (free room c : Nat) : Steady Onward (emitWalk free room c) := by
  induction room generalizing c with
  | zero => exact Steady.ite (Steady.pure _) (Steady.ite (Steady.raise _) (Steady.raise _))
  | succ room ih =>
    exact Steady.ite (Steady.pure _) <| Steady.ite (Steady.raise _) <| Steady.get.bind fun _ => (Steady.need _).bind fun _ =>
      (lzwPush_onward _).bind fun _ => Steady.get.bind fun _ => (Steady.need _).bind fun _ => ih _

theorem emitPops_onward (p : Nat) : Steady Onward (emitPops p) := by
  induction p with
  | zero => exact Steady.pure ()
  | succ p ih =>
    exact (Steady.modify).bind fun _ => Steady.get.bind fun _ =>
      (Steady.need _).bind fun _ => (fwrWrb_onward _).bind fun _ => ih

theorem emitChain_onward (code : Nat) : Steady Onward (emitChain code) :=
  Steady.ite (Steady.pure _) <| Steady.get.bind fun _ => (Steady.need _).bind fun _ => Steady.ite (Steady.raise _) <|
    Steady.get.bind fun _ => (Steady.need _).bind fun _ => emitWalk_onward _ _ _

theorem lzwEmit_onward (code : Nat) : Steady Onward (lzwEmit code) :=
  (Steady.modify).bind fun _ => (emitChain_onward code).bind fun _ =>
    Steady.ite (Steady.raise _) <| (lzwPush_onward _).bind fun _ =>
      (Steady.modify).bind fun _ => Steady.get.bind fun _ =>
        (Steady.need _).bind fun _ => emitPops_onward _

theorem lzwRestart_onward : Steady Onward lzwRestart :=
  Steady.get.bind fun _ => (Steady.need _).bind fun _ =>
    (Steady.modify (by exact fun _ => .of_width (n := 8) rfl rfl rfl rfl rfl)).bind fun _ => (rd_onward 9).bind fun _ =>
      Steady.ite (Steady.raise _) <| Steady.ite (Steady.raise _) <|
        (Steady.modify).bind fun _ => lzwEmit_onward _

theorem lzwInsert_onward : Steady Onward lzwInsert :=
  fun s => Goes.get <| Goes.need fun _ _ => Goes.need fun _ _ => Goes.ite
    (fun _ => Goes.need fun _ _ => Goes.need fun _ _ => Onward.of_same rfl rfl rfl rfl rfl)
    fun _ => Goes.pure (Onward.refl s)

theorem lzwOutput_onward (code free : Nat) : Steady Onward (lzwOutput code free) :=
  Steady.ite
    (Steady.get.bind fun _ => (Steady.need _).bind fun _ => Steady.get.bind fun _ => (Steady.need _).bind fun _ =>
      (lzwEmit_onward _).bind fun _ => fwrWrb_onward _)
    (lzwEmit_onward _)

/-- A step reads a code, which has at least one bit. -/
theorem lzwStep_goes {s : State} (hs : WidthPositive s) : Goes (fun _ t => Lowers .input s t) lzwStep s :=
  Goes.get <| Goes.need fun n hn => ((rd_lowers (hs n hn)).first fun _ => Steady.ite (Steady.raise _) <|
    Steady.ite (lzwRestart_onward.bind fun _ => Steady.pure _) <| Steady.ite
      ((Steady.modify (by exact fun _ => .of_width rfl rfl rfl rfl rfl)).bind fun _ => Steady.pure _)
      (Steady.get.bind fun _ => (Steady.need _).bind fun _ => Steady.ite (Steady.raise _) <|
        (lzwOutput_onward _ _).bind fun _ => lzwInsert_onward.bind fun _ => (Steady.modify).bind fun _ =>
          Steady.pure _)) s

theorem blzwLoop_goes {s : State} (hs : WidthPositive s) :
    Goes (fun _ t => Onward s t) (whileNotEof (do let _ ← lzwStep; pure true) (unreadBits s + 1)) s :=
  turnLoop_goes (r := .input) (fun _ _ h => h.width) (fun s _ => notEof_goes s)
    (fun _ hs _ => (lzwStep_goes hs).bind fun _ _ h => Goes.pure h) _ hs (Nat.lt_succ_self _)

theorem lzwSetup_goes (m n : Nat) (s : State) : Goes (fun _ t => WidthPositive t) (lzwSetup m n) s :=
  Goes.ite (fun _ => Goes.raise _) fun _ => Goes.ite (fun _ => Goes.raise _) fun _ _ h => nomatch h

theorem blzwSequence_neverStuck : NeverStuck blzwSequence :=
  commonSetup_neverStuck.bind fun _ => (modify_neverStuck _).bind fun _ => (fcurConsume_onward 4).neverStuck.bind fun _ =>
    (chunkByte_onward _).neverStuck.bind fun _ => (chunkByte_onward _).neverStuck.bind fun _ =>
      (chunkByte_onward _).neverStuck.bind fun _ => (chunkByte_onward _).neverStuck.bind fun _ =>
        .of_goes (Q := fun _ _ _ => True) fun s => (lzwSetup_goes _ _ s).bind fun _ t ht =>
          (lzwRestart_onward t).bind fun _ _ hu => Goes.get <| (blzwLoop_goes (hu.width ht)).bind fun _ _ _ =>
            Goes.of_neverStuck macroEnd_neverStuck

/-! ## BZP2 -/

theorem mtfInit_onward (l : MtfStore) (n : Nat) : Steady Onward (mtfInit l n) :=
  Steady.ite (Steady.raise _) (Steady.modify fun _ => by cases l <;> exact .of_same rfl rfl rfl rfl rfl)

theorem mtfAccess_onward (l : MtfStore) (j : Nat) : Steady Onward (mtfAccess l j) := by
  refine Steady.get.bind fun _ => (Steady.need _).bind fun xs => ?_
  cases xs[j]? with
  | none => exact Steady.raise _
  | some e =>
    exact (Steady.modify fun _ => by cases l <;> exact .of_same rfl rfl rfl rfl rfl).bind fun _ => Steady.pure e

theorem readDetails_onward (used left : Nat) : Steady Onward (readDetails used left) := by
  induction left with
  | zero => exact Steady.pure _
  | succ left ih =>
    exact Steady.ite ((rd_onward 16).bind fun _ => ih.bind fun _ => Steady.pure _) ih

theorem readSymbolMap_onward : Steady Onward readSymbolMap := (rd_onward 16).bind fun _ => readDetails_onward _ 16

theorem readSelectors_onward (g left : Nat) : Steady Onward (readSelectors g left) := by
  induction left with
  | zero => exact Steady.pure _
  | succ left ih =>
    exact (hufDecode_lowers _).onward.bind fun _ => (mtfAccess_onward _ _).bind fun _ =>
      Steady.ite (Steady.raise _) (ih.bind fun _ => Steady.pure _)

/-- Every delta takes a bit, so the turns do not run out. -/
theorem readDeltas_goes (turns cur : Nat) {s : State} (h : unreadBits s < turns) :
    Goes (fun _ t => Onward s t) (readDeltas turns cur) s := by
  induction turns generalizing cur s with
  | zero => exact absurd h (Nat.not_lt_zero _)
  | succ turns ih =>
    refine Goes.ite (fun _ => Goes.raise _) fun _ => (hufDecode_lowers _ s).bind fun dl t ht => ?_
    have hgo (cur : Nat) : Goes (fun _ u => Onward s u) (readDeltas turns cur) t :=
      (ih cur (Nat.lt_of_lt_of_le ht.2 (Nat.le_of_lt_succ h))).mono fun _ _ => ht.onward.trans
    exact Goes.ite (fun _ => Goes.pure ht.onward) fun _ => Goes.ite (fun _ => hgo _) fun _ => hgo _

theorem readLengths_onward (left i cur : Nat) : Steady Onward (readLengths left i cur) := by
  induction left generalizing i cur with
  | zero => exact Steady.pure _
  | succ left ih =>
    exact fun s => Goes.get <| (readDeltas_goes _ cur (Nat.lt_succ_self _)).onward fun len =>
      (writeLenm_onward i _).bind fun _ => ih (i + 1) len

theorem readGroups_onward (c : Config) (nItems left t : Nat) : Steady Onward (readGroups c nItems left t) := by
  induction left generalizing t with
  | zero => exact Steady.pure _
  | succ left ih =>
    exact (rd_onward 5).bind fun _ => (readLengths_onward _ _ _).bind fun _ => (hufBuild_onward _ _ _).bind fun _ => ih _

theorem checkCapacity_onward (n : Nat) : Steady Onward (checkCapacity n) :=
  Steady.get.bind fun _ => (Steady.need _).bind fun _ => Steady.ite (Steady.raise _) (Steady.pure _)

theorem appendRun_onward (run : Nat) : Steady Onward (appendRun run) :=
  Steady.ite
    (Steady.get.bind fun _ => (Steady.need _).bind fun _ => (checkCapacity_onward _).bind fun _ =>
      (Steady.need _).bind fun _ => (Steady.need _).bind fun _ => (Steady.need _).bind fun _ =>
        (Steady.need _).bind fun _ => Steady.modify)
    (Steady.pure _)

theorem flushRun_onward : Steady Onward flushRun :=
  Steady.get.bind fun _ => (Steady.need _).bind fun _ => (appendRun_onward _).bind fun _ => Steady.modify

theorem runSymbol_onward (sym : Nat) : Steady Onward (runSymbol sym) :=
  fun _ => Goes.get <| Goes.need fun _ _ => Goes.need fun _ _ =>
    Goes.onward (x := set _) (Onward.of_same rfl rfl rfl rfl rfl) fun _ => checkCapacity_onward _

theorem literalSymbol_onward (sym : Nat) : Steady Onward (literalSymbol sym) :=
  flushRun_onward.bind fun _ => (mtfAccess_onward _ _).bind fun _ => Steady.get.bind fun _ => (Steady.need _).bind fun _ =>
    (checkCapacity_onward _).bind fun _ => (Steady.need _).bind fun _ => (Steady.need _).bind fun _ => Steady.modify

theorem bodySymbol_onward (sym : Nat) : Steady Onward (bodySymbol sym) :=
  Steady.ite (runSymbol_onward sym) (literalSymbol_onward sym)

/-- A turn of the body: a symbol takes a bit, so what follows it has a turn less to make and at least a bit less to
read. -/
theorem readBody_turn {nItems turns : Nat} {slot : Fin 16} {rest : M Unit} {s : State} (h : unreadBits s < turns + 1)
    (hrest : ∀ t, unreadBits t < turns → Goes (fun _ u => Onward t u) rest t) :
    Goes (fun _ t => Onward s t) (do
      let sym ← hufDecode slot .group8
      if sym.toNat = nItems - 1 then pure ()
      else
        bodySymbol sym.toNat
        rest) s :=
  (hufDecode_lowers slot s).bind fun sym t ht => Goes.ite (fun _ => Goes.pure ht.onward) fun _ =>
    (bodySymbol_onward sym.toNat t).bind fun _ u hu =>
      have hlow := ht.trans_onward hu
      (hrest u (Nat.lt_of_lt_of_le hlow.2 (Nat.le_of_lt_succ h))).mono fun _ _ => hlow.onward.trans

theorem readBody_goes (nItems turns : Nat) (sels : List Nat) (tbl left : Nat) {s : State} (h : unreadBits s < turns) :
    Goes (fun _ t => Onward s t) (readBody nItems turns sels tbl left) s := by
  induction turns generalizing sels tbl left s with
  | zero => exact absurd h (Nat.not_lt_zero _)
  | succ turns ih =>
    cases left with
    | zero =>
      cases sels with
      | nil => exact Goes.raise _
      | cons g rest => exact readBody_turn h fun _ => ih _ _ _
    | succ left => exact readBody_turn h fun _ => ih _ _ _

theorem readBlockHeader_onward : Steady Onward readBlockHeader :=
  (rd_onward 32).bind fun _ => (rd_onward 1).bind fun _ => (Steady.modify).bind fun _ => (rd_onward 24).bind fun _ =>
    (Steady.modify).bind fun _ => readSymbolMap_onward.bind fun _ => (Steady.modify).bind fun _ =>
      Steady.ite (Steady.raise _) <| (rd_onward 3).bind fun _ => (Steady.modify).bind fun _ =>
        Steady.ite (Steady.raise _) <| (rd_onward 15).bind fun _ => (Steady.modify).bind fun _ =>
          Steady.ite (Steady.raise _) <| (mtfInit_onward _ _).bind fun _ => (readSelectors_onward _ _).bind fun _ =>
            (Steady.modify).bind fun _ => Steady.pure _

theorem readBlock_onward (c : Config) : Steady Onward (readBlock c) :=
  readBlockHeader_onward.bind fun _ => Steady.get.bind fun _ => (Steady.need _).bind fun _ =>
    (readGroups_onward _ _ _ _).bind fun _ => (mtfInit_onward _ _).bind fun _ => Steady.get.bind fun _ =>
      (Steady.need _).bind fun _ => (Steady.modify).bind fun _ => fun _ => Goes.get <| Goes.need fun _ _ =>
        (readBody_goes _ _ _ _ _ (Nat.lt_succ_self _)).onward fun _ => flushRun_onward.bind fun _ =>
          Steady.get.bind fun _ => (Steady.need _).bind fun _ => (Steady.need _).bind fun _ =>
            Steady.ite (Steady.raise _) (Steady.pure _)

theorem Steady.raiseChecksum {α : Type} {R : State → State → Prop} : Steady R (raiseChecksum : M α) := by
  intro s
  rw [Goes, raiseChecksum_apply]
  exact nofun

/-- A block, or the end marker, takes bits or raises. -/
theorem bzBlock_lowers (c : Config) : Steady (Lowers .input) (bzBlock c) :=
  (rd_lowers (by decide)).first fun _ => (rd_onward 16).bind fun _ => Steady.ite
    ((rd_onward 32).bind fun _ => Steady.get.bind fun _ => (Steady.need _).bind fun _ =>
      Steady.ite Steady.raiseChecksum (Steady.pure _))
    (Steady.ite ((readBlock_onward c).bind fun _ => Steady.pure _) (Steady.raise _))

theorem derandomise_onward (c : Config) (b : Byte) : Steady Onward (derandomise c b) :=
  fun s => Goes.get <| Goes.need fun _ _ => Goes.ite
    (fun _ => Goes.need fun _ _ => Goes.need fun _ _ => Onward.of_same rfl rfl rfl rfl rfl)
    fun _ => Goes.pure (Onward.refl s)

theorem writeTimes_onward (b : Byte) (k : Nat) : Steady Onward (writeTimes b k) := by
  induction k with
  | zero => exact Steady.pure _
  | succ k ih => exact (fwrWrb_onward b).bind fun _ => ih

theorem finalRle_onward (b : Byte) : Steady Onward (finalRle b) :=
  Steady.get.bind fun _ => (Steady.need _).bind fun _ => Steady.ite
    ((Steady.need _).bind fun _ => (writeTimes_onward _ _).bind fun _ => Steady.modify)
    (Steady.ite ((fwrWrb_onward _).bind fun _ => Steady.modify) ((Steady.modify).bind fun _ => fwrWrb_onward _))

theorem unbwtWalk_onward (c : Config) (blk : List Byte) (fwd : List Nat) (left p : Nat) :
    Steady Onward (unbwtWalk c blk fwd left p) := by
  induction left generalizing p with
  | zero => exact Steady.pure _
  | succ left ih =>
    exact (Steady.need _).bind fun _ => (Steady.need _).bind fun _ => (derandomise_onward c _).bind fun _ =>
      (finalRle_onward _).bind fun _ => ih _

theorem unbwtBlock_onward (c : Config) (blk : List Byte) : Steady Onward (unbwtBlock c blk) :=
  Steady.ite
    ((Steady.modify).bind fun _ => Steady.get.bind fun _ => (Steady.need _).bind fun _ => (Steady.modify).bind fun _ =>
      unbwtWalk_onward _ _ _ _ _)
    (Steady.pure _)

theorem bzUnbwt_onward (c : Config) : Steady Onward (bzUnbwt c) :=
  Steady.get.bind fun _ => (Steady.need _).bind fun _ => (Steady.need _).bind fun _ => (unbwtBlock_onward c _).bind fun _ =>
    fun _ => Goes.get <| Goes.need fun _ _ => Goes.need fun _ _ => Goes.need fun _ _ =>
      Onward.of_same rfl rfl rfl rfl rfl

/-- Every turn of the block loop takes bits, so the turns do not run out. -/
theorem bzp2Loop_goes (c : Config) (turns : Nat) {s : State} (h : unreadBits s < turns) :
    Goes (fun _ t => Onward s t) (bzp2Loop c turns) s := by
  induction turns generalizing s with
  | zero => exact absurd h (Nat.not_lt_zero _)
  | succ turns ih =>
    refine (bzBlock_lowers c s).bind fun b t ht => Goes.ite (fun _ => ?_) fun _ => Goes.pure ht.onward
    refine (bzUnbwt_onward c t).bind fun _ u hu => ?_
    have hlow := ht.trans_onward hu
    exact (ih (Nat.lt_of_lt_of_le hlow.2 (Nat.le_of_lt_succ h))).mono fun _ _ => hlow.onward.trans

theorem headerLetter_onward (a : Nat) (letter : Byte) : Steady Onward (headerLetter a letter) :=
  (chunkByte_onward a).bind fun _ => Steady.ite (Steady.raise _) (Steady.pure _)

theorem bzStart_onward (n : Nat) : Steady Onward (bzStart n) :=
  Steady.ite (Steady.raise _) <| (Steady.modify).bind fun _ => (setSlot_onward _ _).bind fun _ => setSlot_onward _ _

theorem fwrEof_neverStuck : NeverStuck fwrEof := .of_goes fwrEof_goes

theorem bzp2Sequence_neverStuck (c : Config) : NeverStuck (bzp2Sequence c) :=
  commonSetup_neverStuck.bind fun _ => (modify_neverStuck _).bind fun _ => (fcurConsume_onward 4).neverStuck.bind fun _ =>
    (headerLetter_onward _ _).neverStuck.bind fun _ => (headerLetter_onward _ _).neverStuck.bind fun _ =>
      (headerLetter_onward _ _).neverStuck.bind fun _ => (chunkByte_onward _).neverStuck.bind fun _ =>
        .of_goes (Q := fun _ _ _ => True) fun _ => Goes.ite (fun _ => Goes.raise _) fun _ =>
          (bzStart_onward _ _).bind fun _ _ _ => Goes.get <| (bzp2Loop_goes c _ (Nat.lt_succ_self _)).bind fun _ _ _ =>
            Goes.after fwrEof_neverStuck fun _ _ => Goes.ite (fun _ => Goes.of_neverStuck macroEnd_neverStuck)
              fun _ => Goes.raise _

/-! ## LHLB and MASH -/

theorem readDhuf_onward : Steady Onward readDhuf :=
  Steady.get.bind fun _ => (Steady.need _).bind fun _ => Steady.ite (Steady.raise _)
    ((Steady.need _).bind fun _ => Steady.pure _)

theorem dhufDecode_onward (c : Config) : Steady Onward (dhufDecode c .group8) :=
  readDhuf_onward.bind fun _ => (decodeFrom_lowers _).onward

theorem dhufInit_onward (c : Config) (n : Word) : Steady Onward (dhufInit c n) :=
  Steady.ite (Steady.raise _) Steady.modify

theorem lhlbUpdate_onward (c : Config) (sym : Nat) : Steady Onward (lhlbUpdate c sym) :=
  (readDhuf_onward.bind fun _ => Steady.pure _).bind fun _ => Steady.ite
    (readDhuf_onward.bind fun _ => Steady.ite (Steady.raise _) Steady.modify) (Steady.pure _)

/-- A turn of LHLB writes a byte, or copies at least one, or raises. -/
theorem lhlbTurn_lowers (c : Config) : Steady (Lowers .forwardSpace) (lhlbTurn c) := by
  refine (dhufDecode_onward c).later fun sym => (lhlbUpdate_onward c _).later fun _ =>
    Steady.ite ((fwrWrb_lowers _).first fun _ => Steady.pure _) <| Steady.ite (Steady.raise _) ?_
  split
  · exact (runField_onward _).later fun d => (fwrCopy_lowers _ (c.lhlbCount _).pos).first fun _ => Steady.pure _
  · exact Steady.raise _

/-- The loop of a sequencer whose turns write, and its end. -/
theorem roomLoop_neverStuck {turn : M Bool} (hturn : Steady (Lowers .forwardSpace) turn) :
    NeverStuck (do
      let room ← fwrRoom
      whileNotEof turn (room + 1)
      macroEnd) :=
  .of_goes (Q := fun _ _ _ => True) fun s => (fwrRoom_goes s).bind fun _ _ ⟨ht, hroom⟩ =>
    (whileNotEof_goes hturn (ht ▸ hroom ▸ Nat.lt_succ_self (forwardRoom s))).bind fun _ _ _ => Goes.of_neverStuck macroEnd_neverStuck

theorem lhlbSequence_neverStuck (c : Config) : NeverStuck (lhlbSequence c) :=
  commonSetup_neverStuck.bind fun _ => (modify_neverStuck _).bind fun _ => (dhufInit_onward c _).neverStuck.bind fun _ =>
    roomLoop_neverStuck (lhlbTurn_lowers c)

theorem mashLiterals_onward (c : Config) (n : Nat) : Steady Onward (mashLiterals c n) := by
  induction n with
  | zero => exact Steady.pure _
  | succ n ih => exact (runField_onward _).bind fun _ => (fwrWrb_onward _).bind fun _ => ih

/-- A run of MASH fills the output or writes some of it. -/
def Fills (s t : State) : Prop := Onward s t ∧ (forwardRoom t = 0 ∨ forwardRoom t < forwardRoom s)

theorem Onward.trans_fills {s t u : State} (h : Onward s t) (h' : Fills t u) : Fills s u :=
  ⟨h.trans h'.1, h'.2.imp_right fun hlt => hlt.trans_le h.forward⟩

/-- The match, whose count is clamped to the space, fills the output or writes some of it; without one the output must be
full. -/
theorem mashMatchEnd_fills (m : MashMatch) : Steady Fills (mashMatchEnd m) := by
  refine fun s => (fwrEof_goes s).bind fun e t ⟨ht, hfull, _⟩ => Goes.ite
    (fun _ => Goes.ite (fun he => ?_) fun _ => Goes.raise _) fun _ => (fwrRoom_goes t).bind fun room u ⟨hu, hroom⟩ => ?_
  · exact Goes.pure ⟨ht ▸ Onward.refl s, .inl (ht ▸ hfull he)⟩
  · subst ht hu
    refine Goes.ite (fun hpos => ?_) fun h0 => ?_
    · exact (fwrCopy_lowers _ hpos u).bind fun _ _ h => Goes.pure ⟨h.1, .inr h.2⟩
    · have hcount : 0 < mashCount m := Nat.succ_pos _
      exact Goes.pure ⟨Onward.refl u, .inl (by omega)⟩

theorem mashTurn_fills (c : Config) : Steady Fills (mashTurn c) :=
  fun s => (runField_onward _ s).bind fun n t ht => (mashLiterals_onward c n t).bind fun _ u hu =>
    (runField_onward _ u).bind fun m v hv =>
      (mashMatchEnd_fills m v).mono fun _ _ => (ht.trans (hu.trans hv)).trans_fills

/-- While there is space, a turn of MASH writes some of it. -/
theorem mashLoop_goes (c : Config) {s : State} (hs : WriterInside s) {turns : Nat} (h : forwardRoom s < turns) :
    Goes (fun _ t => Onward s t) (whileNotEof (mashTurn c) turns) s :=
  turnLoop_goes (r := .forwardSpace) (E := WriterInside) (room := fun s => 0 < forwardRoom s) (fun _ _ h => h.inside)
    (fun s hs => (notEof_goes s).mono fun _ _ ⟨ht, hroom⟩ => ⟨ht, fun hb => hroom hb hs⟩)
    (fun s _ hroom => (mashTurn_fills c s).mono fun _ _ ⟨ht, hfills⟩ =>
      ⟨ht, hfills.elim (fun h0 => h0.trans_lt hroom) id⟩) turns hs h

theorem mashSequence_neverStuck (c : Config) : NeverStuck (mashSequence c) :=
  .of_goes (Q := fun _ _ _ => True) fun s => (commonSetup_goes s).bind fun _ t ht =>
    (hufClear_onward 0 t).bind fun _ u hu => (fwrRoom_goes u).bind fun _ _ ⟨hv, hroom⟩ =>
      (mashLoop_goes c (hv ▸ hu.inside ht) (hv ▸ hroom ▸ Nat.lt_succ_self (forwardRoom u))).bind fun _ _ _ =>
        Goes.of_neverStuck macroEnd_neverStuck

/-! ## RAKE, SMPL and SQSH -/

theorem rakeLengths_onward (c : Config) (left : Nat) : Steady Onward (rakeLengths c left) := by
  induction left with
  | zero => exact Steady.pure _
  | succ left ih => exact (writeLenm_onward _ _).bind fun _ => ih

theorem rakeReadDistance_onward (c : Config) : Steady Onward (rakeReadDistance c) :=
  (runField_onward _).bind fun _ => (rd_onward _).bind fun _ => bcurRdb_onward.bind fun _ => Steady.pure _

/-- A turn of RAKE writes a byte, or copies at least two, or raises. -/
theorem rakeTurn_lowers (c : Config) : Steady (Lowers .backwardSpace) (rakeTurn c) :=
  (rd_onward 1).later fun _ => Steady.ite
    (bcurRdb_onward.later fun b => (bwrWrb_lowers b).first fun _ => Steady.pure _)
    ((hufDecode_lowers 0).onward.later fun _ => (rakeReadDistance_onward c).later fun d =>
      (bwrCopy_lowers d (Nat.succ_pos _)).first fun _ => Steady.pure _)

theorem rakeSetup_neverStuck : NeverStuck rakeSetup :=
  (modify_neverStuck _).bind fun _ => Steady.get.neverStuck.bind fun _ => (bwrSet_neverStuck _ _).bind fun _ =>
    (fcurSet_neverStuck _ _).bind fun _ => (bitsReset_neverStuck _ _).bind fun _ => (hufClear_onward 0).neverStuck

theorem rakePlace_neverStuck (h : RakeHeader) : NeverStuck (rakePlace h) :=
  Steady.get.neverStuck.bind fun _ => (bcurSet_neverStuck _ _).bind fun _ => (fcurSet_neverStuck _ _).bind fun _ =>
    bitsReset_neverStuck _ _

theorem rakeLoop_goes (c : Config) {s : State} {turns : Nat} (h : backwardRoom s < turns) :
    Goes (fun _ t => Onward s t) (turnLoop (do return !(← bwrEof)) (rakeTurn c) turns) s :=
  turnLoop_goes (r := .backwardSpace) (E := fun _ => True) (room := fun _ => True) (fun _ _ _ => id)
    (fun s _ => (bwrEof_goes s).bind fun _ _ ht => Goes.pure ⟨ht, fun _ => trivial⟩) (fun s _ _ => rakeTurn_lowers c s)
    turns trivial h

theorem raise_neverStuck {α : Type} (c : Cause) : NeverStuck (raise c : M α) :=
  (Steady.raise (R := Onward) c).neverStuck

theorem rakeRoomLoop_neverStuck (c : Config) :
    NeverStuck (do
      let room ← bwrRoom
      turnLoop (do return !(← bwrEof)) (rakeTurn c) (room + 1)
      macroEnd) :=
  .of_goes (Q := fun _ _ _ => True) fun s => (bwrRoom_goes s).bind fun _ _ ⟨ht, hroom⟩ =>
    (rakeLoop_goes c (ht ▸ hroom ▸ Nat.lt_succ_self (backwardRoom s))).bind fun _ _ _ =>
      Goes.of_neverStuck macroEnd_neverStuck

theorem rakeSequence_neverStuck (c : Config) : NeverStuck (rakeSequence c) := by
  refine rakeSetup_neverStuck.bind fun _ => chunkBytes_onward.neverStuck.bind fun bytes => ?_
  cases c.rakeHeader bytes with
  | none => exact raise_neverStuck _
  | some h =>
    exact (rakePlace_neverStuck h).bind fun _ => (rakeLengths_onward c _).neverStuck.bind fun _ =>
      (hufBuild_onward c 0 _).neverStuck.bind fun _ => rakeRoomLoop_neverStuck c

theorem smplLength_onward : Steady Onward smplLength :=
  (rd_onward 4).bind fun _ => Steady.ite ((rd_onward 4).bind fun _ => Steady.pure _) (Steady.pure _)

theorem smplExplicit_onward (c : Config) (left : Nat) : Steady Onward (smplExplicit c left) := by
  induction left with
  | zero => exact Steady.pure _
  | succ left ih =>
    exact smplLength_onward.bind fun _ => Steady.ite ih <| (rd_onward _).bind fun _ =>
      (hufInsert_onward _ _ _ _ _).bind fun _ => ih

theorem smplLengths_onward (left : Nat) : Steady Onward (smplLengths left) := by
  induction left with
  | zero => exact Steady.pure _
  | succ left ih => exact smplLength_onward.bind fun _ => (writeLenm_onward _ _).bind fun _ => ih

theorem smplTable_onward (c : Config) : Steady Onward (smplTable c) := by
  refine (hufClear_onward 0).bind fun _ => ?_
  cases c.smplTableMode with
  | explicit => exact smplExplicit_onward c 256
  | canonical => exact (smplLengths_onward 256).bind fun _ => hufBuild_onward c 0 256

/-- A turn of SMPL writes a byte or raises. -/
theorem smplTurn_lowers : Steady (Lowers .forwardSpace) smplTurn :=
  (hufDecode_lowers 0).onward.later fun _ => Steady.get.later fun _ => (Steady.need _).later fun _ =>
    (Steady.modify).later fun _ => (fwrWrb_lowers _).first fun _ => Steady.pure _

theorem smplSequence_neverStuck (c : Config) : NeverStuck (smplSequence c) := by
  refine commonSetup_neverStuck.bind fun _ => (modify_neverStuck _).bind fun _ =>
    chunkBytes_onward.neverStuck.bind fun bytes => ?_
  cases c.smplHeader bytes with
  | none => exact raise_neverStuck _
  | some fstart =>
    exact Steady.get.neverStuck.bind fun _ => (fcurSet_neverStuck _ _).bind fun _ =>
      (smplTable_onward c).neverStuck.bind fun _ => (modify_neverStuck _).bind fun _ => roomLoop_neverStuck smplTurn_lowers

theorem sqshCount_pos (k : Fin 5) (extra : Nat) : 0 < sqshLenBase k + extra := by
  have : 0 < sqshLenBase k := by revert k; decide
  omega

/-- A repeat of SQSH copies at least two bytes or raises. -/
theorem sqshRepeat_lowers (c : Config) : Steady (Lowers .forwardSpace) (sqshRepeat c) :=
  (runField_onward _).later fun k => (rd_onward _).later fun extra => (runField_onward _).later fun _ =>
    (rd_onward _).later fun _ => (fwrCopy_lowers _ (sqshCount_pos k extra)).first fun _ => Steady.ite
      (Steady.get.bind fun _ => (Steady.need _).bind fun _ => (Steady.need _).bind fun _ => Steady.modify)
      (Steady.pure _)

theorem sqshLiterals_onward (w left : Nat) : Steady Onward (sqshLiterals w left) := by
  induction left with
  | zero => exact Steady.pure _
  | succ left ih =>
    exact (rd_onward _).bind fun _ => Steady.get.bind fun _ => (Steady.need _).bind fun _ => (Steady.modify).bind fun _ =>
      (fwrWrb_onward _).bind fun _ => ih

/-- A run of at least one literal writes. -/
theorem sqshLiterals_lowers (w left : Nat) : Steady (Lowers .forwardSpace) (sqshLiterals w (left + 1)) :=
  (rd_onward _).later fun _ => Steady.get.later fun _ => (Steady.need _).later fun _ => (Steady.modify).later fun _ =>
    (fwrWrb_lowers _).first fun _ => sqshLiterals_onward w left

theorem sqshTurn_lowers (c : Config) : Steady (Lowers .forwardSpace) (sqshTurn c) := by
  refine Steady.get.later fun _ => (Steady.need _).later fun q => (runField_onward _).later fun (q', mode) =>
    (Steady.modify).later fun _ => ?_
  cases mode with
  | repeated => exact (sqshRepeat_lowers c).first fun _ => Steady.pure _
  | literal w run =>
    obtain ⟨run, hrun⟩ := run
    cases run with
    | zero => exact absurd hrun (lt_irrefl 0)
    | succ run => exact (sqshLiterals_lowers _ run).first fun _ => Steady.pure _

theorem sqshFirstByte_onward (c : Config) : Steady Onward (sqshFirstByte c) :=
  fun s => (fwrEof_goes s).bind fun _ _ ⟨ht, _⟩ => ht ▸ (Steady.ite (Steady.pure _) ((runField_onward _).bind fun _ =>
    (Steady.modify).bind fun _ => fwrWrb_onward _)) s

theorem sqshSequence_neverStuck (c : Config) : NeverStuck (sqshSequence c) := by
  refine commonSetup_neverStuck.bind fun _ => (hufClear_onward 0).neverStuck.bind fun _ =>
    (hufClear_onward 1).neverStuck.bind fun _ => (hufClear_onward 2).neverStuck.bind fun _ =>
      (modify_neverStuck _).bind fun _ => chunkBytes_onward.neverStuck.bind fun bytes => ?_
  cases c.sqshHeader bytes with
  | none => exact raise_neverStuck _
  | some fstart =>
    exact Steady.get.neverStuck.bind fun _ => (fcurSet_neverStuck _ _).bind fun _ =>
      (sqshFirstByte_onward c).neverStuck.bind fun _ => (modify_neverStuck _).bind fun _ =>
        roomLoop_neverStuck (sqshTurn_lowers c)

/-! ## SHRI -/

theorem runStream_onward {α : Type} (tree : BitTree (Option α)) : Steady Onward (runStream tree) :=
  (runField_onward tree).bind fun o => by
    cases o with
    | none => exact Steady.raise _
    | some a => exact Steady.pure a

/-- A stream function that reads no bit answers what its tree holds. -/
theorem runStream_goes {α : Type} (tree : BitTree (Option α)) (s : State) :
    Goes (fun x t => Lowers .input s t ∨ t = s ∧ tree = .leaf (some x)) (runStream tree) s := by
  cases tree with
  | leaf o =>
    cases o with
    | none => exact Goes.raise _
    | some a => exact Goes.of_ok (t := s) (a := a) rfl (.inr ⟨rfl, rfl⟩)
  | node z o =>
    refine Goes.bind (runField_node_lowers z o s) fun x t ht => ?_
    cases x with
    | none => exact Goes.raise _
    | some a => exact Goes.pure (.inl ht)

theorem readAri_goes (s : State) : Goes (fun a t => t = s ∧ s.ari = some a) readAri s :=
  Goes.get <| Goes.ite (fun _ => by
    cases h : s.ari with
    | none => exact Goes.raise _
    | some a => exact Goes.pure ⟨rfl, rfl⟩) fun _ => Goes.raise _

theorem readAri_onward : Steady Onward readAri :=
  fun s => (readAri_goes s).mono fun _ _ h => h.1 ▸ Onward.refl s

theorem setAri_onward (a : Ari) : Steady Onward (setAri a) := Steady.modify

/-- Decoding a symbol takes a bit, or its tree is the symbol itself. -/
theorem ariDecsym_goes (c : Config) (s : State) :
    Goes (fun sym t => Lowers .input s t ∨ Onward s t ∧ ∃ a r, c.shriDecodeSymbol a = .leaf (some (r, sym)) ∧
      t.ari = some { a with toAriRegs := r }) (ariDecsym c) s :=
  (readAri_goes s).bind fun a t ⟨ht, _⟩ => (runStream_goes _ t).bind fun (r, sym) u hu => by
    subst ht
    rcases hu with hu | ⟨rfl, htree⟩
    · exact .inl (hu.trans_onward (.of_same rfl rfl rfl rfl rfl))
    · exact .inr ⟨.of_same rfl rfl rfl rfl rfl, a, r, htree, rfl⟩

theorem ariUpdate_goes (c : Config) (sym : Fin 499) (s : State) :
    Goes (fun _ t => Onward s t ∧ ∀ a, s.ari = some a → t.ari = some (c.shriUpdate a sym)) (ariUpdate c sym.val) s :=
  (readAri_goes s).bind fun a t ⟨ht, ha⟩ => by
    subst ht
    rw [dif_pos sym.isLt]
    refine ⟨.of_same rfl rfl rfl rfl rfl, fun a' ha' => ?_⟩
    rw [ha] at ha'
    cases ha'
    rfl

theorem ariUpdate_onward (c : Config) (sym : Fin 499) : Steady Onward (ariUpdate c sym.val) :=
  fun s => (ariUpdate_goes c sym s).mono fun _ _ h => h.1

/-- Reading a field takes a bit, or its tree is the value itself. -/
theorem ariGetcode_goes (c : Config) (n : Nat) (s : State) :
    Goes (fun v t => Lowers .input s t ∨ Onward s t ∧ ∀ a, s.ari = some a → ∃ a' w,
      c.shriGetCode a n = .leaf (some (a', w)) ∧ v = w.toNat ∧ t.ari = some a') (ariGetcode c n) s :=
  (readAri_goes s).bind fun a t ⟨ht, ha⟩ => (runStream_goes _ t).bind fun (a', w) u hu => by
    subst ht
    rcases hu with hu | ⟨rfl, htree⟩
    · exact .inl (hu.trans_onward (.of_same rfl rfl rfl rfl rfl))
    · refine .inr ⟨.of_same rfl rfl rfl rfl rfl, fun b hb => ⟨a', w, ?_, rfl, rfl⟩⟩
      rw [ha] at hb
      cases hb
      exact htree

theorem ariGetcode_onward (c : Config) (n : Nat) : Steady Onward (ariGetcode c n) :=
  fun s => (ariGetcode_goes c n s).mono fun _ _ h => h.elim Lowers.onward And.left

theorem runMatch_onward (c : Config) (p : MatchProg) : Steady Onward (runMatch c p) := by
  induction p with
  | done result =>
    cases result with
    | none => exact Steady.raise _
    | some r => exact Steady.pure r
  | getCode a n next ih => exact (runStream_onward _).bind fun x => ih x.1 x.2

theorem ariMatch_onward (c : Config) (sym : Fin 499) : Steady Onward (ariMatch c sym) :=
  readAri_onward.bind fun _ => (runMatch_onward c _).bind fun _ => (setAri_onward _).bind fun _ => Steady.pure _

/-- The fields of a match: a bit was taken, or the count is at least 1, or the distance is 0 and the copy raises. -/
def Useful (s : State) (x : Nat × Nat) (t : State) : Prop :=
  Lowers .input s t ∨ Onward s t ∧ (0 < x.1 ∨ x.2 = 0)

theorem shriFields_onward (c : Config) (sym : Fin 499) : Steady Onward (shriFields c sym) :=
  Steady.ite ((ariGetcode_onward c 16).bind fun _ => (ariGetcode_onward c 16).bind fun _ => Steady.pure _)
    ((ariMatch_onward c sym).bind fun _ => Steady.pure _)

/-- The fields of the escape symbol, where the spec's progress of the OPEN functions holds for the state the symbol
leaves. -/
theorem shriFields_escape_useful (c : Config) {s : State} {a1 : Ari} (ha : s.ari = some a1)
    (hp : ∀ (a2 a3 : Ari) (d : BitVec 16), c.shriGetCode a1 16 = .leaf (some (a2, 0#16)) →
      c.shriGetCode a2 16 = .leaf (some (a3, d)) → d = 0#16) : Goes (Useful s) (shriFields c 498) s := by
  refine (ariGetcode_goes c 16 s).bind fun count t ht => (ariGetcode_goes c 16 t).bind fun d u hu => Goes.pure ?_
  rcases ht with ht | ⟨hst, hcount⟩
  · exact .inl (ht.trans_onward (hu.elim Lowers.onward And.left))
  rcases hu with hu | ⟨htu, hd⟩
  · exact .inl (hst.trans_lowers hu)
  refine .inr ⟨hst.trans htu, (Nat.eq_zero_or_pos count).symm.imp_right fun h0 => ?_⟩
  obtain ⟨a2, w, hw, hcw, ha2⟩ := hcount a1 ha
  obtain ⟨a3, v, hv, hdv, _⟩ := hd a2 ha2
  have hw0 : w = 0#16 := BitVec.eq_of_toNat_eq (by rw [← hcw, h0]; rfl)
  rw [hdv, hp a2 a3 v (hw0 ▸ hw) hv]
  rfl

theorem shriFields_tier_useful (c : Config) {sym : Fin 499} (h : sym.val ≠ 498) (s : State) :
    Goes (Useful s) (shriFields c sym) s := by
  rw [shriFields, if_neg h]
  exact (ariMatch_onward c sym s).bind fun m _ ht => Goes.pure (.inr ⟨ht, .inl m.count.pos⟩)

/-- What a turn of SHRI does with its symbol. -/
def shriAct (c : Config) (sym : Fin 499) : M Bool := do
  ariUpdate c sym.val
  if sym.val < 256 then
    fwrWrb (truncByte sym.val)
    pure true
  else
    let (count, d) ← shriFields c sym
    fwrCopyh d count
    pure true

theorem shriTurn_eq (c : Config) : shriTurn c = ariDecsym c >>= shriAct c := rfl

theorem shriAct_onward (c : Config) (sym : Fin 499) : Steady Onward (shriAct c sym) :=
  (ariUpdate_onward c sym).bind fun _ => Steady.ite ((fwrWrb_onward _).bind fun _ => Steady.pure _)
    ((shriFields_onward c sym).bind fun _ => (fwrCopyh_onward _ _).bind fun _ => Steady.pure _)

/-- A copy of no byte raises where its distance is 0. -/
theorem fwrCopyh_lowers_or_raises {d count : Nat} (h : 0 < count ∨ d = 0) :
    Steady (Lowers .forwardSpace) (fwrCopyh d count) := by
  rcases h with h | rfl
  · exact fwrCopyh_lowers d h
  · exact Steady.raise _

theorem shriCopy_goes {x : Nat × Nat} {s t : State} (h : Useful s x t) :
    Goes (fun _ u => Lowers .inputAndSpace s u) (fwrCopyh x.2 x.1) t := by
  rcases h with h | ⟨hst, h⟩
  · exact (fwrCopyh_onward _ _ t).mono fun _ _ hu => (h.trans_onward hu).of_input
  · exact (fwrCopyh_lowers_or_raises h t).mono fun _ _ hu => (hst.trans_lowers hu).of_forwardSpace

/-- A turn whose symbol took no bit writes a byte or takes a bit. -/
theorem shriAct_goes {c : Config} (hp : c.ShriProgress) {a : Ari} {r : AriRegs} {sym : Fin 499} {s : State}
    (htree : c.shriDecodeSymbol a = .leaf (some (r, sym))) (hs : s.ari = some { a with toAriRegs := r }) :
    Goes (fun _ t => Lowers .inputAndSpace s t) (shriAct c sym) s := by
  refine (ariUpdate_goes c sym s).bind fun _ t ⟨hst, hari⟩ => Goes.ite (fun _ => ?_) fun _ => ?_
  · exact (fwrWrb_lowers _ t).bind fun _ _ hu => Goes.pure (hst.trans_lowers hu).of_forwardSpace
  · have hfields : Goes (Useful t) (shriFields c sym) t := by
      by_cases h : sym.val = 498
      · obtain rfl : sym = 498 := Fin.ext h
        exact shriFields_escape_useful c (hari _ hs) fun a2 a3 d => hp a _ a2 a3 r d htree rfl
      · exact shriFields_tier_useful c h t
    exact hfields.bind fun x u hu => (shriCopy_goes hu).bind fun _ _ hv => Goes.pure (hst.trans_lowers hv)

theorem shriTurn_lowers {c : Config} (hp : c.ShriProgress) : Steady (Lowers .inputAndSpace) (shriTurn c) := by
  rw [shriTurn_eq]
  exact fun s => (ariDecsym_goes c s).bind fun sym t ht => by
    rcases ht with ht | ⟨hst, a, r, htree, hari⟩
    · exact (shriAct_onward c sym t).mono fun _ _ hu => (ht.trans_onward hu).of_input
    · exact (shriAct_goes hp htree hari).mono fun _ _ => hst.trans_lowers

theorem histPush_neverStuck (c : Config) : NeverStuck (histPush c) :=
  .of_goes (Q := fun _ _ _ => True) fun _ => Goes.get <| Goes.need fun _ _ =>
    Goes.ite (fun _ => Goes.raise _) fun _ => trivial

theorem shriVersion_onward (c : Config) : Steady Onward (shriVersion c) :=
  Steady.get.bind fun _ => Steady.ite (Steady.raise _) <| (chunkByte_onward 0).bind fun _ =>
    Steady.ite Steady.modify (Steady.ite (Steady.ite (Steady.pure _) (Steady.raise _)) (Steady.raise _))

theorem shriSequence_neverStuck {c : Config} (hp : c.ShriProgress) : NeverStuck (shriSequence c) := by
  refine commonSetup_neverStuck.bind fun _ => (shriVersion_onward c).neverStuck.bind fun _ =>
    chunkBytes_onward.neverStuck.bind fun bytes => ?_
  cases c.shriHeader bytes with
  | none => exact raise_neverStuck _
  | some h =>
    refine Steady.get.neverStuck.bind fun _ => (fcurSet_neverStuck _ _).bind fun _ =>
      (bitsReset_neverStuck _ _).bind fun _ => .of_goes (Q := fun _ _ _ => True) fun s =>
        (fwrRoom_goes s).bind fun room t ⟨ht, hroom⟩ => Goes.get <|
          (whileNotEof_goes (r := .inputAndSpace) (shriTurn_lowers hp) ?_).bind fun _ _ _ =>
            Goes.after (histPush_neverStuck c) fun _ _ => Goes.of_neverStuck macroEnd_neverStuck
    rw [hroom, ht, Nat.add_comm (forwardRoom s)]
    exact Nat.lt_succ_self _

/-- A command answers a next state from every state. -/
theorem exec_next (i : Instr) (s : State) : ∃ t, exec i s = .next t := by
  by_cases hi : i = .instReset
  · subst hi
    exact ⟨_, rfl⟩
  · rw [exec_eq_runCommand hi]
    rcases runCommand_cases (usesAri i) (bodyOf i) s with
      ⟨_, h⟩ | ⟨_, ⟨_, _, h⟩ | ⟨_, _, _, h⟩ | ⟨_, _, h⟩ | ⟨_, _, h⟩⟩ <;> exact ⟨_, h⟩

end Sys2Proof.Machine

open Sys2Proof Sys2Proof.Machine

/-- Settles O11: a command is the run of a body, which answers a next state however the body ends; and in each loop every
turn uses up some of a resource that bounds its turns, by `turnLoop_goes` for the main loops of the sequencers and by
induction on the bits to be read for the loops of BZ.BLOCK and BZP2. -/
theorem everyCommandEnds : Obligations.EveryCommandEnds :=
  ⟨exec_next, fun c => ⟨(bzBlock_lowers c).neverStuck, blzwSequence_neverStuck, bzp2Sequence_neverStuck c,
    lhlbSequence_neverStuck c, mashSequence_neverStuck c, rakeSequence_neverStuck c, smplSequence_neverStuck c,
    sqshSequence_neverStuck c, shriSequence_neverStuck⟩⟩
end

section
/-! SUPPORT. What a body reads from the stream, as a reading of the bit string before it, and what a token then writes: the
fields of the sequencers (spec/46_lhlb_mash_rake.md R350), a symbol of a set of entries (spec/41_huffman.md R195), a byte
and a copy (spec/40_stream_primitives.md R152, R153). -/

namespace Sys2Proof.Machine

/-! ## The reader as a reading of its stream -/

/-- The reader is set, and every byte it still spans holds a value. -/
structure Readable (s : State) : Prop where
  isSet : s.ReaderSet
  whole : s.WholeStream

/-- The reader has moved on, and its stream is the one given. -/
structure Took (rest : List Bool) (s t : State) : Prop where
  changes : Changes [.reader] s t
  readable : Readable t
  stream : t.bitStream = rest

theorem Took.trans {rest rest' : List Bool} {s t u : State} (h : Took rest s t) (h' : Took rest' t u) : Took rest' s u :=
  ⟨h.changes.trans h'.changes, h'.readable, h'.stream⟩

/-- A body reads what the reading of the stream says: it raises the cause of the failure, or answers the value and leaves
the bits that are left. -/
structure Follows {α : Type} (m : M α) (r : Reading α) : Prop where
  raises : ∀ {s c}, Readable s → r s.bitStream = .error c → Raises m s c
  takes : ∀ {s v rest}, Readable s → r s.bitStream = .ok (v, rest) → ∃ t, m s = .ok v t ∧ Took rest s t

/-! ## Readings -/

section Readings

variable {α β : Type} {r : Reading α} {f : α → Reading β} {bits rest : List Bool}

theorem Reading.bind_of_ok {a : α} (h : r bits = .ok (a, rest)) : (r >>= f) bits = f a rest := by
  show (r bits >>= fun x => f x.1 x.2) = _
  rw [h]
  rfl

theorem Reading.bind_of_error {c : Cause} (h : r bits = .error c) : (r >>= f) bits = .error c := by
  show (r bits >>= fun x => f x.1 x.2) = _
  rw [h]
  rfl

theorem treeField_leaf (v : α) : treeField (.leaf v) bits = .ok (v, bits) := by
  rw [treeField, treeRead]
  rfl

theorem treeField_node_nil (z o : BitTree α) : treeField (.node z o) [] = .error .unexpectedEnd := by
  rw [treeField, treeRead]

theorem treeField_node_cons (z o : BitTree α) (b : Bool) :
    treeField (.node z o) (b :: bits) = treeField (if b then o else z) bits := by
  unfold treeField
  rw [treeRead]
  cases treeRead (if b then o else z) bits <;> rfl

theorem symbolField_of_ok {es : List HufEntry} {sym : Word} {k : Nat} (h : walkBits es bits = .ok (sym, k)) :
    symbolField es bits = .ok (sym, bits.drop k) := by
  unfold symbolField
  rw [h]

theorem symbolField_of_error {es : List HufEntry} {c : Cause} (h : walkBits es bits = .error c) :
    symbolField es bits = .error c := by
  unfold symbolField
  rw [h]

/-- A walk takes bits that are there. -/
theorem walkBits_le {es : List HufEntry} {sym : Word} {k : Nat} (h : walkBits es bits = .ok (sym, k)) :
    k ≤ bits.length := by
  unfold walkBits at h
  split at h
  · cases h
  · split at h
    · next e he =>
      obtain ⟨j, hj, hat, _⟩ := findSome?_range_eq_some he
      cases h
      rw [(entryAt_eq_some hat).2.1]
      exact hj
    · split at h <;> cases h

end Readings

/-! ## Reading a value -/

theorem Follows.pure {α : Type} (v : α) : Follows (pure v) (pure v) where
  raises _ h := by cases h
  takes hs h := by
    cases h
    exact ⟨_, rfl, Changes.refl _ _, hs, rfl⟩

theorem Follows.raise {α : Type} (c : Cause) : Follows (raise c : M α) (failed c) where
  raises _ h := by
    cases h
    exact ⟨_, rfl⟩
  takes _ h := by cases h

theorem Follows.bind {α β : Type} {m : M α} {r : Reading α} {f : α → M β} {g : α → Reading β} (h : Follows m r)
    (hf : ∀ a, Follows (f a) (g a)) : Follows (m >>= f) (r >>= g) where
  raises {s c} hs hbits := by
    cases hr : r s.bitStream with
    | error c' =>
      rw [Reading.bind_of_error hr] at hbits
      cases hbits
      exact .bind (h.raises hs hr)
    | ok x =>
      rw [Reading.bind_of_ok hr] at hbits
      obtain ⟨t, ht, took⟩ := h.takes hs hr
      exact .after ht ((hf _).raises took.readable (took.stream ▸ hbits))
  takes {s v rest} hs hbits := by
    cases hr : r s.bitStream with
    | error c' => rw [Reading.bind_of_error hr] at hbits; cases hbits
    | ok x =>
      rw [Reading.bind_of_ok hr] at hbits
      obtain ⟨t, ht, took⟩ := h.takes hs hr
      obtain ⟨u, hu, took'⟩ := (hf _).takes took.readable (took.stream ▸ hbits)
      exact ⟨u, by rw [M.bind_apply, ht]; exact hu, took.trans took'⟩

/-- What the reader and the host hold decides the stream. -/
theorem bitStream_congr {ps : List Part} {s t : State} (h : Changes ps s t) (hhost : Part.host ∉ ps)
    (hreader : Part.reader ∉ ps) : t.bitStream = s.bitStream := by
  obtain ⟨hchunk, hrest⟩ := Prod.mk.inj (h .host hhost)
  obtain ⟨hlen, -⟩ := Prod.mk.inj hrest
  obtain ⟨hcur, hbuf⟩ := Prod.mk.inj (h .reader hreader)
  obtain ⟨hacc, hcnt⟩ := Prod.mk.inj hbuf
  rw [State.bitStream, State.bitStream, State.unreadBytes, State.unreadBytes, hchunk, hlen, hcur, hacc, hcnt]

/-- Byte by byte every bit of the stream can be delivered. -/
theorem deliverable_group8 (s : State) : s.deliverable .group8 = s.bitStream := by
  refine (deliverable_prefix .group8 s).eq_of_length ?_
  rw [deliverable_length, State.bitStream, List.length_append, bitsOf_length, byteBits_length, groupBytes, Nat.mul_one,
    Nat.div_one]

theorem canRead_group8 {n : Nat} {s : State} (hs : s.ReaderSet) : s.CanRead .group8 n ↔ n ≤ s.bitStream.length := by
  rw [canRead_iff hs, deliverable_group8]

theorem afterBits_changes (src : BitSource) (n : Nat) (s : State) : Changes [.reader] s (s.afterBits src n) := by
  by_cases h : s.refills src n = 0
  · rw [afterBits_of_no_refill h]
    intro p hp
    cases p with
    | reader => exact absurd (by decide) hp
    | _ => rfl
  · rw [afterBits_of_refills h]
    intro p hp
    cases p with
    | reader => exact absurd (by decide) hp
    | _ => rfl

theorem took_afterBits {n : Nat} {s : State} (hs : Readable s) (hn : n ≤ s.bitStream.length) :
    Took (s.bitStream.drop n) s (s.afterBits .group8 n) :=
  have can := (canRead_group8 hs.isSet).2 hn
  ⟨afterBits_changes _ n s, ⟨afterBits_readerSet hs.isSet, afterBits_wholeStream can hs.whole⟩, afterBits_bitStream n can⟩

/-- A symbol is read. -/
theorem decodeFrom_follows (es : List HufEntry) : Follows (decodeFrom .group8 es) (symbolField es) where
  raises {s c} hs h := by
    have run := decodeFrom_eq_walkBits .group8 es hs.isSet hs.whole
    rw [deliverable_group8] at run
    cases hw : walkBits es s.bitStream with
    | error c' =>
      rw [symbolField_of_error hw] at h
      cases h
      rw [hw] at run
      exact run
    | ok x => rw [symbolField_of_ok hw] at h; cases h
  takes {s v rest} hs h := by
    have run := decodeFrom_eq_walkBits .group8 es hs.isSet hs.whole
    rw [deliverable_group8] at run
    cases hw : walkBits es s.bitStream with
    | error c => rw [symbolField_of_error hw] at h; cases h
    | ok x =>
      rw [symbolField_of_ok hw] at h
      cases h
      rw [hw] at run
      exact ⟨_, run, took_afterBits hs (walkBits_le hw)⟩

/-- A bit is read, where there is one. -/
theorem rd_one {s : State} (hs : Readable s) {b : Bool} {rest : List Bool} (h : s.bitStream = b :: rest) :
    ∃ t, rd 1 s = .ok b.toNat t ∧ Took rest s t := by
  have hn : 1 ≤ s.bitStream.length := by rw [h]; exact Nat.succ_pos _
  have run := readBits_eq_stream (n := 1) (by decide) ((canRead_group8 hs.isSet).2 hn)
  have took := took_afterBits hs hn
  rw [h] at run took
  exact ⟨_, run.trans (by cases b <;> rfl), took⟩

theorem rd_one_raises {s : State} (hs : Readable s) (h : s.bitStream = []) : Raises (rd 1) s .unexpectedEnd := by
  rw [← endCause_of_whole (src := .group8) hs.whole]
  refine readBits_raises (by decide) hs.isSet fun can => ?_
  have := (canRead_group8 hs.isSet).1 can
  rw [h] at this
  exact absurd this (by decide)

/-- A field is read. -/
theorem runField_follows {α : Type} (tree : BitTree α) : Follows (runField tree) (treeField tree) := by
  induction tree with
  | leaf v =>
    refine ⟨fun {s c} _ h => ?_, fun {s w rest} hs h => ?_⟩
    all_goals
      rw [treeField_leaf] at h
      cases h
    exact ⟨s, rfl, Changes.refl _ s, hs, rfl⟩
  | node z o hz ho =>
    have branch (b : Bool) : Follows (if b.toNat = 0 then runField z else runField o) (treeField (if b then o else z)) := by
      cases b <;> assumption
    refine ⟨fun {s c} hs h => ?_, fun {s v rest} hs h => ?_⟩
    all_goals cases hb : s.bitStream with
      | nil => ?_
      | cons b bits => ?_
    all_goals rw [hb] at h
    · rw [treeField_node_nil] at h
      cases h
      exact .bind (rd_one_raises hs hb)
    · rw [treeField_node_cons] at h
      obtain ⟨t, ht, took⟩ := rd_one hs hb
      exact .after ht ((branch b).raises took.readable (took.stream ▸ h))
    · cases h
    · rw [treeField_node_cons] at h
      obtain ⟨t, ht, took⟩ := rd_one hs hb
      obtain ⟨u, hu, took'⟩ := (branch b).takes took.readable (took.stream ▸ h)
      exact ⟨u, by rw [runField, M.bind_apply, ht]; exact hu, took.trans took'⟩

/-! ## Writing a token -/

/-- The bytes of a token go to the output. -/
def writeToken : Token → M Unit
  | .literal b => fwrWrb b
  | .copy count d => fwrCopy d count

section Token

variable {s : State} {f : Fwr} {reach : List Byte}

/-- What a token can reach is what the writer has written. -/
theorem reach_length (h : memBytes s.raw f.start.toNat (f.pos.toNat - f.start.toNat) = some reach) :
    reach.length = f.pos.toNat - f.start.toNat :=
  memBytes_length h

/-- A token that is refused raises, the checks in the order of R153. -/
theorem writeToken_raises (hf : s.fwr = some f) (hstop : f.pos.toNat ≤ f.stop.toNat)
    (hreach : reach.length = f.pos.toNat - f.start.toNat) {token : Token} {c : Cause}
    (h : token.refusal reach (f.stop.toNat - f.pos.toNat) = some c) : Raises (writeToken token) s c := by
  cases token with
  | literal b =>
    obtain ⟨hfull, rfl⟩ : f.stop.toNat - f.pos.toNat = 0 ∧ c = .overrun := by simpa [Token.refusal, eq_comm] using h
    exact fwrWrb_raises_overrun hf (Nat.le_of_sub_eq_zero hfull) b
  | copy count d =>
    refine ⟨s, ?_⟩
    rw [writeToken, fwrCopy_eq]
    rw [Token.refusal, hreach] at h
    simp only [hf]
    by_cases hd : d = 0
    · rw [if_pos hd] at h ⊢
      cases h
      rfl
    rw [if_neg hd] at h ⊢
    by_cases hfar : f.pos.toNat - f.start.toNat < d
    · rw [if_pos hfar] at h ⊢
      cases h
      rfl
    rw [if_neg hfar] at h ⊢
    by_cases hfull : f.stop.toNat - f.pos.toNat < count
    · rw [if_pos hfull] at h
      cases h
      rw [if_pos (by omega)]
    · rw [if_neg hfull] at h
      cases h

theorem wrote_literal (hf : s.fwr = some f) (hlt : f.pos.toNat < f.stop.toNat) (b : Byte) :
    ∃ t, fwrWrb b s = .ok () t ∧ Changes [.writer, .output] s t ∧ WroteForward f [b] s t := by
  refine ⟨_, fwrWrb_of_room hf hlt b, (fwrWrb_changes b).ok (fwrWrb_of_room hf hlt b), rfl, ?_, fun k hk => ?_⟩
  · exact memBytes_eq_some.2 ⟨rfl, fun i hi => by
      obtain rfl : i = 0 := Nat.lt_one_iff.1 hi
      exact storeRead_write_same _ _ _⟩
  · have hk : k < f.pos.toNat ∨ f.pos.toNat + 1 ≤ k := hk
    exact storeRead_write_other _ _ (by omega)

/-- Byte `i` of a copy is byte `i mod d` of the last `d` bytes that can be reached. -/
theorem wrote_copy (hf : s.fwr = some f) (hstart : f.start.toNat ≤ f.pos.toNat)
    (hreach : memBytes s.raw f.start.toNat (f.pos.toNat - f.start.toNat) = some reach) {d count : Nat} (hd : 0 < d)
    (hnear : d ≤ reach.length) (hroom : f.pos.toNat + count ≤ f.stop.toNat) :
    ∃ t, fwrCopy d count s = .ok () t ∧ Changes [.writer, .output] s t ∧
      WroteForward f ((Token.copy count d).bytes reach) s t := by
  have len := reach_length hreach
  have total : Machine.reach [] f = reach.length := by rw [Machine.reach, len]; exact Nat.zero_add _
  have source (j : Nat) (hj : j < reach.length) : logicalByte [] f s.raw j = some (reach.getD j 0#8) := by
    rw [logicalByte, if_neg (by simp), List.length_nil, Nat.sub_zero, memBytes_get hreach (len ▸ hj),
      List.getElem?_eq_getElem hj, List.getD_eq_getElem _ _ hj]
  have hword := hroom.trans_lt f.stop.isLt
  obtain ⟨m, run, copied, rest⟩ := fwrCopyhLoop_copies (history := []) hd hf hstart hword (total ▸ hnear)
    fun j _ hj => ⟨_, source j (total ▸ hj)⟩
  have body : fwrCopy d count s = fwrCopyhLoop [] d count s := by
    rw [fwrCopy_eq, ← fwrCopyLoop_eq_fwrCopyhLoop count hf hword (by omega), if_neg hd.ne']
    simp only [hf]
    rw [if_neg (by omega), if_neg (Nat.not_lt.2 hroom)]
  have size : ((Token.copy count d).bytes reach).length = count := by simp [Token.bytes]
  refine ⟨_, body.trans run, (fwrCopy_changes d count).ok (body.trans run), ?_, ?_, ?_⟩
  · rw [size, ← toWord_toNat_add, toWord_toNat_of_lt (by omega)]
  · rw [size]
    refine memBytes_eq_some.2 ⟨size, fun i hi => ?_⟩
    have hmod := Nat.mod_lt i hd
    rw [copied i hi, total, source _ (by omega), Token.bytes, List.getElem?_map, List.getElem?_range hi]
    rfl
  · rw [size]
    exact rest

/-- A token that is not refused is written. -/
theorem writeToken_wrote (hf : s.fwr = some f) (hstart : f.start.toNat ≤ f.pos.toNat) (hstop : f.pos.toNat ≤ f.stop.toNat)
    (hreach : memBytes s.raw f.start.toNat (f.pos.toNat - f.start.toNat) = some reach) {token : Token}
    (h : token.refusal reach (f.stop.toNat - f.pos.toNat) = none) :
    ∃ t, writeToken token s = .ok () t ∧ Changes [.writer, .output] s t ∧ WroteForward f (token.bytes reach) s t := by
  cases token with
  | literal b =>
    have hroom : f.stop.toNat - f.pos.toNat ≠ 0 := by simpa [Token.refusal] using h
    exact wrote_literal hf (by omega) b
  | copy count d =>
    rw [Token.refusal] at h
    split at h
    · cases h
    · next hd =>
      split at h
      · cases h
      · next hnear =>
        split at h
        · cases h
        · exact wrote_copy hf hstart hreach (Nat.pos_of_ne_zero hd) (Nat.not_lt.1 hnear) (by omega)

end Token

end Sys2Proof.Machine
end

section
/-! SUPPORT. A turn of DECOMPRESS.LHLB (spec/46_lhlb_mash_rake.md R351, R352), and the commands whose output is empty
(spec/43_decompress_common.md R246). -/

namespace Sys2Proof.Machine

/-! ## A turn of LHLB -/

/-- The tree after a symbol (spec/42_adaptive_huffman.md R225). -/
def lhlbTree (c : Config) (tree : DhufTree) (sym : Word) : DhufTree :=
  if (c.dhufMaxF tree).toNat < 0x8000 then c.dhufUpdate tree sym.toNat else tree

/-- The tracker of LHLB with a tree. -/
def lhlbTracker (tree : DhufTree) : Option Dhuf := some { nsym := 317#32, tree := some tree }

section Turn

variable {c : Config} {tree : DhufTree} {s : State}

theorem readDhuf_lhlb (h : s.dhuf = lhlbTracker tree) : readDhuf s = .ok (317#32, tree) s := readDhuf_of h (by decide)

theorem dhufDecode_lhlb (h : s.dhuf = lhlbTracker tree) :
    dhufDecode c .group8 s = decodeFrom .group8 (c.dhufCodes tree) s := by
  rw [dhufDecode_eq, readDhuf_lhlb h]

theorem lhlbUpdate_eq (h : s.dhuf = lhlbTracker tree) (sym : Nat) :
    lhlbUpdate c sym s = if (c.dhufMaxF tree).toNat < 0x8000 then dhufUpdate c sym s else .ok () s := by
  rw [lhlbUpdate, M.bind_apply, dhufMaxF_eq, readDhuf_lhlb h]
  exact M.ite_apply ..

/-- A symbol of the model updates the tree, unless its maximum has reached the freeze. -/
theorem lhlbUpdate_of_lt (h : s.dhuf = lhlbTracker tree) {sym : Word} (hsym : sym.toNat < 317) :
    lhlbUpdate c sym.toNat s = .ok () { s with dhuf := lhlbTracker (lhlbTree c tree sym) } := by
  rw [lhlbUpdate_eq h, lhlbTree]
  by_cases hmax : (c.dhufMaxF tree).toNat < 0x8000
  · rw [if_pos hmax, if_pos hmax, dhufUpdate_eq, readDhuf_lhlb h]
    exact if_neg (Nat.not_le.2 hsym)
  · rw [if_neg hmax, if_neg hmax, ← h]

/-- A symbol beyond the model raises Index, or leaves the state. -/
theorem lhlbUpdate_of_ge (h : s.dhuf = lhlbTracker tree) {sym : Word} (hsym : 317 ≤ sym.toNat) :
    Raises (lhlbUpdate c sym.toNat) s .index ∨ lhlbUpdate c sym.toNat s = .ok () s := by
  rw [Raises, lhlbUpdate_eq h]
  split
  · rw [dhufUpdate_eq, readDhuf_lhlb h]
    exact .inl ⟨s, if_pos hsym⟩
  · exact .inr rfl

/-- The token of a symbol, read from the stream. -/
def symbolToken (c : Config) (sym : Word) : Reading Token :=
  if sym.toNat < 256 then pure (.literal (truncByte sym.toNat))
  else if sym.toNat = 316 then failed .reserved
  else if h : sym.toNat - 256 < 60 then treeField c.lhlbDist >>= fun d => pure (.copy (c.lhlbCount ⟨sym.toNat - 256, h⟩) d)
  else failed .index

/-- The token of a symbol, read by the core. -/
def readToken (c : Config) (sym : Word) : M Token :=
  if sym.toNat < 256 then pure (.literal (truncByte sym.toNat))
  else if sym.toNat = 316 then raise .reserved
  else if h : sym.toNat - 256 < 60 then runField c.lhlbDist >>= fun d => pure (.copy (c.lhlbCount ⟨sym.toNat - 256, h⟩) d)
  else raise .index

theorem readToken_follows (c : Config) (sym : Word) : Follows (readToken c sym) (symbolToken c sym) := by
  unfold readToken symbolToken
  split
  · exact .pure _
  · split
    · exact .raise _
    · split
      · exact (runField_follows _).bind fun d => .pure _
      · exact .raise _

/-- A turn after the update: the token of its symbol is read and written. -/
def tokenTurn (c : Config) (sym : Word) : M Bool :=
  readToken c sym >>= fun token => writeToken token >>= fun _ => pure true

/-- A turn of LHLB is its symbol, the update, and then its token. -/
theorem lhlbTurn_eq (c : Config) :
    lhlbTurn c = dhufDecode c .group8 >>= fun sym => lhlbUpdate c sym.toNat >>= fun _ => tokenTurn c sym := by
  unfold lhlbTurn tokenTurn readToken
  congr 1
  funext sym
  congr 1
  funext _
  split
  · rfl
  · split
    · rfl
    · split
      · rw [bind_assoc]; rfl
      · rfl

theorem lhlbToken_of_error {bits : List Bool} {e : Cause} (h : symbolField (c.dhufCodes tree) bits = .error e) :
    lhlbToken c tree bits = .error e := Reading.bind_of_error h

theorem lhlbToken_of_ok {bits rest : List Bool} {sym : Word} (h : symbolField (c.dhufCodes tree) bits = .ok (sym, rest)) :
    lhlbToken c tree bits = (symbolToken c sym >>= fun token => pure (lhlbTree c tree sym, token)) rest := by
  refine (Reading.bind_of_ok h).trans ?_
  unfold symbolToken
  split
  · rfl
  · split
    · rfl
    · split
      · rw [bind_assoc]
        rfl
      · rfl

/-- A symbol beyond the model has no token but Index. -/
theorem symbolToken_of_ge {sym : Word} (h : 317 ≤ sym.toNat) : symbolToken c sym = failed .index := by
  rw [symbolToken, if_neg (by omega), if_neg (by omega), dif_neg (by omega)]

/-- The state in which a turn writes its token: the stream is read up to the token's end, the tree is the one after the
symbol. -/
structure TurnRead (tree : DhufTree) (rest : List Bool) (s t : State) : Prop where
  changes : Changes [.reader, .tracker] s t
  stream : t.bitStream = rest
  tracker : t.dhuf = lhlbTracker tree

/-- What a turn does for the outcome of its reading: it raises the cause, or it goes on to write the token. -/
def TurnReads (c : Config) (s : State) : Except Cause ((DhufTree × Token) × List Bool) → Prop
  | .error e => Raises (lhlbTurn c) s e
  | .ok ((tree, token), rest) =>
    ∃ t, lhlbTurn c s = (writeToken token >>= fun _ => pure true) t ∧ TurnRead tree rest s t

/-- A turn from its symbol on, where the symbol is one of the model. -/
theorem lhlbTurn_reads_of_lt {sym : Word} (hsym : sym.toNat < 317) {rest : List Bool} {t : State}
    (took : Took rest s t) (tracker : t.dhuf = lhlbTracker tree)
    (run : lhlbTurn c s = (lhlbUpdate c sym.toNat >>= fun _ => tokenTurn c sym) t) :
    TurnReads c s ((symbolToken c sym >>= fun token => pure (lhlbTree c tree sym, token)) rest) := by
  have updated := lhlbUpdate_of_lt (c := c) tracker hsym
  generalize hu : { t with dhuf := lhlbTracker (lhlbTree c tree sym) } = u at updated
  have readable : Readable u := hu ▸ ⟨took.readable.isSet, took.readable.whole⟩
  have stream : u.bitStream = rest := hu ▸ took.stream
  have changes : Changes [.reader, .tracker] s u :=
    (took.changes.mono (by decide)).trans (((lhlbUpdate_changes c _).ok updated).mono (by decide))
  replace run : lhlbTurn c s = tokenTurn c sym u := run.trans (by rw [M.bind_apply, updated])
  cases htoken : symbolToken c sym rest with
  | error e =>
    rw [Reading.bind_of_error htoken]
    obtain ⟨v, hv⟩ := (readToken_follows c sym).raises readable (stream ▸ htoken)
    exact ⟨v, by rw [run, tokenTurn, M.bind_apply, hv]⟩
  | ok x =>
    rw [Reading.bind_of_ok htoken]
    obtain ⟨v, hv, took'⟩ := (readToken_follows c sym).takes readable (stream ▸ htoken)
    refine ⟨v, by rw [run, tokenTurn, M.bind_apply, hv], changes.trans (took'.changes.mono (by decide)), took'.stream, ?_⟩
    rw [← took'.changes .tracker (by decide), ← hu]

/-- A turn follows its reading (spec/46_lhlb_mash_rake.md R351). -/
theorem lhlbTurn_reads (hs : Readable s) (h : s.dhuf = lhlbTracker tree) : TurnReads c s (lhlbToken c tree s.bitStream) := by
  cases hsym : symbolField (c.dhufCodes tree) s.bitStream with
  | error e =>
    rw [lhlbToken_of_error hsym]
    obtain ⟨t, ht⟩ := (decodeFrom_follows _).raises hs hsym
    show Raises (lhlbTurn c) s e
    rw [lhlbTurn_eq]
    exact .bind ⟨t, (dhufDecode_lhlb h).trans ht⟩
  | ok x =>
    obtain ⟨sym, rest⟩ := x
    obtain ⟨t, ht, took⟩ := (decodeFrom_follows _).takes hs hsym
    have tracker : t.dhuf = lhlbTracker tree := (took.changes .tracker (by decide)).symm.trans h
    have run : lhlbTurn c s = (lhlbUpdate c sym.toNat >>= fun _ => tokenTurn c sym) t := by
      rw [lhlbTurn_eq, M.bind_apply, dhufDecode_lhlb h, ht]
    rw [lhlbToken_of_ok hsym]
    rcases Nat.lt_or_ge sym.toNat 317 with hlt | hge
    · exact lhlbTurn_reads_of_lt hlt took tracker run
    · rw [symbolToken_of_ge hge]
      have beyond : readToken c sym = raise .index := by
        rw [readToken, if_neg (by omega), if_neg (by omega), dif_neg (by omega)]
      have raised : Raises (lhlbUpdate c sym.toNat >>= fun _ => tokenTurn c sym) t .index := by
        rw [tokenTurn, beyond]
        rcases lhlbUpdate_of_ge (c := c) tracker hge with raised | same
        · exact raised.bind
        · exact .after same ⟨t, rfl⟩
      obtain ⟨u, hu⟩ := raised
      exact ⟨u, run.trans hu⟩

section Writes

variable {f : Fwr} {reach : List Byte} {token : Token} {rest : List Bool}
  (reads : TurnReads c s (.ok ((tree, token), rest))) (hf : s.fwr = some f)
include reads hf

/-- A turn whose token is refused raises (spec/46_lhlb_mash_rake.md R352). -/
theorem TurnReads.raises (hstop : f.pos.toNat ≤ f.stop.toNat)
    (hreach : memBytes s.raw f.start.toNat (f.pos.toNat - f.start.toNat) = some reach) {e : Cause}
    (hrefused : token.refusal reach (f.stop.toNat - f.pos.toNat) = some e) : Raises (lhlbTurn c) s e := by
  obtain ⟨t, run, read⟩ := reads
  have writer : t.fwr = some f := (read.changes .writer (by decide)).symm.trans hf
  obtain ⟨u, hu⟩ := writeToken_raises writer hstop (reach_length hreach) hrefused
  exact ⟨u, by rw [run, M.bind_apply, hu]⟩

/-- A turn whose token is not refused writes it. -/
theorem TurnReads.writes (hstart : f.start.toNat ≤ f.pos.toNat) (hstop : f.pos.toNat ≤ f.stop.toNat)
    (hreach : memBytes s.raw f.start.toNat (f.pos.toNat - f.start.toNat) = some reach)
    (hrefused : token.refusal reach (f.stop.toNat - f.pos.toNat) = none) :
    ∃ t, lhlbTurn c s = .ok true t ∧ Changes [.reader, .writer, .output, .tracker] s t ∧ t.bitStream = rest ∧
      t.dhuf = lhlbTracker tree ∧ WroteForward f (token.bytes reach) s t := by
  obtain ⟨t, run, read⟩ := reads
  have writer : t.fwr = some f := (read.changes .writer (by decide)).symm.trans hf
  have output : s.raw = t.raw := read.changes .output (by decide)
  obtain ⟨u, hu, wrote, written, bytes, others⟩ := writeToken_wrote writer hstart hstop (output ▸ hreach) hrefused
  refine ⟨u, by rw [run, M.bind_apply, hu]; rfl, (read.changes.mono (by decide)).trans (wrote.mono (by decide)), ?_, ?_,
    written, bytes, output ▸ others⟩
  · rw [bitStream_congr wrote (by decide) (by decide), read.stream]
  · exact (wrote .tracker (by decide)).symm.trans read.tracker

end Writes

end Turn

/-! ## Empty outputs -/

/-- A loop that fills the output ends at once where the output is full. -/
theorem whileNotEof_of_full {s : State} {f : Fwr} (hf : s.fwr = some f) (hfull : f.pos = f.stop) (turn : M Bool)
    (turns : Nat) : whileNotEof turn turns s = .ok () s := by
  have going : (do return !(← fwrEof) : M Bool) s = .ok false s := by
    simp [fwrEof_eq, hf, hfull]
  cases turns with
  | zero => rw [whileNotEof, turnLoop_zero, going]
  | succ turns => rw [whileNotEof, turnLoop_succ, going]

/-- A loop over an empty output, and the end of the command. -/
theorem loop_of_emptyOutput {s : State} (hf : s.fwr = some ⟨0#32, 0#32, 0#32⟩) (turn : M Bool) :
    (do
      let room ← fwrRoom
      whileNotEof turn (room + 1)
      macroEnd) s = macroEnd s := by
  rw [M.bind_apply, fwrRoom_eq, hf]
  exact (M.bind_apply ..).trans (by rw [whileNotEof_of_full hf rfl])

/-- What the common setup leaves where the output is empty (spec/43_decompress_common.md R242). -/
def setUpEmpty (s : State) : State :=
  { s with
    phase := .running, fwr := some ⟨0#32, 0#32, 0#32⟩, fcur := some ⟨0#32, s.chunkLen⟩, bitsAcc := some 0#32,
    bitsCnt := some 0 }

theorem commonSetup_of_empty {s : State} (h : s.rawLen = 0#32) : commonSetup s = .ok () (setUpEmpty s) := by
  rw [commonSetup_eq, setUpEmpty, h]

theorem lhlbSequence_of_empty (c : Config) {s : State} (h : s.rawLen = 0#32) :
    lhlbSequence c s = macroEnd { setUpEmpty s with dhuf := lhlbTracker (c.dhufInit 317) } := by
  rw [lhlbSequence, M.bind_apply, commonSetup_of_empty h]
  refine Eq.trans ?_ (loop_of_emptyOutput (s := { setUpEmpty s with dhuf := lhlbTracker (c.dhufInit 317) }) rfl (lhlbTurn c))
  rfl

theorem mashSequence_of_empty (c : Config) {s : State} (h : s.rawLen = 0#32) :
    mashSequence c s = macroEnd { setUpEmpty s with ht := s.ht.set 0 (some []) } := by
  rw [mashSequence, M.bind_apply, commonSetup_of_empty h]
  refine Eq.trans ?_ (loop_of_emptyOutput (s := { setUpEmpty s with ht := s.ht.set 0 (some []) }) rfl (mashTurn c))
  rfl

/-! ### BLZW -/

section Blzw

variable {s : State} {f : Fwr}

theorem need_apply {α : Type} {o : Option α} {a : α} (h : o = some a) (t : State) : need o t = .ok a t := by
  rw [h]
  rfl

/-- The byte on top of the stack does not fit a full output. -/
theorem emitPops_raises_overrun (hf : s.fwr = some f) (hfull : f.stop.toNat ≤ f.pos.toNat) {p : Nat} {b : Byte}
    (hb : storeRead s.lzw.stack p = some b) : Raises (emitPops (p + 1)) s .overrun := by
  refine .after rfl (.after rfl (.after (need_apply hb _) ?_))
  exact .bind (fwrWrb_raises_overrun (by exact hf) hfull b)

theorem emitChain_literal {code : Nat} (hcode : code < 259) : emitChain code = pure code := if_pos hcode

/-- A literal code does not fit a full output. -/
theorem lzwEmit_raises_overrun (hf : s.fwr = some f) (hfull : f.stop.toNat ≤ f.pos.toNat) {code : Nat} (hcode : code < 256) :
    Raises (lzwEmit code) s .overrun := by
  rw [lzwEmit, emitChain_literal (hcode.trans (by decide))]
  refine .after rfl (.after rfl ?_)
  rw [if_neg (Nat.not_le.2 hcode)]
  refine .after (lzwPush_eq _ _) (.after rfl (.after rfl (.after rfl ?_)))
  exact emitPops_raises_overrun (by exact hf) hfull (by exact storeRead_write_same ..)

/-- So the restart that reads a literal code raises Overrun on a full output (spec/44_blzw.md R265). -/
theorem lzwRestart_raises_overrun (hf : s.fwr = some f) (hfull : f.stop.toNat ≤ f.pos.toNat) {maxBits : Nat}
    (hmax : s.lzw.maxBits = some maxBits) (hset : s.ReaderSet) (hlen : 9 ≤ s.bitStream.length)
    (hcode : bitsValue (s.bitStream.take 9) < 256) : Raises lzwRestart s .overrun := by
  have read (l : Lzw) : rd 9 { s with lzw := l } =
      .ok (bitsValue (s.bitStream.take 9)) ({ s with lzw := l }.afterBits .group8 9) :=
    readBits_eq_stream (by decide) ((canRead_group8 (s := { s with lzw := l }) hset).2 hlen)
  have writer (l : Lzw) : ({ s with lzw := l }.afterBits .group8 9).fwr = some f :=
    (afterBits_changes .group8 9 { s with lzw := l } .writer (by decide)).symm.trans hf
  refine .after rfl (.after (need_apply hmax s) (.after (M.modify_apply ..) (.after (read _) ?_)))
  rw [if_neg (by omega), if_neg (by omega)]
  exact .after (M.modify_apply ..) (lzwEmit_raises_overrun (by exact writer _) hfull hcode)

theorem chunkByte_of_memBytes {bytes : List Byte} {n i : Nat} {b : Byte} (h : memBytes s.chunk 0 n = some bytes)
    (hb : bytes[i]? = some b) : chunkByte i s = .ok b s := by
  obtain ⟨hi, -⟩ := List.getElem?_eq_some_iff.1 hb
  refine need_apply ?_ s
  rw [← hb, ← memBytes_get h (memBytes_length h ▸ hi), Nat.zero_add]

theorem lzwSetup_of_le {maxBits stackLength : Nat} (hmin : 9 ≤ maxBits) (hmax : maxBits ≤ 20) (hstack : 1 ≤ stackLength)
    (hlimit : stackLength ≤ 65540) :
    ∃ t, lzwSetup maxBits stackLength s = .ok () t ∧ t.lzw.maxBits = some maxBits := by
  rw [lzwSetup_eq, if_neg (by omega), if_neg (by omega)]
  exact ⟨_, rfl, rfl⟩

/-- The stream of a chunk behind a header of `n` bytes. -/
theorem bitStream_of_chunk {bytes : List Byte} {f : Fcur} (h : memBytes s.chunk 0 s.chunkLen.toNat = some bytes)
    (hcnt : s.bitsCnt = some 0) (hf : s.fcur = some f) (hstop : f.stop = s.chunkLen) (hpos : f.pos.toNat ≤ bytes.length) :
    s.bitStream = byteBits (bytes.drop f.pos.toNat) := by
  have known := knownBytes_of_memBytes h
  have drop := knownBytes_drop s.chunk 0 s.chunkLen.toNat f.pos.toNat (known ▸ hpos)
  rw [known, Nat.zero_add] at drop
  rw [bitStream_eq hcnt, State.unreadBytes, hf, drop]
  simp [hstop, bitsOf]

/-- BLZW on an empty output: the first code is written before the loop tests the end (spec/44_blzw.md R261). -/
theorem blzwSequence_raises_overrun {m hv0 hv1 : Byte} {body : List Byte} (hraw : s.rawLen = 0#32)
    (h : memBytes s.chunk 0 s.chunkLen.toNat = some (0#8 :: m :: hv0 :: hv1 :: body)) (hmin : 9 ≤ m.toNat)
    (hmax : m.toNat ≤ 20) (hbody : 2 ≤ body.length) (hcode : bitsValue ((byteBits body).take 9) < 256) :
    Raises blzwSequence s .overrun := by
  have length : body.length + 4 = s.chunkLen.toNat := memBytes_length h
  generalize hu : { setUpEmpty s with lzw := Lzw.unset, fcur := some ⟨4#32, s.chunkLen⟩ } = u
  have consumed : fcurConsume 4 { setUpEmpty s with lzw := Lzw.unset } = .ok 0#32 u :=
    hu ▸ fcurConsume_of_le (n := 4#32) (f := ⟨0#32, s.chunkLen⟩) rfl (by
      show 0 + 4 ≤ min s.chunkLen.toNat s.chunkLen.toNat
      omega)
  have chunk : memBytes u.chunk 0 u.chunkLen.toNat = some (0#8 :: m :: hv0 :: hv1 :: body) := hu ▸ h
  have byte {i : Nat} {b : Byte} (hb : (0#8 :: m :: hv0 :: hv1 :: body)[i]? = some b) : chunkByte i u = .ok b u :=
    chunkByte_of_memBytes chunk hb
  have width : be16 0#8 m = m.toNat := by simp [be16]
  have stack : 1 ≤ be16 hv0 hv1 + blzwStackExtra ∧ be16 hv0 hv1 + blzwStackExtra ≤ 65540 := by
    unfold be16 blzwStackExtra
    omega
  obtain ⟨t, setup, limit⟩ := lzwSetup_of_le (s := u) (width ▸ hmin) (width ▸ hmax) stack.1 stack.2
  have changes := (lzwSetup_changes _ _).ok setup
  have stream : t.bitStream = byteBits body := by
    rw [bitStream_congr changes (by decide) (by decide)]
    subst hu
    exact bitStream_of_chunk chunk rfl rfl rfl (by simp)
  have writer : t.fwr = some ⟨0#32, 0#32, 0#32⟩ := by
    rw [← changes .writer (by decide), ← hu]
    rfl
  have count : u.bitsCnt = t.bitsCnt := congrArg (·.2.2) (changes .reader (by decide))
  have isSet : t.ReaderSet := ⟨0, count.symm.trans (hu ▸ rfl), .inl rfl⟩
  have restart := lzwRestart_raises_overrun writer le_rfl limit isSet (by rw [stream, byteBits_length]; omega)
    (stream ▸ hcode)
  exact .after (commonSetup_of_empty hraw) (.after (M.modify_apply ..) (.after consumed
    (.after (byte rfl) (.after (byte rfl) (.after (byte rfl) (.after (byte rfl) (.after setup (.bind restart))))))))

end Blzw

end Sys2Proof.Machine

open Sys2Proof Sys2Proof.Machine

/-- Settles O53: a turn of LHLB follows its reading and then writes the token or refuses it; on an empty output BLZW writes
its first code, while the loops of LHLB and MASH end before their first turn. -/
theorem emptyOutputs : Obligations.EmptyOutputs := by
  refine ⟨fun s f tree reach hdhuf hf hstart hstop hreach hset hwhole => ?_, fun s hs hraw =>
    ⟨fun m hv0 hv1 body code hchunk hmin hmax hbody hcode hlt => ?_, ?_, ?_⟩⟩
  · have reads := lhlbTurn_reads (c := Config.core) ⟨hset, hwhole⟩ hdhuf
    split
    · next e hread => rwa [hread] at reads
    · next tree' token rest hread =>
      rw [hread] at reads
      split
      · next e hrefused => exact reads.raises hf hstop hreach hrefused
      · next hrefused => exact reads.writes hf hstart hstop hreach hrefused
  · exact exec_corrupted hs (blzwSequence_raises_overrun (s := beginCommand s) hraw hchunk hmin hmax hbody (hcode ▸ hlt))
  · exact run_ok hs (lhlbSequence_of_empty Config.core (s := beginCommand s) hraw) rfl
  · exact run_ok hs (mashSequence_of_empty Config.core (s := beginCommand s) hraw) rfl
end

section
/-! SUPPORT. What the DECOMPRESS commands leave in RAW (spec/43_decompress_common.md R242 to R247): from the setup on, the
bytes behind the writer hold values and those beyond the output are as before; and a command that ends has filled its
writer. -/

namespace Sys2Proof.Machine

/-! ## Invariants of the output -/

/-- The parts that an invariant of the output speaks of. -/
def outputParts : List Part := [.writer, .backWriter, .output]

/-- A body whose answers relate first and last state keeps an invariant that the relation keeps. -/
theorem Steady.stays {α : Type} {R : State → State → Prop} {P : State → Prop} {m : M α} (hm : Steady R m)
    (hP : ∀ s t, P s → R s t → P t) : Stays (SameWith P) m :=
  stays_of_ok fun s _ t hs e => hP s t hs (by have := hm s; rwa [Goes, e] at this)

section OutputInvariant

variable {α : Type} {P : State → Prop} (hP : SpeaksOf outputParts P)

include hP

/-- A body that writes neither a writer nor RAW. -/
theorem output_frame {ps : List Part} {m : M α} (hm : Keeps (Changes ps) m)
    (h : ∀ p ∈ outputParts, p ∉ ps := by decide) : Stays (SameWith P) m :=
  stays_of_changes hP hm h

/-- An update of a part that is neither a writer nor RAW. -/
theorem output_owns {β : Type} {read : State → β} {write : β → State → State} {p : Part}
    (hw : ∀ v s, Changes [p] s (write v s)) (hp : ∀ q ∈ outputParts, q ∉ [p] := by decide) :
    Owns (SameWith P) read write where
  read h := congrArg read h.1
  write v h := ⟨by rw [h.1], hP _ _ (fun q hq => hw v _ q (hp q hq)) h.2⟩

theorem output_readerOps : ReaderOps (SameWith P) where
  chunk h := congrArg State.chunk h.1
  chunkLen h := congrArg State.chunkLen h.1
  fcur h := congrArg State.fcur h.1
  bitsCnt h := congrArg State.bitsCnt h.1
  fcurSet start stop := output_frame hP (fcurSet_changes start stop)
  fcurRdb := output_frame hP fcurRdb_changes
  fcurConsume n := output_frame hP (fcurConsume_changes n)
  takeBits n := output_frame hP (takeBits_changes n)
  bitsReset seed n _ := output_frame hP (bitsReset_changes seed n)

theorem output_tableOps : TableOps (fun _ => True) (SameWith P) where
  slot _ h := by rw [h.1]
  setSlot t es _ := output_frame hP (setSlot_changes t es)
  hufInsert _ c l code sym := output_frame hP (hufInsert_changes c _ l code sym)

theorem output_lensOps : LensOps fun _ => SameWith P where
  forget h := h
  writeLenm i b := output_frame hP (writeLenm_changes i b)
  hufBuild c t n := output_frame hP (hufBuild_changes c t n)

theorem output_listOps : ListOps (SameWith P) where
  mtf1 h := congrArg State.mtf1 h.1
  mtfInit l n := output_frame hP (mtfInit_changes l n)
  mtfAccess l j := output_frame hP (mtfAccess_changes l j)

theorem output_blockOps : BlockOps (fun _ => True) (SameWith P) where
  bz h := congrArg State.bz h.1
  selectors _ _ _ _ _ := trivial
  write b _ h := (output_owns hP (read := State.bz) (p := .block) fun v s => modify_bz (fun _ => v) s).write b h

theorem output_ownsLzw : OwnsLzw (SameWith P) := output_owns hP (p := .dictionary) fun v s => modify_lzw (fun _ => v) s

theorem output_ownsDhuf : OwnsDhuf (SameWith P) := output_owns hP (p := .tracker) fun v s => modify_dhuf (fun _ => v) s

theorem output_ownsSmplAcc : OwnsSmplAcc (SameWith P) :=
  output_owns hP (p := .smpl) fun v s => modify_smpl (fun _ => v) s

theorem output_ownsSqshQ : OwnsSqshQ (SameWith P) := output_owns hP (p := .sqsh) fun v s => modify_sqshQ (fun _ => v) s

theorem output_ownsSqshSample : OwnsSqshSample (SameWith P) :=
  output_owns hP (p := .sqsh) fun v s => modify_sqshSample (fun _ => v) s

theorem output_macroEnd : Stays (SameWith P) macroEnd := output_frame hP macroEnd_changes

end OutputInvariant

/-! ## The forward writer -/

/-- A forward writer over the output of a command that began in `s₀`: the bytes behind it hold values, and those beyond
the output are as they were. -/
def Filling (s₀ t : State) : Prop :=
  ∃ pos : Word, t.fwr = some { start := 0#32, pos := pos, stop := s₀.rawLen } ∧ pos.toNat ≤ s₀.rawLen.toNat ∧
    (∀ k, k < pos.toNat → ∃ b, storeRead t.raw k = some b) ∧
    ∀ k, s₀.rawLen.toNat ≤ k → storeRead t.raw k = storeRead s₀.raw k

theorem filling_speaks (s₀ : State) : SpeaksOf outputParts (Filling s₀) := by
  rintro s t h ⟨pos, hf, hpos, hbelow, hbeyond⟩
  have hw : s.fwr = t.fwr := h .writer (by decide)
  have hr : s.raw = t.raw := h .output (by decide)
  exact ⟨pos, hw ▸ hf, hpos, hr ▸ hbelow, hr ▸ hbeyond⟩

/-- Writing inside the span fills more of the output. -/
theorem Filling.writes {s₀ s t : State} {c : Nat} (h : Filling s₀ s) (hw : Writes c s t) : Filling s₀ t := by
  obtain ⟨pos, hf, hpos, hbelow, hbeyond⟩ := h
  obtain ⟨f, hf', hle, ht⟩ := hw
  obtain rfl := Option.some.inj (hf.symm.trans hf')
  have hadd := fwr_pos_add hle
  refine ⟨toWord (pos.toNat + c), by rw [ht.state], by rwa [hadd], fun k hk => ?_, fun k hk => ?_⟩
  · rw [hadd] at hk
    rcases Nat.lt_or_ge k pos.toNat with hlt | hge
    · rw [ht.other k (.inl hlt)]
      exact hbelow k hlt
    · exact ht.filled k hge hk
  · rw [ht.other k (.inr (hle.trans hk))]
    exact hbeyond k hk

theorem filling_writerOps (s₀ : State) : WriterOps (SameWith (Filling s₀)) where
  fwr h := congrArg State.fwr h.1
  written h _ _ := by rw [h.1]
  fwrWrb b := (fwrWrb_writes b).stays fun _ _ => Filling.writes
  fwrCopy d c := ((fwrCopy_writes d c).stays fun _ _ => Filling.writes).post fun _ _ h =>
    ⟨h, fun _ _ => by rw [h.1]⟩

theorem filling_commonSetup (s₀ : State) : Sim (At s₀ s₀) (SameWith (Filling s₀)) commonSetup commonSetup := by
  rintro _ _ ⟨rfl, rfl⟩
  rw [commonSetup_eq]
  exact .ok ⟨rfl, 0#32, rfl, Nat.zero_le _, fun _ hk => absurd hk (Nat.not_lt_zero _), fun _ _ => rfl⟩

theorem filling_shriTurn (s₀ : State) (c : Config) : Stays (SameWith (Filling s₀)) (shriTurn c) :=
  have hP := filling_speaks s₀
  (output_frame hP (ariDecsym_changes c)).bind fun _ => (output_frame hP (ariUpdate_changes c _)).bind fun _ =>
    Sim.ite (((filling_writerOps s₀).fwrWrb _).bind fun _ => .pure _)
      (Sim.bind (Sim.ite
        ((output_frame hP (ariGetcode_changes c 16)).bind fun _ => (output_frame hP (ariGetcode_changes c 16)).bind fun _ => .pure _)
        ((output_frame hP (ariMatch_changes c _)).bind fun _ => .pure _)) fun _ =>
        ((fwrCopyh_writes _ _).stays fun _ _ => Filling.writes).bind fun _ => .pure _)

theorem filling_shriSequence (s₀ : State) (c : Config) :
    Sim (At s₀ s₀) (SameWith (Filling s₀)) (shriSequence c) (shriSequence c) := by
  have hP := filling_speaks s₀
  refine (filling_commonSetup s₀).bind fun _ => (output_frame hP (shriVersion_changes c)).bind fun _ =>
    (output_frame hP chunkBytes_changes).bind fun bytes => ?_
  cases c.shriHeader bytes with
  | none => exact .raise _
  | some h =>
    exact (output_frame hP get_changes).bind fun _ => (output_frame hP (fcurSet_changes _ _)).bind fun _ =>
      (output_frame hP (bitsReset_changes _ _)).bind fun _ => (output_frame hP fwrRoom_changes).bind fun _ => (output_frame hP get_changes).bind fun _ =>
      (whileNotEof_stays (filling_writerOps s₀) sameWith_progress (filling_shriTurn s₀ c) _).bind fun _ =>
      (output_frame hP (histPush_changes c)).bind fun _ => output_macroEnd hP

/-- The seven sequencers with a forward writer keep the invariant from their setup to their end. -/
theorem bodyOf_filling {i : Instr} (hi : i ∈ macros) (hr : i ≠ .decompressRake) (s₀ : State) :
    Sim (At s₀ s₀) (SameWith (Filling s₀)) (bodyOf i) (bodyOf i) := by
  have hP := filling_speaks s₀
  have r := output_readerOps hP
  have w := filling_writerOps s₀
  have setup := filling_commonSetup s₀
  have done := output_macroEnd hP
  have clear (t : Fin 16) : Stays (SameWith (Filling s₀)) (hufClear t) := output_frame hP (setSlot_changes t [])
  simp only [macros, statelessMacros, List.mem_cons, List.not_mem_nil, or_false] at hi
  rcases hi with rfl | rfl | rfl | rfl | rfl | rfl | rfl | rfl
  · exact filling_shriSequence s₀ _
  · exact blzwSequence_sim setup (output_frame hP (modify_lzw _)) r w (output_ownsLzw hP) sameWith_progress done
  · exact bzp2Sequence_sim (L := fun _ => SameWith (Filling s₀)) setup (output_frame hP clearBzp2_changes) (fun _ => r) w
      (fun _ => output_tableOps hP) (output_lensOps hP) (output_blockOps hP) (output_listOps hP) knowsSlots_all done _
  · exact lhlbSequence_sim setup (output_frame hP (modify_dhuf _)) r w (output_ownsDhuf hP) sameWith_progress done _
  · exact mashSequence_sim setup (clear 0) r w sameWith_progress done _
  · exact absurd rfl hr
  · exact smplSequence_sim (L := fun _ => SameWith (Filling s₀)) setup (output_frame hP (modify_smpl _)) r (clear 0)
      (fun _ => r) w (output_tableOps hP) trivial (output_lensOps hP) (output_ownsSmplAcc hP) sameWith_progress done _
  · exact sqshSequence_sim setup clear (output_frame hP (modify_sqsh _ _)) r w (output_ownsSqshQ hP)
      (output_ownsSqshSample hP) sameWith_progress done _

/-! ## The backward writer -/

/-- A backward writer over the output of a command that began in `s₀`. -/
def BackFilling (s₀ t : State) : Prop :=
  ∃ pos : Word, t.bwr = some { top := s₀.rawLen, pos := pos, floor := 0#32 } ∧ pos.toNat ≤ s₀.rawLen.toNat ∧
    (∀ k, pos.toNat ≤ k → k < s₀.rawLen.toNat → ∃ b, storeRead t.raw k = some b) ∧
    ∀ k, s₀.rawLen.toNat ≤ k → storeRead t.raw k = storeRead s₀.raw k

theorem backFilling_speaks (s₀ : State) : SpeaksOf outputParts (BackFilling s₀) := by
  rintro s t h ⟨pos, hf, hpos, habove, hbeyond⟩
  have hw : s.bwr = t.bwr := h .backWriter (by decide)
  have hr : s.raw = t.raw := h .output (by decide)
  exact ⟨pos, hw ▸ hf, hpos, hr ▸ habove, hr ▸ hbeyond⟩

theorem BackFilling.writes {s₀ s t : State} {c : Nat} (h : BackFilling s₀ s) (hw : WritesBack c s t) :
    BackFilling s₀ t := by
  obtain ⟨pos, hf, hpos, habove, hbeyond⟩ := h
  obtain ⟨f, hf', hle, ht⟩ := hw
  obtain rfl := Option.some.inj (hf.symm.trans hf')
  have hsub := bwr_pos_sub { top := s₀.rawLen, pos := pos, floor := 0#32 } c
  refine ⟨toWord (pos.toNat - c), by rw [ht.state], by rw [hsub]; exact (Nat.sub_le _ _).trans hpos,
    fun k hk hlt => ?_, fun k hk => ?_⟩
  · rw [hsub] at hk
    rcases Nat.lt_or_ge k pos.toNat with hlow | hge
    · exact ht.filled k hlow (Nat.sub_le_iff_le_add.1 hk)
    · rw [ht.other k (.inl hge)]
      exact habove k hge hlt
  · rw [ht.other k (.inl (hpos.trans hk))]
    exact hbeyond k hk

theorem backFilling_backwardOps (s₀ : State) : BackwardOps (SameWith (BackFilling s₀)) where
  bwr h := congrArg State.bwr h.1
  bcurSet floor start := output_frame (backFilling_speaks s₀) (bcurSet_changes floor start)
  bcurRdb := output_frame (backFilling_speaks s₀) bcurRdb_changes
  bwrWrb b := (bwrWrb_writes b).stays fun _ _ => BackFilling.writes
  bwrCopy d c := (bwrCopy_writes d c).stays fun _ _ => BackFilling.writes

theorem backFilling_rakeSetup (s₀ : State) : Sim (At s₀ s₀) (SameWith (BackFilling s₀)) rakeSetup rakeSetup := by
  rintro _ _ ⟨rfl, rfl⟩
  rw [rakeSetup_eq]
  exact .ok ⟨rfl, _, rfl, le_rfl, fun _ hk hk' => absurd hk' (Nat.not_lt.2 hk), fun _ _ => rfl⟩

theorem backFilling_rakeSequence (s₀ : State) (c : Config) :
    Sim (At s₀ s₀) (SameWith (BackFilling s₀)) (rakeSequence c) (rakeSequence c) :=
  have hP := backFilling_speaks s₀
  rakeSequence_sim (L := fun _ => SameWith (BackFilling s₀)) (backFilling_rakeSetup s₀) (output_readerOps hP)
    (fun _ => (output_frame hP get_changes).bind fun _ => (output_frame hP (bcurSet_changes _ _)).bind fun _ =>
      (output_frame hP (fcurSet_changes _ _)).bind fun _ => output_frame hP (bitsReset_changes _ _))
    (output_readerOps hP) (backFilling_backwardOps s₀) (output_tableOps hP) trivial (output_lensOps hP) sameWith_progress
    (output_macroEnd hP) c

/-! ## The end of a command -/

/-- What a body that keeps an invariant from its setup on leaves. -/
theorem Sim.keeps_from {s₀ t : State} {P : State → Prop} {m : M Unit} (h : Sim (At s₀ s₀) (SameWith P) m m)
    (e : m s₀ = .ok () t) : P t := by
  have := h s₀ s₀ ⟨rfl, rfl⟩
  rw [e] at this
  cases this with
  | ok h => exact h.2

/-- Where a loop leaves the writer full and nothing after it writes, it stays full. -/
theorem Ends.full_then {ps : List Part} {x : M Unit} {f : Unit → M Unit} (hx : Ends FwrFull x)
    (hf : Keeps (Changes ps) (f ())) (hp : .writer ∉ ps) : Ends FwrFull (x >>= f) := by
  intro s t h
  rw [M.bind_apply] at h
  cases e : x s with
  | error r u => rw [e] at h; cases h
  | ok a u =>
    rw [e] at h
    obtain ⟨w, hw, hfull⟩ := hx s u e
    have same : u.fwr = t.fwr := hf.ok h .writer hp
    exact ⟨w, same ▸ hw, hfull⟩

theorem shriSequence_full (c : Config) : Ends FwrFull (shriSequence c) := by
  refine .bind fun _ => .bind fun _ => .bind fun bytes => ?_
  cases c.shriHeader bytes with
  | none => exact .raise _
  | some h =>
    exact .bind fun _ => .bind fun _ => .bind fun _ => .bind fun _ => .bind fun _ =>
      (whileNotEof_ends (.bind fun _ => .bind fun _ => .ite (.bind fun _ => .pure_true)
        (.bind fun _ => .bind fun _ => .pure_true)) _).full_then
        (bind_changes (histPush_changes c) fun _ => macroEnd_changes) (by decide)

/-- A sequencer with a forward writer ends with it full. -/
theorem bodyOf_full {i : Instr} (hi : i ∈ macros) (hr : i ≠ .decompressRake) : Ends FwrFull (bodyOf i) := by
  simp only [macros, statelessMacros, List.mem_cons, List.not_mem_nil, or_false] at hi
  rcases hi with rfl | rfl | rfl | rfl | rfl | rfl | rfl | rfl
  · exact shriSequence_full _
  · exact fun s t h => (blzwSequence_ends s t h).2
  · exact fun s t h => (bzp2Sequence_ends _ s t h).2
  · exact fun s t h => (lhlbSequence_ends _ s t h).2
  · exact fun s t h => (mashSequence_ends _ s t h).2
  · exact absurd rfl hr
  · exact fun s t h => (smplSequence_ends _ s t h).2
  · exact fun s t h => (sqshSequence_ends _ s t h).2

/-- RES holds no value. -/
def NoResult (t : State) : Prop := t.res0 = none ∧ t.res1 = none

theorem macroEnd_noResult : Ends NoResult macroEnd := by
  intro s t h
  rw [macroEnd_eq] at h
  cases h
  exact ⟨rfl, rfl⟩

/-- Every sequencer ends in macroEnd, after which RES holds no value. -/
theorem bodyOf_noResult {i : Instr} (hi : i ∈ macros) : Ends NoResult (bodyOf i) := by
  have done := macroEnd_noResult
  simp only [macros, statelessMacros, List.mem_cons, List.not_mem_nil, or_false] at hi
  rcases hi with rfl | rfl | rfl | rfl | rfl | rfl | rfl | rfl
  · refine .bind fun _ => .bind fun _ => .bind fun bytes => ?_
    cases Config.core.shriHeader bytes with
    | none => exact .raise _
    | some h =>
      exact .bind fun _ => .bind fun _ => .bind fun _ => .bind fun _ => .bind fun _ => .bind fun _ => .bind fun _ => done
  · exact .bind fun _ => .bind fun _ => .bind fun _ => .bind fun _ => .bind fun _ => .bind fun _ => .bind fun _ =>
      .bind fun _ => .bind fun _ => .bind fun _ => .bind fun _ => done
  · exact .bind fun _ => .bind fun _ => .bind fun _ => .bind fun _ => .bind fun _ => .bind fun _ => .bind fun _ =>
      .ite (fun _ => .raise _) fun _ => .bind fun _ => .bind fun _ => .bind fun _ => .bind fun _ =>
        .ite (fun _ => done) fun _ => .raise _
  · exact .bind fun _ => .bind fun _ => .bind fun _ => .bind fun _ => .bind fun _ => done
  · exact .bind fun _ => .bind fun _ => .bind fun _ => .bind fun _ => done
  · refine .bind fun _ => .bind fun bytes => ?_
    cases Config.core.rakeHeader bytes with
    | none => exact .raise _
    | some h => exact .bind fun _ => .bind fun _ => .bind fun _ => .bind fun _ => .bind fun _ => done
  · refine .bind fun _ => .bind fun _ => .bind fun bytes => ?_
    cases Config.core.smplHeader bytes with
    | none => exact .raise _
    | some f =>
      exact .bind fun _ => .bind fun _ => .bind fun _ => .bind fun _ => .bind fun _ => .bind fun _ => done
  · refine .bind fun _ => .bind fun _ => .bind fun _ => .bind fun _ => .bind fun _ => .bind fun bytes => ?_
    cases Config.core.sqshHeader bytes with
    | none => exact .raise _
    | some f =>
      exact .bind fun _ => .bind fun _ => .bind fun _ => .bind fun _ => .bind fun _ => .bind fun _ => done

/-- A command that ends without error is the run of its body to its end. -/
theorem body_of_unfaulted {i : Instr} (hi : i ≠ .instReset) {s t : State} (hs : s.status.faulted = false)
    (h : exec i s = .next t) (ht : t.status.faulted = false) :
    ∃ u, bodyOf i (beginCommand s) = .ok () u ∧ t = endCommand u := by
  rw [exec_eq_runCommand hi] at h
  rcases runCommand_cases (usesAri i) (bodyOf i) s with
    ⟨hf, e⟩ | ⟨_, ⟨u, hu, e⟩ | ⟨c, u, _, e⟩ | ⟨u, _, e⟩ | ⟨u, _, e⟩⟩
  all_goals obtain rfl := Host.Outcome.next.inj (e.symm.trans h)
  · exact absurd (hf.symm.trans hs) (by decide)
  · exact ⟨u, hu, rfl⟩
  all_goals simp at ht

/-- A forward writer that is full stands at the end of the output. -/
theorem Filling.full {s₀ t : State} (h : Filling s₀ t) (hfull : FwrFull t) :
    t.fwr = some { start := 0#32, pos := s₀.rawLen, stop := s₀.rawLen } ∧
      ∀ k, k < s₀.rawLen.toNat → ∃ b, storeRead t.raw k = some b := by
  obtain ⟨pos, hf, _, hbelow, _⟩ := h
  obtain ⟨f, hf', hpos⟩ := hfull
  obtain rfl := Option.some.inj (hf.symm.trans hf')
  obtain rfl : pos = s₀.rawLen := hpos
  exact ⟨hf, hbelow⟩

/-- A backward writer that is full stands at the start of the output. -/
theorem BackFilling.full {s₀ t : State} (h : BackFilling s₀ t) (hfull : BwrFull t) :
    t.bwr = some { top := s₀.rawLen, pos := 0#32, floor := 0#32 } ∧
      ∀ k, k < s₀.rawLen.toNat → ∃ b, storeRead t.raw k = some b := by
  obtain ⟨pos, hf, _, habove, _⟩ := h
  obtain ⟨f, hf', hpos⟩ := hfull
  obtain rfl := Option.some.inj (hf.symm.trans hf')
  obtain rfl : pos = 0#32 := hpos
  exact ⟨hf, fun k => habove k (Nat.zero_le k)⟩

/-- A sequencer that ends has filled its writer and written nothing beyond the output. -/
theorem bodyOf_fills {i : Instr} (hi : i ∈ macros) {s t : State} (h : bodyOf i s = .ok () t) :
    (i ≠ .decompressRake → t.fwr = some { start := 0#32, pos := s.rawLen, stop := s.rawLen }) ∧
    (i = .decompressRake → t.bwr = some { top := s.rawLen, pos := 0#32, floor := 0#32 }) ∧
    (∀ k, k < s.rawLen.toNat → ∃ b, storeRead t.raw k = some b) ∧
    (∀ k, s.rawLen.toNat ≤ k → storeRead t.raw k = storeRead s.raw k) := by
  by_cases hr : i = .decompressRake
  · subst hr
    have filling := (backFilling_rakeSequence s _).keeps_from h
    have full := filling.full (rakeSequence_ends _ _ _ h).2
    obtain ⟨_, _, _, _, hbeyond⟩ := filling
    exact ⟨fun hne => absurd rfl hne, fun _ => full.1, full.2, hbeyond⟩
  · have filling := (bodyOf_filling hi hr s).keeps_from h
    have full := filling.full (bodyOf_full hi hr _ _ h)
    obtain ⟨_, _, _, _, hbeyond⟩ := filling
    exact ⟨fun _ => full.1, fun he => absurd he hr, full.2, hbeyond⟩

end Sys2Proof.Machine

open Sys2Proof Sys2Proof.Machine

/-- Settles O14: `Filling` and `BackFilling` hold from the setup of a command to its end, where its writer is full. -/
theorem macroFillsOutput : Obligations.MacroFillsOutput := by
  intro i s t hi hs h ht
  have hne : i ≠ .instReset := by rintro rfl; exact absurd hi (by decide)
  obtain ⟨u, hu, rfl⟩ := body_of_unfaulted hne hs.1 h ht
  obtain ⟨hphase, hkind, hcause⟩ := bodyOf_macroDone hi _ _ hu
  obtain ⟨hres0, hres1⟩ := bodyOf_noResult hi _ _ hu
  have hlen : u.rawLen = s.rawLen := by have := bodyOf_rawLen i (beginCommand s); rwa [hu] at this
  have fills := bodyOf_fills hi hu
  exact ⟨⟨hkind, hcause, ht, rfl, hphase⟩, hres0, hres1, hlen, fills⟩

end

section
/-! SUPPORT. The units within their ranges (spec/44_blzw.md R267, spec/45_bzp2.md R302, spec/42_adaptive_huffman.md
R221). Each invariant speaks of one part of the state, so that only the commands that write the part have to be looked
at. -/

namespace Sys2Proof.Machine

/-! ## From one property of the state to another -/

/-- A body run where `P` holds leads, where it ends without a raise, to where `Q` holds. -/
abbrev Leads {α : Type} (P Q : State → Prop) (m : M α) : Prop := Sim (SameWith P) (SameWith Q) m m

section Rules

variable {α β : Type} {P Q : State → Prop}

theorem leads_of_ok {m : M α} (h : ∀ s a t, P s → m s = .ok a t → Q t) : Leads P Q m := by
  rintro s _ ⟨rfl, hs⟩
  cases e : m s with
  | ok a t => exact .ok ⟨rfl, h s a t hs e⟩
  | error r t => exact .error

theorem leads_pure (a : α) (h : ∀ s, P s → Q s) : Leads P Q (pure a : M α) :=
  leads_of_ok fun s _ t hs e => by cases e; exact h s hs

theorem leads_update {f : State → State} (h : ∀ s, P s → Q (f s)) : Leads P Q (modify f : M PUnit) :=
  leads_of_ok fun s _ t hs e => by cases e; exact h s hs

theorem leads_put {t : State} (h : Q t) : Leads P Q (set t : M PUnit) := Sim.put ⟨rfl, h⟩

theorem leads_need {o : Option β} {k : β → M α} (h : ∀ a, o = some a → Leads P Q (k a)) : Leads P Q (need o >>= k) := by
  cases o with
  | none => exact .raise _
  | some a => exact h a rfl

theorem leads_get {f : State → M α} (h : ∀ s, P s → Leads P Q (f s)) : Leads P Q (get >>= f) :=
  Sim.state fun s _ ⟨e, hs⟩ => e ▸ h s hs

/-- A register is read, which holds what the property says of it. -/
theorem leads_register {r : State → Option β} {k : β → M α} (h : ∀ s a, P s → r s = some a → Leads P Q (k a)) :
    Leads P Q (get >>= fun s => need (r s) >>= k) :=
  leads_get fun s hs => leads_need fun a ha => h s a hs ha

/-- A register is read, and holds what was read. -/
theorem leads_known {r : State → Option β} {k : β → M α} (h : ∀ a, Leads (fun s => P s ∧ r s = some a) Q (k a)) :
    Leads P Q (get >>= fun s => need (r s) >>= k) := by
  rintro s _ ⟨rfl, hs⟩
  show Alike _ ((need (r s) >>= k) s) ((need (r s) >>= k) s)
  cases e : r s with
  | none => exact .error
  | some a => exact h a s s ⟨rfl, hs, e⟩

/-- A body that writes other parts than the one the property speaks of. -/
theorem part_frame {p : Part} (hP : SpeaksOf [p] P) {ps : List Part} {m : M α} (hm : Keeps (Changes ps) m)
    (h : p ∉ ps := by decide) : Leads P P m :=
  stays_of_changes hP hm fun _ hq => List.mem_singleton.1 hq ▸ h

end Rules

/-! ## From the bodies to the step -/

/-- The parts of the units with ranges. -/
def rangeParts : List Part := [.dictionary, .block, .tracker]

theorem agree_of_mem_rangeParts {s t : State} {p : Part} (hp : p ∈ rangeParts)
    (h : (s.lzw, s.bz, s.dhuf) = (t.lzw, t.bz, t.dhuf)) : p.Agree s t := by
  simp only [Prod.mk.injEq] at h
  simp only [rangeParts, List.mem_cons, List.not_mem_nil, or_false] at hp
  rcases hp with rfl | rfl | rfl <;> simp only [Part.Agree, h]

theorem illegalCommand_units (s : State) :
    (s.lzw, s.bz, s.dhuf) = ((illegalCommand s).lzw, (illegalCommand s).bz, (illegalCommand s).dhuf) := by
  unfold illegalCommand
  split <;> rfl

/-- An invariant of a unit that holds at reset and where everything is lost is kept by every step, where the bodies that
write the unit keep it. -/
theorem unit_step {p : Part} (hp : p ∈ rangeParts) {P : State → Prop} (hP : SpeaksOf [p] P) (reset : P State.reset)
    (lost : ∀ d k c s, P (errorEntry d k c s)) (bodies : ∀ i, p ∈ writesOf i → Leads P P (bodyOf i)) :
    ∀ s t, P s → step s = .next t → P t := by
  have apart : ∀ q ∈ rangeParts, q ∉ [Part.host, .lengths] ∧ q ≠ .phase := by decide
  have same {s t : State} (h : (s.lzw, s.bz, s.dhuf) = (t.lzw, t.bz, t.dhuf)) (hs : P s) : P t :=
    hP s t (fun q hq => List.mem_singleton.1 hq ▸ agree_of_mem_rangeParts hp h) hs
  have keeps (i : Instr) : Leads P P (bodyOf i) := by
    by_cases hi : p ∈ writesOf i
    · exact bodies i hi
    · exact part_frame hP (bodyOf_changes i) (notMem_bodyWrites (apart p hp).2 hi)
  refine step_invariant (fun s t hc _ hs => hP s t (fun q hq => hc q (List.mem_singleton.1 hq ▸ (apart p hp).1)) hs)
    (fun s hs => same (illegalCommand_units s) hs) (exec_invariant ?_ ?_ ?_)
  · intro s _ t h
    obtain rfl := Host.Outcome.next.inj h
    exact same (s := State.reset) rfl reset
  · exact fun i s t _ _ _ hs h => same (s := t) rfl ((keeps i).keeps (same (s := s) (t := beginCommand s) rfl hs) h)
  · exact fun i s e t k c _ _ _ _ _ _ => lost _ _ _ _

/-! ## The LZW dictionary -/

/-- The previous code names a string, or it is the code that a full dictionary did not take. -/
def PrevForm (l : Lzw) : Prop :=
  ∀ f p, l.freeIndex = some f → l.prevCode = some p →
    p.toNat < 256 ∨ (259 ≤ p.toNat ∧ (p.toNat < f ∨ (p.toNat = f ∧ ∃ m, l.maxBits = some m ∧ f = 2 ^ m)))

/-- The dictionary between commands. -/
def DictionaryForm (l : Lzw) : Prop := LzwForm l ∧ PrevForm l

/-- A body that leads from one form of the LZW unit to another. -/
abbrev LeadsLzw {α : Type} (P Q : Lzw → Prop) (m : M α) : Prop := Leads (fun s => P s.lzw) (fun s => Q s.lzw) m

theorem lzw_speaks (P : Lzw → Prop) : SpeaksOf [.dictionary] fun s => P s.lzw := fun s t h hs => by
  have same : s.lzw = t.lzw := h .dictionary (by decide)
  show P t.lzw
  rw [← same]
  exact hs

theorem lzw_frame {P : Lzw → Prop} {α : Type} {ps : List Part} {m : M α} (hm : Keeps (Changes ps) m)
    (h : .dictionary ∉ ps := by decide) : LeadsLzw P P m :=
  part_frame (lzw_speaks P) hm h

/-- What Emit may write: the stack, and newCode with a byte. -/
structure EmitStable (P : Lzw → Prop) : Prop where
  stack : ∀ l stack pos, P l → P { l with stack := stack, stackPos := pos }
  newCode : ∀ l (w : Word), w.toNat < 256 → P l → P { l with newCode := some w }

theorem lzwForm_emitStable : EmitStable LzwForm where
  stack _ _ _ h := h
  newCode l w hw h := by
    obtain ⟨hmax, hlen, hwidth, _, hfree⟩ := h
    exact ⟨hmax, hlen, hwidth, fun v hv => by cases hv; exact hw, hfree⟩

theorem dictionaryForm_emitStable : EmitStable DictionaryForm where
  stack _ _ _ h := h
  newCode l w hw h := ⟨lzwForm_emitStable.newCode l w hw h.1, h.2⟩

section Emit

variable {P : Lzw → Prop} (hP : EmitStable P)

include hP

theorem lzwPush_leads (b : Byte) : LeadsLzw P P (lzwPush b) :=
  leads_get fun _ hs => leads_need fun _ _ => leads_put (hP.stack _ _ _ hs)

theorem emitWalk_leads (free room c : Nat) : LeadsLzw P P (emitWalk free room c) := by
  induction room generalizing c with
  | zero => exact (Sim.pure _).ite ((Sim.raise _).ite (.raise _))
  | succ room ih =>
    exact (Sim.pure _).ite ((Sim.raise _).ite (leads_register fun _ _ _ _ => (lzwPush_leads hP _).bind fun _ =>
      leads_register fun _ _ _ _ => ih _))

theorem emitPops_leads (p : Nat) : LeadsLzw P P (emitPops p) := by
  induction p with
  | zero => exact .pure _
  | succ p ih =>
    exact Sim.bind (leads_update fun _ hs => hP.stack _ _ _ hs) fun _ => leads_register fun _ _ _ _ =>
      (lzw_frame (fwrWrb_changes _)).bind fun _ => ih

theorem emitChain_leads (code : Nat) : LeadsLzw P P (emitChain code) :=
  (Sim.pure _).ite (leads_register fun _ _ _ _ => (Sim.raise _).ite (leads_register fun _ _ _ _ =>
    emitWalk_leads hP _ _ _))

/-- Emit raises on a first code that is no literal, so it leaves a byte in newCode (spec/44_blzw.md R264). -/
theorem lzwEmit_leads (code : Nat) : LeadsLzw P P (lzwEmit code) :=
  Sim.bind (leads_update fun _ hs => hP.stack _ _ _ hs) fun _ => (emitChain_leads hP code).bind fun c =>
    Sim.branch (fun _ => .raise _) fun hc => (lzwPush_leads hP _).bind fun _ =>
      Sim.bind (leads_update fun _ hs => hP.newCode _ _
        ((toWord_toNat c).trans_lt ((Nat.mod_le _ _).trans_lt (Nat.not_le.1 hc))) hs) fun _ =>
        leads_register fun _ _ _ _ => emitPops_leads hP _

theorem lzwOutput_leads (code free : Nat) : LeadsLzw P P (lzwOutput code free) :=
  Sim.ite (leads_register fun _ _ _ _ => leads_register fun _ _ _ _ => (lzwEmit_leads hP _).bind fun _ =>
    lzw_frame (fwrWrb_changes _)) (lzwEmit_leads hP _)

end Emit

theorem dictionaryForm_unset : DictionaryForm Lzw.unset :=
  ⟨⟨nofun, nofun, nofun, nofun, nofun⟩, nofun⟩

theorem lzwSetup_leads (m n : Nat) : LeadsLzw DictionaryForm DictionaryForm (lzwSetup m n) := by
  refine leads_of_ok fun s _ t hs h => ?_
  rw [lzwSetup_eq] at h
  split at h
  · cases h
  · split at h
    · cases h
    · cases h
      refine ⟨⟨fun _ e => ?_, fun _ e => ?_, nofun, nofun, nofun⟩, nofun⟩
      · cases e; omega
      · cases e; rw [toWord_toNat_of_lt (by omega)]; omega

/-- A restart leaves no entry to speak of (R265). -/
theorem LzwForm.restarted {l : Lzw} (h : LzwForm l) :
    LzwForm { l with codeBits := some 9, freeIndex := some lzwFirstFree } := by
  obtain ⟨hmax, hlen, _, hnew, _⟩ := h
  refine ⟨hmax, hlen, fun c e => by cases e; exact le_rfl, hnew, fun f e => ?_⟩
  cases e
  refine ⟨le_rfl, fun m hm => ?_, fun i hi hlt => absurd hlt (Nat.not_lt.2 hi)⟩
  exact (by decide : lzwFirstFree ≤ 2 ^ 9).trans (Nat.pow_le_pow_right (by decide) (hmax m hm).1)

theorem LzwForm.withLiteral {l : Lzw} (h : LzwForm l) {c : Nat} (hc : c < 256) :
    DictionaryForm { l with prevCode := some (toWord c) } :=
  ⟨h, fun _ _ _ e => by cases e; exact .inl ((toWord_toNat c).trans_lt ((Nat.mod_le _ _).trans_lt hc))⟩

theorem lzwRestart_leads : LeadsLzw DictionaryForm DictionaryForm lzwRestart :=
  leads_register fun _ _ _ _ => Sim.bind (F := SameWith fun s => LzwForm s.lzw)
    (leads_update fun _ hs => hs.1.restarted) fun _ => (lzw_frame (rd_changes 9)).bind fun c =>
      Sim.branch (fun _ => .raise _) fun hcontrol => Sim.branch (fun _ => .raise _) fun habove =>
        Sim.bind (leads_update fun _ hs => LzwForm.withLiteral hs (by omega)) fun _ =>
          lzwEmit_leads dictionaryForm_emitStable _

/-- What the new entry of a step can be: none where the dictionary is full, else the previous code and the first byte of
the string (R266). -/
theorem lzwInsert_cases {s t : State} {u : Unit} (h : lzwInsert s = .ok u t) :
    ∃ free m, s.lzw.freeIndex = some free ∧ s.lzw.maxBits = some m ∧
      (2 ^ m ≤ free ∧ t = s ∨
        free < 2 ^ m ∧ ∃ first prev, s.lzw.newCode = some first ∧ s.lzw.prevCode = some prev ∧
          t = { s with
            lzw := { s.lzw with
              suffixes := storeWrite s.lzw.suffixes (free - 259) (truncByte first.toNat),
              prefixes := storeWrite s.lzw.prefixes (free - 259) prev, freeIndex := some (free + 1) } }) := by
  rw [lzwInsert_eq] at h
  split at h
  · next free m hfree hmax =>
    refine ⟨free, m, hfree, hmax, ?_⟩
    split at h
    · next hlt =>
      split at h
      · next first prev hnew hprev =>
        cases h
        exact .inr ⟨hlt, first, prev, hnew, hprev, rfl⟩
      · cases h
    · next hge =>
      cases h
      exact .inl ⟨Nat.not_lt.1 hge, rfl⟩
  · cases h

/-- The entry of a step points to a literal or to a smaller entry. -/
theorem DictionaryForm.inserted {l : Lzw} (h : DictionaryForm l) {free m : Nat} {prev : Word} (b : Byte)
    (hfree : l.freeIndex = some free) (hmax : l.maxBits = some m) (hprev : l.prevCode = some prev) (hlt : free < 2 ^ m) :
    LzwForm { l with
      suffixes := storeWrite l.suffixes (free - 259) b, prefixes := storeWrite l.prefixes (free - 259) prev,
      freeIndex := some (free + 1) } := by
  obtain ⟨⟨hmaxBits, hlen, hwidth, hnew, hentries⟩, hp⟩ := h
  obtain ⟨hlow, _, below⟩ := hentries free hfree
  have points : prev.toNat < 256 ∨ (259 ≤ prev.toNat ∧ prev.toNat < free) := by
    rcases hp free prev hfree hprev with h | ⟨h, h' | ⟨_, m', hm', h'⟩⟩
    · exact .inl h
    · exact .inr ⟨h, h'⟩
    · obtain rfl := Option.some.inj (hmax.symm.trans hm')
      omega
  refine ⟨hmaxBits, hlen, hwidth, hnew, fun f e => ?_⟩
  cases e
  refine ⟨by omega, fun m' hm' => ?_, fun i hi hlt' => ?_⟩
  · obtain rfl := Option.some.inj (hmax.symm.trans hm')
    exact hlt
  · dsimp only
    rcases Nat.lt_or_ge i free with hold | hge
    · rw [storeRead_write_other _ _ (by omega), storeRead_write_other _ _ (by omega)]
      exact below i hi hold
    · obtain rfl : i = free := by omega
      exact ⟨prev, b, storeRead_write_same .., storeRead_write_same .., points⟩

/-- The dictionary before the new entry of a step, with `free` as next free index. -/
def FreeAt (free : Nat) (l : Lzw) : Prop := DictionaryForm l ∧ l.freeIndex = some free

/-- The dictionary after it, which a code up to `free` may join as the previous code. -/
def Inserted (free : Nat) (l : Lzw) : Prop :=
  LzwForm l ∧ ∃ m f, l.maxBits = some m ∧ free ≤ 2 ^ m ∧ l.freeIndex = some f ∧ (free < f ∨ free = f ∧ f = 2 ^ m)

theorem freeAt_emitStable (free : Nat) : EmitStable (FreeAt free) where
  stack _ _ _ h := h
  newCode l w hw h := ⟨dictionaryForm_emitStable.newCode l w hw h.1, h.2⟩

theorem lzwInsert_leads (free : Nat) : LeadsLzw (FreeAt free) (Inserted free) lzwInsert := by
  refine leads_of_ok fun s _ t ⟨hs, hfree⟩ h => ?_
  obtain ⟨free', m, hfree', hmax, hcase⟩ := lzwInsert_cases h
  obtain rfl := Option.some.inj (hfree.symm.trans hfree')
  obtain ⟨_, _, _, _, hentries⟩ := hs.1
  have hle := (hentries free hfree).2.1 m hmax
  rcases hcase with ⟨hfull, rfl⟩ | ⟨hlt, first, prev, _, hprev, rfl⟩
  · exact ⟨hs.1, m, free, hmax, hle, hfree, .inr ⟨rfl, hle.antisymm hfull⟩⟩
  · exact ⟨hs.inserted _ hfree hmax hprev hlt, m, free + 1, hmax, hle, rfl, .inl (Nat.lt_succ_self free)⟩

theorem Inserted.withCode {free code : Nat} {l : Lzw} (h : Inserted free l) (hle : code ≤ free)
    (hcode : code < 256 ∨ 259 ≤ code) : DictionaryForm { l with prevCode := some (toWord code) } := by
  obtain ⟨hform, m, f, hmax, hpow, hfree, hf⟩ := h
  refine ⟨hform, fun f' p e e' => ?_⟩
  obtain rfl := Option.some.inj (hfree.symm.trans e)
  cases e'
  have small : 2 ^ m ≤ 2 ^ 20 := Nat.pow_le_pow_right (by decide) (hform.1 m hmax).2
  rw [toWord_toNat_of_lt (by omega)]
  rcases hcode with hlit | hentry
  · exact .inl hlit
  · refine .inr ⟨hentry, ?_⟩
    rcases hf with hlt | ⟨heq, hfull⟩
    · exact .inl (by omega)
    · rcases Nat.lt_or_ge code f with hlt | hge
      · exact .inl hlt
      · exact .inr ⟨by omega, m, hmax, hfull⟩

theorem LzwForm.width {l : Lzw} (h : LzwForm l) {n : Nat} (hn : l.codeBits = some n) : 9 ≤ n := by
  obtain ⟨_, _, hwidth, _, _⟩ := h
  exact hwidth n hn

/-- A wider code. -/
theorem DictionaryForm.widened {l : Lzw} (h : DictionaryForm l) {n : Nat} (hn : 9 ≤ n) :
    DictionaryForm { l with codeBits := some (n + 1) } := by
  obtain ⟨⟨hmax, hlen, _, hrest⟩, hprev⟩ := h
  exact ⟨⟨hmax, hlen, fun c e => by cases e; omega, hrest⟩, hprev⟩

/-- The turn of a step that writes a string, adds an entry and keeps the code. -/
theorem lzwGrow_leads {code free : Nat} (hle : code ≤ free) (hcode : code < 256 ∨ 259 ≤ code) :
    LeadsLzw (FreeAt free) DictionaryForm (do
      lzwOutput code free
      lzwInsert
      modify fun s => { s with lzw := { s.lzw with prevCode := some (toWord code) } }
      pure code) :=
  (lzwOutput_leads (freeAt_emitStable free) code free).bind fun _ => (lzwInsert_leads free).bind fun _ =>
    Sim.bind (leads_update fun _ hs => Inserted.withCode hs hle hcode) fun _ => .pure _

theorem lzwStep_leads : LeadsLzw DictionaryForm DictionaryForm lzwStep := by
  refine leads_register fun s n hs hn => (lzw_frame (rd_changes n)).bind fun code => ?_
  refine Sim.branch (fun _ => .raise _) fun _ => Sim.branch (fun _ => lzwRestart_leads.bind fun _ => .pure _) fun _ =>
    Sim.branch (fun _ => ?_) fun _ => leads_known fun free => Sim.branch (fun _ => .raise _) fun hle => ?_
  · exact Sim.bind (leads_update fun _ ht => DictionaryForm.widened ht (hs.1.width hn)) fun _ => .pure _
  · exact lzwGrow_leads (Nat.not_lt.1 hle) (by omega)

theorem blzwSequence_leads : LeadsLzw DictionaryForm DictionaryForm blzwSequence := by
  have clear : LeadsLzw DictionaryForm DictionaryForm (modify fun s => { s with lzw := Lzw.unset }) :=
    leads_update fun _ _ => dictionaryForm_unset
  refine (lzw_frame commonSetup_changes).bind fun _ => clear.bind fun _ =>
    (lzw_frame (fcurConsume_changes 4)).bind fun _ => (lzw_frame (chunkByte_changes _)).bind fun _ =>
    (lzw_frame (chunkByte_changes _)).bind fun _ => (lzw_frame (chunkByte_changes _)).bind fun _ =>
    (lzw_frame (chunkByte_changes _)).bind fun _ => ?_
  refine (lzwSetup_leads _ _).bind fun _ => lzwRestart_leads.bind fun _ => leads_get fun _ _ =>
    Sim.bind (turnLoop_stays sameWith_progress ?_ (lzwStep_leads.bind fun _ => .pure _) _) fun _ =>
      lzw_frame macroEnd_changes
  exact (lzw_frame fwrEof_changes).bind fun _ => .pure _

theorem bodyOf_dictionary {i : Instr} (hi : .dictionary ∈ writesOf i) :
    LeadsLzw DictionaryForm DictionaryForm (bodyOf i) := by
  cases i with
  | instReset => exact .pure _
  | lzwSetup =>
    exact (lzw_frame readArg0_changes).bind fun _ => (lzw_frame readArg1_changes).bind fun _ => lzwSetup_leads _ _
  | lzwRestart => exact lzwRestart_leads
  | lzwStep => exact lzwStep_leads.bind fun _ => lzw_frame (setRes0_changes _)
  | decompressBlzw => exact blzwSequence_leads
  | _ => exact absurd hi (by simp [writesOf])

theorem step_dictionary : ∀ s t : State, DictionaryForm s.lzw → step s = .next t → DictionaryForm t.lzw :=
  unit_step (by decide) (lzw_speaks DictionaryForm) dictionaryForm_unset
    (fun d k c s => (errorEntry_lzw d k c s).symm ▸ dictionaryForm_unset) fun _ => bodyOf_dictionary

/-! ## The block buffer -/

/-- The block buffer between commands. -/
def BlockForm (z : Bz) : Prop :=
  ∀ n, z.blockSize = some n → 1 ≤ n ∧ n ≤ bzMaxBlock ∧ ∀ blk, z.blk = some blk → blk.length ≤ n

/-- The block buffer, with room for `k` bytes. -/
def BlockRoom (k : Nat) (z : Bz) : Prop := BlockForm z ∧ ∀ n, z.blockSize = some n → k ≤ n

/-- A body that leads from one form of the block pipeline to another. -/
abbrev LeadsBlock {α : Type} (P Q : Bz → Prop) (m : M α) : Prop := Leads (fun s => P s.bz) (fun s => Q s.bz) m

/-- A body that keeps the block buffer in form. -/
abbrev KeepsBlock {α : Type} (m : M α) : Prop := LeadsBlock BlockForm BlockForm m

theorem block_speaks (P : Bz → Prop) : SpeaksOf [.block] fun s => P s.bz := fun s t h hs => by
  have same : s.bz = t.bz := h .block (by decide)
  show P t.bz
  rw [← same]
  exact hs

theorem block_frame {P : Bz → Prop} {α : Type} {ps : List Part} {m : M α} (hm : Keeps (Changes ps) m)
    (h : .block ∉ ps := by decide) : LeadsBlock P P m :=
  part_frame (block_speaks P) hm h

/-- An update that leaves the block buffer and its size. -/
theorem block_update {g : Bz → Bz} (hsize : ∀ z, (g z).blockSize = z.blockSize := by intro _; rfl)
    (hblk : ∀ z, (g z).blk = z.blk := by intro _; rfl) : KeepsBlock (modify fun s => { s with bz := g s.bz }) :=
  leads_update fun s hs => by
    show BlockForm (g s.bz)
    unfold BlockForm
    rw [hsize, hblk]
    exact hs

theorem BlockRoom.withBlk {k : Nat} {z : Bz} (h : BlockRoom k z) {blk : List Byte} (hlen : blk.length ≤ k) :
    BlockForm { z with blk := some blk } := fun n hn =>
  ⟨(h.1 n hn).1, (h.1 n hn).2.1, fun _ e => by cases e; exact hlen.trans (h.2 n hn)⟩

theorem BlockForm.withoutBlk {z : Bz} (h : BlockForm z) : BlockForm { z with blk := none } := fun n hn =>
  ⟨(h n hn).1, (h n hn).2.1, nofun⟩

theorem blockForm_unset : BlockForm Bz.unset := nofun

theorem bzStart_leads (n : Nat) : KeepsBlock (bzStart n) := by
  refine Sim.branch (fun _ => .raise _) fun hn => Sim.bind (leads_update fun s _ => ?_) fun _ =>
    (block_frame (P := BlockForm) (setSlot_changes _ _)).bind fun _ => block_frame (setSlot_changes _ _)
  exact fun m hm => by cases hm; exact ⟨by omega, by omega, nofun⟩

/-- The check of R302 that the block does not grow past its size. -/
theorem checkCapacity_leads (k : Nat) : LeadsBlock BlockForm (BlockRoom k) (checkCapacity k) :=
  leads_known fun size => Sim.branch (fun _ => .raise _) fun hle => leads_pure _ fun s ⟨hs, hsize⟩ =>
    ⟨hs, fun n hn => by
      obtain rfl := Option.some.inj (hsize.symm.trans hn)
      exact Nat.not_lt.1 hle⟩

theorem appendRun_leads (run : Nat) : KeepsBlock (appendRun run) := by
  refine Sim.ite (leads_get fun _ _ => leads_need fun blk _ => (checkCapacity_leads _).bind fun _ => ?_) (.pure _)
  refine leads_need fun _ _ => leads_need fun _ _ => leads_need fun _ _ => leads_need fun b _ =>
    leads_update fun s hs => BlockRoom.withBlk hs ?_
  rw [List.length_append, List.length_replicate]

theorem flushRun_leads : KeepsBlock flushRun :=
  leads_register fun _ _ _ _ => (appendRun_leads _).bind fun _ =>
    block_update (g := fun z => { z with runLength := some 0, runWeight := some 1 })

theorem runSymbol_leads (sym : Nat) : KeepsBlock (runSymbol sym) :=
  leads_get fun s hs => leads_need fun _ _ => leads_need fun _ _ =>
    Sim.bind (F := SameWith fun s => BlockForm s.bz) (leads_put (by exact hs)) fun _ =>
      block_frame (checkCapacity_changes _)

theorem literalSymbol_leads (sym : Nat) : KeepsBlock (literalSymbol sym) := by
  refine flushRun_leads.bind fun _ => (block_frame (mtfAccess_changes _ _)).bind fun _ =>
    leads_get fun _ _ => leads_need fun blk _ => (checkCapacity_leads _).bind fun _ => ?_
  refine leads_need fun _ _ => leads_need fun b _ => leads_update fun s hs => BlockRoom.withBlk hs ?_
  rw [List.length_append, List.length_singleton]

theorem bodySymbol_leads (sym : Nat) : KeepsBlock (bodySymbol sym) :=
  (runSymbol_leads sym).ite (literalSymbol_leads sym)

theorem readBody_leads (nItems turns : Nat) (sels : List Nat) (tbl left : Nat) :
    KeepsBlock (readBody nItems turns sels tbl left) := by
  induction turns generalizing sels tbl left with
  | zero => exact .throw _
  | succ turns ih =>
    match left, sels with
    | 0, [] => exact .raise _
    | 0, g :: rest =>
      exact (block_frame (hufDecode_changes _ _)).bind fun _ => (Sim.pure _).ite
        ((bodySymbol_leads _).bind fun _ => ih _ _ _)
    | left + 1, sels =>
      exact (block_frame (hufDecode_changes _ _)).bind fun _ => (Sim.pure _).ite
        ((bodySymbol_leads _).bind fun _ => ih _ _ _)

theorem readBlockHeader_leads : KeepsBlock readBlockHeader := by
  have symbols : Keeps (Changes [.reader]) readSymbolMap :=
    bind_in (rd_changes 16) (by decide) fun _ => readDetails_changes _ _
  refine (block_frame (rd_changes _)).bind fun _ => (block_frame (rd_changes _)).bind fun x =>
    (block_update (g := fun z => { z with randomised := some (x == 1) })).bind fun _ =>
    (block_frame (rd_changes _)).bind fun p =>
    (block_update (g := fun z => { z with origPtr := some (BitVec.ofNat 24 p) })).bind fun _ =>
    (block_frame symbols).bind fun values =>
    (block_update (g := fun z => { z with values := some values })).bind fun _ => (Sim.raise _).ite ?_
  refine (block_frame (rd_changes _)).bind fun nGroups =>
    (block_update (g := fun z => { z with nGroups := some nGroups })).bind fun _ => (Sim.raise _).ite ?_
  refine (block_frame (rd_changes _)).bind fun nSelectors =>
    (block_update (g := fun z => { z with nSelectors := some nSelectors })).bind fun _ => (Sim.raise _).ite ?_
  exact (block_frame (mtfInit_changes _ _)).bind fun _ => (block_frame (readSelectors_changes _ _)).bind fun selectors =>
    (block_update (g := fun z => { z with selectors := some selectors })).bind fun _ => .pure _

theorem readBlock_leads (c : Config) : KeepsBlock (readBlock c) := by
  refine readBlockHeader_leads.bind fun nItems => leads_register fun _ _ _ _ =>
    (block_frame (readGroups_changes _ _ _ _)).bind fun _ => (block_frame (mtfInit_changes _ _)).bind fun _ =>
    leads_register fun _ _ _ _ => Sim.bind (F := SameWith fun s => BlockForm s.bz) (leads_update fun s hs => ?_)
      fun _ => ?_
  · exact BlockRoom.withBlk (k := 0) ⟨hs, fun _ _ => Nat.zero_le _⟩ le_rfl
  · exact leads_get fun _ _ => leads_need fun _ _ => (readBody_leads _ _ _ _ _).bind fun _ => flushRun_leads.bind fun _ =>
      leads_get fun _ _ => leads_need fun _ _ => leads_need fun _ _ => (Sim.raise _).ite (.pure _)

theorem bzBlock_leads (c : Config) : KeepsBlock (bzBlock c) :=
  (block_frame (rd_changes 32)).bind fun _ => (block_frame (rd_changes 16)).bind fun _ => Sim.ite
    ((block_frame (rd_changes 32)).bind fun _ => leads_register fun _ _ _ _ => (Sim.throw _).ite (.pure _))
    (Sim.ite ((readBlock_leads c).bind fun _ => .pure _) (.raise _))

theorem derandomise_leads (c : Config) (b : Byte) : KeepsBlock (derandomise c b) := by
  refine leads_get fun s hs => leads_need fun _ _ =>
    Sim.ite (leads_need fun nToGo _ => leads_need fun tPos _ => ?_) (.pure _)
  generalize (if nToGo = 0 then ((c.bzRandTable (Fin.ofNat 512 tPos) : Nat), (tPos + 1) % 512) else (nToGo, tPos)) = x
  exact Sim.bind (F := SameWith fun s => BlockForm s.bz) (leads_put (by exact hs)) fun _ => .pure _

theorem finalRle_leads (b : Byte) : KeepsBlock (finalRle b) :=
  leads_get fun _ _ => leads_need fun count _ => Sim.ite
    (leads_need fun _ _ => (block_frame (writeTimes_changes _ _)).bind fun _ =>
      block_update (g := fun z => { z with curCount := some 0 }))
    (Sim.ite
      ((block_frame (fwrWrb_changes b)).bind fun _ => block_update (g := fun z => { z with curCount := some (count + 1) }))
      ((block_update (g := fun z => { z with curCh := some b, curCount := some 1 })).bind fun _ =>
        block_frame (fwrWrb_changes b)))

theorem unbwtWalk_leads (c : Config) (blk : List Byte) (fwd : List Nat) (left p : Nat) :
    KeepsBlock (unbwtWalk c blk fwd left p) := by
  induction left generalizing p with
  | zero => exact .pure _
  | succ left ih =>
    exact leads_need fun _ _ => leads_need fun _ _ => (derandomise_leads c _).bind fun _ =>
      (finalRle_leads _).bind fun _ => ih _

theorem unbwtBlock_leads (c : Config) (blk : List Byte) : KeepsBlock (unbwtBlock c blk) :=
  Sim.ite ((block_update (g := fun z => { z with
      sums := some (countBytes blk), rank := some (sortBlock blk).1, fwd := some (sortBlock blk).2 })).bind fun _ =>
    leads_register fun _ _ _ _ =>
      (block_update (g := fun z => { z with curCount := some 0, rNToGo := some 0, rTPos := some 0 })).bind fun _ =>
        unbwtWalk_leads c blk _ _ _) (.pure _)

theorem bzUnbwt_leads (c : Config) : KeepsBlock (bzUnbwt c) :=
  leads_get fun _ _ => leads_need fun _ _ => leads_need fun _ _ => (unbwtBlock_leads c _).bind fun _ =>
    leads_get fun _ hs => leads_need fun _ _ => leads_need fun _ _ => leads_need fun _ _ =>
      leads_put (BlockForm.withoutBlk hs)

theorem bzp2Loop_leads (c : Config) (turns : Nat) : KeepsBlock (bzp2Loop c turns) := by
  induction turns with
  | zero => exact .throw _
  | succ turns ih => exact (bzBlock_leads c).bind fun _ => Sim.ite ((bzUnbwt_leads c).bind fun _ => ih) (.pure _)

theorem bzp2Sequence_leads (c : Config) : KeepsBlock (bzp2Sequence c) := by
  have clear : KeepsBlock (modify clearBzp2) := leads_update fun _ _ => blockForm_unset
  refine (block_frame commonSetup_changes).bind fun _ => clear.bind fun _ =>
    (block_frame (fcurConsume_changes 4)).bind fun _ => (block_frame (headerLetter_changes _ _)).bind fun _ =>
    (block_frame (headerLetter_changes _ _)).bind fun _ => (block_frame (headerLetter_changes _ _)).bind fun _ =>
    (block_frame (chunkByte_changes _)).bind fun _ => (Sim.raise _).ite ?_
  exact (bzStart_leads _).bind fun _ => leads_get fun _ _ => (bzp2Loop_leads c _).bind fun _ =>
    (block_frame fwrEof_changes).bind fun _ => (block_frame macroEnd_changes).ite (.raise _)

theorem bodyOf_block {i : Instr} (hi : .block ∈ writesOf i) : KeepsBlock (bodyOf i) := by
  cases i with
  | instReset => exact .pure _
  | bzStart => exact (block_frame readArg0_changes).bind fun _ => bzStart_leads _
  | bzBlock => exact (bzBlock_leads _).bind fun _ => block_frame (setRes0_changes _)
  | bzUnbwt => exact bzUnbwt_leads _
  | decompressBzp2 => exact bzp2Sequence_leads _
  | _ => exact absurd hi (by simp [writesOf])

theorem step_block : ∀ s t : State, BlockForm s.bz → step s = .next t → BlockForm t.bz :=
  unit_step (by decide) (block_speaks BlockForm) blockForm_unset
    (fun d k c s => (errorEntry_bz d k c s).symm ▸ blockForm_unset) fun _ => bodyOf_block

/-! ## The tracker -/

/-- The tracker between commands. -/
def TrackerForm (d : Option Dhuf) : Prop := ∀ x, d = some x → x.nsym.toNat ≤ dhufMaxNsym

/-- A body that keeps the bound of the tracker. -/
abbrev KeepsTracker {α : Type} (m : M α) : Prop :=
  Leads (fun s => TrackerForm s.dhuf) (fun s => TrackerForm s.dhuf) m

theorem tracker_speaks : SpeaksOf [.tracker] fun s => TrackerForm s.dhuf := fun s t h hs => by
  have same : s.dhuf = t.dhuf := h .tracker (by decide)
  show TrackerForm t.dhuf
  rw [← same]
  exact hs

theorem tracker_frame {α : Type} {ps : List Part} {m : M α} (hm : Keeps (Changes ps) m)
    (h : .tracker ∉ ps := by decide) : KeepsTracker m :=
  part_frame tracker_speaks hm h

theorem trackerForm_of_le {n : Word} (h : n.toNat ≤ dhufMaxNsym) (t : Option DhufTree) :
    TrackerForm (some { nsym := n, tree := t }) := fun _ e => by cases e; exact h

theorem dhufInit_leads (c : Config) (n : Word) : KeepsTracker (dhufInit c n) :=
  Sim.branch (fun _ => .raise _) fun hn => leads_update fun _ _ => trackerForm_of_le (by omega) _

/-- An update keeps the number of symbols. -/
theorem dhufUpdate_leads (c : Config) (sym : Nat) : KeepsTracker (dhufUpdate c sym) := by
  refine leads_of_ok fun s _ t hs h => ?_
  rw [dhufUpdate_eq, readDhuf_eq] at h
  cases hd : s.dhuf with
  | none => simp [hd] at h
  | some d =>
    rw [hd] at h
    by_cases hn : d.nsym.toNat = 0
    · simp [hn] at h
    · cases htree : d.tree with
      | none => simp [hn, htree] at h
      | some tree =>
        simp only [hn, htree, if_false] at h
        split at h
        · cases h
        · cases h
          exact trackerForm_of_le (hs d hd) _

theorem lhlbTurn_leads (c : Config) : KeepsTracker (lhlbTurn c) := by
  have update (sym : Nat) : KeepsTracker (lhlbUpdate c sym) :=
    (tracker_frame (dhufMaxF_changes c)).bind fun _ => (dhufUpdate_leads c sym).ite (.pure _)
  refine (tracker_frame (dhufDecode_changes c _)).bind fun sym => (update _).bind fun _ =>
    Sim.ite ((tracker_frame (fwrWrb_changes _)).bind fun _ => .pure _) ((Sim.raise _).ite ?_)
  split
  · exact (tracker_frame (runField_changes _)).bind fun _ => (tracker_frame (fwrCopy_changes _ _)).bind fun _ => .pure _
  · exact .raise _

theorem lhlbSequence_leads (c : Config) : KeepsTracker (lhlbSequence c) := by
  have clear : KeepsTracker (modify fun s => { s with dhuf := some { nsym := 0#32, tree := none } }) :=
    leads_update fun _ _ => trackerForm_of_le (Nat.zero_le _) _
  have going : KeepsTracker (do return !(← fwrEof)) := (tracker_frame fwrEof_changes).bind fun _ => .pure _
  exact (tracker_frame commonSetup_changes).bind fun _ => clear.bind fun _ => (dhufInit_leads c _).bind fun _ =>
    (tracker_frame fwrRoom_changes).bind fun _ =>
    (turnLoop_stays sameWith_progress going (lhlbTurn_leads c) _).bind fun _ => tracker_frame macroEnd_changes

theorem bodyOf_tracker {i : Instr} (hi : .tracker ∈ writesOf i) : KeepsTracker (bodyOf i) := by
  cases i with
  | instReset => exact .pure _
  | dhufInit => exact (tracker_frame readArg0_changes).bind fun _ => dhufInit_leads _ _
  | dhufUpdate => exact (tracker_frame readArg0_changes).bind fun _ => dhufUpdate_leads _ _
  | decompressLhlb => exact lhlbSequence_leads _
  | _ => exact absurd hi (by simp [writesOf])

theorem step_tracker : ∀ s t : State, TrackerForm s.dhuf → step s = .next t → TrackerForm t.dhuf :=
  unit_step (by decide) tracker_speaks (trackerForm_of_le (Nat.zero_le _) _)
    (fun d k c s => (errorEntry_dhuf d k c s).symm ▸ nofun) fun _ => bodyOf_tracker

end Sys2Proof.Machine

open Sys2Proof Sys2Proof.Machine

/-- Settles O20: each step keeps the form of the dictionary, of the block buffer and of the tracker. -/
theorem stepKeepsUnitForm : Obligations.StepKeepsUnitForm := by
  rintro s t ⟨hlzw, hprev, hblock, htracker⟩ h
  obtain ⟨hlzw', hprev'⟩ := step_dictionary s t ⟨hlzw, hprev⟩ h
  exact ⟨hlzw', hprev', step_block s t hblock h, step_tracker s t htracker h⟩
end

section
/-! SUPPORT. The output of the LZW unit (spec/44_blzw.md R264): the string of a code goes to the stack from its last byte
on, and from the top of the stack to RAW. -/

namespace Sys2Proof.Machine

/-- A first part that ends. -/
theorem bind_of_ok {α β : Type} {x : M α} {f : α → M β} {s t : State} {a : α} (h : x s = .ok a t) :
    (x >>= f) s = f a t := by
  rw [M.bind_apply, h]

theorem Raises.congr {α : Type} {m n : M α} {s t : State} {c : Cause} (h : m s = n t) (hn : Raises n t c) :
    Raises m s c := by
  obtain ⟨u, hu⟩ := hn
  exact ⟨u, h.trans hu⟩

/-! ## Bytes in a row -/

/-- A range of bytes with one more byte behind it. -/
theorem memBytes_snoc {m : Memory} {a n : Nat} {bs : List Byte} {b : Byte} :
    memBytes m a (n + 1) = some (bs ++ [b]) ↔ memBytes m a n = some bs ∧ storeRead m (a + n) = some b := by
  constructor
  · intro h
    have len : bs.length = n := by simpa using memBytes_length h
    refine ⟨memBytes_eq_some.2 ⟨len, fun i hi => ?_⟩, ?_⟩
    · rw [memBytes_get h (by omega), List.getElem?_append_left (by omega)]
    · rw [memBytes_get h (Nat.lt_succ_self n), ← len, List.getElem?_concat_length]
  · rintro ⟨h, hb⟩
    have len := memBytes_length h
    refine memBytes_eq_some.2 ⟨by simp [len], fun i hi => ?_⟩
    rcases Nat.lt_or_ge i n with hlt | hge
    · rw [memBytes_get h hlt, List.getElem?_append_left (by omega)]
    · obtain rfl : i = n := by omega
      rw [hb, ← len, List.getElem?_concat_length]

/-- A byte is written behind a range of bytes. -/
theorem memBytes_storeWrite_snoc {m : Memory} {a n : Nat} {bs : List Byte} (h : memBytes m a n = some bs) (b : Byte) :
    memBytes (storeWrite m (a + n) b) a (n + 1) = some (bs ++ [b]) := by
  refine memBytes_snoc.2 ⟨?_, storeRead_write_same ..⟩
  rw [← h]
  exact memBytes_congr fun i hi => storeRead_write_other _ _ (by omega)

/-- The writer that has moved on by some bytes. -/
def Fwr.after (f : Fwr) (bytes : List Byte) : Fwr := { f with pos := f.pos + toWord bytes.length }

theorem after_pos {f : Fwr} {bytes : List Byte} (h : f.pos.toNat + bytes.length ≤ f.stop.toNat) :
    (f.after bytes).pos.toNat = f.pos.toNat + bytes.length := by
  have := f.stop.isLt
  simp only [Fwr.after, BitVec.toNat_add, toWord_toNat]
  omega

@[simp] theorem after_stop (f : Fwr) (bytes : List Byte) : (f.after bytes).stop = f.stop := rfl

theorem after_append (f : Fwr) (xs ys : List Byte) : (f.after xs).after ys = f.after (xs ++ ys) := by
  simp only [Fwr.after, List.length_append, BitVec.add_assoc]
  congr 2
  exact BitVec.eq_of_toNat_eq (by simp [BitVec.toNat_add])

@[simp] theorem after_nil (f : Fwr) : f.after [] = f := by simp [Fwr.after, toWord]

/-- Bytes are written, and then more bytes behind them. -/
theorem WroteForward.trans {f : Fwr} {xs ys : List Byte} {s t u : State} (h : WroteForward f xs s t)
    (h' : WroteForward (f.after xs) ys t u) (hroom : f.pos.toNat + (xs ++ ys).length ≤ f.stop.toNat) :
    WroteForward f (xs ++ ys) s u := by
  rw [List.length_append] at hroom
  have hpos : (f.after xs).pos.toNat = f.pos.toNat + xs.length := after_pos (by omega)
  obtain ⟨-, written, other⟩ := h
  obtain ⟨writer, written', other'⟩ := h'
  rw [hpos] at written' other'
  refine ⟨?_, memBytes_eq_some.2 ⟨rfl, fun i hi => ?_⟩, fun k hk => ?_⟩
  · exact writer.trans (congrArg some (after_append f xs ys))
  · rw [List.length_append] at hi
    rcases Nat.lt_or_ge i xs.length with hlt | hge
    · rw [other' _ (.inl (by omega)), memBytes_get written hlt, List.getElem?_append_left hlt]
    · obtain ⟨j, rfl⟩ := Nat.exists_eq_add_of_le hge
      rw [← Nat.add_assoc, memBytes_get written' (by omega), List.getElem?_append_right (by omega),
        Nat.add_sub_cancel_left]
  · rw [List.length_append] at hk
    rw [other' k (by omega), other k (by omega)]

theorem WroteForward.nil {s : State} {f : Fwr} (hf : s.fwr = some f) : WroteForward f [] s s := by
  exact ⟨hf.trans (congrArg some (after_nil f).symm), rfl, fun _ _ => rfl⟩

/-! ## What Emit changes -/

/-- Another output, writer and LZW unit. -/
def State.withOutput (s : State) (raw : Memory) (f : Fwr) (l : Lzw) : State :=
  { s with raw := raw, fwr := some f, lzw := l }

theorem withOutput_self {s : State} {f : Fwr} (hf : s.fwr = some f) : s.withOutput s.raw f s.lzw = s := by
  rw [State.withOutput, ← hf]

theorem withOutput_changes (s : State) (raw : Memory) (f : Fwr) (l : Lzw) :
    Changes [.dictionary, .writer, .output] s (s.withOutput raw f l) := by
  intro p hp
  cases p with
  | dictionary | writer | output => exact absurd (by decide) hp
  | _ => rfl

/-- A byte is written where there is room. -/
theorem fwrWrb_withOutput {s : State} {f : Fwr} (hf : s.fwr = some f) (hlt : f.pos.toNat < f.stop.toNat) (b : Byte) :
    ∃ raw, fwrWrb b s = .ok () (s.withOutput raw (f.after [b]) s.lzw) ∧
      WroteForward f [b] s (s.withOutput raw (f.after [b]) s.lzw) := by
  obtain ⟨t, run, -, wrote⟩ := wrote_literal hf hlt b
  have step := fwrWrb_of_room hf hlt b
  cases step.symm.trans run
  exact ⟨_, step, wrote⟩

/-- Another stack, of `n` bytes. -/
def Lzw.stacked (l : Lzw) (stack : Store Byte) (n : Nat) : Lzw := { l with stack := stack, stackPos := some n }

theorem stacked_self {l : Lzw} {n : Nat} (h : l.stackPos = some n) : l.stacked l.stack n = l := by
  rw [Lzw.stacked, ← h]

theorem lzwPush_stacked {s : State} {n : Nat} (h : s.lzw.stackPos = some n) (b : Byte) :
    lzwPush b s = .ok () { s with lzw := s.lzw.stacked (storeWrite s.lzw.stack n b) (n + 1) } := by
  rw [lzwPush_eq, h]
  rfl

/-! ## From the stack to the output -/

section Pops

variable {s : State} {f : Fwr} {bytes : List Byte}

theorem emitPops_succ {p : Nat} {b : Byte} (hb : storeRead s.lzw.stack p = some b) :
    emitPops (p + 1) s = (fwrWrb b >>= fun _ => emitPops p) { s with lzw := s.lzw.stacked s.lzw.stack p } :=
  (bind_of_ok (M.modify_apply ..)).trans ((bind_of_ok (M.get_apply _)).trans (bind_of_ok (need_apply hb _)))

/-- What is on the stack: the bytes still to be written, the next one on top. -/
def Stacked (l : Lzw) (bytes : List Byte) : Prop :=
  l.stackPos = some bytes.length ∧ memBytes l.stack 0 bytes.length = some bytes.reverse

theorem stacked_cons {l : Lzw} {b : Byte} (h : Stacked l (b :: bytes)) :
    storeRead l.stack bytes.length = some b ∧ Stacked (l.stacked l.stack bytes.length) bytes := by
  obtain ⟨-, hstack⟩ := h
  rw [List.reverse_cons] at hstack
  obtain ⟨rest, top⟩ := memBytes_snoc.1 hstack
  rw [Nat.zero_add] at top
  exact ⟨top, rfl, rest⟩

/-- The stack is written from its top on. -/
theorem emitPops_writes (hf : s.fwr = some f) (h : Stacked s.lzw bytes)
    (hroom : f.pos.toNat + bytes.length ≤ f.stop.toNat) :
    ∃ raw, emitPops bytes.length s = .ok () (s.withOutput raw (f.after bytes) (s.lzw.stacked s.lzw.stack 0)) ∧
      WroteForward f bytes s (s.withOutput raw (f.after bytes) (s.lzw.stacked s.lzw.stack 0)) := by
  induction bytes generalizing s f with
  | nil =>
    have same : s.withOutput s.raw (f.after []) (s.lzw.stacked s.lzw.stack 0) = s := by
      rw [stacked_self (n := 0) h.1, after_nil, withOutput_self hf]
    exact ⟨s.raw, by rw [same]; rfl, by rw [same]; exact .nil hf⟩
  | cons b rest ih =>
    obtain ⟨top, below⟩ := stacked_cons h
    rw [List.length_cons] at hroom
    obtain ⟨raw, run, wrote⟩ := fwrWrb_withOutput (s := { s with lzw := s.lzw.stacked s.lzw.stack rest.length }) hf
      (by omega) b
    have next : (f.after [b]).pos.toNat = f.pos.toNat + 1 := after_pos (by rw [List.length_singleton]; omega)
    obtain ⟨raw', run', wrote'⟩ := ih (s := s.withOutput raw (f.after [b]) (s.lzw.stacked s.lzw.stack rest.length)) rfl
      below (by rw [next, after_stop]; omega)
    rw [after_append] at run' wrote'
    exact ⟨raw', (emitPops_succ top).trans ((bind_of_ok run).trans run'), wrote.trans wrote' (by simpa using hroom)⟩

/-- The stack does not fit the output. -/
theorem emitPops_raises (hf : s.fwr = some f) (h : Stacked s.lzw bytes)
    (hroom : f.stop.toNat < f.pos.toNat + bytes.length) (hinside : f.pos.toNat ≤ f.stop.toNat) :
    Raises (emitPops bytes.length) s .overrun := by
  induction bytes generalizing s f with
  | nil => exact absurd hinside (Nat.not_le.2 hroom)
  | cons b rest ih =>
    obtain ⟨top, below⟩ := stacked_cons h
    rw [List.length_cons] at hroom
    rw [List.length_cons]
    refine .congr (emitPops_succ top) ?_
    rcases Nat.lt_or_ge f.pos.toNat f.stop.toNat with hlt | hfull
    · obtain ⟨raw, run, -⟩ := fwrWrb_withOutput (s := { s with lzw := s.lzw.stacked s.lzw.stack rest.length }) hf hlt b
      have next : (f.after [b]).pos.toNat = f.pos.toNat + 1 := after_pos (by rw [List.length_singleton]; omega)
      exact .after run (ih (s := s.withOutput raw (f.after [b]) (s.lzw.stacked s.lzw.stack rest.length)) rfl below
        (by rw [next, after_stop]; omega) (by rw [next, after_stop]; omega))
    · exact .bind (fwrWrb_raises_overrun (by exact hf) hfull b)

end Pops

/-! ## The string of a code -/

/-- Every entry from 259 up to `free` has a value and points to a literal or to a smaller entry
(spec/44_blzw.md R267). -/
def EntriesBelow (l : Lzw) (free : Nat) : Prop :=
  ∀ i, 259 ≤ i → i < free → ∃ p b, storeRead l.prefixes (i - 259) = some p ∧ storeRead l.suffixes (i - 259) = some b ∧
    (p.toNat < 256 ∨ (259 ≤ p.toNat ∧ p.toNat < i))

theorem LzwForm.entriesBelow {l : Lzw} (h : LzwForm l) {free : Nat} (hfree : l.freeIndex = some free) :
    259 ≤ free ∧ EntriesBelow l free := by
  obtain ⟨_, _, _, _, hentries⟩ := h
  obtain ⟨hlow, _, below⟩ := hentries free hfree
  exact ⟨hlow, below⟩

/-- The strings are those of the entries, whatever the stack holds. -/
theorem lzwString_stacked (l : Lzw) (stack : Store Byte) (n fuel code : Nat) :
    lzwString (l.stacked stack n) fuel code = lzwString l fuel code := by
  induction fuel generalizing code with
  | zero => rfl
  | succ fuel ih =>
    simp only [lzwString, ih]
    rfl

/-- A string is that of a literal, or that of an entry, whose prefix has the string without its last byte. -/
theorem lzwString_cases {l : Lzw} {fuel free code : Nat} {string : List Byte} (below : EntriesBelow l free)
    (hcode : code < free) (h : lzwString l fuel code = some string) :
    (code < 256 ∧ string = [truncByte code]) ∨
    (259 ≤ code ∧ ∃ fuel' p b rest, fuel = fuel' + 1 ∧ storeRead l.prefixes (code - 259) = some p ∧
      storeRead l.suffixes (code - 259) = some b ∧ p.toNat < free ∧ lzwString l fuel' p.toNat = some rest ∧
      string = rest ++ [b]) := by
  cases fuel with
  | zero => cases h
  | succ fuel =>
    rw [lzwString] at h
    split at h
    · next hlit =>
      cases h
      exact .inl ⟨hlit, rfl⟩
    · split at h
      · cases h
      · next hhigh =>
        have hhigh : 259 ≤ code := Nat.not_lt.1 hhigh
        obtain ⟨p, b, hp, hb, points⟩ := below code hhigh hcode
        simp only [lzwFirstFree, hp, hb] at h
        obtain ⟨rest, hrest, rfl⟩ := Option.map_eq_some_iff.1 h
        exact .inr ⟨hhigh, fuel, p, b, rest, rfl, hp, hb, by omega, hrest, rfl⟩

theorem lzwString_ne_nil {l : Lzw} {fuel free code : Nat} {string : List Byte} (below : EntriesBelow l free)
    (hcode : code < free) (h : lzwString l fuel code = some string) : 0 < string.length := by
  rcases lzwString_cases below hcode h with ⟨_, rfl⟩ | ⟨_, _, _, _, _, _, _, _, _, _, rfl⟩ <;> simp

/-! ## The chain of a code -/

theorem stacked_push {l : Lzw} {bytes : List Byte} (h : Stacked l bytes) (b : Byte) :
    Stacked (l.stacked (storeWrite l.stack bytes.length b) (bytes.length + 1)) (b :: bytes) := by
  refine ⟨rfl, ?_⟩
  have pushed := memBytes_storeWrite_snoc h.2 b
  rw [Nat.zero_add] at pushed
  rw [List.reverse_cons]
  exact pushed

theorem not_lt_firstFree {c : Nat} (h : 259 ≤ c) : ¬ c < lzwFirstFree := Nat.not_lt.2 h

section Chain

variable {s : State} {free : Nat}

/-- A turn of the walk: the suffix goes onto the stack, and the walk goes on at the prefix. -/
theorem emitWalk_entry {room c : Nat} {p : Word} {b : Byte} {later : List Byte} (hhigh : 259 ≤ c) (hlow : c < free)
    (hp : storeRead s.lzw.prefixes (c - 259) = some p) (hb : storeRead s.lzw.suffixes (c - 259) = some b)
    (h : Stacked s.lzw later) :
    emitWalk free (room + 1) c s = emitWalk free room p.toNat
      { s with lzw := s.lzw.stacked (storeWrite s.lzw.stack later.length b) (later.length + 1) } := by
  rw [emitWalk, if_neg (not_lt_firstFree hhigh), if_neg (Nat.not_le.2 hlow)]
  exact (bind_of_ok (M.get_apply s)).trans <| (bind_of_ok (need_apply hb s)).trans <|
    (bind_of_ok (lzwPush_stacked h.1 b)).trans <| (bind_of_ok (M.get_apply _)).trans (bind_of_ok (need_apply hp _))

/-- The walk leaves all bytes of the string but the first on the stack. -/
theorem emitWalk_stacks {fuel room c : Nat} {string later : List Byte} (below : EntriesBelow s.lzw free) (hc : c < free)
    (hstring : lzwString s.lzw fuel c = some string) (hroom : string.length ≤ room + 1) (h : Stacked s.lzw later) :
    ∃ first tail stack, first < 256 ∧ string = truncByte first :: tail ∧
      emitWalk free room c s = .ok first { s with lzw := s.lzw.stacked stack (tail ++ later).length } ∧
      Stacked (s.lzw.stacked stack (tail ++ later).length) (tail ++ later) := by
  induction fuel generalizing s room c string later with
  | zero => cases hstring
  | succ fuel ih =>
    rcases lzwString_cases below hc hstring with ⟨hlit, rfl⟩ | ⟨hhigh, _, p, b, rest, e, hp, hb, hlow, hrest, rfl⟩
    · refine ⟨c, [], s.lzw.stack, hlit, rfl, ?_, ?_⟩
      · rw [emitWalk_low free room (by omega), List.nil_append, stacked_self h.1]
      · rw [List.nil_append, stacked_self h.1]
        exact h
    · obtain rfl := Nat.succ.inj e
      have hpos := lzwString_ne_nil below hlow hrest
      rw [List.length_append, List.length_singleton] at hroom
      obtain ⟨room, rfl⟩ := Nat.exists_eq_add_one.2 (show 0 < room by omega)
      obtain ⟨first, tail, stack, hfirst, rfl, run, stacked⟩ :=
        ih (s := { s with lzw := s.lzw.stacked (storeWrite s.lzw.stack later.length b) (later.length + 1) })
          (room := room) below hlow ((lzwString_stacked ..).trans hrest) (by omega) (stacked_push h b)
      rw [List.append_cons tail b later] at run stacked
      exact ⟨first, tail ++ [b], stack, hfirst, rfl, (emitWalk_entry hhigh hc hp hb h).trans run, stacked⟩

/-- A string that is longer than the stack is found while its chain is walked. -/
theorem emitWalk_raises {fuel room c : Nat} {string later : List Byte} (below : EntriesBelow s.lzw free) (hc : c < free)
    (hstring : lzwString s.lzw fuel c = some string) (hroom : room + 1 < string.length) (h : Stacked s.lzw later) :
    Raises (emitWalk free room c) s .capacity := by
  induction fuel generalizing s room c string later with
  | zero => cases hstring
  | succ fuel ih =>
    rcases lzwString_cases below hc hstring with ⟨_, rfl⟩ | ⟨hhigh, _, p, b, rest, e, hp, hb, hlow, hrest, rfl⟩
    · simp at hroom
    · obtain rfl := Nat.succ.inj e
      rw [List.length_append, List.length_singleton] at hroom
      cases room with
      | zero =>
        rw [emitWalk, if_neg (not_lt_firstFree hhigh), if_neg (Nat.not_le.2 hc)]
        exact ⟨s, rfl⟩
      | succ room =>
        exact .congr (emitWalk_entry hhigh hc hp hb h)
          (ih (s := { s with lzw := s.lzw.stacked (storeWrite s.lzw.stack later.length b) (later.length + 1) }) below
            hlow ((lzwString_stacked ..).trans hrest) (by omega) (stacked_push h b))

theorem emitChain_raises_index {code : Nat} (hhigh : 259 ≤ code) (hfree : s.lzw.freeIndex = some free)
    (hcode : free ≤ code) : Raises (emitChain code) s .index := by
  rw [emitChain, if_neg (not_lt_firstFree hhigh)]
  refine .after (M.get_apply s) (.after (need_apply hfree s) ?_)
  rw [if_pos hcode]
  exact ⟨s, rfl⟩

/-- The chain of a code that is no literal is a walk over as many entries as the stack has room for. -/
theorem emitChain_entry {code : Nat} {len : Word} (hhigh : 259 ≤ code) (hfree : s.lzw.freeIndex = some free)
    (hcode : code < free) (hlen : s.lzw.stackLength = some len) :
    emitChain code s = emitWalk free (len.toNat - 1) code s := by
  rw [emitChain, if_neg (not_lt_firstFree hhigh)]
  refine (bind_of_ok (M.get_apply s)).trans ((bind_of_ok (need_apply hfree s)).trans ?_)
  rw [if_neg (Nat.not_le.2 hcode)]
  exact (bind_of_ok (M.get_apply s)).trans (bind_of_ok (need_apply hlen s))

/-- The LZW unit where the string of a code begins to be written. -/
def unstacked (s : State) : State := { s with lzw := s.lzw.stacked s.lzw.stack 0 }

/-- The chain of a code ends at its first byte and leaves the others on the stack. -/
def Chains (s : State) (code first : Nat) (tail : List Byte) : Prop :=
  first < 256 ∧ ∃ stack, emitChain code (unstacked s) = .ok first { s with lzw := s.lzw.stacked stack tail.length } ∧
    Stacked (s.lzw.stacked stack tail.length) tail

theorem chains_literal {code : Nat} (hcode : code < 256) : Chains s code code [] := by
  refine ⟨hcode, s.lzw.stack, ?_, rfl, rfl⟩
  rw [emitChain_literal (by omega)]
  rfl

section Entry

variable {code : Nat} {len : Word} {string : List Byte} (hform : LzwForm s.lzw) (hfree : s.lzw.freeIndex = some free)
  (hlen : s.lzw.stackLength = some len) (hcode : code < free) (hstring : lzwString s.lzw free code = some string)

include hform hfree hlen hcode hstring

/-- The stack has room for the string of a code. -/
theorem chains_string (hroom : string.length ≤ len.toNat) :
    ∃ first tail, string = truncByte first :: tail ∧ Chains s code first tail := by
  obtain ⟨-, below⟩ := hform.entriesBelow hfree
  have hpos := lzwString_ne_nil below hcode hstring
  rcases lzwString_cases below hcode hstring with ⟨hlit, rfl⟩ | ⟨hhigh, -⟩
  · exact ⟨code, [], rfl, chains_literal hlit⟩
  · obtain ⟨first, tail, stack, hfirst, rfl, run, stacked⟩ :=
      emitWalk_stacks (s := unstacked s) (room := len.toNat - 1) (later := []) below hcode
        ((lzwString_stacked ..).trans hstring) (by omega) ⟨rfl, rfl⟩
    rw [List.append_nil] at run stacked
    exact ⟨first, tail, rfl, hfirst, stack,
      (emitChain_entry (s := unstacked s) hhigh hfree hcode hlen).trans run, stacked⟩

/-- The stack has no room for the string of a code. -/
theorem lzwEmit_raises_capacity (hroom : len.toNat < string.length) : Raises (lzwEmit code) s .capacity := by
  obtain ⟨-, below⟩ := hform.entriesBelow hfree
  obtain ⟨_, hlenForm, _⟩ := hform
  have hone := (hlenForm len hlen).1
  refine .after (M.modify_apply ..) (.bind ?_)
  rcases lzwString_cases below hcode hstring with ⟨_, rfl⟩ | ⟨hhigh, -⟩
  · rw [List.length_singleton] at hroom
    omega
  · exact .congr (emitChain_entry (s := unstacked s) hhigh hfree hcode hlen)
      (emitWalk_raises (s := unstacked s) (later := []) below hcode ((lzwString_stacked ..).trans hstring)
        (by omega) ⟨rfl, rfl⟩)

end Entry

/-! ## Emit -/

/-- The LZW unit after Emit. -/
def Lzw.emitted (l : Lzw) (stack : Store Byte) (first : Nat) : Lzw :=
  { l with stack := stack, stackPos := some 0, newCode := some (toWord first) }

variable {f : Fwr} {code first : Nat} {tail : List Byte}

/-- Once the chain has been walked, the whole string is on the stack. -/
theorem lzwEmit_eq (h : Chains s code first tail) :
    ∃ l : Lzw, lzwEmit code s = emitPops (truncByte first :: tail).length { s with lzw := l } ∧
      Stacked l (truncByte first :: tail) ∧ l.stacked l.stack 0 = s.lzw.emitted l.stack first := by
  obtain ⟨hfirst, stack, run, stacked⟩ := h
  have pushed := stacked_push stacked (truncByte first)
  refine ⟨{ s.lzw.stacked (storeWrite stack tail.length (truncByte first)) (tail.length + 1) with
    newCode := some (toWord first) }, ?_, pushed, rfl⟩
  refine (bind_of_ok (M.modify_apply ..)).trans ((bind_of_ok run).trans ?_)
  rw [if_neg (Nat.not_le.2 hfirst)]
  exact (bind_of_ok (lzwPush_stacked rfl _)).trans <| (bind_of_ok (M.modify_apply ..)).trans <|
    (bind_of_ok (M.get_apply _)).trans (bind_of_ok (need_apply pushed.1 _))

/-- Emit writes the string, its first byte first. -/
theorem lzwEmit_writes (h : Chains s code first tail) (hf : s.fwr = some f)
    (hroom : f.pos.toNat + (truncByte first :: tail).length ≤ f.stop.toNat) :
    ∃ raw stack, lzwEmit code s =
        .ok () (s.withOutput raw (f.after (truncByte first :: tail)) (s.lzw.emitted stack first)) ∧
      WroteForward f (truncByte first :: tail) s
        (s.withOutput raw (f.after (truncByte first :: tail)) (s.lzw.emitted stack first)) := by
  obtain ⟨l, run, stacked, hl⟩ := lzwEmit_eq h
  obtain ⟨raw, run', wrote⟩ := emitPops_writes (s := { s with lzw := l }) hf stacked hroom
  rw [hl] at run' wrote
  exact ⟨raw, l.stack, run.trans run', wrote⟩

theorem lzwEmit_raises (h : Chains s code first tail) (hf : s.fwr = some f)
    (hroom : f.stop.toNat < f.pos.toNat + (truncByte first :: tail).length) (hinside : f.pos.toNat ≤ f.stop.toNat) :
    Raises (lzwEmit code) s .overrun := by
  obtain ⟨l, run, stacked, -⟩ := lzwEmit_eq h
  exact .congr run (emitPops_raises (s := { s with lzw := l }) hf stacked hroom hinside)

end Chain

end Sys2Proof.Machine

open Sys2Proof Sys2Proof.Machine

/-- Settles O42: the bounds are checked in the order of R263. -/
theorem lzwSetup : Obligations.LzwSetup := by
  intro s m n hs h0 h1
  have body : bodyOf .lzwSetup (beginCommand s) = Machine.lzwSetup m.toNat n.toNat (beginCommand s) :=
    arg01_apply h0 h1
  rw [lzwSetup_eq] at body
  refine ⟨fun hm => ?_, fun hmin hmax hn => ?_, fun hmin hmax hpos hle => ?_⟩
  · exact exec_corrupted hs (.of_eq (by rw [body, if_pos (by omega)]))
  · exact exec_corrupted hs (.of_eq (by rw [body, if_neg (by omega), if_pos (by omega)]))
  · refine exec_ended hs ?_ rfl
    rw [body, if_neg (by omega), if_neg (by omega), toWord_toNat_self]
    rfl
end

section
/-! SUPPORT. The codes of the LZW unit (spec/44_blzw.md R265, R266): what LZW.RESTART and LZW.STEP do with the code they
read. -/

namespace Sys2Proof.Machine

/-! ## Reading a code -/

theorem rd_apply {n : Nat} {s : State} (hn : n ≤ 32) (h : s.CanRead .group8 n) :
    rd n s = .ok (bitsValue (s.bitStream.take n)) (s.afterBits .group8 n) :=
  readBits_eq_stream hn h

theorem rd_raises_range {n : Nat} {s : State} (hn : 32 < n) : Raises (rd n) s .range :=
  ⟨s, (readBits_eq .group8 n s).trans (if_pos hn)⟩

theorem afterBits_lzw (src : BitSource) (n : Nat) (s : State) : (s.afterBits src n).lzw = s.lzw :=
  (afterBits_changes src n s .dictionary (by decide)).symm

theorem afterBits_fwr (src : BitSource) (n : Nat) (s : State) : (s.afterBits src n).fwr = s.fwr :=
  (afterBits_changes src n s .writer (by decide)).symm

theorem afterBits_raw (src : BitSource) (n : Nat) (s : State) : (s.afterBits src n).raw = s.raw :=
  (afterBits_changes src n s .output (by decide)).symm

/-- The state with another LZW unit. -/
def State.withLzw (s : State) (l : Lzw) : State := { s with lzw := l }

theorem withLzw_afterBits (src : BitSource) (n : Nat) (s : State) (l : Lzw) :
    (s.withLzw l).afterBits src n = (s.afterBits src n).withLzw l := by
  by_cases h : s.refills src n = 0
  · rw [afterBits_of_no_refill h, afterBits_of_no_refill (s := s.withLzw l) h]; rfl
  · rw [afterBits_of_refills h, afterBits_of_refills (s := s.withLzw l) h]; rfl

/-- What was written is a matter of RAW before. -/
theorem WroteForward.of_raw {f : Fwr} {bytes : List Byte} {s s' t : State} (h : WroteForward f bytes s t)
    (hraw : s.raw = s'.raw) : WroteForward f bytes s' t := by
  obtain ⟨writer, written, other⟩ := h
  exact ⟨writer, written, fun k hk => hraw ▸ other k hk⟩

/-! ## LZW.RESTART -/

/-- The LZW unit with the code width and the entries of a new dictionary. -/
def Lzw.restarted (l : Lzw) : Lzw := { l with codeBits := some 9, freeIndex := some 259 }

/-- What LZW.RESTART does with its code. -/
def restartOn (c : Nat) : M Unit :=
  if 256 ≤ c ∧ c ≤ 258 then raise .reserved
  else if c ≥ 259 then raise .index
  else do
    modify fun s => { s with lzw := { s.lzw with prevCode := some (toWord c) } }
    lzwEmit c

section Restart

variable {s : State}

theorem lzwRestart_eq {m : Nat} (hmax : s.lzw.maxBits = some m) :
    lzwRestart s = (rd 9 >>= restartOn) (s.withLzw s.lzw.restarted) :=
  (bind_of_ok (M.get_apply s)).trans <| (bind_of_ok (need_apply hmax s)).trans (bind_of_ok (M.modify_apply ..))

/-- The code of LZW.RESTART is the next nine bits. -/
theorem lzwRestart_reads {m : Nat} (hmax : s.lzw.maxBits = some m) (hcan : s.CanRead .group8 9) :
    lzwRestart s =
      restartOn (bitsValue (s.bitStream.take 9)) ((s.afterBits .group8 9).withLzw s.lzw.restarted) := by
  rw [lzwRestart_eq hmax, ← withLzw_afterBits]
  exact bind_of_ok (rd_apply (s := s.withLzw s.lzw.restarted) (by decide) hcan)

theorem lzwRestart_raises_unexpectedEnd {m : Nat} (hmax : s.lzw.maxBits = some m) (hset : s.ReaderSet)
    (hwhole : s.WholeStream) (hshort : ¬ s.CanRead .group8 9) : Raises lzwRestart s .unexpectedEnd := by
  have ends := readBits_raises (s := s.withLzw s.lzw.restarted) (by decide) hset hshort
  rw [endCause_of_whole (s := s.withLzw s.lzw.restarted) hwhole] at ends
  exact .congr (lzwRestart_eq hmax) (.bind ends)

theorem restartOn_raises_reserved {c : Nat} (h : 256 ≤ c) (h' : c ≤ 258) : Raises (restartOn c) s .reserved := by
  rw [restartOn, if_pos ⟨h, h'⟩]
  exact ⟨s, rfl⟩

theorem restartOn_raises_index {c : Nat} (h : 259 ≤ c) : Raises (restartOn c) s .index := by
  rw [restartOn, if_neg (by omega), if_pos h]
  exact ⟨s, rfl⟩

/-- A literal is written and is the previous code. -/
theorem restartOn_writes {f : Fwr} {c : Nat} (hf : s.fwr = some f) (hroom : f.pos.toNat < f.stop.toNat) (hc : c < 256) :
    ∃ raw stack, restartOn c s =
        .ok () (s.withOutput raw (f.after [truncByte c])
          (Lzw.emitted { s.lzw with prevCode := some (toWord c) } stack c)) ∧
      WroteForward f [truncByte c] s (s.withOutput raw (f.after [truncByte c])
        (Lzw.emitted { s.lzw with prevCode := some (toWord c) } stack c)) := by
  rw [restartOn, if_neg (by omega), if_neg (by omega)]
  obtain ⟨raw, stack, run, wrote⟩ :=
    lzwEmit_writes (s := s.withLzw { s.lzw with prevCode := some (toWord c) }) (chains_literal hc) hf
      (by rw [List.length_singleton]; omega)
  exact ⟨raw, stack, (bind_of_ok (M.modify_apply ..)).trans run, wrote⟩

/-- LZW.RESTART on a literal. -/
theorem lzwRestart_writes {f : Fwr} {m c : Nat} (hmax : s.lzw.maxBits = some m) (hcan : s.CanRead .group8 9)
    (hcode : bitsValue (s.bitStream.take 9) = c) (hc : c < 256) (hf : s.fwr = some f)
    (hroom : f.pos.toNat < f.stop.toNat) :
    ∃ raw stack, lzwRestart s =
        .ok () ((s.afterBits .group8 9).withOutput raw (f.after [truncByte c])
          (Lzw.emitted { s.lzw.restarted with prevCode := some (toWord c) } stack c)) ∧
      WroteForward f [truncByte c] s ((s.afterBits .group8 9).withOutput raw (f.after [truncByte c])
        (Lzw.emitted { s.lzw.restarted with prevCode := some (toWord c) } stack c)) := by
  obtain ⟨raw, stack, run, wrote⟩ := restartOn_writes (s := (s.afterBits .group8 9).withLzw s.lzw.restarted)
    ((afterBits_fwr ..).trans hf) hroom hc
  refine ⟨raw, stack, ?_, wrote.of_raw (afterBits_raw ..)⟩
  rw [lzwRestart_reads hmax hcan, hcode]
  exact run

end Restart

/-! ## LZW.STEP -/

/-- What LZW.STEP does with a code up to the next free index. -/
def growOn (code free : Nat) : M Nat := do
  lzwOutput code free
  lzwInsert
  modify fun s => { s with lzw := { s.lzw with prevCode := some (toWord code) } }
  pure code

/-- What LZW.STEP does with its code, of a width of `n` bits. -/
def stepOn (n code : Nat) : M Nat :=
  if code = 256 then raise .reserved
  else if code = 257 then do
    lzwRestart
    pure code
  else if code = 258 then do
    modify fun s => { s with lzw := { s.lzw with codeBits := some (n + 1) } }
    pure code
  else do
    let free ← need (← get).lzw.freeIndex
    if code > free then raise .index
    else growOn code free

section Step

variable {s : State} {n : Nat}

theorem lzwStep_eq (hwidth : s.lzw.codeBits = some n) : lzwStep s = (rd n >>= stepOn n) s :=
  (bind_of_ok (M.get_apply s)).trans (bind_of_ok (need_apply hwidth s))

/-- The code of LZW.STEP is the next bits of the stream. -/
theorem lzwStep_reads (hwidth : s.lzw.codeBits = some n) (hn : n ≤ 32) (hcan : s.CanRead .group8 n) :
    lzwStep s = stepOn n (bitsValue (s.bitStream.take n)) (s.afterBits .group8 n) :=
  (lzwStep_eq hwidth).trans (bind_of_ok (rd_apply hn hcan))

theorem stepOn_raises_reserved : Raises (stepOn n 256) s .reserved := ⟨s, rfl⟩

theorem stepOn_widen : stepOn n 258 s = .ok 258 (s.withLzw { s.lzw with codeBits := some (n + 1) }) := rfl

/-- A code that is none of the three control codes. -/
theorem stepOn_string {code free : Nat} (hcontrol : code ≠ 256 ∧ code ≠ 257 ∧ code ≠ 258)
    (hfree : s.lzw.freeIndex = some free) (hle : code ≤ free) :
    stepOn n code s = growOn code free s := by
  obtain ⟨h256, h257, h258⟩ := hcontrol
  rw [stepOn, if_neg h256, if_neg h257, if_neg h258]
  refine (bind_of_ok (M.get_apply s)).trans ((bind_of_ok (need_apply hfree s)).trans ?_)
  rw [if_neg (Nat.not_lt.2 hle)]

theorem stepOn_raises_index {code free : Nat} (hhigh : 259 ≤ code) (hfree : s.lzw.freeIndex = some free)
    (hlt : free < code) : Raises (stepOn n code) s .index := by
  rw [stepOn, if_neg (by omega), if_neg (by omega), if_neg (by omega)]
  refine .after (M.get_apply s) (.after (need_apply hfree s) ?_)
  rw [if_pos hlt]
  exact ⟨s, rfl⟩

end Step

/-! ## The commands -/

theorem ready_afterBits {s : State} (hs : s.Ready) (src : BitSource) (n : Nat) : (s.afterBits src n).Ready := by
  obtain ⟨hstatus, hphase⟩ := afterBits_status_phase src n s
  rw [State.Ready, hstatus, hphase]
  exact hs

section Command

variable {s : State} {n code : Nat} (hs : s.Ready) (hwidth : s.lzw.codeBits = some n) (hn : n ≤ 32)
  (hcan : s.CanRead .group8 n) (hcode : code = bitsValue (s.bitStream.take n))

include hwidth hn hcan hcode

/-- The command LZW.STEP on its code. -/
theorem bodyOf_lzwStep :
    bodyOf .lzwStep (beginCommand s) = (stepOn n code >>= fun code => setRes0 (toWord code))
      (beginCommand (s.afterBits .group8 n)) := by
  have reads := lzwStep_reads (s := beginCommand s) hwidth hn hcan
  rw [afterBits_beginCommand, show (beginCommand s).bitStream = s.bitStream from rfl, ← hcode] at reads
  refine (M.bind_apply ..).trans ?_
  rw [reads]
  exact (M.bind_apply ..).symm

include hs

/-- What a code of LZW.STEP raises. -/
theorem exec_lzwStep_corrupted {c : Cause} (h : Raises (stepOn n code) (beginCommand (s.afterBits .group8 n)) c) :
    exec .lzwStep s = .next (s.corrupted c) :=
  exec_corrupted hs (.congr (bodyOf_lzwStep hwidth hn hcan hcode) (.bind h))

/-- What a code of LZW.STEP answers. -/
theorem exec_lzwStep_next {t : State} {a : Nat} (ht : t.status = s.status)
    (h : stepOn n code (beginCommand (s.afterBits .group8 n)) = .ok a (beginCommand t)) :
    exec .lzwStep s = .next { t with res0 := some (toWord a) } :=
  exec_ended hs ((bodyOf_lzwStep hwidth hn hcan hcode).trans ((bind_of_ok h).trans rfl)) ht

end Command

theorem runCommand_congr {d : Bool} {body body' : M Unit} {s s' : State} (hs : s.status.faulted = false)
    (hs' : s'.status.faulted = false) (h : body (beginCommand s) = body' (beginCommand s')) :
    runCommand d body s = runCommand d body' s' := by
  rw [runCommand, runCommand, hs, hs', h]
  rfl

theorem host_faulted {s t : State} (h : Part.host.Agree s t) : s.status.faulted = t.status.faulted := by
  simp only [Part.Agree, Prod.mk.injEq] at h
  obtain ⟨-, -, -, -, -, -, -, -, -, -, hfaulted, -⟩ := h
  exact hfaulted

/-- A body that runs LZW.RESTART and then delivers 257 does what LZW.RESTART does. -/
theorem run_restart {s t : State} (hs : s.status.faulted = false) (h : exec .lzwRestart s = .next t) :
    runCommand false ((lzwRestart >>= fun _ => pure 257) >>= fun code : Nat => setRes0 (toWord code)) s =
      .next (if t.status.faulted then t else { t with res0 := some 257#32 }) := by
  have runs : runCommand false lzwRestart s = .next t := h
  rcases runCommand_cases false lzwRestart s with
    ⟨hf, -⟩ | ⟨-, ⟨u, hu, e⟩ | ⟨c, u, hu, e⟩ | ⟨u, hu, e⟩ | ⟨u, hu, e⟩⟩
  · exact absurd (hf.symm.trans hs) (by decide)
  · obtain rfl := Host.Outcome.next.inj (e.symm.trans runs)
    have host : (beginCommand s).status.faulted = u.status.faulted := by
      have kept := lzwRestart_changes (beginCommand s)
      rw [hu] at kept
      exact host_faulted (kept .host (by decide))
    rw [if_neg (by rw [show (endCommand u).status.faulted = u.status.faulted from rfl, ← host]; simp [hs]),
      runCommand_ok hs (by rw [M.bind_apply, M.bind_apply, hu]; rfl)]
    rfl
  all_goals
    obtain rfl := Host.Outcome.next.inj (e.symm.trans runs)
    rw [if_pos (errorEntry_faulted ..)]
    simp [runCommand, hs, hu]

end Sys2Proof.Machine

open Sys2Proof Sys2Proof.Machine

/-- Settles O43: the clauses follow from what LZW.RESTART does with its code, which is the next nine bits. -/
theorem lzwRestart : Obligations.LzwRestart := by
  refine ⟨fun s hs hmax => exec_corrupted hs (.of_eq (lzwRestart_unset (s := beginCommand s) hmax)),
    fun s m hs hmax => ⟨fun hset hwhole hshort => ?_, fun c hcan hc => ?_⟩⟩
  · exact exec_corrupted hs (lzwRestart_raises_unexpectedEnd (s := beginCommand s) hmax hset hwhole hshort)
  have reads := lzwRestart_reads (s := beginCommand s) hmax hcan
  rw [show (beginCommand s).bitStream = s.bitStream from rfl, ← hc] at reads
  refine ⟨fun hlow hhigh => ?_, fun hhigh => ?_, fun hlit f hf => ⟨fun hfull => ?_, fun hroom => ?_⟩⟩
  · exact exec_corrupted hs (.congr reads (restartOn_raises_reserved hlow hhigh))
  · exact exec_corrupted hs (.congr reads (restartOn_raises_index hhigh))
  · exact exec_corrupted hs (lzwRestart_raises_overrun (s := beginCommand s) hf hfull hmax hcan.1
      ((canRead_group8 (s := beginCommand s) hcan.1).1 hcan) (hc ▸ hlit))
  · obtain ⟨raw, stack, run, wrote⟩ := lzwRestart_writes (s := beginCommand s) hmax hcan hc.symm hlit hf hroom
    rw [afterBits_beginCommand] at run
    obtain ⟨-, written, other⟩ := wrote
    refine ⟨raw, stack, exec_ended hs run (afterBits_status_phase ..).1, fun k => ?_⟩
    split
    · next h => exact h ▸ (memBytes_get written Nat.zero_lt_one)
    · next h => exact other k (by rw [List.length_singleton]; omega)

/-- Settles O45: the clauses follow from what LZW.STEP does with its code. -/
theorem lzwControlCodes : Obligations.LzwControlCodes := by
  refine fun s n hs hwidth => ⟨fun hn => ?_, fun code hn hcan hcode => ?_⟩
  · exact exec_corrupted hs (.bind (.congr (lzwStep_eq hwidth) (.bind (rd_raises_range hn))))
  refine ⟨fun h => ?_, fun h t ht => ?_, fun h => ?_, fun free hfree hhigh hlt => ?_⟩
  · exact exec_lzwStep_corrupted hs hwidth hn hcan hcode (h ▸ stepOn_raises_reserved)
  · have ready := (ready_afterBits hs .group8 n).1
    subst h
    exact (runCommand_congr hs.1 ready (bodyOf_lzwStep hwidth hn hcan hcode)).trans (run_restart ready ht)
  · rw [← afterBits_lzw .group8 n s]
    exact exec_lzwStep_next hs hwidth hn hcan (h ▸ hcode) (t := (s.afterBits .group8 n).withLzw
      { (s.afterBits .group8 n).lzw with codeBits := some (n + 1) }) (afterBits_status_phase ..).1 stepOn_widen
  · exact exec_lzwStep_corrupted hs hwidth hn hcan hcode
      (stepOn_raises_index hhigh ((congrArg Lzw.freeIndex (afterBits_lzw ..)).trans hfree) hlt)
end

section
/-! SUPPORT. The string and the new entry of LZW.STEP (spec/44_blzw.md R264, R266). -/

namespace Sys2Proof.Machine

/-! ## The LZW unit in a step -/

/-- An LZW unit that has been set up and restarted. -/
structure Lzw.Running (l : Lzw) (m free : Nat) (prev first len : Word) : Prop where
  form : LzwForm l
  maxBits : l.maxBits = some m
  freeIndex : l.freeIndex = some free
  prevCode : l.prevCode = some prev
  newCode : l.newCode = some first
  stackLength : l.stackLength = some len

/-- The string that the dictionary has for a code up to the next free index, and the string that a step writes: the
same, or, for the next free index, the previous string and its first byte (spec/44_blzw.md R266). -/
def StepString (l : Lzw) (code free : Nat) (prev first : Word) (old string : List Byte) : Prop :=
  code < free ∧ lzwString l free code = some old ∧ string = old ∨
    code = free ∧ prev.toNat < free ∧ lzwString l free prev.toNat = some old ∧
      string = old ++ [truncByte first.toNat]

/-- The LZW unit with the entry of a step, where space remains. -/
def Lzw.grown (l : Lzw) (m free : Nat) (prev : Word) (b : Byte) : Lzw :=
  if free < 2 ^ m then
    { l with
      suffixes := storeWrite l.suffixes (free - 259) b, prefixes := storeWrite l.prefixes (free - 259) prev,
      freeIndex := some (free + 1) }
  else l

/-- The LZW unit after a step on a string that begins with `first`. -/
def Lzw.stepped (l : Lzw) (m free code : Nat) (prev : Word) (stack : Store Byte) (first : Nat) : Lzw :=
  { (l.emitted stack first).grown m free prev (truncByte first) with prevCode := some (toWord code) }

section Stepped

variable (l : Lzw) {m free : Nat} (code first : Nat) (prev : Word) (stack : Store Byte)

/-- A step leaves the registers that LZW.SETUP and LZW.RESTART set, but for the next free index. -/
theorem stepped_registers (m free : Nat) :
    (l.stepped m free code prev stack first).codeBits = l.codeBits ∧
    (l.stepped m free code prev stack first).maxBits = l.maxBits ∧
    (l.stepped m free code prev stack first).stackLength = l.stackLength ∧
    (l.stepped m free code prev stack first).newCode = some (toWord first) := by
  unfold Lzw.stepped Lzw.grown
  split <;> exact ⟨rfl, rfl, rfl, rfl⟩

theorem stepped_of_lt (h : free < 2 ^ m) :
    (l.stepped m free code prev stack first).freeIndex = some (free + 1) ∧
    (l.stepped m free code prev stack first).prefixes = storeWrite l.prefixes (free - 259) prev ∧
    (l.stepped m free code prev stack first).suffixes = storeWrite l.suffixes (free - 259) (truncByte first) := by
  rw [Lzw.stepped, Lzw.grown, if_pos h]
  exact ⟨rfl, rfl, rfl⟩

theorem stepped_of_full (h : 2 ^ m ≤ free) :
    (l.stepped m free code prev stack first).freeIndex = l.freeIndex ∧
    (l.stepped m free code prev stack first).prefixes = l.prefixes ∧
    (l.stepped m free code prev stack first).suffixes = l.suffixes := by
  rw [Lzw.stepped, Lzw.grown, if_neg (Nat.not_lt.2 h)]
  exact ⟨rfl, rfl, rfl⟩

end Stepped

theorem truncByte_toWord (n : Nat) : truncByte (toWord n).toNat = truncByte n :=
  BitVec.eq_of_toNat_eq (by simp [truncByte])

theorem truncByte_setWidth {n : Nat} (h : n < 256) : (truncByte n).setWidth 32 = toWord n :=
  BitVec.eq_of_toNat_eq (by simp [truncByte]; omega)

section Step

variable {s : State} {f : Fwr} {m free code : Nat} {prev first len : Word} {old string : List Byte}

theorem lzwInsert_grown {w : Word} (hmax : s.lzw.maxBits = some m) (hfree : s.lzw.freeIndex = some free)
    (hprev : s.lzw.prevCode = some prev) (hnew : s.lzw.newCode = some w) :
    lzwInsert s = .ok () (s.withLzw (s.lzw.grown m free prev (truncByte w.toNat))) := by
  rw [lzwInsert_eq, hfree, hmax, hprev, hnew, Lzw.grown]
  dsimp only
  split <;> rfl

theorem withRes0_changes (s : State) (v : Word) : Changes [.result] s { s with res0 := some v } :=
  setRes0_changes v s

/-! ## The output of a step -/

theorem lzwOutput_own (h : code < free) : lzwOutput code free = lzwEmit code := if_neg (Nat.ne_of_lt h)

/-- For the next free index the previous string goes out, and then its first byte. -/
theorem lzwOutput_next (hprev : s.lzw.prevCode = some prev) (hnew : s.lzw.newCode = some first) :
    lzwOutput free free s = (lzwEmit prev.toNat >>= fun _ => fwrWrb (truncByte first.toNat)) s := by
  rw [lzwOutput, if_pos rfl]
  exact (bind_of_ok (M.get_apply s)).trans <| (bind_of_ok (need_apply hnew s)).trans <|
    (bind_of_ok (M.get_apply s)).trans (bind_of_ok (need_apply hprev s))

/-- After the output of a step comes the new entry. -/
theorem growOn_of_output {raw : Memory} {f' : Fwr} {stack : Store Byte} {c : Nat} (hmax : s.lzw.maxBits = some m)
    (hfree : s.lzw.freeIndex = some free) (hprev : s.lzw.prevCode = some prev)
    (output : lzwOutput code free s = .ok () (s.withOutput raw f' (s.lzw.emitted stack c))) :
    growOn code free s = .ok code (s.withOutput raw f' (s.lzw.stepped m free code prev stack c)) := by
  have insert := lzwInsert_grown (s := s.withOutput raw f' (s.lzw.emitted stack c)) hmax hfree hprev rfl
  rw [truncByte_toWord] at insert
  exact (bind_of_ok output).trans ((bind_of_ok insert).trans (bind_of_ok (M.modify_apply ..)))

variable (run : s.lzw.Running m free prev first len)

include run

/-- The next free index after a code that a full dictionary did not take. -/
theorem lzwOutput_raises_index (h : free ≤ prev.toNat) : Raises (lzwOutput free free) s .index := by
  have hlow := (run.form.entriesBelow run.freeIndex).1
  exact .congr (lzwOutput_next run.prevCode run.newCode) <| .bind <| .after (M.modify_apply ..) <| .bind <|
    emitChain_raises_index (s := unstacked s) (hlow.trans h) run.freeIndex h

variable (hstring : StepString s.lzw code free prev first old string)

include hstring

theorem lzwOutput_raises_capacity (h : len.toNat < old.length) : Raises (lzwOutput code free) s .capacity := by
  rcases hstring with ⟨hlt, hold, -⟩ | ⟨rfl, hlt, hold, -⟩
  · rw [lzwOutput_own hlt]
    exact lzwEmit_raises_capacity run.form run.freeIndex run.stackLength hlt hold h
  · exact .congr (lzwOutput_next run.prevCode run.newCode)
      (.bind (lzwEmit_raises_capacity run.form run.freeIndex run.stackLength hlt hold h))

variable (hf : s.fwr = some f) (hstack : old.length ≤ len.toNat)

include hf hstack

theorem lzwOutput_raises_overrun (hinside : f.pos.toNat ≤ f.stop.toNat)
    (hroom : f.stop.toNat < f.pos.toNat + string.length) : Raises (lzwOutput code free) s .overrun := by
  rcases hstring with ⟨hlt, hold, rfl⟩ | ⟨rfl, hlt, hold, rfl⟩
  · obtain ⟨_, _, rfl, chains⟩ := chains_string run.form run.freeIndex run.stackLength hlt hold hstack
    rw [lzwOutput_own hlt]
    exact lzwEmit_raises chains hf hroom hinside
  · obtain ⟨_, _, rfl, chains⟩ := chains_string run.form run.freeIndex run.stackLength hlt hold hstack
    refine .congr (lzwOutput_next run.prevCode run.newCode) ?_
    rcases Nat.lt_or_ge f.stop.toNat (f.pos.toNat + (truncByte _ :: _).length) with hover | hfits
    · exact .bind (lzwEmit_raises chains hf hover hinside)
    · obtain ⟨raw, stack, emit, -⟩ := lzwEmit_writes chains hf hfits
      rw [List.length_append, List.length_singleton] at hroom
      exact .after emit (fwrWrb_raises_overrun rfl (by rw [after_pos hfits, after_stop]; omega) _)

/-- Where stack and output have room, exactly the string is written. -/
theorem lzwOutput_writes (hroom : f.pos.toNat + string.length ≤ f.stop.toNat) :
    ∃ raw stack c, c < 256 ∧ string[0]? = some (truncByte c) ∧
      lzwOutput code free s = .ok () (s.withOutput raw (f.after string) (s.lzw.emitted stack c)) ∧
      WroteForward f string s (s.withOutput raw (f.after string) (s.lzw.emitted stack c)) := by
  rcases hstring with ⟨hlt, hold, rfl⟩ | ⟨rfl, hlt, hold, rfl⟩
  · obtain ⟨c, _, rfl, chains⟩ := chains_string run.form run.freeIndex run.stackLength hlt hold hstack
    obtain ⟨raw, stack, emit, wrote⟩ := lzwEmit_writes chains hf hroom
    exact ⟨raw, stack, c, chains.1, rfl, by rw [lzwOutput_own hlt, emit], wrote⟩
  · obtain ⟨c, tail, rfl, chains⟩ := chains_string run.form run.freeIndex run.stackLength hlt hold hstack
    have room := hroom
    rw [List.length_append, List.length_singleton] at room
    have fits : f.pos.toNat + (truncByte c :: tail).length ≤ f.stop.toNat := by omega
    obtain ⟨raw, stack, emit, wrote⟩ := lzwEmit_writes chains hf fits
    obtain ⟨raw', last, wrote'⟩ := fwrWrb_withOutput
      (s := s.withOutput raw (f.after (truncByte c :: tail)) (s.lzw.emitted stack c)) rfl
      (by rw [after_pos fits, after_stop]; omega) (truncByte first.toNat)
    rw [after_append] at last wrote'
    exact ⟨raw', stack, c, chains.1, rfl,
      (lzwOutput_next run.prevCode run.newCode).trans ((bind_of_ok emit).trans last), wrote.trans wrote' hroom⟩

/-- A step on a string: the output, and the dictionary with its new entry. -/
theorem growOn_writes (hroom : f.pos.toNat + string.length ≤ f.stop.toNat) :
    ∃ raw stack c, c < 256 ∧ string[0]? = some (truncByte c) ∧
      growOn code free s =
        .ok code (s.withOutput raw (f.after string) (s.lzw.stepped m free code prev stack c)) ∧
      WroteForward f string s (s.withOutput raw (f.after string) (s.lzw.stepped m free code prev stack c)) := by
  obtain ⟨raw, stack, c, hc, hhead, output, wrote⟩ := lzwOutput_writes run hstring hf hstack hroom
  exact ⟨raw, stack, c, hc, hhead, growOn_of_output run.maxBits run.freeIndex run.prevCode output, wrote⟩

end Step

end Sys2Proof.Machine

open Sys2Proof Sys2Proof.Machine

/-- Settles O44: the output of the step by the chain of the code, then the new entry. -/
theorem lzwStep : Obligations.LzwStep := by
  intro s f n m free code prev first len hs hform hf hinside hwidth hmax hfree hprev hnew hlen hn hcan hcode h256 h257
    h258 hle
  have hlzw : (beginCommand (s.afterBits .group8 n)).lzw = s.lzw := afterBits_lzw ..
  have run : (beginCommand (s.afterBits .group8 n)).lzw.Running m free prev first len :=
    hlzw ▸ ⟨hform, hmax, hfree, hprev, hnew, hlen⟩
  have writer : (beginCommand (s.afterBits .group8 n)).fwr = some f := (afterBits_fwr ..).trans hf
  have turn := stepOn_string (n := n) ⟨h256, h257, h258⟩ run.freeIndex hle
  refine ⟨fun h hbig => ?_, fun old string hstring => ?_⟩
  · subst h
    exact exec_lzwStep_corrupted hs hwidth hn hcan hcode (.congr turn (.bind (lzwOutput_raises_index run hbig)))
  have spells : StepString (beginCommand (s.afterBits .group8 n)).lzw code free prev first old string := hlzw ▸ hstring
  refine ⟨fun hlong => ?_, fun hstack hroom => ?_, fun hstack hroom => ?_⟩
  · exact exec_lzwStep_corrupted hs hwidth hn hcan hcode
      (.congr turn (.bind (lzwOutput_raises_capacity run spells hlong)))
  · exact exec_lzwStep_corrupted hs hwidth hn hcan hcode
      (.congr turn (.bind (lzwOutput_raises_overrun run spells writer hstack hinside hroom)))
  · obtain ⟨raw, stack, c, hc, hhead, grow, wrote⟩ := growOn_writes run spells writer hstack hroom
    rw [hlzw] at grow wrote
    obtain ⟨hbits, hmaxBits, hlength, hfirst⟩ := stepped_registers s.lzw code c prev stack m free
    refine ⟨_, exec_lzwStep_next (t := (s.afterBits .group8 n).withOutput raw (f.after string)
      (s.lzw.stepped m free code prev stack c)) hs hwidth hn hcan hcode (afterBits_status_phase ..).1 (turn.trans grow),
      ?_, rfl, rfl, wrote.of_raw (afterBits_raw ..), hbits.trans hwidth, hmaxBits.trans hmax, hlength.trans hlen, rfl,
      truncByte c, hhead, hfirst.trans (congrArg some (truncByte_setWidth hc).symm), fun hlt => ?_, fun hfull => ?_⟩
    · exact ((afterBits_changes .group8 n s).mono (by simp)).trans <|
        ((withOutput_changes _ _ _ _).mono (by simp)).trans ((withRes0_changes _ _).mono (by simp))
    · obtain ⟨hindex, hprefixes, hsuffixes⟩ := stepped_of_lt s.lzw code c prev stack hlt
      exact ⟨hindex, fun k => (congrArg (storeRead · k) hprefixes).trans (storeRead_write ..),
        fun k => (congrArg (storeRead · k) hsuffixes).trans (storeRead_write ..)⟩
    · obtain ⟨hindex, hprefixes, hsuffixes⟩ := stepped_of_full s.lzw code c prev stack hfull
      exact ⟨hindex.trans hfree, hprefixes, hsuffixes⟩
end

section
/-! SUPPORT. DECOMPRESS.BLZW on a stream of literals (spec/44_blzw.md R261, R262): the header, the first code by
LZW.RESTART, and a turn of the loop for each byte after it. -/

namespace Sys2Proof.Machine

/-! ## A stream of literals -/

/-- The codes of nine bits of literal bytes. -/
def literalBits (bytes : List Byte) : List Bool := bytes.flatMap fun b => bitsOf 9 b.toNat

theorem literalBits_cons (b : Byte) (bytes : List Byte) :
    literalBits (b :: bytes) = bitsOf 9 b.toNat ++ literalBits bytes :=
  List.flatMap_cons

theorem literalBits_length (bytes : List Byte) : (literalBits bytes).length = 9 * bytes.length := by
  induction bytes with
  | nil => rfl
  | cons b bytes ih =>
    rw [literalBits_cons, List.length_append, bitsOf_length, ih, List.length_cons]
    omega

theorem truncByte_toNat (b : Byte) : truncByte b.toNat = b := by simp [truncByte]

/-- The bytes `todo` are still to be decoded, and there is exactly room for them. -/
structure LiteralsLeft (s : State) (f : Fwr) (todo : List Byte) (rest : List Bool) : Prop where
  readerSet : s.ReaderSet
  stream : s.bitStream = literalBits todo ++ rest
  writer : s.fwr = some f
  room : f.pos.toNat + todo.length = f.stop.toNat

section Literals

variable {s : State} {f : Fwr} {b : Byte} {todo : List Byte} {rest : List Bool}

theorem LiteralsLeft.fits (h : LiteralsLeft s f (b :: todo) rest) : f.pos.toNat < f.stop.toNat := by
  have := h.room
  rw [List.length_cons] at this
  omega

theorem LiteralsLeft.canRead (h : LiteralsLeft s f (b :: todo) rest) : s.CanRead .group8 9 := by
  rw [canRead_group8 h.readerSet, h.stream, literalBits_cons, List.length_append, List.length_append, bitsOf_length]
  omega

/-- The next code is the next byte. -/
theorem LiteralsLeft.code (h : LiteralsLeft s f (b :: todo) rest) : bitsValue (s.bitStream.take 9) = b.toNat := by
  have len : 9 = (bitsOf 9 b.toNat).length := (bitsOf_length ..).symm
  rw [h.stream, literalBits_cons, List.append_assoc, List.take_left' len.symm, bitsValue_bitsOf]
  have := b.isLt
  omega

/-- A byte has been read and written. -/
theorem LiteralsLeft.next (h : LiteralsLeft s f (b :: todo) rest) (raw : Memory) (l : Lzw) :
    LiteralsLeft ((s.afterBits .group8 9).withOutput raw (f.after [b]) l) (f.after [b]) todo rest where
  readerSet := afterBits_readerSet h.readerSet
  stream := by
    have read := afterBits_bitStream 9 h.canRead
    rw [h.stream, literalBits_cons, List.append_assoc, List.drop_left' (bitsOf_length ..)] at read
    rw [← read]
    exact bitStream_congr (withOutput_changes (s.afterBits .group8 9) raw (f.after [b]) l) (by decide) (by decide)
  writer := rfl
  room := by
    have room := h.room
    rw [List.length_cons] at room
    rw [after_pos (by rw [List.length_singleton]; omega), List.length_singleton, after_stop]
    omega

/-! ## A turn of the loop -/

/-- The dictionary while literals are read: `free` entries, and a previous code. -/
structure Lzw.AtLiterals (l : Lzw) (m free : Nat) : Prop where
  codeBits : l.codeBits = some 9
  maxBits : l.maxBits = some m
  freeIndex : l.freeIndex = some free
  low : 259 ≤ free
  high : free ≤ 2 ^ m
  prevCode : ∃ prev, l.prevCode = some prev

theorem Lzw.AtLiterals.stepped {l : Lzw} {m free : Nat} (h : l.AtLiterals m free) (code first : Nat) (prev : Word)
    (stack : Store Byte) : (l.stepped m free code prev stack first).AtLiterals m (min (free + 1) (2 ^ m)) := by
  obtain ⟨hbits, hmax, -, -⟩ := stepped_registers l code first prev stack m free
  have low := h.low
  have high := h.high
  refine ⟨hbits.trans h.codeBits, hmax.trans h.maxBits, ?_, ?_, Nat.min_le_right .., _, rfl⟩
  · rcases Nat.lt_or_ge free (2 ^ m) with hlt | hfull
    · exact (stepped_of_lt l code first prev stack hlt).1.trans (congrArg some (Nat.min_eq_left hlt).symm)
    · have full : min (free + 1) (2 ^ m) = free := by omega
      exact (stepped_of_full l code first prev stack hfull).1.trans (h.freeIndex.trans (congrArg some full.symm))
  · exact low.trans (Nat.le_min.2 ⟨Nat.le_succ free, high⟩)

/-- A turn reads the code of a byte, writes the byte and adds an entry while space remains. -/
theorem lzwStep_literal {m free : Nat} (h : LiteralsLeft s f (b :: todo) rest) (hl : s.lzw.AtLiterals m free) :
    ∃ t, lzwStep s = .ok b.toNat t ∧ LiteralsLeft t (f.after [b]) todo rest ∧
      t.lzw.AtLiterals m (min (free + 1) (2 ^ m)) ∧ WroteForward f [b] s t := by
  obtain ⟨prev, hprev⟩ := hl.prevCode
  have low := hl.low
  have hlzw : (s.afterBits .group8 9).lzw = s.lzw := afterBits_lzw ..
  have hb : b.toNat < 256 := b.isLt
  obtain ⟨raw, stack, emit, wrote⟩ := lzwEmit_writes (s := s.afterBits .group8 9) (chains_literal hb)
    ((afterBits_fwr ..).trans h.writer) h.fits
  rw [truncByte_toNat] at emit wrote
  have output : lzwOutput b.toNat free (s.afterBits .group8 9) = _ := (congrFun (lzwOutput_own (by omega)) _).trans emit
  have turn := growOn_of_output (hlzw ▸ hl.maxBits) (hlzw ▸ hl.freeIndex) (hlzw ▸ hprev) output
  have reads := lzwStep_reads hl.codeBits (by decide) h.canRead
  rw [h.code, stepOn_string (by omega) (hlzw ▸ hl.freeIndex) (by omega)] at reads
  exact ⟨_, reads.trans turn, h.next raw _, hlzw.symm ▸ hl.stepped _ _ _ _, wrote.of_raw (afterBits_raw ..)⟩

/-- LZW.RESTART reads the code of the first byte and writes it. -/
theorem lzwRestart_literal {m : Nat} (h : LiteralsLeft s f (b :: todo) rest) (hmax : s.lzw.maxBits = some m)
    (hm : 9 ≤ m) :
    ∃ t, lzwRestart s = .ok () t ∧ LiteralsLeft t (f.after [b]) todo rest ∧ t.lzw.AtLiterals m 259 ∧
      WroteForward f [b] s t := by
  have room : 259 ≤ 2 ^ m := (show 259 ≤ 2 ^ 9 by decide).trans (Nat.pow_le_pow_right (by decide) hm)
  obtain ⟨raw, stack, restart, wrote⟩ := lzwRestart_writes hmax h.canRead h.code b.isLt h.writer h.fits
  rw [truncByte_toNat] at restart wrote
  exact ⟨_, restart, h.next raw _, ⟨rfl, hmax, rfl, le_rfl, room, _, rfl⟩, wrote⟩

/-! ## The loop -/

theorem whileNotEof_turn {turn : M Bool} {t : State} (hf : s.fwr = some f) (hne : f.pos ≠ f.stop)
    (hturn : turn s = .ok true t) (hless : workLeft t < workLeft s) (turns : Nat) :
    whileNotEof turn (turns + 1) s = whileNotEof turn turns t := by
  have going : (do return !(← fwrEof) : M Bool) s = .ok true s := by
    simp [fwrEof_eq, hf, hne]
  rw [whileNotEof, turnLoop_succ, going]
  dsimp only
  rw [hturn]
  exact if_neg (Nat.not_le.2 hless)

/-- The turns of BLZW. -/
def blzwTurn : M Bool := do
  let _ ← lzwStep
  pure true

/-- The loop of BLZW writes the bytes of a stream of literals. -/
theorem literalLoop {m free turns : Nat} (h : LiteralsLeft s f todo rest) (hl : s.lzw.AtLiterals m free)
    (hturns : todo.length ≤ turns) :
    ∃ t, whileNotEof blzwTurn turns s = .ok () t ∧ t.lzw.AtLiterals m (min (free + todo.length) (2 ^ m)) ∧
      WroteForward f todo s t := by
  induction todo generalizing s f free turns with
  | nil =>
    have full : f.pos = f.stop := BitVec.eq_of_toNat_eq h.room
    have same : min (free + 0) (2 ^ m) = free := Nat.min_eq_left hl.high
    exact ⟨s, whileNotEof_of_full h.writer full .., same.symm ▸ hl, .nil h.writer⟩
  | cons b todo ih =>
    rw [List.length_cons] at hturns
    obtain ⟨turns, rfl⟩ := Nat.exists_eq_add_one.2 (show 0 < turns by omega)
    obtain ⟨u, step, left, hu, wrote⟩ := lzwStep_literal h hl
    have lowers : workLeft u < workLeft s := by
      have goes := lzwStep_goes (s := s) fun n hn => by
        obtain rfl := Option.some.inj (hl.codeBits.symm.trans hn)
        decide
      rw [Goes, step] at goes
      exact goes.workLeft_lt
    obtain ⟨t, run, ht, wrote'⟩ := ih left hu (turns := turns) (by omega)
    have fits := h.fits
    have loop := whileNotEof_turn h.writer (fun e => by rw [e] at fits; exact Nat.lt_irrefl _ fits)
      (turn := blzwTurn) (bind_of_ok step) lowers turns
    refine ⟨t, loop.trans run, ?_, wrote.trans wrote' h.room.le⟩
    have count : min (min (free + 1) (2 ^ m) + todo.length) (2 ^ m) = min (free + (b :: todo).length) (2 ^ m) := by
      rw [List.length_cons]
      omega
    exact count ▸ ht

end Literals

/-! ## The header -/

/-- A state set up for BLZW, behind the header of a chunk. -/
def blzwReady (s : State) (m stackLength : Nat) : State :=
  { s with
    phase := .running, fwr := some ⟨0#32, 0#32, s.rawLen⟩, fcur := some ⟨4#32, s.chunkLen⟩, bitsAcc := some 0#32,
    bitsCnt := some 0, lzw := { Lzw.unset with maxBits := some m, stackLength := some (toWord stackLength) } }

/-- That state before LZW.SETUP. -/
def blzwStarted (s : State) : State := { blzwReady s 0 0 with lzw := Lzw.unset }

/-- What BLZW does behind its header. -/
def blzwBody : M Unit := do
  lzwRestart
  let s ← get
  whileNotEof blzwTurn (unreadBits s + 1)
  macroEnd

section Header

variable {s : State} {m : Nat} {hv0 hv1 : Byte} {body : List Byte} (hmin : 9 ≤ m) (hmax : m ≤ 20)
  (hchunk : memBytes s.chunk 0 s.chunkLen.toNat = some (0#8 :: truncByte m :: hv0 :: hv1 :: body))

include hmin hmax hchunk

/-- The header names the width limit and the length of the stack (spec/44_blzw.md R262). -/
theorem blzwSequence_eq :
    blzwSequence s = blzwBody (blzwReady s m (be16 hv0 hv1 + blzwStackExtra)) := by
  have length : body.length + 4 = s.chunkLen.toNat := memBytes_length hchunk
  have consumed : fcurConsume 4 { blzwStarted s with fcur := some ⟨0#32, s.chunkLen⟩ } = .ok 0#32 (blzwStarted s) :=
    fcurConsume_of_le (n := 4#32) (f := ⟨0#32, s.chunkLen⟩) rfl (by
      show 0 + 4 ≤ min s.chunkLen.toNat s.chunkLen.toNat
      omega)
  have byte {i : Nat} {b : Byte} (hb : (0#8 :: truncByte m :: hv0 :: hv1 :: body)[i]? = some b) :
      chunkByte i (blzwStarted s) = .ok b (blzwStarted s) := chunkByte_of_memBytes hchunk hb
  have width : be16 0#8 (truncByte m) = m := by
    simp [be16, truncByte]
    omega
  have setup : Machine.lzwSetup (be16 0#8 (truncByte m)) (be16 hv0 hv1 + blzwStackExtra) (blzwStarted s) =
      .ok () (blzwReady s m (be16 hv0 hv1 + blzwStackExtra)) := by
    have bound : be16 hv0 hv1 + blzwStackExtra ≤ 65540 := by
      unfold be16 blzwStackExtra
      omega
    have pos : 1 ≤ be16 hv0 hv1 + blzwStackExtra := by
      unfold blzwStackExtra
      omega
    rw [lzwSetup_eq, width, if_neg (by omega), if_neg (by omega)]
    rfl
  exact (bind_of_ok (commonSetup_eq s)).trans <| (bind_of_ok (M.modify_apply ..)).trans <|
    (bind_of_ok consumed).trans <| (bind_of_ok (byte rfl)).trans <| (bind_of_ok (byte rfl)).trans <|
    (bind_of_ok (byte rfl)).trans <| (bind_of_ok (byte rfl)).trans (bind_of_ok setup)

omit hmin hmax in
theorem literalsLeft_blzwReady {out : List Byte} {rest : List Bool} (hout : out.length = s.rawLen.toNat)
    (hbits : byteBits body = literalBits out ++ rest) (n : Nat) :
    LiteralsLeft (blzwReady s m n) ⟨0#32, 0#32, s.rawLen⟩ out rest where
  readerSet := ⟨0, rfl, .inl rfl⟩
  stream := by
    rw [← hbits]
    exact bitStream_of_chunk (s := blzwReady s m n) hchunk rfl rfl rfl (by simp)
  writer := rfl
  room := (Nat.zero_add _).trans hout

end Header

theorem bitStream_length_le (s : State) : s.bitStream.length ≤ unreadBits s := by
  rw [State.bitStream, List.length_append, bitsOf_length, byteBits_length, unreadBits]
  cases hf : s.fcur with
  | none => simp [State.unreadBytes, hf]
  | some f =>
    have := unreadBytes_length_le hf
    have := fcurEnd_le_stop f s
    dsimp only
    omega

/-- Behind the header, a stream of literals. -/
theorem blzwBody_literals {s : State} {f : Fwr} {b : Byte} {todo : List Byte} {rest : List Bool} {m : Nat}
    (h : LiteralsLeft s f (b :: todo) rest) (hmax : s.lzw.maxBits = some m) (hm : 9 ≤ m) :
    ∃ t, blzwBody s = .ok () t ∧ memBytes t.raw f.pos.toNat (b :: todo).length = some (b :: todo) ∧
      t.lzw.freeIndex = some (min (258 + (b :: todo).length) (2 ^ m)) ∧ t.lzw.codeBits = some 9 := by
  obtain ⟨u, restart, left, hu, wrote⟩ := lzwRestart_literal h hmax hm
  have long := bitStream_length_le u
  rw [left.stream, List.length_append, literalBits_length] at long
  obtain ⟨t, loop, ht, wrote'⟩ := literalLoop left hu (turns := unreadBits u + 1) (by omega)
  obtain ⟨-, written, -⟩ := wrote.trans wrote' h.room.le
  refine ⟨_, (bind_of_ok restart).trans ((bind_of_ok (M.get_apply _)).trans ((bind_of_ok loop).trans (macroEnd_eq t))),
    written, ?_, ht.codeBits⟩
  have count : 259 + todo.length = 258 + (b :: todo).length := by
    rw [List.length_cons]
    omega
  exact count ▸ ht.freeIndex

/-! ## The command -/

/-- The end of a command gives back BUSY, which a ready core does not show. -/
theorem Part.Agree.endCommand {p : Part} {s u : State} (hs : s.Ready) (hp : p ≠ .phase)
    (h : p.Agree (beginCommand s) u) : p.Agree s (endCommand u) := by
  obtain ⟨-, hbusy, -⟩ := hs
  cases p with
  | phase => exact absurd rfl hp
  | host => simp_all [Part.Agree, beginCommand, Machine.endCommand]
  | _ => exact h

/-- A DECOMPRESS command whose body ends: what it writes, and STATUS. -/
theorem exec_macro {i : Instr} {s u : State} (hs : s.Ready) (hi : i ∈ macros)
    (h : bodyOf i (beginCommand s) = .ok () u) :
    exec i s = .next (endCommand u) ∧ Changes (writesOf i) s (endCommand u) ∧ (endCommand u).Clean := by
  have hne : i ≠ .instReset := by
    rintro rfl
    exact absurd hi (by decide)
  have agrees {p : Part} (hp : p ≠ .phase) (hw : p ∉ writesOf i) : p.Agree s (endCommand u) := by
    have kept := bodyOf_agree hp hw (beginCommand s)
    rw [h] at kept
    exact kept.endCommand hs hp
  obtain ⟨hphase, hkind, hcause⟩ := bodyOf_macroDone hi _ _ h
  have unfaulted : u.status.faulted = false := by
    rw [← hs.1, host_faulted (agrees (by decide) (host_notMem_writesOf hne))]
    rfl
  refine ⟨(exec_eq_runCommand hne s).trans (runCommand_ok hs.1 h), fun p hw => ?_, hkind, hcause, unfaulted, rfl,
    hphase⟩
  by_cases hp : p = .phase
  · subst hp
    exact hs.2.2.trans hphase.symm
  · exact agrees hp hw

end Sys2Proof.Machine

open Sys2Proof Sys2Proof.Machine

/-- Settles O52, by induction on the bytes after the first. -/
theorem blzwLiterals : Obligations.BlzwLiterals := by
  intro s m hv0 hv1 body out rest hs hmin hmax hchunk hne hout hbits
  obtain ⟨b, todo, rfl⟩ := List.exists_cons_of_ne_nil hne
  have left := literalsLeft_blzwReady (s := beginCommand s) (m := m) hchunk hout hbits (be16 hv0 hv1 + blzwStackExtra)
  obtain ⟨u, run, written, hfree, hwidth⟩ := blzwBody_literals left rfl hmin
  obtain ⟨next, changes, clean⟩ := exec_macro (i := .decompressBlzw) hs (by decide)
    ((blzwSequence_eq (s := beginCommand s) hmin hmax hchunk).trans run)
  exact ⟨endCommand u, next, changes.mono (by simp [writesOf]), clean, hout ▸ written, hfree, hwidth⟩
end

section
/-! SUPPORT. The commands of the MTF unit (spec/45_bzp2.md R290, R291), BZ.START (R295), and BZ.BLOCK up to the end
marker (R296). -/

namespace Sys2Proof.Machine

/-! ## Move-to-front -/

theorem bodyOf_mtfInit {l : MtfStore} {s : State} {a : Word} (h : s.arg0 = some a) :
    bodyOf (.mtfInit l) s = mtfInit l a.toNat s := arg0_apply h

theorem bodyOf_mtfAccess {l : MtfStore} {s : State} {a : Word} (h : s.arg0 = some a) :
    bodyOf (.mtfAccess l) s = (mtfAccess l a.toNat >>= fun e => setRes0 (toWord e)) s := arg0_apply h

/-- The element at a place moves to the front, and the others keep their order. -/
theorem moveToFront_append (front back : List Nat) (e : Nat) :
    moveToFront (front ++ e :: back) front.length e = e :: front ++ back := by
  rw [moveToFront, List.eraseIdx_append_of_length_le le_rfl, Nat.sub_self, List.eraseIdx_cons_zero, List.cons_append]

theorem mtfAccess_of_getElem {l : MtfStore} {s : State} {xs : List Nat} {j e : Nat} (h : mtfOf l s = some xs)
    (hj : xs[j]? = some e) : mtfAccess l j s = .ok e (withMtf l (moveToFront xs j e) s) := by
  rw [mtfAccess_eq, h]
  simp only [hj]

theorem mtfAccess_raises_index {l : MtfStore} {s : State} {xs : List Nat} {j : Nat} (h : mtfOf l s = some xs)
    (hj : xs.length ≤ j) : Raises (mtfAccess l j) s .index :=
  ⟨s, by rw [mtfAccess_eq, h]; simp only [List.getElem?_eq_none hj]⟩

/-- A new list leaves STATUS. -/
theorem withMtf_beginCommand (l : MtfStore) (xs : List Nat) (s : State) :
    withMtf l xs (beginCommand s) = beginCommand (withMtf l xs s) := by
  cases l <;> rfl

theorem withMtf_status (l : MtfStore) (xs : List Nat) (s : State) : (withMtf l xs s).status = s.status := by
  cases l <;> rfl

/-! ## BZ.START -/

theorem bodyOf_bzStart {s : State} {n : Word} (h : s.arg0 = some n) : bodyOf .bzStart s = bzStart n.toNat s :=
  arg0_apply h

/-! ## The markers of BZ.BLOCK -/

/-- What BZ.BLOCK does with its marker. -/
def markerOn (c : Config) (m : Nat) : M Bool :=
  if m = bzEndMagic then do
    let stored ← rd 32
    let crc ← need (← get).bz.crc
    if stored ≠ crc.toNat then raiseChecksum else pure false
  else if m = bzBlockMagic then do
    readBlock c
    pure true
  else raise .magic

section Marker

variable {s : State}

/-- A read behind the first `m` bits. -/
theorem rd_behind {m n : Nat} (hn : n ≤ 32) (h : s.CanRead .group8 (m + n)) :
    rd n (s.afterBits .group8 m) =
      .ok (bitsValue ((s.bitStream.drop m).take n)) (s.afterBits .group8 (m + n)) := by
  have first : s.CanRead .group8 m := canRead_of_le h (Nat.le_add_right m n)
  rw [rd_apply hn ((canRead_afterBits first).2 h), afterBits_bitStream m first, afterBits_add m n h]

/-- The marker is the first 48 bits of the stream. -/
theorem bzBlock_marker (c : Config) (h : s.CanRead .group8 48) :
    bzBlock c s = markerOn c (bitsValue (s.bitStream.take 48)) (s.afterBits .group8 48) := by
  have hi := rd_apply (n := 32) (by decide) (canRead_of_le h (by decide))
  have lo := rd_behind (m := 32) (n := 16) (by decide) h
  have long := (canRead_group8 h.1).1 h
  have value : bitsValue (s.bitStream.take 32) * 2 ^ 16 + bitsValue ((s.bitStream.drop 32).take 16) =
      bitsValue (s.bitStream.take 48) := by
    rw [show 48 = 32 + 16 from rfl, List.take_add, bitsValue_append,
      List.length_take_of_le (by rw [List.length_drop]; omega)]
  rw [← value]
  exact (bind_of_ok hi).trans (bind_of_ok lo)

theorem markerOn_raises_magic (c : Config) {m : Nat} (hend : m ≠ 0x177245385090) (hblock : m ≠ 0x314159265359) :
    Raises (markerOn c m) s .magic := by
  rw [markerOn, if_neg (show m ≠ bzEndMagic from hend), if_neg (show m ≠ bzBlockMagic from hblock)]
  exact ⟨s, rfl⟩

/-- Behind the block marker stands a block. -/
theorem markerOn_block (c : Config) : markerOn c bzBlockMagic = readBlock c >>= fun _ => pure true := rfl

variable (c : Config) (hcan : s.CanRead .group8 80) (hmarker : bitsValue (s.bitStream.take 48) = 0x177245385090)
include hcan hmarker

/-- At the end marker the stored CRC is read before the running one. -/
theorem bzBlock_end :
    bzBlock c s = (need s.bz.crc >>= fun crc : Word =>
      if bitsValue ((s.bitStream.drop 48).take 32) ≠ crc.toNat then raiseChecksum else pure false)
        (s.afterBits .group8 80) := by
  have head : s.CanRead .group8 48 := canRead_of_le hcan (by decide)
  have stored := rd_behind (m := 48) (n := 32) (by decide) hcan
  have crc : (s.afterBits .group8 80).bz = s.bz := (afterBits_changes .group8 80 s .block (by decide)).symm
  rw [bzBlock_marker c head, hmarker, ← crc]
  exact (bind_of_ok stored).trans (bind_of_ok (M.get_apply _))

theorem bzBlock_end_raises_unset (hcrc : s.bz.crc = none) : Raises (bzBlock c) s .unset := by
  refine .congr (bzBlock_end c hcan hmarker) ?_
  rw [hcrc]
  exact ⟨_, rfl⟩

/-- The stored CRC is compared with the running one. -/
theorem bzBlock_end_eq {crc : Word} (hcrc : s.bz.crc = some crc) :
    bzBlock c s = if bitsValue ((s.bitStream.drop 48).take 32) = crc.toNat then .ok false (s.afterBits .group8 80)
      else .error .checksum (s.afterBits .group8 80) := by
  rw [bzBlock_end c hcan hmarker, hcrc]
  simp only [need_some, M.bind_apply, M.pure_apply, M.ite_apply, raiseChecksum_apply, ne_eq, ite_not]

end Marker

/-- A body of a command that is not of the ARI unit ends in a wrong checksum. -/
theorem exec_checksum {i : Instr} {s t : State} (hs : s.Ready) (h : bodyOf i (beginCommand s) = .error .checksum t)
    (hr : i ≠ .instReset := by nofun) (ha : usesAri i = false := by rfl) :
    exec i s = .next (errorEntry false .wrongBlockChecksum none s) := by
  rw [exec_eq_runCommand hr, ha, runCommand, hs.1, if_neg (by decide), h]
  dsimp only
  rw [errorEntry_congr (bodyOf_error_changes hr ha h), errorEntry_beginCommand]

end Sys2Proof.Machine

open Sys2Proof Sys2Proof.Machine

/-- Settles O41: an access splits the list at its place. -/
theorem mtfCommands : Obligations.MtfCommands := by
  intro s l a hs h0
  have init : bodyOf (.mtfInit l) (beginCommand s) = Machine.mtfInit l a.toNat (beginCommand s) := bodyOf_mtfInit h0
  rw [mtfInit_eq, withMtf_beginCommand] at init
  refine ⟨fun hle => ?_, fun hlt => exec_corrupted hs (.of_eq (init.trans (if_pos hlt))), fun xs hxs => ?_⟩
  · rw [exec_ended hs (init.trans (if_neg (Nat.not_lt.2 hle))) (withMtf_status ..)]
    cases l <;> rfl
  have list : mtfOf l (beginCommand s) = some xs := by cases l <;> exact hxs
  have access := bodyOf_mtfAccess (l := l) (s := beginCommand s) h0
  refine ⟨fun front e back hsplit hplace => ?_, fun hle => ?_⟩
  · have run := mtfAccess_of_getElem (j := a.toNat) (e := e) list (by simp [hsplit, hplace])
    rw [hsplit, hplace, moveToFront_append, withMtf_beginCommand, ← hplace] at run
    rw [exec_result (g := toWord) hs access run (withMtf_status ..)]
    cases l <;> rfl
  · exact exec_corrupted hs (.congr access (.bind (mtfAccess_raises_index list hle)))

/-- Settles O46: the check of the size, and the two fixed tables. -/
theorem bzStart : Obligations.BzStart := by
  intro s n hs h0
  have body : bodyOf .bzStart (beginCommand s) = Machine.bzStart n.toNat (beginCommand s) := bodyOf_bzStart h0
  rw [bzStart_eq] at body
  exact ⟨fun h => exec_corrupted hs (.of_eq (body.trans (if_pos h))),
    fun hmin hmax => exec_ended hs (body.trans (if_neg (by omega))) rfl⟩

/-- Settles O47: the marker is read, and at the end marker the stored CRC and the running one. -/
theorem bzEndMarker : Obligations.BzEndMarker := by
  intro s hs
  refine ⟨fun hcan hend hblock => ?_, fun hcrc hcan hmarker => ?_, fun crc hcrc hcan hmarker =>
    ⟨fun hsame => ?_, fun hother => ?_⟩⟩
  · exact exec_corrupted hs (.bind (.congr (bzBlock_marker (s := beginCommand s) _ hcan)
      (markerOn_raises_magic _ hend hblock)))
  · exact exec_corrupted hs (.bind (bzBlock_end_raises_unset (s := beginCommand s) _ hcan hmarker hcrc))
  all_goals have run := bzBlock_end_eq (s := beginCommand s) Config.core hcan hmarker hcrc
  · rw [afterBits_beginCommand] at run
    exact exec_result (g := fun r => toWord (flagBit r)) hs rfl (run.trans (if_pos hsame)) (afterBits_status_phase ..).1
  · exact exec_checksum hs ((M.bind_apply ..).trans (by rw [run.trans (if_neg hother)]))

end

section
/-! SUPPORT. DECOMPRESS.BZP2 on a stream of no blocks (spec/45_bzp2.md R293, R294): the header, the end marker and the
stored CRC. -/

namespace Sys2Proof.Machine

/-- A state set up for BZP2 (spec/43_decompress_common.md R242). -/
def bzp2SetUp (s : State) : State :=
  clearBzp2
    { s with
      phase := .running, fwr := some ⟨0#32, 0#32, s.rawLen⟩, fcur := some ⟨0#32, s.chunkLen⟩, bitsAcc := some 0#32,
      bitsCnt := some 0 }

/-- That state behind the header of a chunk (R294). -/
def bzp2Started (s : State) : State := { bzp2SetUp s with fcur := some ⟨4#32, s.chunkLen⟩ }

/-- That state with the block size that the header names. -/
def bzp2Ready (s : State) (blockSize : Nat) : State :=
  { bzp2Started s with
    bz := { (bzp2Started s).bz with blockSize := some blockSize, crc := some 0#32, blk := none },
    ht := ((bzp2Started s).ht.set selectorSlot (some selectorTable)).set deltaSlot (some deltaTable) }

theorem bzp2Started_chunk (s : State) : (bzp2Started s).chunk = s.chunk := rfl

theorem fcurConsume_bzp2SetUp {s : State} (h : 4 ≤ s.chunkLen.toNat) :
    fcurConsume 4 (bzp2SetUp s) = .ok 0#32 (bzp2Started s) := by
  refine fcurConsume_of_le (n := 4#32) (f := ⟨0#32, s.chunkLen⟩) rfl (le_min ?_ ?_)
  all_goals
    rw [BitVec.toNat_zero, Nat.zero_add]
    exact h

theorem bzStart_bzp2Started {n : Nat} (hmin : 1 ≤ n) (hmax : n ≤ 900000) (s : State) :
    Machine.bzStart n (bzp2Started s) = .ok () (bzp2Ready s n) :=
  (bzStart_eq n _).trans (if_neg (by omega))

/-- Ten bytes behind the header, the cursor stands at offset 14. -/
theorem fcur_afterBits_bzp2Ready (s : State) (n : Nat) :
    ((bzp2Ready s n).afterBits .group8 80).fcur = some ⟨14#32, s.chunkLen⟩ := by
  have ten : (bzp2Ready s n).refills .group8 80 = 10 := by
    rw [State.refills, show (bzp2Ready s n).bitsCnt = some 0 from rfl]
    rfl
  rw [afterBits_of_refills (by rw [ten]; decide), ten]
  rfl

/-- What BZP2 does behind its header. -/
def bzp2Body (c : Config) : M Unit := do
  let s ← get
  bzp2Loop c (unreadBits s + 1)
  if ← fwrEof then macroEnd else raise .underFill

/-- The end marker, as it stands in a chunk. -/
def endMarkerBytes : List Byte := [0x17#8, 0x72#8, 0x45#8, 0x38#8, 0x50#8, 0x90#8]

/-- A word as it stands in a chunk, high byte first. -/
def wordBytes (w : Word) : List Byte :=
  [w.extractLsb' 24 8, w.extractLsb' 16 8, w.extractLsb' 8 8, w.extractLsb' 0 8]

theorem bitsValue_wordBytes (w : Word) : bitsValue (byteBits (wordBytes w)) = w.toNat := by
  have := w.isLt
  simp [wordBytes, bitsValue_append, Nat.shiftRight_eq_div_pow]
  omega

section Header

variable {s : State} {digit : Byte} {body : List Byte} (hmin : 0x31 ≤ digit.toNat) (hmax : digit.toNat ≤ 0x39)
  (hchunk : memBytes s.chunk 0 s.chunkLen.toNat = some (0x42#8 :: 0x5A#8 :: 0x68#8 :: digit :: body))
include hchunk

theorem bitStream_bzp2Ready (n : Nat) : (bzp2Ready s n).bitStream = byteBits body :=
  bitStream_of_chunk (s := bzp2Ready s n) hchunk rfl rfl rfl (by simp)

include hmin hmax

/-- The header names the block size. -/
theorem bzp2Sequence_eq (c : Config) :
    bzp2Sequence c s = bzp2Body c (bzp2Ready s ((digit.toNat - 0x30) * 100000)) := by
  have length : body.length + 4 = s.chunkLen.toNat := memBytes_length hchunk
  have consumed := fcurConsume_bzp2SetUp (s := s) (by omega)
  have byte {i : Nat} {b : Byte} (hb : (0x42#8 :: 0x5A#8 :: 0x68#8 :: digit :: body)[i]? = some b) :
      chunkByte i (bzp2Started s) = .ok b (bzp2Started s) :=
    chunkByte_of_memBytes (s := bzp2Started s) (by rw [bzp2Started_chunk]; exact hchunk) hb
  have letter {i : Nat} {b : Byte} (hb : (0x42#8 :: 0x5A#8 :: 0x68#8 :: digit :: body)[i]? = some b) :
      headerLetter i b (bzp2Started s) = .ok () (bzp2Started s) :=
    (bind_of_ok (byte hb)).trans (by rw [if_neg (not_not.2 rfl)]; rfl)
  have start := bzStart_bzp2Started (n := (digit.toNat - 0x30) * 100000) (by omega) (by omega) s
  refine (bind_of_ok (commonSetup_eq s)).trans <| (bind_of_ok (M.modify_apply ..)).trans <|
    (bind_of_ok consumed).trans <| (bind_of_ok (letter rfl)).trans <| (bind_of_ok (letter rfl)).trans <|
    (bind_of_ok (letter rfl)).trans <| (bind_of_ok (byte rfl)).trans ?_
  rw [if_neg (by omega)]
  exact bind_of_ok start

end Header

/-! ## Behind the header -/

section Body

variable {s : State} {c : Config}

theorem bzp2Loop_of_end {t : State} (h : bzBlock c s = .ok false t) (turns : Nat) :
    bzp2Loop c (turns + 1) s = .ok () t := (bind_of_ok h).trans rfl

theorem bzp2Body_checksum {t : State} (h : bzBlock c s = .error .checksum t) :
    bzp2Body c s = .error .checksum t := by
  refine (bind_of_ok (M.get_apply s)).trans ?_
  rw [bzp2Loop]
  simp only [M.bind_apply, h]

/-- At the end marker the output must be full (spec/43_decompress_common.md R246). -/
theorem bzp2Body_of_end {t : State} {f : Fwr} (h : bzBlock c s = .ok false t) (hf : t.fwr = some f) :
    bzp2Body c s = (if f.pos == f.stop then macroEnd else raise .underFill) t := by
  have eof : fwrEof t = .ok (f.pos == f.stop) t := by rw [fwrEof_eq, hf]
  exact (bind_of_ok (M.get_apply s)).trans <| (bind_of_ok (bzp2Loop_of_end h _)).trans (bind_of_ok eof)

/-- The end marker and a stored CRC are read from the stream. -/
theorem bzBlock_of_endMarker {stored crc : Word} {rest : List Byte} (hset : s.ReaderSet)
    (hstream : s.bitStream = byteBits (endMarkerBytes ++ wordBytes stored ++ rest)) (hcrc : s.bz.crc = some crc) :
    bzBlock c s = if stored = crc then .ok false (s.afterBits .group8 80)
      else .error .checksum (s.afterBits .group8 80) := by
  have can : s.CanRead .group8 80 := (canRead_group8 hset).2 (by
    rw [hstream, byteBits_length]
    simp [endMarkerBytes, wordBytes]
    omega)
  have marker : (byteBits endMarkerBytes).length = 48 := rfl
  have word : (byteBits (wordBytes stored)).length = 32 := byteBits_length _
  rw [byteBits_append, byteBits_append, List.append_assoc] at hstream
  have run := bzBlock_end_eq c can (by rw [hstream, List.take_left' marker]; decide) hcrc
  rw [hstream, List.drop_left' marker, List.take_left' word, bitsValue_wordBytes] at run
  simpa only [BitVec.toNat_inj] using run

end Body

end Sys2Proof.Machine

open Sys2Proof Sys2Proof.Machine

/-- Settles O54: behind the header BZ.BLOCK finds the end marker, so the CRC is compared before the output. -/
theorem bzp2NoBlocks : Obligations.Bzp2NoBlocks := by
  intro s digit stored rest hs hmin hmax hchunk
  generalize hu : bzp2Ready (beginCommand s) ((digit.toNat - 0x30) * 100000) = u
  have body : bodyOf .decompressBzp2 (beginCommand s) = bzp2Body Config.core u := hu ▸
    bzp2Sequence_eq (s := beginCommand s) hmin hmax hchunk Config.core
  have isSet : u.ReaderSet := hu ▸ ⟨0, rfl, .inl rfl⟩
  have stream : u.bitStream = byteBits (endMarkerBytes ++ wordBytes stored ++ rest) :=
    hu ▸ bitStream_bzp2Ready (s := beginCommand s) hchunk _
  have block := bzBlock_of_endMarker (c := Config.core) (crc := 0#32) isSet stream (hu ▸ rfl)
  have writer : (u.afterBits .group8 80).fwr = some ⟨0#32, 0#32, s.rawLen⟩ :=
    (afterBits_changes .group8 80 u .writer (by decide)).symm.trans (hu ▸ rfl)
  refine ⟨fun hne => exec_checksum hs (body.trans (bzp2Body_checksum (block.trans (if_neg hne)))),
    fun hzero hraw => ?_, fun hzero hraw => ?_⟩
  all_goals have ends := body.trans (bzp2Body_of_end (block.trans (if_pos hzero)) writer)
  · rw [if_neg (by simpa using Ne.symm hraw)] at ends
    exact exec_corrupted hs (.of_eq ends)
  · rw [if_pos (by simp [hraw])] at ends
    obtain ⟨next, changes, clean⟩ := exec_macro (i := .decompressBzp2) hs (by decide) ends
    have block := afterBits_changes .group8 80 u .block (by decide)
    refine ⟨_, next, clean, changes.mono (by simp [writesOf]), ?_, ?_, ?_, ?_⟩
    · exact (afterBits_changes .group8 80 u .output (by decide)).symm.trans (hu ▸ rfl)
    · exact hu ▸ fcur_afterBits_bzp2Ready (beginCommand s) _
    · exact (congrArg Bz.blockSize block).symm.trans (hu ▸ rfl)
    · exact (congrArg Bz.crc block).symm.trans (hu ▸ rfl)

end

section
/-! SUPPORT. The CRC of BZ.UNBWT (spec/45_bzp2.md R315), and its counting sort (R310, R311). -/

namespace Sys2Proof.Machine

/-! ## The CRC -/

/-- A register with other bits mixed in shifts as the two of them do. -/
theorem crcBit_xor (c y : Word) : crcBit (c ^^^ y) = crcFeed c y.msb ^^^ y <<< 1 := by
  unfold crcBit crcFeed
  rw [BitVec.msb_xor, BitVec.shiftLeft_xor_distrib]
  cases c.msb <;> cases y.msb <;> simp <;> ac_rfl

/-- A number at the upper end of the register goes through it bit by bit, its highest bit first. -/
theorem crcBits_xor_shiftLeft (c : Word) (v : Nat) {k : Nat} (hk : k ≤ 32) :
    crcBits k (c ^^^ BitVec.ofNat 32 v <<< (32 - k)) = (bitsOf k v).foldl crcFeed c := by
  induction k generalizing c with
  | zero =>
    rw [BitVec.shiftLeft_eq_zero (by decide), BitVec.xor_zero]
    rfl
  | succ k ih =>
    have top : (BitVec.ofNat 32 v <<< (32 - (k + 1))).msb = v.testBit k := by
      have place : 32 - 1 - (32 - (k + 1)) = k := by omega
      rw [BitVec.msb_shiftLeft, BitVec.getMsbD_eq_getLsbD, place, BitVec.getLsbD_ofNat,
        decide_eq_true (show 32 - (k + 1) < 32 by omega), decide_eq_true (show k < 32 from hk), Bool.true_and,
        Bool.true_and]
    have next : BitVec.ofNat 32 v <<< (32 - (k + 1)) <<< 1 = BitVec.ofNat 32 v <<< (32 - k) := by
      rw [← BitVec.shiftLeft_add]
      congr 1
      omega
    rw [crcBits, crcBit_xor, top, next, ih _ (by omega)]
    rfl

theorem crcByte_eq_feed (c : Word) (b : Byte) : crcByte c b = (bitsOf 8 b.toNat).foldl crcFeed c := by
  rw [← crcBits_xor_shiftLeft c b.toNat (by decide), BitVec.ofNat_toNat]
  rfl

/-- The CRC byte by byte is the CRC bit by bit. -/
theorem bzCrc32_eq_messageCrc (bytes : List Byte) : bzCrc32 bytes = messageCrc bytes := by
  have feed (c : Word) : bytes.foldl crcByte c = (byteBits bytes).foldl crcFeed c := by
    induction bytes generalizing c with
    | nil => rfl
    | cons b bytes ih => rw [List.foldl_cons, ih, crcByte_eq_feed, byteBits_cons, List.foldl_append]
  rw [bzCrc32, messageCrc, feed, show (0xFFFFFFFF#32 : Word) = BitVec.allOnes 32 from rfl, BitVec.xor_allOnes]

/-! ## The counting sort -/

/-- The positions of a value in a block. -/
def valuePositions (blk : List Byte) (v : Nat) : List Nat :=
  (List.range blk.length).filter fun i => (blk.getD i 0#8).toNat == v

theorem sortedPositions_eq (blk : List Byte) :
    sortedPositions blk = (List.range 256).flatMap (valuePositions blk) := rfl

theorem mem_valuePositions {blk : List Byte} {v i : Nat} :
    i ∈ valuePositions blk v ↔ i < blk.length ∧ (blk.getD i 0#8).toNat = v := by
  simp [valuePositions]

theorem sortedPositions_perm (blk : List Byte) : (sortedPositions blk).Perm (List.range blk.length) := by
  refine (List.perm_ext_iff_of_nodup ?_ List.nodup_range).2 fun i => ?_
  · refine List.nodup_flatMap.2 ⟨fun v _ => List.nodup_range.filter _, ?_⟩
    refine List.Pairwise.imp (fun {v w} hne i hv hw => hne ?_) List.nodup_range
    exact (mem_valuePositions.1 hv).2.symm.trans (mem_valuePositions.1 hw).2
  · rw [sortedPositions_eq, List.mem_flatMap, List.mem_range]
    refine ⟨fun ⟨v, _, hi⟩ => (mem_valuePositions.1 hi).1, fun hi => ⟨_, ?_, mem_valuePositions.2 ⟨hi, rfl⟩⟩⟩
    exact List.mem_range.2 (BitVec.isLt _)

theorem sortedPositions_length (blk : List Byte) : (sortedPositions blk).length = blk.length := by
  rw [(sortedPositions_perm blk).length_eq, List.length_range]

/-- How many of the first `i` bytes of a block have a value. -/
def countBefore (blk : List Byte) (i v : Nat) : Nat := (blk.take i).countP (·.toNat == v)

/-- Where the positions of a value begin among the sorted ones. -/
def valueStart (blk : List Byte) (v : Nat) : Nat := ((List.range v).map fun u => (valuePositions blk u).length).sum

/-- The place of position `i` among the sorted ones. -/
def placeOf (blk : List Byte) (i : Nat) : Nat :=
  valueStart blk (blk.getD i 0#8).toNat + countBefore blk i (blk.getD i 0#8).toNat

theorem take_eq_map_range (blk : List Byte) {i : Nat} (hi : i ≤ blk.length) :
    blk.take i = (List.range i).map (blk.getD · 0#8) := by
  refine List.ext_getElem (by simp [hi]) fun j hj _ => ?_
  rw [List.length_take] at hj
  simp [List.getD_eq_getElem?_getD, List.getElem?_eq_getElem (show j < blk.length by omega)]

theorem countBefore_eq (blk : List Byte) {i : Nat} (hi : i ≤ blk.length) (v : Nat) :
    countBefore blk i v = ((List.range i).filter fun j => (blk.getD j 0#8).toNat == v).length := by
  rw [countBefore, take_eq_map_range blk hi, List.countP_map, List.countP_eq_length_filter]
  rfl

theorem countBefore_length (blk : List Byte) (v : Nat) :
    countBefore blk blk.length v = (valuePositions blk v).length := countBefore_eq blk le_rfl v

theorem range_eq_append_cons {n k : Nat} (h : k < n) : ∃ later, List.range n = List.range k ++ k :: later := by
  obtain ⟨m, rfl⟩ := Nat.exists_eq_add_of_lt h
  rw [Nat.add_assoc, List.range_add, List.range_succ_eq_map, List.map_cons]
  exact ⟨_, rfl⟩

/-- At its place stands the position. -/
theorem sortedPositions_placeOf (blk : List Byte) {i : Nat} (hi : i < blk.length) :
    (sortedPositions blk)[placeOf blk i]? = some i := by
  obtain ⟨values, hvalues⟩ := range_eq_append_cons (BitVec.isLt (blk.getD i 0#8))
  obtain ⟨later, hlater⟩ := range_eq_append_cons hi
  rw [sortedPositions_eq, hvalues, List.flatMap_append, List.flatMap_cons, placeOf, countBefore_eq blk hi.le, valueStart,
    ← List.length_flatMap]
  rw [List.getElem?_append_right (Nat.le_add_right ..), Nat.add_sub_cancel_left]
  rw [valuePositions, hlater, List.filter_append, List.filter_cons_of_pos (by simp), List.append_assoc,
    List.getElem?_append_right le_rfl, Nat.sub_self]
  rfl

/-- The positions of the values stand at different places. -/
theorem placeOf_inj {blk : List Byte} {i j : Nat} (hi : i < blk.length) (hj : j < blk.length)
    (h : placeOf blk i = placeOf blk j) : i = j := by
  have same := sortedPositions_placeOf blk hi
  rw [h, sortedPositions_placeOf blk hj] at same
  exact (Option.some.inj same).symm

theorem placeOf_lt {blk : List Byte} {i : Nat} (hi : i < blk.length) : placeOf blk i < blk.length := by
  have := (List.getElem?_eq_some_iff.1 (sortedPositions_placeOf blk hi)).1
  rwa [sortedPositions_length] at this

/-- The counts of the values (R311). -/
theorem countBytes_eq (blk : List Byte) :
    countBytes blk = (List.range 256).map fun v => (valuePositions blk v).length := by
  have fold (bytes : List Byte) (sums : List Nat) (v : Nat) :
      (bytes.foldl (fun sums b => sums.modify b.toNat (· + 1)) sums)[v]? =
        sums[v]?.map (· + bytes.countP (·.toNat == v)) := by
    induction bytes generalizing sums with
    | nil => simp
    | cons b bytes ih =>
      rw [List.foldl_cons, ih, List.getElem?_modify, List.countP_cons]
      cases sums[v]? with
      | none => simp
      | some n =>
        by_cases h : b.toNat = v
        · simp [h]; omega
        · simp [h]
  refine List.ext_getElem? fun v => ?_
  rw [countBytes, fold, List.getElem?_map, List.getElem?_replicate]
  by_cases hv : v < 256
  · rw [if_pos hv, List.getElem?_range hv]
    simp [← countBefore_length, countBefore]
  · rw [if_neg hv, List.getElem?_eq_none (by rw [List.length_range]; exact Nat.not_lt.1 hv)]
    rfl

/-- The ranks with which the sort begins (R311). -/
theorem startRanks_countBytes (blk : List Byte) :
    startRanks (countBytes blk) = (List.range 256).map (valueStart blk) := by
  refine List.map_congr_left fun v hv => ?_
  rw [countBytes_eq, ← List.map_take, List.take_range, Nat.min_eq_left (List.mem_range.1 hv).le]
  rfl

/-- The sort after the first `i` bytes: each of them has been placed, and every rank is the next place of its value. -/
structure Placed (blk : List Byte) (i : Nat) (st : List Nat × List Nat) : Prop where
  ranks : st.1 = (List.range 256).map fun v => valueStart blk v + countBefore blk i v
  size : st.2.length = blk.length
  placed : ∀ j < i, st.2[placeOf blk j]? = some j

/-- A byte is placed. -/
theorem Placed.next {blk : List Byte} {i : Nat} {st : List Nat × List Nat} {b : Byte} (h : Placed blk i st)
    (hb : blk[i]? = some b) : Placed blk (i + 1) (placeByte st (b, i)) := by
  obtain ⟨hi, -⟩ := List.getElem?_eq_some_iff.1 hb
  have byte : blk.getD i 0#8 = b := by rw [List.getD_eq_getElem?_getD, hb]; rfl
  have rank : st.1.getD b.toNat 0 = placeOf blk i := by
    rw [h.ranks, placeOf, byte]
    simp [List.getD_eq_getElem?_getD, List.getElem?_range b.isLt]
  refine ⟨?_, ?_, fun j hj => ?_⟩
  · refine List.ext_getElem (by simp [placeByte, h.ranks]) fun v hv _ => ?_
    have next : countBefore blk (i + 1) v = countBefore blk i v + if b.toNat = v then 1 else 0 := by
      rw [countBefore, List.take_add_one, hb, List.countP_append]
      simp [countBefore, List.countP_cons]
    simp only [placeByte, rank, List.getElem_set, List.getElem_map, List.getElem_range, next]
    split
    · next e => rw [placeOf, byte, e, Nat.add_assoc]
    · next => simp [h.ranks]
  · simp [placeByte, h.size]
  · simp only [placeByte, rank]
    rcases Nat.lt_succ_iff_lt_or_eq.1 hj with hlt | rfl
    · rw [List.getElem?_set_ne fun e => hlt.ne' (placeOf_inj hi (hlt.trans hi) e), h.placed j hlt]
    · rw [List.getElem?_set_self (by rw [h.size]; exact placeOf_lt hi)]

theorem placed_sortBlock (blk : List Byte) : Placed blk blk.length (sortBlock blk) := by
  have fold (rest done : List Byte) (st : List Nat × List Nat) (hblk : blk = done ++ rest)
      (h : Placed blk done.length st) : Placed blk blk.length ((rest.zipIdx done.length).foldl placeByte st) := by
    induction rest generalizing done st with
    | nil =>
      rw [List.append_nil] at hblk
      exact hblk ▸ h
    | cons b rest ih =>
      rw [List.zipIdx_cons, List.foldl_cons, ← List.length_singleton (a := b), ← List.length_append]
      refine ih (done ++ [b]) _ (by simp [hblk]) ?_
      rw [List.length_append]
      exact h.next (by simp [hblk])
  refine fold blk [] _ rfl ⟨?_, by simp, nofun⟩
  rw [startRanks_countBytes]
  simp [countBefore]

/-- The counting sort gives the forward indices of R311. -/
theorem sortBlock_snd (blk : List Byte) : (sortBlock blk).2 = sortedPositions blk := by
  obtain ⟨-, size, placed⟩ := placed_sortBlock blk
  refine List.ext_getElem (size.trans (sortedPositions_length blk).symm) fun k hk hk' => ?_
  -- the position that stands at place `k` is below the length, so it has been placed there
  have hi : (sortedPositions blk)[k] < blk.length :=
    List.mem_range.1 ((sortedPositions_perm blk).mem_iff.1 (List.getElem_mem hk'))
  have place : placeOf blk (sortedPositions blk)[k] = k := by
    have nodup : (sortedPositions blk).Nodup := (sortedPositions_perm blk).nodup_iff.2 List.nodup_range
    obtain ⟨hlt, same⟩ := List.getElem?_eq_some_iff.1 (sortedPositions_placeOf blk hi)
    exact (nodup.getElem_inj_iff).1 same
  have := placed _ hi
  rw [place, List.getElem?_eq_getElem hk] at this
  exact Option.some.inj this

end Sys2Proof.Machine
end

section
/-! SUPPORT. BZ.UNBWT (spec/45_bzp2.md R310 to R315): byte by byte the inverse BWT, the derandomisation and the final
run lengths, and the output they give. -/

namespace Sys2Proof.Machine

/-! ## Bodies that write -/

theorem WroteForward.writer {f : Fwr} {out : List Byte} {s t : State} (h : WroteForward f out s t) :
    t.fwr = some (f.after out) := h.1

theorem after_inside {f : Fwr} {out : List Byte} (h : f.pos.toNat + out.length ≤ f.stop.toNat) :
    (f.after out).pos.toNat ≤ (f.after out).stop.toNat := by
  rw [after_pos h]
  exact h

/-- A body writes these bytes where they fit, and ends as `Q` says; where they do not, it raises Overrun. -/
structure Outputs {α : Type} (m : M α) (f : Fwr) (out : List Byte) (s : State) (Q : α → State → Prop) : Prop where
  raises : f.stop.toNat < f.pos.toNat + out.length → Raises m s .overrun
  writes : f.pos.toNat + out.length ≤ f.stop.toNat → ∃ a t, m s = .ok a t ∧ WroteForward f out s t ∧ Q a t

section Outputs

variable {α β : Type} {m : M α} {k : α → M β} {f : Fwr} {out out' : List Byte} {s t : State} {Q : α → State → Prop}
  {Q' : β → State → Prop}

theorem Outputs.congr {m' : M α} {t : State} (h : Outputs m' f out t Q) (hm : m s = m' t) (hraw : t.raw = s.raw) :
    Outputs m f out s Q where
  raises hfull := .congr hm (h.raises hfull)
  writes hroom := by
    obtain ⟨a, u, run, ⟨writer, written, other⟩, post⟩ := h.writes hroom
    exact ⟨a, u, hm.trans run, ⟨writer, written, hraw ▸ other⟩, post⟩

/-- A body that writes nothing. -/
theorem Outputs.of_ok {a : α} (hf : s.fwr = some f) (hinside : f.pos.toNat ≤ f.stop.toNat) (h : m s = .ok a t)
    (hfwr : t.fwr = s.fwr) (hraw : t.raw = s.raw) (post : Q a t) : Outputs m f [] s Q where
  raises hfull := absurd hfull (Nat.not_lt.2 hinside)
  writes _ := ⟨a, t, h, ⟨hfwr.trans (hf.trans (congrArg some (after_nil f).symm)), rfl, fun _ _ => by rw [hraw]⟩, post⟩

/-- One body after another. -/
theorem Outputs.bind (hm : Outputs m f out s Q)
    (hk : ∀ a t, f.pos.toNat + out.length ≤ f.stop.toNat → WroteForward f out s t → Q a t →
      Outputs (k a) (f.after out) out' t Q') : Outputs (m >>= k) f (out ++ out') s Q' where
  raises hfull := by
    rw [List.length_append] at hfull
    rcases Nat.lt_or_ge f.stop.toNat (f.pos.toNat + out.length) with hover | hfits
    · exact .bind (hm.raises hover)
    · obtain ⟨a, t, run, wrote, post⟩ := hm.writes hfits
      refine .after run ((hk a t hfits wrote post).raises ?_)
      rw [after_pos hfits, after_stop]
      omega
  writes hroom := by
    have room := hroom
    rw [List.length_append] at room
    have fits : f.pos.toNat + out.length ≤ f.stop.toNat := by omega
    obtain ⟨a, t, run, wrote, post⟩ := hm.writes fits
    obtain ⟨b, u, run', wrote', post'⟩ := (hk a t fits wrote post).writes (by
      rw [after_pos fits, after_stop]
      omega)
    exact ⟨b, u, (bind_of_ok run).trans run', wrote.trans wrote' hroom, post'⟩

/-- A body behind which nothing is written. -/
theorem Outputs.bind_nil (hm : Outputs m f out s Q)
    (hk : ∀ a t, f.pos.toNat + out.length ≤ f.stop.toNat → WroteForward f out s t → Q a t →
      Outputs (k a) (f.after out) [] t Q') : Outputs (m >>= k) f out s Q' :=
  (List.append_nil out).subst (motive := fun bytes => Outputs (m >>= k) f bytes s Q') (hm.bind hk)

theorem Outputs.mono {Q'' : α → State → Prop} (h : Outputs m f out s Q) (hQ : ∀ a t, Q a t → Q'' a t) :
    Outputs m f out s Q'' where
  raises := h.raises
  writes hroom := by
    obtain ⟨a, t, run, wrote, post⟩ := h.writes hroom
    exact ⟨a, t, run, wrote, hQ a t post⟩

/-- An update that leaves the output, behind a body. -/
theorem Outputs.modify {g : State → State} (h : Outputs m f out s Q)
    (hg : ∀ t, (g t).fwr = t.fwr ∧ (g t).raw = t.raw := by exact fun _ => ⟨rfl, rfl⟩) :
    Outputs (m >>= fun _ => modify g) f out s fun _ t => ∃ a u, Q a u ∧ t = g u where
  raises hfull := .bind (h.raises hfull)
  writes hroom := by
    obtain ⟨a, t, run, ⟨writer, written, other⟩, post⟩ := h.writes hroom
    obtain ⟨hfwr, hraw⟩ := hg t
    exact ⟨(), g t, (bind_of_ok run).trans (M.modify_apply ..),
      ⟨hfwr.trans writer, hraw.symm ▸ written, hraw.symm ▸ other⟩, a, t, post, rfl⟩

theorem fwrWrb_outputs (hf : s.fwr = some f) (b : Byte) : Outputs (fwrWrb b) f [b] s fun _ t => t.bz = s.bz where
  raises hfull := fwrWrb_raises_overrun hf (by simpa [Nat.lt_succ_iff] using hfull) b
  writes hroom := by
    obtain ⟨t, run, changes, wrote⟩ := wrote_literal hf (by simpa using hroom) b
    exact ⟨(), t, run, wrote, (changes .block (by decide)).symm⟩

theorem writeTimes_outputs (b : Byte) (n : Nat) (hf : s.fwr = some f) (hinside : f.pos.toNat ≤ f.stop.toNat) :
    Outputs (writeTimes b n) f (List.replicate n b) s fun _ t => t.bz = s.bz := by
  induction n generalizing s f with
  | zero => exact .of_ok hf hinside rfl rfl rfl rfl
  | succ n ih =>
    refine (fwrWrb_outputs hf b).bind fun _ t hfits wrote hbz =>
      (ih wrote.writer (after_inside hfits)).mono fun _ u hu => hu.trans hbz

end Outputs

/-! ## The stages, a byte at a time -/

/-- What the stages hold between two bytes: the countdown and the table place of R312, and the byte and the count of
R313. -/
structure Stages where
  toGo : Nat
  place : Nat
  ch : Byte
  count : Nat

/-- The stages at their start (R310). -/
def Stages.start : Stages := ⟨0, 0, 0#8, 0⟩

/-- R312 on one byte. -/
def Stages.flip (table : Fin 512 → ℕ+) (w : Stages) (b : Byte) : Byte × Stages :=
  let (toGo, place) :=
    if w.toGo = 0 then ((table (Fin.ofNat 512 w.place) : Nat), w.place + 1) else (w.toGo, w.place)
  (if toGo - 1 = 1 then b ^^^ 1#8 else b, { w with toGo := toGo - 1, place := place })

/-- R312 on one byte of a block, randomised or not. -/
def Stages.derandomise (table : Fin 512 → ℕ+) (randomised : Bool) (w : Stages) (b : Byte) : Byte × Stages :=
  if randomised then w.flip table b else (b, w)

/-- R313 on one byte: the bytes that it gives. -/
def Stages.expand (w : Stages) (b : Byte) : List Byte × Stages :=
  if w.count = 4 then (List.replicate b.toNat w.ch, { w with count := 0 })
  else if w.count > 0 ∧ b = w.ch then ([b], { w with count := w.count + 1 })
  else ([b], { w with ch := b, count := 1 })

theorem derandomised_cons (table : Fin 512 → ℕ+) (w : Stages) (b : Byte) (rest : List Byte) :
    derandomised table (b :: rest) w.toGo w.place =
      (w.flip table b).1 :: derandomised table rest (w.flip table b).2.toGo (w.flip table b).2.place := by
  obtain ⟨toGo, place, ch, count⟩ := w
  cases toGo with
  | zero =>
    have flips : (table (Fin.ofNat 512 place) : Nat) - 1 = 1 ↔ (table (Fin.ofNat 512 place) : Nat) = 2 := by omega
    simp only [derandomised, Stages.flip, if_true, flips]
  | succ toGo => rfl

theorem expandRuns_cons (w : Stages) (b : Byte) (rest : List Byte) :
    expandRuns (b :: rest) w.ch w.count =
      (w.expand b).1 ++ expandRuns rest (w.expand b).2.ch (w.expand b).2.count := by
  rw [expandRuns, Stages.expand]
  split
  · rfl
  · split <;> rfl

/-- The bytes that the two stages give. -/
def Stages.run (table : Fin 512 → ℕ+) (randomised : Bool) (bytes : List Byte) (w : Stages) : List Byte :=
  expandRuns (if randomised then derandomised table bytes w.toGo w.place else bytes) w.ch w.count

theorem Stages.run_nil (table : Fin 512 → ℕ+) (randomised : Bool) (w : Stages) : w.run table randomised [] = [] := by
  cases randomised <;> rfl

/-- The run-length stage leaves the countdown and the table place. -/
theorem Stages.expand_place (w : Stages) (b : Byte) :
    (w.expand b).2.toGo = w.toGo ∧ (w.expand b).2.place = w.place := by
  rw [Stages.expand]
  split
  · exact ⟨rfl, rfl⟩
  · split <;> exact ⟨rfl, rfl⟩

/-- The stages take a block byte by byte. -/
theorem Stages.run_cons (table : Fin 512 → ℕ+) (randomised : Bool) (w : Stages) (b : Byte) (rest : List Byte) :
    w.run table randomised (b :: rest) =
      ((w.derandomise table randomised b).2.expand (w.derandomise table randomised b).1).1 ++
        ((w.derandomise table randomised b).2.expand (w.derandomise table randomised b).1).2.run table randomised
          rest := by
  cases randomised with
  | false => exact expandRuns_cons w b rest
  | true =>
    obtain ⟨hgo, hplace⟩ := (w.flip table b).2.expand_place (w.flip table b).1
    show expandRuns (derandomised table (b :: rest) w.toGo w.place) w.ch w.count = _ ++ expandRuns (derandomised ..) ..
    rw [derandomised_cons, Stages.derandomise, if_pos rfl, hgo, hplace]
    exact expandRuns_cons (w.flip table b).2 _ _

/-- The registers of the pipeline while a block is unwound. -/
def Bz.unwinding (z : Bz) (w : Stages) (q : Option Byte) : Bz :=
  { z with rNToGo := some w.toGo, rTPos := some (w.place % 512), curCount := some w.count, curCh := q }

/-- A block is being unwound. The byte of the run-length stage matters where it has been seen. -/
structure Unwinding (z : Bz) (w : Stages) (f : Fwr) (s : State) : Prop where
  registers : ∃ q, s.bz = z.unwinding w q ∧ (0 < w.count → q = some w.ch)
  writer : s.fwr = some f
  inside : f.pos.toNat ≤ f.stop.toNat

section Walk

variable {c : Config} {z : Bz} {w : Stages} {f : Fwr} {s : State}

theorem finalRle_eq {n : Nat} (h : s.bz.curCount = some n) (b : Byte) :
    finalRle b s =
      (if n = 4 then do
        let ch ← need s.bz.curCh
        writeTimes ch b.toNat
        modify fun s => { s with bz := { s.bz with curCount := some 0 } }
      else if n > 0 ∧ s.bz.curCh = some b then do
        fwrWrb b
        modify fun s => { s with bz := { s.bz with curCount := some (n + 1) } }
      else do
        modify fun s => { s with bz := { s.bz with curCh := some b, curCount := some 1 } }
        fwrWrb b : M Unit) s :=
  (bind_of_ok (M.get_apply s)).trans (bind_of_ok (need_apply h s))

/-- R313 on one byte. -/
theorem finalRle_outputs (h : Unwinding z w f s) (b : Byte) :
    Outputs (finalRle b) f (w.expand b).1 s fun _ t => ∃ q, t.bz = z.unwinding (w.expand b).2 q ∧
      (0 < (w.expand b).2.count → q = some (w.expand b).2.ch) := by
  obtain ⟨⟨q, hbz, hq⟩, hf, hinside⟩ := h
  have run := finalRle_eq (s := s) (n := w.count) (by rw [hbz]; rfl) b
  rw [show s.bz.curCh = q by rw [hbz]; rfl] at run
  rw [Stages.expand]
  by_cases hfour : w.count = 4
  · have seen : q = some w.ch := hq (by omega)
    rw [if_pos hfour] at run ⊢
    rw [seen] at run
    have out := (writeTimes_outputs w.ch b.toNat hf hinside).modify
      (g := fun s => { s with bz := { s.bz with curCount := some 0 } })
    refine (out.congr run rfl).mono ?_
    rintro _ _ ⟨_, u, hu, rfl⟩
    exact ⟨q, by rw [hu, hbz]; rfl, nofun⟩
  · have same : w.count > 0 ∧ q = some b ↔ w.count > 0 ∧ b = w.ch :=
      and_congr_right fun hpos => by rw [hq hpos, Option.some_inj, eq_comm]
    simp only [if_neg hfour, same] at run ⊢
    by_cases hrun : w.count > 0 ∧ b = w.ch
    · rw [if_pos hrun] at run ⊢
      have out := (fwrWrb_outputs hf b).modify
        (g := fun s => { s with bz := { s.bz with curCount := some (w.count + 1) } })
      refine (out.congr run rfl).mono ?_
      rintro _ _ ⟨_, u, hu, rfl⟩
      exact ⟨q, by rw [hu, hbz]; rfl, fun _ => hq hrun.1⟩
    · rw [if_neg hrun] at run ⊢
      refine ((fwrWrb_outputs (by exact hf) b).congr (run.trans (bind_of_ok (M.modify_apply ..))) rfl).mono
        fun _ t ht => ⟨some b, ht.trans ?_, fun _ => rfl⟩
      rw [hbz]
      rfl

/-- R312 on one byte. -/
theorem derandomise_unwinding (h : Unwinding z w f s) {r : Bool} (hr : z.randomised = some r) (b : Byte) :
    ∃ t, Machine.derandomise c b s = .ok (w.derandomise c.bzRandTable r b).1 t ∧ t.raw = s.raw ∧
      Unwinding z (w.derandomise c.bzRandTable r b).2 f t := by
  obtain ⟨⟨q, hbz, hq⟩, hf, hinside⟩ := h
  have flag : s.bz.randomised = some r := by rw [hbz]; exact hr
  cases r with
  | false =>
    exact ⟨s, (bind_of_ok (M.get_apply s)).trans (bind_of_ok (need_apply flag s)), rfl, ⟨q, hbz, hq⟩, hf, hinside⟩
  | true =>
    have toGo : s.bz.rNToGo = some w.toGo := by rw [hbz]; rfl
    have place : s.bz.rTPos = some (w.place % 512) := by rw [hbz]; rfl
    have run : Machine.derandomise c b s = _ := (bind_of_ok (M.get_apply s)).trans <|
      (bind_of_ok (need_apply flag s)).trans <| (bind_of_ok (need_apply toGo s)).trans
      (bind_of_ok (need_apply place s))
    refine ⟨{ s with bz := z.unwinding (w.flip c.bzRandTable b).2 q }, run.trans ?_, rfl, ⟨q, rfl, ?_⟩, hf, hinside⟩
    · have entry : Fin.ofNat 512 (w.place % 512) = Fin.ofNat 512 w.place := Fin.ext (Nat.mod_mod _ _)
      have next : (w.place % 512 + 1) % 512 = (w.place + 1) % 512 := Nat.mod_add_mod _ _ _
      rw [hbz, entry, next]
      by_cases hzero : w.toGo = 0
      · simp only [Stages.derandomise, Stages.flip, if_pos hzero]
        rfl
      · simp only [Stages.derandomise, Stages.flip, if_neg hzero]
        rfl
    · exact hq

/-- The walk over the forward indices (R311). -/
theorem unbwtWalk_outputs {blk : List Byte} {fwd : List Nat} {r : Bool} (hr : z.randomised = some r)
    (hfwd : ∀ i < blk.length, ∃ j < blk.length, fwd[i]? = some j) (left p : Nat) (hp : p < blk.length)
    (h : Unwinding z w f s) :
    Outputs (unbwtWalk c blk fwd left p) f (w.run c.bzRandTable r (inverseBwt blk fwd left p)) s
      fun _ t => ∃ w f', Unwinding z w f' t := by
  induction left generalizing p w f s with
  | zero =>
    rw [inverseBwt, Stages.run_nil]
    exact .of_ok h.writer h.inside rfl rfl rfl ⟨w, f, h⟩
  | succ left ih =>
    obtain ⟨j, hj, hnext⟩ := hfwd p hp
    have byte : blk[j]? = some (blk.getD j 0#8) := by
      rw [List.getD_eq_getElem?_getD, List.getElem?_eq_getElem hj, Option.getD_some]
    have next : fwd.getD p 0 = j := by rw [List.getD_eq_getElem?_getD, hnext, Option.getD_some]
    obtain ⟨t, flipped, hraw, ht⟩ := derandomise_unwinding (c := c) h hr (blk.getD j 0#8)
    have run : unbwtWalk c blk fwd (left + 1) p s = _ := (bind_of_ok (need_apply hnext s)).trans <|
      (bind_of_ok (need_apply byte s)).trans (bind_of_ok flipped)
    rw [inverseBwt, next, Stages.run_cons]
    refine Outputs.congr ((finalRle_outputs ht _).bind fun _ u hfits wrote registers =>
      ih j hj ⟨registers, wrote.writer, after_inside hfits⟩) run hraw

/-- The registers of the pipeline with a block sorted. -/
def Bz.sorted (z : Bz) (blk : List Byte) : Bz :=
  { z with sums := some (countBytes blk), rank := some (sortBlock blk).1, fwd := some (sortedPositions blk) }

theorem unbwtStages_eq {blk : List Byte} {origPtr : BitVec 24} (h : s.bz.origPtr = some origPtr) :
    unbwtStages c blk s = unbwtWalk c blk (sortedPositions blk) blk.length origPtr.toNat
      { s with bz := (s.bz.sorted blk).unwinding .start s.bz.curCh } := by
  rw [Bz.sorted, ← sortBlock_snd]
  exact (bind_of_ok (M.modify_apply ..)).trans <| (bind_of_ok (M.get_apply _)).trans <|
    (bind_of_ok (need_apply h _)).trans (bind_of_ok (M.modify_apply ..))

/-- The stages of a block leave its size and the running CRC. -/
theorem unbwtBlock_outputs {blk : List Byte} {origPtr : BitVec 24} {r : Bool} (hptr : s.bz.origPtr = some origPtr)
    (hr : s.bz.randomised = some r) (hin : blk = [] ∨ origPtr.toNat < blk.length) (hf : s.fwr = some f)
    (hinside : f.pos.toNat ≤ f.stop.toNat) :
    Outputs (unbwtBlock c blk) f (unbwtBytes c.bzRandTable r blk origPtr.toNat) s
      fun _ t => t.bz.crc = s.bz.crc ∧ t.bz.blockSize = s.bz.blockSize := by
  rcases blk.eq_nil_or_concat with rfl | ⟨_, _, hblk⟩
  · rw [show unbwtBytes c.bzRandTable r [] origPtr.toNat = [] from Stages.start.run_nil c.bzRandTable r]
    exact .of_ok hf hinside rfl rfl rfl ⟨rfl, rfl⟩
  have nonempty : blk ≠ [] := by simp [hblk]
  replace hin := hin.resolve_left nonempty
  have hfwd : ∀ i < blk.length, ∃ j < blk.length, (sortedPositions blk)[i]? = some j := fun i hi => by
    rw [← sortedPositions_length blk] at hi
    exact ⟨_, List.mem_range.1 ((sortedPositions_perm blk).mem_iff.1 (List.getElem_mem hi)),
      List.getElem?_eq_getElem hi⟩
  have run : unbwtBlock c blk s = unbwtStages c blk s := by rw [unbwtBlock, if_pos (List.length_pos_iff.2 nonempty)]
  have start : Unwinding (s.bz.sorted blk) .start f { s with bz := (s.bz.sorted blk).unwinding .start s.bz.curCh } :=
    ⟨⟨_, rfl, fun hpos => absurd hpos (Nat.lt_irrefl 0)⟩, hf, hinside⟩
  refine ((unbwtWalk_outputs (z := s.bz.sorted blk) hr hfwd blk.length origPtr.toNat hin start).congr
    (run.trans (unbwtStages_eq hptr)) rfl).mono ?_
  rintro _ t ⟨w, f', ⟨q, hbz, -⟩, -, -⟩
  rw [hbz]
  exact ⟨rfl, rfl⟩

/-- BZ.UNBWT folds the CRC of what its stages wrote. -/
theorem bzUnbwt_outputs {blk : List Byte} {crc : Word} {origPtr : BitVec 24} {r : Bool} (hblk : s.bz.blk = some blk)
    (hcrc : s.bz.crc = some crc) (hptr : s.bz.origPtr = some origPtr)
    (hr : s.bz.randomised = some r) (hin : blk = [] ∨ origPtr.toNat < blk.length) (hf : s.fwr = some f)
    (hinside : f.pos.toNat ≤ f.stop.toNat) {out : List Byte}
    (hout : out = unbwtBytes c.bzRandTable r blk origPtr.toNat) :
    Outputs (Machine.bzUnbwt c) f out s fun _ t =>
      t.bz.blk = none ∧ t.bz.crc = some (crc.rotateLeft 1 ^^^ messageCrc out) ∧ t.bz.blockSize = s.bz.blockSize := by
  have block := unbwtBlock_outputs (c := c) hptr hr hin hf hinside
  rw [← hout] at block
  have head : Machine.bzUnbwt c s = _ := (bind_of_ok (M.get_apply s)).trans <| (bind_of_ok (need_apply hblk s)).trans
    (bind_of_ok (need_apply hf s))
  have folded : bzFoldCrc crc out = crc.rotateLeft 1 ^^^ messageCrc out := by
    rw [← bzCrc32_eq_messageCrc]
    rfl
  refine Outputs.congr (block.bind_nil fun _ t hfits wrote registers => ?_) head rfl
  obtain ⟨hc, hsize⟩ := registers
  have written : memBytes t.raw f.pos.toNat ((f.after out).pos.toNat - f.pos.toNat) = some out := by
    rw [after_pos hfits, Nat.add_sub_cancel_left]
    exact wrote.2.1
  exact .of_ok wrote.writer (after_inside hfits) ((bind_of_ok (M.get_apply t)).trans <|
    (bind_of_ok (need_apply wrote.writer t)).trans <| (bind_of_ok (need_apply written t)).trans
    (bind_of_ok (need_apply (hc.trans hcrc) t))) rfl rfl ⟨rfl, congrArg some folded, hsize⟩

end Walk

/-- A command whose body ends: what it writes. -/
theorem exec_body {i : Instr} {s u : State} (hs : s.Ready) (h : bodyOf i (beginCommand s) = .ok () u)
    (hw : bodyWrites i = writesOf i := by rfl) (hr : i ≠ .instReset := by nofun) :
    exec i s = .next (endCommand u) ∧ Changes (writesOf i) s (endCommand u) := by
  refine ⟨(exec_eq_runCommand hr s).trans (runCommand_ok hs.1 h), fun p hp => ?_⟩
  have kept := bodyOf_changes i (beginCommand s) p (hw ▸ hp)
  rw [h] at kept
  by_cases hphase : p = .phase
  · subst hphase
    exact kept
  · exact kept.endCommand hs hphase

end Sys2Proof.Machine

open Sys2Proof Sys2Proof.Machine

/-- Settles O49: the walk writes byte by byte what the stages give, by induction on the bytes that are left. -/
theorem bzUnbwt : Obligations.BzUnbwt := by
  intro s f blk crc origPtr randomised out hs hf hblk hcrc hptr hr hin hinside hout
  have runs := bzUnbwt_outputs (s := beginCommand s) hblk hcrc hptr hr hin hf hinside hout
  refine ⟨fun hfull => exec_corrupted hs (runs.raises hfull), fun hroom => ?_⟩
  obtain ⟨_, u, run, wrote, hempty, hfolded, hsize⟩ := runs.writes hroom
  obtain ⟨next, changes⟩ := exec_body (i := .bzUnbwt) hs run
  exact ⟨_, next, changes, hempty, hfolded, hsize, wrote⟩

end

section
/-! SUPPORT. What a body reads of the stream, as a reading of the bit string before it, for a body that also writes what
BZ.BLOCK keeps: the lists, the tables, LENM and the registers of the pipeline (spec/45_bzp2.md R296). -/

namespace Sys2Proof.Machine

/-! ## How far a reader has read -/

/-- Two states hold the same stream: CHUNK and CHUNK_LEN, FCUR and BITS. -/
structure SameStream (s t : State) : Prop where
  chunk : t.chunk = s.chunk
  chunkLen : t.chunkLen = s.chunkLen
  fcur : t.fcur = s.fcur
  bitsAcc : t.bitsAcc = s.bitsAcc
  bitsCnt : t.bitsCnt = s.bitsCnt

section SameStream

variable {s t u : State}

theorem SameStream.refl (s : State) : SameStream s s := ⟨rfl, rfl, rfl, rfl, rfl⟩

theorem SameStream.trans (h : SameStream s t) (h' : SameStream t u) : SameStream s u :=
  ⟨h'.chunk.trans h.chunk, h'.chunkLen.trans h.chunkLen, h'.fcur.trans h.fcur, h'.bitsAcc.trans h.bitsAcc,
    h'.bitsCnt.trans h.bitsCnt⟩

theorem SameStream.symm (h : SameStream s t) : SameStream t s :=
  ⟨h.chunk.symm, h.chunkLen.symm, h.fcur.symm, h.bitsAcc.symm, h.bitsCnt.symm⟩

variable (h : SameStream s t)
include h

theorem SameStream.unreadBytes : t.unreadBytes = s.unreadBytes := by
  rw [State.unreadBytes, h.fcur, h.chunk, h.chunkLen]
  rfl

theorem SameStream.bitStream : t.bitStream = s.bitStream := by
  rw [State.bitStream, h.bitsCnt, h.bitsAcc, h.unreadBytes]
  rfl

theorem SameStream.readable (hs : Readable s) : Readable t where
  isSet := by
    rw [State.ReaderSet, h.bitsCnt, h.bitsAcc]
    exact hs.isSet
  whole := by
    rw [State.WholeStream, h.fcur, h.unreadBytes, h.chunkLen]
    exact hs.whole

theorem SameStream.canRead {n : Nat} (hs : s.CanRead .group8 n) : t.CanRead .group8 n := by
  rw [State.CanRead, State.ReaderSet, State.refills, h.bitsCnt, h.bitsAcc, h.unreadBytes]
  exact hs

theorem SameStream.afterBits (n : Nat) : SameStream (s.afterBits .group8 n) (t.afterBits .group8 n) := by
  have refills : t.refills .group8 n = s.refills .group8 n := by
    rw [State.refills, h.bitsCnt]
    rfl
  by_cases h0 : s.refills .group8 n = 0
  · rw [afterBits_of_no_refill h0, afterBits_of_no_refill (refills.trans h0)]
    exact ⟨h.chunk, h.chunkLen, h.fcur, h.bitsAcc, by simp only [h.bitsCnt]⟩
  · rw [afterBits_of_refills h0, afterBits_of_refills (refills.trans_ne h0)]
    exact ⟨h.chunk, h.chunkLen, by simp only [h.fcur, refills], by simp only [h.unreadBytes, refills],
      by simp only [h.bitsCnt, refills]⟩

end SameStream

/-- The reader of the second state stands `k` bits behind that of the first. -/
structure ReadOn (k : Nat) (s t : State) : Prop where
  can : s.CanRead .group8 k
  same : SameStream (s.afterBits .group8 k) t

section ReadOn

variable {j k : Nat} {s t u : State}

theorem ReadOn.of_same (hs : s.ReaderSet) (h : SameStream s t) : ReadOn 0 s t :=
  ⟨(canRead_group8 hs).2 (Nat.zero_le _), by rwa [afterBits_zero hs]⟩

theorem readOn_afterBits (h : s.CanRead .group8 k) : ReadOn k s (s.afterBits .group8 k) :=
  ⟨h, .refl _⟩

theorem ReadOn.trans (h : ReadOn j s t) (h' : ReadOn k t u) : ReadOn (j + k) s u := by
  have can := (canRead_afterBits h.can).1 (h.same.symm.canRead h'.can)
  exact ⟨can, afterBits_add j k can ▸ (h.same.afterBits k).trans h'.same⟩

theorem ReadOn.bitStream (h : ReadOn k s t) : t.bitStream = s.bitStream.drop k :=
  h.same.bitStream.trans (afterBits_bitStream k h.can)

theorem ReadOn.readable (h : ReadOn k s t) (hs : Readable s) : Readable t :=
  h.same.readable ⟨afterBits_readerSet hs.isSet, afterBits_wholeStream h.can hs.whole⟩

end ReadOn

/-! ## Reading as a reading does -/

/-- From a state, a body reads what a reading of the stream says: it raises the cause of the failure, or takes exactly
those bits, and its answer and its state are to the reading's value as `Q` says. -/
structure ReadsAs {α β : Type} (m : M α) (r : Reading β) (s : State) (Q : α → β → State → Prop) : Prop where
  raises : ∀ {c}, Readable s → r s.bitStream = .error c → Raises m s c
  takes : ∀ {b rest}, Readable s → r s.bitStream = .ok (b, rest) →
    ∃ a t k, m s = .ok a t ∧ ReadOn k s t ∧ t.bitStream = rest ∧ Q a b t

section ReadsAs

variable {α β γ δ : Type} {m : M α} {r : Reading β} {s t : State} {Q Q' : α → β → State → Prop}

theorem ReadsAs.pure {a : α} {b : β} (h : Q a b s) : ReadsAs (pure a) (pure b) s Q where
  raises _ h := by cases h
  takes hs hr := by
    cases hr
    exact ⟨a, s, 0, rfl, .of_same hs.isSet (.refl s), rfl, h⟩

theorem ReadsAs.raise (c : Cause) : ReadsAs (raise c : M α) (failed c) s Q where
  raises _ h := by
    cases h
    exact ⟨s, rfl⟩
  takes _ h := by cases h

theorem ReadsAs.bind {f : α → M γ} {g : β → Reading δ} {Q' : γ → δ → State → Prop} (h : ReadsAs m r s Q)
    (hf : ∀ a b t, r s.bitStream = .ok (b, t.bitStream) → Q a b t → ReadsAs (f a) (g b) t Q') :
    ReadsAs (m >>= f) (r >>= g) s Q' where
  raises {c} hs hbits := by
    cases hr : r s.bitStream with
    | error c' =>
      rw [Reading.bind_of_error hr] at hbits
      cases hbits
      exact .bind (h.raises hs hr)
    | ok x =>
      obtain ⟨b, rest'⟩ := x
      rw [Reading.bind_of_ok hr] at hbits
      obtain ⟨a, t, k, run, on, rfl, post⟩ := h.takes hs hr
      exact .after run ((hf a _ t hr post).raises (on.readable hs) hbits)
  takes {d rest} hs hbits := by
    cases hr : r s.bitStream with
    | error c => rw [Reading.bind_of_error hr] at hbits; cases hbits
    | ok x =>
      obtain ⟨b, rest'⟩ := x
      rw [Reading.bind_of_ok hr] at hbits
      obtain ⟨a, t, k, run, on, rfl, post⟩ := h.takes hs hr
      obtain ⟨c, u, l, run', on', hrest, post'⟩ := (hf a _ t hr post).takes (on.readable hs) hbits
      exact ⟨c, u, k + l, (bind_of_ok run).trans run', on.trans on', hrest, post'⟩

theorem ReadsAs.mono (h : ReadsAs m r s Q) (hQ : ∀ a b t, Q a b t → Q' a b t) : ReadsAs m r s Q' where
  raises := h.raises
  takes hs hr := by
    obtain ⟨a, t, k, run, on, hrest, post⟩ := h.takes hs hr
    exact ⟨a, t, k, run, on, hrest, hQ a _ t post⟩

/-- The same body, of whose reading the value is worked out further. -/
theorem ReadsAs.map {g : β → γ} {Q' : α → γ → State → Prop} (h : ReadsAs m r s Q)
    (hQ : ∀ a b t, Q a b t → Q' a (g b) t) : ReadsAs m (r >>= fun b => Pure.pure (g b)) s Q' := by
  have mapped := h.bind (f := Pure.pure) (g := fun b => Pure.pure (g b)) (Q' := Q')
    fun a b t _ post => .pure (hQ a b t post)
  rwa [bind_pure] at mapped

/-- A body that goes on as another one does from a state with the same stream. -/
theorem ReadsAs.of_eq {n : M α} (run : m s = n t) (same : SameStream s t) (h : ReadsAs n r t Q) : ReadsAs m r s Q where
  raises hs hr := .congr run (h.raises (same.readable hs) (same.bitStream ▸ hr))
  takes hs hr := by
    obtain ⟨a, u, k, run', on, hrest, post⟩ := h.takes (same.readable hs) (same.bitStream ▸ hr)
    exact ⟨a, u, k, run.trans run', Nat.zero_add k ▸ (ReadOn.of_same hs.isSet same).trans on, hrest, post⟩

/-- Readings that agree on the stream. -/
theorem ReadsAs.of_reading {r' : Reading β} (hr : r s.bitStream = r' s.bitStream) (h : ReadsAs m r' s Q) :
    ReadsAs m r s Q where
  raises hs he := h.raises hs (hr.symm.trans he)
  takes hs he := h.takes hs (hr.symm.trans he)

/-- An update of what is not the stream, before the rest. -/
theorem ReadsAs.modify {g : State → State} {n : M α} (h : ReadsAs n r (g s) Q)
    (hg : SameStream s (g s) := by exact ⟨rfl, rfl, rfl, rfl, rfl⟩) : ReadsAs (modify g >>= fun _ => n) r s Q :=
  .of_eq (bind_of_ok (M.modify_apply ..)) hg h

theorem ReadsAs.need {o : Option γ} {c : γ} {f : γ → M α} (ho : o = some c) (h : ReadsAs (f c) r s Q) :
    ReadsAs (need o >>= f) r s Q :=
  .of_eq (bind_of_ok (need_apply ho s)) (.refl s) h

theorem ReadsAs.get {f : State → M α} (h : ReadsAs (f s) r s Q) : ReadsAs (get >>= f) r s Q :=
  .of_eq (bind_of_ok (M.get_apply s)) (.refl s) h

end ReadsAs

/-! ## Fields and symbols -/

/-- What BZ.BLOCK writes besides the reader. -/
structure Scratch where
  bz : Bz
  ht : Vector (Option Table) 16
  mtf0 : Option (List Nat)
  mtf1 : Option (List Nat)
  lenm : Memory

/-- What BZ.BLOCK writes besides the reader, in a state. -/
def State.scratch (s : State) : Scratch := ⟨s.bz, s.ht, s.mtf0, s.mtf1, s.lenm⟩

theorem scratch_of_changes {s t : State} (h : Changes [.reader] s t) : t.scratch = s.scratch := by
  obtain ⟨h0, h1⟩ := Prod.mk.inj (h .lists (by decide))
  rw [State.scratch, State.scratch, h0, h1, show s.bz = t.bz from h .block (by decide),
    show s.ht = t.ht from h .tables (by decide), show s.lenm = t.lenm from h .lengths (by decide)]

section Fields

variable {s : State}

/-- A field is read. -/
theorem rd_readsAs {w : Nat} (hw : w ≤ 32) :
    ReadsAs (rd w) (bitsField w) s fun v bits t => v = bitsValue bits ∧ bits.length = w ∧ t.scratch = s.scratch where
  raises {c} hs h := by
    rw [bitsField] at h
    split at h
    · next short =>
      cases h
      rw [← endCause_of_whole (src := .group8) hs.whole]
      exact readBits_raises hw hs.isSet fun can => absurd ((canRead_group8 hs.isSet).1 can) (Nat.not_le.2 short)
    · cases h
  takes {b rest} hs h := by
    rw [bitsField] at h
    split at h
    · cases h
    · next long =>
      cases h
      have can := (canRead_group8 hs.isSet).2 (Nat.not_lt.1 long)
      exact ⟨_, _, w, rd_apply hw can, readOn_afterBits can, afterBits_bitStream w can, rfl,
        List.length_take_of_le (Nat.not_lt.1 long), scratch_of_changes (afterBits_changes _ _ _)⟩

theorem fixedField_eq (w : Nat) (bits : List Bool) :
    fixedField w bits = (bitsField w >>= fun map => pure (bitsValue map)) bits := by
  by_cases h : bits.length < w
  · rw [Reading.bind_of_error (show bitsField w bits = .error .unexpectedEnd from if_pos h)]
    exact if_pos h
  · rw [Reading.bind_of_ok (show bitsField w bits = .ok (bits.take w, bits.drop w) from if_neg h)]
    exact if_neg h

theorem rd_readsAs_fixed {w : Nat} (hw : w ≤ 32) :
    ReadsAs (rd w) (fixedField w) s fun v n t => v = n ∧ n < 2 ^ w ∧ t.scratch = s.scratch := by
  refine .of_reading (fixedField_eq w _) ((rd_readsAs hw).map fun v bits t post => ?_)
  obtain ⟨hv, hlen, hscratch⟩ := post
  exact ⟨hv, hlen ▸ bitsValue_lt bits, hscratch⟩

/-- Whether a walk finds an entry does not depend on the order of the entries of a lawful table. -/
theorem entryAt_perm {es es' : List HufEntry} (h : LawfulTable es) (hp : es'.Perm es) (bits : List Bool) (l : Nat) :
    entryAt es' bits l = entryAt es bits l := by
  have unique {a b : HufEntry} (ha : a ∈ es) (hb : b ∈ es) (hlen : a.len = b.len) (hcode : a.code = b.code) :
      a = b := by
    by_contra hne
    refine pathsClash_eq_false.1 (h.apart ha hb hne) ?_
    rw [hlen, hcode]
  cases hfound : entryAt es bits l with
  | none =>
    rw [entryAt, List.find?_eq_none] at hfound ⊢
    exact fun x hx => hfound x (hp.mem_iff.1 hx)
  | some e =>
    obtain ⟨he, hlen, hcode⟩ := entryAt_eq_some hfound
    cases hfound' : entryAt es' bits l with
    | none =>
      rw [entryAt, List.find?_eq_none] at hfound'
      exact absurd (by simp [hlen, hcode]) (hfound' e (hp.mem_iff.2 he))
    | some e' =>
      obtain ⟨he', hlen', hcode'⟩ := entryAt_eq_some hfound'
      rw [unique (hp.mem_iff.1 he') he (hlen'.trans hlen.symm) (hcode'.trans hcode.symm)]

theorem walkBits_perm {es es' : List HufEntry} (h : LawfulTable es) (hp : es'.Perm es) (bits : List Bool) :
    walkBits es' bits = walkBits es bits := by
  have on : goesOn es' bits = goesOn es bits := by
    rw [Bool.eq_iff_iff]
    simp only [goesOn, List.any_eq_true, hp.mem_iff]
  have empty : es'.isEmpty = es.isEmpty := by
    rw [Bool.eq_iff_iff, List.isEmpty_iff, List.isEmpty_iff, ← List.length_eq_zero_iff, hp.length_eq,
      List.length_eq_zero_iff]
  simp only [walkBits, entryAt_perm h hp, on, empty]

/-- A walk that ends takes a bit, and gives the symbol of an entry. -/
theorem walkBits_ok {es : List HufEntry} {bits : List Bool} {sym : Word} {k : Nat}
    (h : walkBits es bits = .ok (sym, k)) : 0 < k ∧ ∃ e ∈ es, e.sym = sym := by
  unfold walkBits at h
  split at h
  · cases h
  · split at h
    · next e he =>
      obtain ⟨j, -, hat, -⟩ := findSome?_range_eq_some he
      cases h
      obtain ⟨member, hlen, -⟩ := entryAt_eq_some hat
      exact ⟨hlen ▸ Nat.succ_pos j, e, member, rfl⟩
    · split at h <;> cases h

theorem hufDecode_eq {k : Fin 16} {es : Table} (h : s.ht[k] = some es) (src : BitSource) :
    Machine.hufDecode k src s = decodeFrom src es s :=
  bind_of_ok (need_apply h s)

/-- A symbol is read, from a slot that holds the entries in some order. -/
theorem hufDecode_readsAs {k : Fin 16} {es es' : List HufEntry} (hk : s.ht[k] = some es') (h : LawfulTable es)
    (hp : es'.Perm es) :
    ReadsAs (Machine.hufDecode k .group8) (symbolField es) s fun v sym t =>
      v = sym ∧ (∃ e ∈ es, e.sym = sym) ∧ t.scratch = s.scratch := by
  have run (hs : Readable s) := decodeFrom_eq_walkBits .group8 es' hs.isSet hs.whole
  rw [deliverable_group8, walkBits_perm h hp] at run
  cases hw : walkBits es s.bitStream with
  | error c =>
    rw [hw] at run
    refine ⟨fun hs hc => ?_, fun _ hc => ?_⟩
    all_goals
      rw [symbolField_of_error hw] at hc
      cases hc
    exact .congr (hufDecode_eq hk _) (run hs)
  | ok x =>
    rw [hw] at run
    refine ⟨fun _ hc => ?_, fun hs hc => ?_⟩
    all_goals
      rw [symbolField_of_ok hw] at hc
      cases hc
    have can := (canRead_group8 hs.isSet).2 (walkBits_le hw)
    exact ⟨_, _, x.2, (hufDecode_eq hk _).trans (run hs), readOn_afterBits can, afterBits_bitStream _ can, rfl,
      (walkBits_ok hw).2, scratch_of_changes (afterBits_changes _ _ _)⟩

end Fields

end Sys2Proof.Machine
end

section
/-! SUPPORT. The header of a block (spec/45_bzp2.md R297 to R300): the symbol map and the selectors. -/

namespace Sys2Proof.Machine

/-! ## The symbol map -/

/-- A bit of the number that a bit string reads as. -/
theorem fieldBit_bitsValue {map : List Bool} {w j : Nat} (hlen : map.length = w) (hj : j < w) :
    fieldBit (bitsValue map) w j = map.getD j false := by
  subst hlen
  have last := bitsValue_take_div (bits := map) (m := j + 1) (n := map.length) hj le_rfl
  rw [List.take_length, List.take_succ_eq_append_getElem hj, bitsValue_append] at last
  rw [fieldBit, Nat.testBit_eq_decide_div_mod_eq, List.getD_eq_getElem _ _ hj,
    show map.length - 1 - j = map.length - (j + 1) by omega, last]
  cases map[j] <;> simp [bitsValue]

/-- The marked places of a map from a place on. -/
def markedFrom (map : List Bool) (left : Nat) : List Nat :=
  (List.range' (16 - left) left).filter fun j => map.getD j false

theorem markedFrom_all (map : List Bool) : markedFrom map 16 = markedPlaces map := by
  rw [markedFrom, markedPlaces, List.range_eq_range']

theorem markedFrom_succ (map : List Bool) {left : Nat} (h : left < 16) :
    markedFrom map (left + 1) =
      if map.getD (15 - left) false then (15 - left) :: markedFrom map left else markedFrom map left := by
  rw [markedFrom, show 16 - (left + 1) = 15 - left by omega, List.range'_succ, List.filter_cons,
    show 15 - left + 1 = 16 - left by omega]
  rfl

theorem detailValues_eq {map : List Bool} (hlen : map.length = 16) (g : Nat) {left : Nat} (h : left ≤ 16) :
    detailValues g (bitsValue map) left = (markedFrom map left).map fun j => truncByte (16 * g + j) := by
  induction left with
  | zero => rfl
  | succ left ih =>
    rw [markedFrom_succ map h, detailValues, fieldBit_bitsValue hlen (by omega), ih (by omega)]
    split <;> rfl

/-- The values of an alphabet stand in ascending order, from a bound on. -/
structure Ascending (bound : Nat) (values : List Byte) : Prop where
  order : values.Pairwise fun a b => a.toNat < b.toNat
  above : ∀ v ∈ values, bound ≤ v.toNat

theorem Ascending.nodup {n : Nat} {values : List Byte} (h : Ascending n values) : values.Nodup :=
  h.order.imp fun hlt heq => absurd (congrArg BitVec.toNat heq) hlt.ne

theorem Ascending.length_le {n : Nat} {values : List Byte} (h : Ascending n values) : values.length ≤ 256 := by
  have sub := List.subperm_of_subset (List.pairwise_map.2 (h.order.imp Nat.ne_of_lt) : (values.map BitVec.toNat).Nodup)
    (l₂ := List.range 256) fun n hn => by
      obtain ⟨v, -, rfl⟩ := List.mem_map.1 hn
      exact List.mem_range.2 v.isLt
  simpa using sub.length_le

theorem ascending_detail {map : List Bool} {g : Nat} (hg : g < 16) {more : List Byte}
    (h : Ascending (16 * (g + 1)) more) :
    Ascending (16 * g) ((markedPlaces map).map (fun j => truncByte (16 * g + j)) ++ more) := by
  have place {j : Nat} (hj : j ∈ markedPlaces map) : j < 16 := List.mem_range.1 (List.mem_of_mem_filter hj)
  have value {j : Nat} (hj : j < 16) : (truncByte (16 * g + j)).toNat = 16 * g + j := by
    simp only [truncByte, BitVec.toNat_ofNat]
    omega
  constructor
  · rw [List.pairwise_append, List.pairwise_map]
    refine ⟨(List.pairwise_lt_range.filter _).imp_of_mem fun ha hb hab => ?_, h.order, fun v hv u hu => ?_⟩
    · rw [value (place ha), value (place hb)]
      omega
    · obtain ⟨j, hj, rfl⟩ := List.mem_map.1 hv
      have := h.above u hu
      have := place hj
      rw [value this]
      omega
  · intro v hv
    rcases List.mem_append.1 hv with hv | hv
    · obtain ⟨j, hj, rfl⟩ := List.mem_map.1 hv
      rw [value (place hj)]
      omega
    · exact (by omega : 16 * g ≤ 16 * (g + 1)).trans (h.above v hv)

/-- The detail words give the alphabet. -/
theorem readDetails_readsAs {map : List Bool} (hlen : map.length = 16) {left : Nat} (h : left ≤ 16) (s : State) :
    ReadsAs (readDetails (bitsValue map) left) (detailFields (markedFrom map left)) s fun vs values t =>
      vs = values ∧ Ascending (16 * (16 - left)) values ∧ t.scratch = s.scratch := by
  induction left generalizing s with
  | zero => exact .pure ⟨rfl, ⟨.nil, nofun⟩, rfl⟩
  | succ left ih =>
    rw [readDetails, fieldBit_bitsValue hlen (by omega), markedFrom_succ map h]
    split
    · refine (rd_readsAs (by decide)).bind fun d map' t _ post => ?_
      obtain ⟨rfl, hlen', hscratch⟩ := post
      refine (ih (by omega) t).bind fun _ more u _ post => .pure ?_
      obtain ⟨rfl, hmore, hscratch'⟩ := post
      rw [detailValues_eq hlen' _ le_rfl, markedFrom_all, show 16 - (left + 1) = 15 - left by omega]
      rw [show 16 - left = 15 - left + 1 by omega] at hmore
      exact ⟨rfl, ascending_detail (by omega) hmore, hscratch'.trans hscratch⟩
    · refine (ih (by omega) s).mono fun _ _ _ post => ?_
      obtain ⟨heq, ⟨order, above⟩, hscratch⟩ := post
      exact ⟨heq, ⟨order, fun v hv => (Nat.mul_le_mul_left 16 (by omega)).trans (above v hv)⟩, hscratch⟩

/-! ## The selectors -/

/-- The places of the walk of the selector table: after 1 bits only, a 0 bit leads to an entry, and another 1 bit goes on,
but for the last one. -/
theorem selectorTable_steps : ∀ n < 6,
    selectorTable.find? (fun e => e.len == 6 - (n + 1) + 1 && e.code == (2 ^ (6 - (n + 1)) - 1) * 2 + 0) =
        some ⟨6 - n, (2 ^ (6 - (n + 1)) - 1) * 2, BitVec.ofNat 32 (6 - (n + 1))⟩ ∧
      selectorTable.find? (fun e => e.len == 6 - (n + 1) + 1 && e.code == (2 ^ (6 - (n + 1)) - 1) * 2 + 1) = none ∧
      selectorTable.any (fun e => decide (e.len > 6 - (n + 1) + 1) &&
        e.code / 2 ^ (e.len - (6 - (n + 1) + 1)) == (2 ^ (6 - (n + 1)) - 1) * 2 + 1) = decide (0 < n) ∧
      6 - (n + 1) + 1 = 6 - n ∧ (2 ^ (6 - (n + 1)) - 1) * 2 + 1 = 2 ^ (6 - n) - 1 := by
  decide

/-- The walk of the selector table reads a unary number. -/
theorem walk_selectorTable {n : Nat} (hn : n ≤ 6) (s : State) :
    ReadsAs (walk .group8 selectorTable n (6 - n) (2 ^ (6 - n) - 1)) (unaryField n) s fun sym j t =>
      sym.toNat = 6 - n + j ∧ j < n ∧ t.scratch = s.scratch := by
  induction n generalizing s with
  | zero => exact .raise .walkOff
  | succ n ih =>
    obtain ⟨found, noEntry, on, hl, hc⟩ := selectorTable_steps n hn
    refine (rd_readsAs_fixed (w := 1) (by decide)).bind fun b bit t _ post => ?_
    obtain ⟨rfl, hbit, hscratch⟩ := post
    obtain rfl | rfl : b = 0 ∨ b = 1 := by omega
    · dsimp only
      rw [found, if_pos rfl]
      refine .pure ⟨?_, Nat.succ_pos n, hscratch⟩
      rw [BitVec.toNat_ofNat]
      omega
    · dsimp only
      rw [noEntry, on, hl, hc, if_neg Nat.one_ne_zero]
      dsimp only
      by_cases hzero : n = 0
      · subst hzero
        exact .of_reading (r' := failed .walkOff) rfl (.raise .walkOff)
      · rw [if_pos (decide_eq_true (Nat.pos_of_ne_zero hzero))]
        refine (ih (Nat.le_of_succ_le hn) t).map fun sym j u post => ?_
        obtain ⟨hsym, hj, hscratch'⟩ := post
        exact ⟨by omega, Nat.succ_lt_succ hj, hscratch'.trans hscratch⟩

section Selectors

variable {s : State}

/-- A list without repetition: the element at a place is taken out and put to the front. -/
theorem moveToFront_of_nodup {xs : List Nat} (h : xs.Nodup) {j : Nat} (hj : j < xs.length) :
    moveToFront xs j xs[j] = xs[j] :: xs.erase xs[j] := by
  rw [moveToFront, h.erase_getElem]

/-- An access of a list without repetition, before the rest. -/
theorem mtfAccess_readsAs {α β : Type} {l : MtfStore} {xs : List Nat} {j : Nat} {f : Nat → M α} {r : Reading β}
    {Q : α → β → State → Prop} (hlist : mtfOf l s = some xs) (hnodup : xs.Nodup) (hj : j < xs.length)
    (h : ReadsAs (f xs[j]) r (withMtf l (xs[j] :: xs.erase xs[j]) s) Q) : ReadsAs (mtfAccess l j >>= f) r s Q := by
  rw [← moveToFront_of_nodup hnodup hj] at h
  refine .of_eq (bind_of_ok (mtfAccess_of_getElem hlist (List.getElem?_eq_getElem hj))) ?_ h
  cases l <;> exact ⟨rfl, rfl, rfl, rfl, rfl⟩

/-- A selector is a unary number. -/
theorem hufDecode_selector (h : s.ht[selectorSlot] = some selectorTable) :
    ReadsAs (Machine.hufDecode selectorSlot .group8) (unaryField 6) s fun sym j t =>
      sym.toNat = j ∧ j < 6 ∧ t.scratch = s.scratch := by
  refine .of_eq ((hufDecode_eq h .group8).trans ?_) (.refl s) ((walk_selectorTable le_rfl s).mono ?_)
  · rw [decodeFrom_walk (by decide)]
    rfl
  · intro sym j t post
    obtain ⟨hsym, hj, hscratch⟩ := post
    exact ⟨by omega, hj, hscratch⟩

/-- The selectors are read, each one through the list. -/
theorem readSelectors_readsAs (nGroups : Nat) {left : Nat} {front : List Nat}
    (h : s.ht[selectorSlot] = some selectorTable) (hfront : front.Perm (List.range 6)) (hlist : s.mtf0 = some front) :
    ReadsAs (readSelectors nGroups left) (selectorFields nGroups left front) s fun a sels t =>
      a = sels ∧ (∀ e ∈ sels, e < nGroups) ∧ t.bz = s.bz ∧ t.ht = s.ht := by
  induction left generalizing s front with
  | zero => exact .pure ⟨rfl, nofun, rfl, rfl⟩
  | succ left ih =>
    refine (hufDecode_selector h).bind fun sym j t _ post => ?_
    obtain ⟨rfl, hj, hscratch⟩ := post
    replace hj : sym.toNat < front.length := by rwa [hfront.length_eq, List.length_range]
    refine mtfAccess_readsAs (l := .selectors) ((congrArg Scratch.mtf0 hscratch).trans hlist)
      (hfront.nodup_iff.2 List.nodup_range) hj ?_
    dsimp only
    rw [List.getD_eq_getElem _ _ hj]
    by_cases hlarge : nGroups ≤ front[sym.toNat]
    · rw [if_pos hlarge, if_pos hlarge]
      exact .raise .index
    · rw [if_neg hlarge, if_neg hlarge]
      have member := List.getElem_mem hj
      refine (ih ?_ ((List.perm_cons_erase member).symm.trans hfront) rfl).bind fun _ sels u _ post => .pure ?_
      · exact (congrArg (fun k => k.ht[selectorSlot]) hscratch).trans h
      obtain ⟨rfl, hsels, hbz, hht⟩ := post
      exact ⟨rfl, List.forall_mem_cons.2 ⟨Nat.not_le.1 hlarge, hsels⟩, hbz.trans (congrArg Scratch.bz hscratch),
        hht.trans (congrArg Scratch.ht hscratch)⟩

end Selectors

end Sys2Proof.Machine
end

section
/-! SUPPORT. The tables of the groups of a block (spec/45_bzp2.md R301). -/

namespace Sys2Proof.Machine

/-! ## Code lengths -/

/-- A delta: 0 stops, 10 and 11 go on. -/
def deltaSymbol : Reading Word := do
  let more ← fixedField 1
  if more = 0 then pure 0#32
  else
    let minus ← fixedField 1
    pure (if minus = 0 then 1#32 else 0xFFFFFFFF#32)

theorem fixedField_one_cons (b : Bool) (rest : List Bool) : fixedField 1 (b :: rest) = .ok (b.toNat, rest) := by
  cases b <;> rfl

theorem deltaSymbol_nil : deltaSymbol [] = .error .unexpectedEnd := rfl

theorem deltaSymbol_zero (rest : List Bool) : deltaSymbol (false :: rest) = .ok (0#32, rest) := by
  rw [deltaSymbol, Reading.bind_of_ok (fixedField_one_cons ..)]
  rfl

theorem deltaSymbol_one : deltaSymbol [true] = .error .unexpectedEnd := rfl

theorem deltaSymbol_two (minus : Bool) (rest : List Bool) :
    deltaSymbol (true :: minus :: rest) = .ok (if minus then 0xFFFFFFFF#32 else 1#32, rest) := by
  rw [deltaSymbol, Reading.bind_of_ok (fixedField_one_cons ..)]
  show (fixedField 1 >>= _) (minus :: rest) = _
  rw [Reading.bind_of_ok (fixedField_one_cons ..)]
  cases minus <;> rfl

theorem deltaSymbol_shorter {bits rest : List Bool} {d : Word} (h : deltaSymbol bits = .ok (d, rest)) :
    rest.length < bits.length := by
  match bits with
  | [] => cases h
  | false :: bits => rw [deltaSymbol_zero] at h; cases h; exact Nat.lt_succ_self _
  | [true] => cases h
  | true :: minus :: bits => rw [deltaSymbol_two] at h; cases h; exact Nat.lt_succ_of_lt (Nat.lt_succ_self _)

/-- A length out of range ends the deltas at once. -/
theorem deltaField_range {cur : Nat} (h : cur < 1 ∨ cur > 20) (bits : List Bool) :
    deltaField bits cur = .error .range := by
  match bits with
  | [] | false :: _ | [true] | true :: _ :: _ => rw [deltaField.eq_def]; exact if_neg (by omega)

/-- One delta after another. -/
theorem deltaField_eq {cur : Nat} (h : ¬ (cur < 1 ∨ cur > 20)) (bits : List Bool) :
    deltaField bits cur = (deltaSymbol >>= fun d => if d = 0#32 then pure cur
      else if d = 1#32 then fun bits => deltaField bits (cur + 1) else fun bits => deltaField bits (cur - 1)) bits := by
  have inside : 1 ≤ cur ∧ cur ≤ 20 := by omega
  match bits with
  | [] => rw [Reading.bind_of_error deltaSymbol_nil, deltaField.eq_def]; exact if_pos inside
  | false :: rest => rw [Reading.bind_of_ok (deltaSymbol_zero rest), deltaField.eq_def]; exact if_pos inside
  | [true] => rw [Reading.bind_of_error deltaSymbol_one, deltaField.eq_def]; exact if_pos inside
  | true :: minus :: rest =>
    rw [Reading.bind_of_ok (deltaSymbol_two minus rest), deltaField.eq_def]
    cases minus <;> exact if_pos inside

section Lengths

variable {s : State}

theorem hufDecode_delta (h : s.ht[deltaSlot] = some deltaTable) :
    ReadsAs (Machine.hufDecode deltaSlot .group8) deltaSymbol s fun d d' t => d = d' ∧ t.scratch = s.scratch := by
  refine .of_eq (hufDecode_eq h .group8) (.refl s) ?_
  rw [decodeFrom_walk (by decide)]
  refine (rd_readsAs_fixed (w := 1) (by decide)).bind fun b bit t _ post => ?_
  obtain ⟨rfl, hbit, hscratch⟩ := post
  obtain rfl | rfl : b = 0 ∨ b = 1 := by omega
  · exact .pure ⟨rfl, hscratch⟩
  refine (rd_readsAs_fixed (w := 1) (by decide)).bind fun b bit u _ post => ?_
  obtain ⟨rfl, hbit, hscratch'⟩ := post
  obtain rfl | rfl : b = 0 ∨ b = 1 := by omega
  all_goals exact .pure ⟨rfl, hscratch'.trans hscratch⟩

/-- The deltas of one code length. -/
theorem readDeltas_readsAs {turns : Nat} (cur : Nat) (h : s.ht[deltaSlot] = some deltaTable)
    (hturns : s.bitStream.length < turns) :
    ReadsAs (readDeltas turns cur) (fun bits => deltaField bits cur) s fun l l' t =>
      l = l' ∧ l ≤ 20 ∧ t.scratch = s.scratch := by
  induction turns generalizing s cur with
  | zero => exact absurd hturns (Nat.not_lt_zero _)
  | succ turns ih =>
    rw [readDeltas]
    split
    · next out => exact .of_reading (r' := failed .range) (deltaField_range out _) (.raise .range)
    · next inside =>
      refine .of_reading (deltaField_eq inside _) ((hufDecode_delta h).bind fun d d' t read post => ?_)
      obtain ⟨rfl, hscratch⟩ := post
      have shorter := deltaSymbol_shorter read
      have next (cur : Nat) := (ih (s := t) cur ((congrArg (fun k => k.ht[deltaSlot]) hscratch).trans h)
        (by omega)).mono (Q' := fun l l' u => l = l' ∧ l ≤ 20 ∧ u.scratch = s.scratch)
        fun _ _ _ ⟨heq, hle, hscratch'⟩ => ⟨heq, hle, hscratch'.trans hscratch⟩
      split
      · exact .pure ⟨rfl, by omega, hscratch⟩
      · split
        · exact next (cur + 1)
        · exact next (cur - 1)

/-- The code lengths of a group go to LENM behind those that stand there. -/
theorem readLengths_readsAs {left i cur : Nat} {before : List Byte} (h : s.ht[deltaSlot] = some deltaTable)
    (hlenm : memBytes s.lenm 0 i = some before) :
    ReadsAs (readLengths left i cur) (groupLengths left cur) s fun _ lens t =>
      lens.length = left ∧ (∀ l ∈ lens, l ≤ 20) ∧ t.bz = s.bz ∧ t.ht = s.ht ∧
        memBytes t.lenm 0 (i + left) = some (before ++ lens.map truncByte) := by
  induction left generalizing s i cur before with
  | zero => exact .pure ⟨rfl, nofun, rfl, rfl, by simpa using hlenm⟩
  | succ left ih =>
    refine .get ((readDeltas_readsAs cur h (Nat.lt_succ_of_le (bitStream_length_le s))).bind fun l l' t _ post => ?_)
    obtain ⟨rfl, hl, hscratch⟩ := post
    refine .modify ?_
    have written := memBytes_storeWrite_snoc ((congrArg (fun k => memBytes k.lenm 0 i) hscratch).trans hlenm)
      (truncByte l)
    rw [Nat.zero_add] at written
    refine (ih ?_ written).map fun _ lens u post => ?_
    · exact (congrArg (fun k => k.ht[deltaSlot]) hscratch).trans h
    obtain ⟨hlen, hlens, hbz, hht, hmem⟩ := post
    refine ⟨by rw [List.length_cons, hlen], List.forall_mem_cons.2 ⟨hl, hlens⟩,
      hbz.trans (congrArg Scratch.bz hscratch), hht.trans (congrArg Scratch.ht hscratch), ?_⟩
    rw [List.map_cons, List.append_cons, ← hmem]
    congr 1
    omega

end Lengths

/-! ## The tables -/

/-- A table that a build over `n` symbols gives. -/
structure Built (n : Nat) (es : List HufEntry) : Prop where
  lawful : LawfulTable es
  symbols : ∀ e ∈ es, e.sym.toNat < n

theorem built_of_canonicalCodes {lens : List Nat} {es : List HufEntry} (hl : ∀ l ∈ lens, l ≤ 32)
    (h : canonicalCodes lens = some es) : Built lens.length es where
  lawful := canonicalCodes_lawful hl h
  symbols e he := by
    obtain ⟨pre, post, hsplit⟩ := List.append_of_mem he
    obtain ⟨before, after, hlens, hsym, -⟩ := canonicalCodes_split hl h hsplit
    rw [hsym, toWord_toNat, hlens, List.length_append, List.length_cons]
    have := Nat.mod_le before.length (2 ^ 32)
    omega

/-- How many nodes a table needs does not depend on the order of its entries. -/
theorem tooManyNodes_perm (c : Config) {es es' : List HufEntry} (hp : es'.Perm es) :
    tooManyNodes c es' = tooManyNodes c es := by
  have nodes : trieNodes es' = trieNodes es := by
    rw [trieNodes, trieNodes, ((hp.flatMap_right pathNodes).dedup).length_eq]
  have empty : es'.isEmpty = es.isEmpty := by
    rw [Bool.eq_iff_iff, List.isEmpty_iff, List.isEmpty_iff, ← List.length_eq_zero_iff, hp.length_eq,
      List.length_eq_zero_iff]
  rw [tooManyNodes, tooManyNodes, nodes, empty]

theorem slot_set (ht : Vector (Option Table) 16) (k g : Fin 16) (v : Option Table) :
    (ht.set k v)[g] = if k.val = g.val then v else ht[g] :=
  Vector.getElem_set ..

/-- The slots from `first` on hold tables, and every other slot holds what it held. -/
def GroupSlots (first : Nat) (tables : List (List HufEntry)) (s t : State) : Prop :=
  ∀ g : Fin 16, t.ht[g] =
    if g.val < first then s.ht[g] else ((tables[g.val - first]?).map tableOf).or s.ht[g]

section Tables

variable {c : Config} {s : State}

/-- A build from the lengths in LENM. -/
theorem hufBuild_readsAs {lens : List Nat} (k : Fin 16) (hlen : lens.length ≤ 1024) (hl : ∀ l ∈ lens, l ≤ 20)
    (h : memBytes s.lenm 0 lens.length = some (lens.map truncByte)) :
    ReadsAs (hufBuild c k lens.length) (builtTable c lens) s fun _ es t =>
      Built lens.length es ∧ t = { s with ht := s.ht.set k (some (tableOf es)) } := by
  have values : (lens.map truncByte).map BitVec.toNat = lens := by
    rw [List.map_map]
    refine (List.map_congr_left fun l hm => ?_).trans (List.map_id lens)
    have := hl l hm
    simp only [Function.comp_apply, truncByte, BitVec.toNat_ofNat, id_eq]
    omega
  have small : (lens.any fun l => decide (l > 32)) = false := by
    rw [List.any_eq_false]
    intro l hm
    rw [decide_eq_true_eq]
    exact Nat.not_lt.2 ((hl l hm).trans (by decide))
  have run := hufBuild_eq c k lens.length s
  rw [if_neg (Nat.not_lt.2 hlen), h] at run
  simp only [values, small, Bool.false_eq_true, if_false] at run
  unfold builtTable
  cases hcodes : canonicalCodes lens with
  | none =>
    rw [hcodes] at run
    exact .of_eq (n := raise .table) run (.refl s) (.raise .table)
  | some es =>
    rw [hcodes] at run
    simp only [tooManyNodes_perm c (tableOf_perm es)] at run
    dsimp only
    split
    · next hmany =>
      rw [if_pos hmany] at run
      exact .of_eq (n := raise .capacity) run (.refl s) (.raise .capacity)
    · next hfew =>
      rw [if_neg hfew] at run
      exact .of_eq (n := pure ()) run ⟨rfl, rfl, rfl, rfl, rfl⟩
        (.pure ⟨built_of_canonicalCodes (fun l hm => (hl l hm).trans (by decide)) hcodes, rfl⟩)

/-- The tables of the groups. -/
theorem readGroups_readsAs {nItems left first : Nat} (hitems : nItems ≤ 1024) (hgroups : first + left ≤ 6)
    (h : s.ht[deltaSlot] = some deltaTable) :
    ReadsAs (readGroups c nItems left first) (fieldsOf (groupField c nItems) left) s fun _ tables t =>
      tables.length = left ∧ (∀ es ∈ tables, Built nItems es) ∧ t.bz = s.bz ∧ GroupSlots first tables s t := by
  induction left generalizing s first with
  | zero => exact .pure ⟨rfl, nofun, rfl, fun g => by simp⟩
  | succ left ih =>
    rw [readGroups, fieldsOf, groupField]
    simp only [bind_assoc]
    refine (rd_readsAs_fixed (w := 5) (by decide)).bind fun cur cur' t _ post => ?_
    obtain ⟨rfl, -, hscratch⟩ := post
    refine (readLengths_readsAs (before := []) ((congrArg (fun k => k.ht[deltaSlot]) hscratch).trans h)
      (memBytes_zero ..)).bind fun _ lens u _ post => ?_
    obtain ⟨rfl, hlens, hbz, hht, hmem⟩ := post
    rw [Nat.zero_add, List.nil_append] at hmem
    refine (hufBuild_readsAs (groupSlot first) hitems hlens hmem).bind fun _ es v _ post => ?_
    obtain ⟨hbuilt, rfl⟩ := post
    have slots : u.ht = s.ht := hht.trans (congrArg Scratch.ht hscratch)
    have slot : (groupSlot first).val = first := Nat.mod_eq_of_lt (by omega)
    refine (ih (by omega) ?_).map fun _ tables w post => ?_
    · show (u.ht.set (groupSlot first) (some (tableOf es)))[deltaSlot] = _
      have apart : first ≠ deltaSlot.val := by
        rw [show deltaSlot.val = 7 from rfl]
        omega
      rw [slots, slot_set, slot, if_neg apart]
      exact h
    obtain ⟨hlen, htables, hbz', hslots⟩ := post
    refine ⟨by rw [List.length_cons, hlen], List.forall_mem_cons.2 ⟨hbuilt, htables⟩,
      hbz'.trans (hbz.trans (congrArg Scratch.bz hscratch)), fun g => ?_⟩
    rw [hslots g, show _ = u.ht.set (groupSlot first) (some (tableOf es)) from rfl, slots, slot_set, slot]
    rcases Nat.lt_trichotomy g.val first with hlt | heq | hgt
    · rw [if_pos (by omega), if_neg (by omega), if_pos hlt]
    · rw [if_pos (by omega), if_pos heq.symm, if_neg (by omega), heq, Nat.sub_self]
      rfl
    · rw [if_neg (by omega), if_neg (by omega), if_neg (by omega),
        show g.val - first = g.val - (first + 1) + 1 by omega, List.getElem?_cons_succ]

end Tables

end Sys2Proof.Machine
end

section
/-! SUPPORT. The body of a block (spec/45_bzp2.md R302, R303): run digits, literals and the end symbol. -/

namespace Sys2Proof.Machine

/-! ## The alphabet's list -/

/-- The list holds the indices of the alphabet, and `front` the bytes they stand for. -/
structure FrontOf (values : List Byte) (idx : List Nat) (front : List Byte) : Prop where
  perm : idx.Perm (List.range values.length)
  bytes : idx.map (fun e => values.getD e 0#8) = front

theorem map_getD_range (values : List Byte) :
    (List.range values.length).map (fun e => values.getD e 0#8) = values :=
  List.ext_getElem (by simp) fun i _ h => by simp [List.getElem?_eq_getElem h]

theorem frontOf_start (values : List Byte) : FrontOf values (List.range values.length) values :=
  ⟨.refl _, map_getD_range values⟩

section FrontOf

variable {values front : List Byte} {idx : List Nat} (h : FrontOf values idx front)
include h

theorem FrontOf.length : idx.length = values.length := by
  rw [h.perm.length_eq, List.length_range]

theorem FrontOf.nodup (hv : values.Nodup) : front.Nodup := by
  have same := h.perm.map fun e => values.getD e 0#8
  rw [h.bytes, map_getD_range] at same
  exact same.nodup_iff.2 hv

/-- A place of the list and the byte it stands for. -/
theorem FrontOf.place {j : Nat} (hj : j < idx.length) : values[idx[j]]? = some (front.getD j 0#8) := by
  have member := List.mem_range.1 (h.perm.mem_iff.1 (List.getElem_mem hj))
  rw [← h.bytes, List.getD_eq_getElem _ _ (by rwa [List.length_map]), List.getElem_map, List.getD_eq_getElem _ _ member,
    List.getElem?_eq_getElem member]

/-- An access moves the byte to the front. -/
theorem FrontOf.access (hv : values.Nodup) {j : Nat} (hj : j < idx.length) :
    FrontOf values (idx[j] :: idx.erase idx[j]) (front.getD j 0#8 :: front.erase (front.getD j 0#8)) := by
  have nodup := h.nodup hv
  obtain ⟨perm, rfl⟩ := h
  refine ⟨(List.perm_cons_erase (List.getElem_mem hj)).symm.trans perm, ?_⟩
  rw [List.getD_eq_getElem _ _ (by rwa [List.length_map]), nodup.erase_getElem,
    (perm.nodup_iff.2 List.nodup_range).erase_getElem, List.map_cons, List.getElem_map, List.eraseIdx_map]

end FrontOf

/-! ## The state of the body -/

/-- The registers of the pipeline inside the body. -/
def Bz.inBody (z : Bz) (block : List Byte) (digits : List Bool) : Bz :=
  { z with blk := some block, runLength := some (runLengthOf digits), runWeight := some (2 ^ digits.length) }

/-- The body has given these bytes, and then these run digits. -/
structure InBody (z : Bz) (ht : Vector (Option Table) 16) (values front block : List Byte) (digits : List Bool)
    (s : State) : Prop where
  bz : s.bz = z.inBody block digits
  tables : s.ht = ht
  list : ∃ idx, s.mtf1 = some idx ∧ FrontOf values idx front

theorem InBody.of_scratch {z : Bz} {ht : Vector (Option Table) 16} {values front block : List Byte} {digits : List Bool}
    {s t : State} (h : InBody z ht values front block digits s) (hscratch : t.scratch = s.scratch) :
    InBody z ht values front block digits t :=
  ⟨(congrArg Scratch.bz hscratch).trans h.bz, (congrArg Scratch.ht hscratch).trans h.tables,
    (show t.mtf1 = s.mtf1 from congrArg Scratch.mtf1 hscratch) ▸ h.list⟩

theorem runLengthOf_append (digits : List Bool) (d : Bool) :
    runLengthOf (digits ++ [d]) = runLengthOf digits + 2 ^ digits.length * 2 ^ d.toNat := by
  induction digits with
  | nil => cases d <;> rfl
  | cons e digits ih =>
    rw [List.cons_append, runLengthOf, ih, runLengthOf, List.length_cons, pow_succ]
    ring

/-! ## The steps of the body -/

section Steps

variable {α β : Type} {m : M α} {r : Reading β} {Q : α → β → State → Prop} {s : State} {size : Nat}

/-- The check of the block's size, before the rest. -/
theorem checkCapacity_readsAs {n : Nat} (hsize : s.bz.blockSize = some size) (next : n ≤ size → ReadsAs m r s Q) :
    ReadsAs (checkCapacity n >>= fun _ => m) (if size < n then failed .capacity else r) s Q := by
  have run := checkCapacity_eq n s
  rw [hsize] at run
  dsimp only at run
  split
  · next hover =>
    rw [if_pos hover] at run
    exact .of_eq (n := raise .capacity) (by rw [M.bind_apply, run]; rfl) (.refl s) (.raise .capacity)
  · next hfits =>
    rw [if_neg hfits] at run
    exact .of_eq (bind_of_ok run) (.refl s) (next (Nat.not_lt.1 hfits))

variable {z : Bz} {ht : Vector (Option Table) 16} {values front block : List Byte} {digits : List Bool}
  (hsize : z.blockSize = some size) (hvalues : z.values = some values) (hne : values ≠ [])
  (h : InBody z ht values front block digits s)
include hsize h

/-- A run digit (R302). -/
theorem runSymbol_readsAs {sym : Nat} (hsym : sym < 2)
    (next : ∀ t, InBody z ht values front block (digits ++ [sym == 1]) t → t.bitStream = s.bitStream →
      ReadsAs m r t Q) :
    ReadsAs (runSymbol sym >>= fun _ => m)
      (if size < runLengthOf (digits ++ [sym == 1]) then failed .capacity else r) s Q := by
  have digit : (sym == 1).toNat = sym := by
    obtain rfl | rfl : sym = 0 ∨ sym = 1 := by omega
    all_goals rfl
  obtain ⟨hbz, htables, hlist⟩ := h
  have run := runSymbol_eq sym s
  rw [hbz] at run
  simp only [Bz.inBody] at run
  rw [runLengthOf_append, digit]
  refine .of_eq (t := { s with bz := z.inBody block (digits ++ [sym == 1]) }) (n := _) ?_ ⟨rfl, rfl, rfl, rfl, rfl⟩
    (checkCapacity_readsAs hsize fun _ => next _ ⟨rfl, htables, hlist⟩ rfl)
  rw [M.bind_apply, run, M.bind_apply, Bz.inBody, runLengthOf_append, digit, List.length_append, List.length_singleton,
    pow_succ]

include hvalues hne

/-- The bytes of a run. -/
theorem appendRun_readsAs (hfits : block.length ≤ size)
    (next : ∀ t, t.bz = { s.bz with blk := some (block ++ List.replicate (runLengthOf digits) (front.headD 0#8)) } →
      t.ht = s.ht → t.mtf1 = s.mtf1 → t.bitStream = s.bitStream → ReadsAs m r t Q) :
    ReadsAs (appendRun (runLengthOf digits) >>= fun _ => m)
      (if size < (block ++ List.replicate (runLengthOf digits) (front.headD 0#8)).length then failed .capacity else r)
      s Q := by
  obtain ⟨hbz, htables, idx, hidx, hfront⟩ := h
  have blk : s.bz.blk = some block := by rw [hbz]; rfl
  rw [appendRun, List.length_append, List.length_replicate]
  split
  · next hpos =>
    have nonempty : 0 < idx.length := by
      rw [hfront.length]
      exact List.length_pos_iff.2 hne
    have place := hfront.place nonempty
    have head : front.getD 0 0#8 = front.headD 0#8 := by cases front <;> rfl
    rw [head] at place
    simp only [bind_assoc]
    refine .get (.need blk (checkCapacity_readsAs (by rw [hbz]; exact hsize) fun _ => ?_))
    refine .need (by rw [hbz]; exact hvalues) (.need hidx (.need (List.getElem?_eq_getElem nonempty) (.need place ?_)))
    exact .modify (next _ rfl rfl rfl rfl)
  · next hzero =>
    have none : runLengthOf digits = 0 := by omega
    rw [none, Nat.add_zero, if_neg (Nat.not_lt.2 hfits)]
    refine .of_eq rfl (.refl s) (next s ?_ rfl rfl rfl)
    rw [none, List.replicate_zero, List.append_nil, ← blk]

/-- The run before a literal or the end. -/
theorem flushRun_readsAs (hfits : block.length ≤ size)
    (next : ∀ t, InBody z ht values front (block ++ List.replicate (runLengthOf digits) (front.headD 0#8)) [] t →
      t.bitStream = s.bitStream → ReadsAs m r t Q) :
    ReadsAs (flushRun >>= fun _ => m)
      (if size < (block ++ List.replicate (runLengthOf digits) (front.headD 0#8)).length then failed .capacity else r)
      s Q := by
  have run : s.bz.runLength = some (runLengthOf digits) := by rw [h.bz]; rfl
  rw [flushRun]
  simp only [bind_assoc]
  refine .get (.need run (appendRun_readsAs hsize hvalues hne h hfits fun t hbz hht hlist hstream => .modify ?_))
  refine next _ ⟨?_, hht.trans h.tables, hlist ▸ h.list⟩ hstream
  show ({ t.bz with runLength := some 0, runWeight := some 1 } : Bz) = _
  rw [hbz, h.bz]
  rfl

/-- A literal (R302). -/
theorem literalSymbol_readsAs (hv : values.Nodup) (hfits : block.length ≤ size) {sym : Nat}
    (hsym : sym - 1 < values.length)
    (next : ∀ t, InBody z ht values (front.getD (sym - 1) 0#8 :: front.erase (front.getD (sym - 1) 0#8))
        (block ++ List.replicate (runLengthOf digits) (front.headD 0#8) ++ [front.getD (sym - 1) 0#8]) [] t →
      (block ++ List.replicate (runLengthOf digits) (front.headD 0#8)).length + 1 ≤ size →
      t.bitStream = s.bitStream → ReadsAs m r t Q) :
    ReadsAs (literalSymbol sym >>= fun _ => m)
      (if size < (block ++ List.replicate (runLengthOf digits) (front.headD 0#8)).length then failed .capacity
        else if size < (block ++ List.replicate (runLengthOf digits) (front.headD 0#8)).length + 1 then failed .capacity
        else r) s Q := by
  rw [literalSymbol]
  simp only [bind_assoc]
  refine flushRun_readsAs hsize hvalues hne h hfits fun t ht' hstream => ?_
  obtain ⟨hbz, htables, idx, hidx, hfront⟩ := ht'
  have inside : sym - 1 < idx.length := by rwa [hfront.length]
  refine mtfAccess_readsAs (l := .data) hidx (hfront.perm.nodup_iff.2 List.nodup_range) inside (.get ?_)
  refine .need (c := block ++ List.replicate (runLengthOf digits) (front.headD 0#8)) (congrArg Bz.blk hbz)
    (checkCapacity_readsAs ((congrArg Bz.blockSize hbz).trans hsize) fun hroom => ?_)
  refine .need ((congrArg Bz.values hbz).trans hvalues) (.need (hfront.place inside) (.modify ?_))
  refine next _ ⟨?_, htables, _, rfl, hfront.access hv inside⟩ hroom hstream
  show ({ t.bz with blk := _ } : Bz) = _
  rw [hbz]
  rfl

end Steps

/-! ## The body -/

/-- A symbol takes a bit. -/
theorem symbolField_shorter {es : List HufEntry} {bits rest : List Bool} {sym : Word}
    (h : symbolField es bits = .ok (sym, rest)) : rest.length < bits.length := by
  rw [symbolField] at h
  split at h
  · cases h
  · next sym' k hw =>
    cases h
    have := walkBits_le hw
    have := (walkBits_ok hw).1
    rw [List.length_drop]
    omega

section Body

variable {z : Bz} {ht : Vector (Option Table) 16} {size : Nat} {values : List Byte} (hsize : z.blockSize = some size)
  (hvalues : z.values = some values) (hne : values ≠ []) (hv : values.Nodup)

/-- The body has ended with these bytes. -/
def BodyDone (z : Bz) (ht : Vector (Option Table) 16) (_ : Unit) (block : List Byte) (t : State) : Prop :=
  t.bz = z.inBody block [] ∧ t.ht = ht

variable {front block : List Byte} {digits : List Bool} {s : State}

include hsize hvalues hne hv

/-- One symbol of the body, from the slot that serves it. -/
theorem bodyTurn_readsAs {slot : Fin 16} {es : List HufEntry} (hslot : ht[slot] = some (tableOf es))
    (built : Built (values.length + 2) es) (hfits : block.length ≤ size) (h : InBody z ht values front block digits s)
    {next : M Unit} {tables : List (List HufEntry)}
    (hnext : ∀ front block digits t, block.length ≤ size → InBody z ht values front block digits t →
      t.bitStream.length < s.bitStream.length →
      ReadsAs (next >>= fun _ => flushRun) (bodyField size (values.length + 1) tables front block digits) t
        (BodyDone z ht)) :
    ReadsAs ((do
        let sym ← Machine.hufDecode slot .group8
        if sym.toNat = values.length + 2 - 1 then pure ()
        else
          bodySymbol sym.toNat
          next) >>= fun _ => flushRun)
      (bodyField size (values.length + 1) (es :: tables) front block digits) s (BodyDone z ht) := by
  rw [bodyField]
  simp only [bind_assoc]
  refine (hufDecode_readsAs ((congrArg (fun k => k[slot]) h.tables).trans hslot) built.lawful (tableOf_perm es)).bind
    fun sym _ t read post => ?_
  obtain ⟨rfl, ⟨e, he, rfl⟩, hscratch⟩ := post
  have shorter := symbolField_shorter read
  have inBody := h.of_scratch hscratch
  have small := built.symbols e he
  by_cases hrun : e.sym.toNat < 2
  · have goesOn : e.sym.toNat ≠ values.length + 2 - 1 := by
      have := List.length_pos_iff.2 hne
      omega
    rw [if_pos hrun, if_neg goesOn, bodySymbol, if_pos hrun]
    simp only [bind_assoc]
    exact runSymbol_readsAs hsize inBody hrun fun u hu hstream => hnext _ _ _ u hfits hu (hstream ▸ shorter)
  rw [if_neg hrun]
  by_cases hend : e.sym.toNat = values.length + 1
  · rw [if_pos hend, if_pos (show _ = values.length + 2 - 1 from hend), pure_bind,
      ← show (flushRun >>= fun _ => pure ()) = flushRun from bind_pure flushRun]
    exact flushRun_readsAs hsize hvalues hne inBody hfits fun u hu _ => .pure ⟨hu.bz, hu.tables⟩
  · rw [if_neg hend, if_neg (show _ ≠ values.length + 2 - 1 from hend), bodySymbol, if_neg hrun]
    simp only [bind_assoc]
    refine literalSymbol_readsAs hsize hvalues hne inBody hv hfits (by omega) fun u hu hroom hstream => ?_
    exact hnext _ _ _ u (by rwa [List.length_append, List.length_singleton]) hu (hstream ▸ shorter)

/-- The tables that serve the symbols still allowed: `left` more from the one in use, and 50 from each selector. -/
def tablesLeft (tables : List (List HufEntry)) (sels : List Nat) (tbl left : Nat) : List (List HufEntry) :=
  List.replicate left (tables.getD tbl []) ++ sels.flatMap fun g => List.replicate 50 (tables.getD g [])

/-- The body and the run before its end. -/
theorem readBody_readsAs {tables : List (List HufEntry)} (hslots : ∀ g, g < tables.length →
      ht[groupSlot g] = some (tableOf (tables.getD g [])))
    (built : ∀ g, g < tables.length → Built (values.length + 2) (tables.getD g [])) {turns : Nat} {sels : List Nat}
    {tbl left : Nat} (hturns : s.bitStream.length < turns) (hsels : ∀ g ∈ sels, g < tables.length)
    (htbl : left = 0 ∨ tbl < tables.length) (hfits : block.length ≤ size)
    (h : InBody z ht values front block digits s) :
    ReadsAs (readBody (values.length + 2) turns sels tbl left >>= fun _ => flushRun)
      (bodyField size (values.length + 1) (tablesLeft tables sels tbl left) front block digits) s (BodyDone z ht) := by
  induction turns generalizing s sels tbl left front block digits with
  | zero => exact absurd hturns (Nat.not_lt_zero _)
  | succ turns ih =>
    match left, sels with
    | 0, [] => exact .raise .index
    | 0, g :: rest =>
      obtain ⟨hg, hrest⟩ := List.forall_mem_cons.1 hsels
      exact bodyTurn_readsAs hsize hvalues hne hv (hslots g hg) (built g hg) hfits h
        (tables := tablesLeft tables rest g 49) fun front block digits t hfits ht shorter =>
          ih (by omega) hrest (.inr hg) hfits ht
    | left + 1, sels =>
      have hin := htbl.resolve_left (Nat.succ_ne_zero left)
      exact bodyTurn_readsAs hsize hvalues hne hv (hslots tbl hin) (built tbl hin) hfits h
        (tables := tablesLeft tables sels tbl left) fun front block digits t hfits ht shorter =>
          ih (by omega) hsels (.inr hin) hfits ht

end Body

end Sys2Proof.Machine
end

section
/-! SUPPORT. A whole block (spec/45_bzp2.md R296): its header, its tables, its body, and what BZ.BLOCK keeps of it. -/

namespace Sys2Proof.Machine

/-! ## The header -/

/-- What the header of a block names. -/
structure BlockHeader where
  randomised : Nat
  origPtr : Nat
  values : List Byte
  nGroups : Nat
  nSelectors : Nat
  selectors : List Nat

/-- The header of a block. -/
def headerFields : Reading BlockHeader := do
  let _ ← fixedField 32
  let randomised ← fixedField 1
  let origPtr ← fixedField 24
  let used ← bitsField 16
  let values ← detailFields (markedPlaces used)
  if values = [] then failed .header
  else
    let nGroups ← fixedField 3
    if nGroups < 2 ∨ 6 < nGroups then failed .header
    else
      let nSelectors ← fixedField 15
      if nSelectors = 0 then failed .header
      else
        let selectors ← selectorFields nGroups nSelectors [0, 1, 2, 3, 4, 5]
        pure ⟨randomised, origPtr, values, nGroups, nSelectors, selectors⟩

/-- A block behind its header. -/
def restFields (c : Config) (size : Nat) (h : BlockHeader) : Reading BlockFields := do
  let tables ← fieldsOf (groupField c (h.values.length + 2)) h.nGroups
  let block ← bodyField size (h.values.length + 1)
    (h.selectors.flatMap fun g => List.replicate 50 (tables.getD g [])) h.values [] []
  if block ≠ [] ∧ block.length ≤ h.origPtr then failed .index
  else
    pure
      { randomised := h.randomised == 1, origPtr := BitVec.ofNat 24 h.origPtr, values := h.values,
        nSelectors := h.nSelectors, selectors := h.selectors, tables := tables, block := block }

theorem failed_bind {α β : Type} (c : Cause) (f : α → Reading β) : (failed c >>= f) = failed c := rfl

theorem ite_bind {α β : Type} (p : Prop) [Decidable p] (x y : Reading α) (f : α → Reading β) :
    ((if p then x else y) >>= f) = if p then x >>= f else y >>= f := by
  split <;> rfl

theorem blockFields_eq (c : Config) (size : Nat) : blockFields c size = headerFields >>= restFields c size := by
  simp only [headerFields, bind_assoc, ite_bind, failed_bind, pure_bind]
  rfl

/-- A header that a block may have. -/
structure BlockHeader.Lawful (h : BlockHeader) : Prop where
  nonempty : h.values ≠ []
  nodup : h.values.Nodup
  few : h.values.length ≤ 256
  groups : h.nGroups ≤ 6
  selectors : ∀ g ∈ h.selectors, g < h.nGroups
  origPtr : h.origPtr < 2 ^ 24

/-- The registers of the pipeline behind a header. -/
def Bz.withHeader (z : Bz) (h : BlockHeader) : Bz :=
  { z with
    randomised := some (h.randomised == 1), origPtr := some (BitVec.ofNat 24 h.origPtr), values := some h.values,
    nGroups := some h.nGroups, nSelectors := some h.nSelectors, selectors := some h.selectors }

section Block

variable {c : Config} {s : State} {size : Nat}

/-- A list is set to the identity, before the rest. -/
theorem mtfInit_readsAs {α β : Type} {l : MtfStore} {n : Nat} {m : M α} {r : Reading β} {Q : α → β → State → Prop}
    (hn : n ≤ 256) (h : ReadsAs m r (withMtf l (List.range n) s) Q) : ReadsAs (mtfInit l n >>= fun _ => m) r s Q := by
  have run := mtfInit_eq l n s
  rw [if_neg (Nat.not_lt.2 hn)] at run
  refine .of_eq (bind_of_ok run) ?_ h
  cases l <;> exact ⟨rfl, rfl, rfl, rfl, rfl⟩

theorem readBlockHeader_readsAs (h : s.ht[selectorSlot] = some selectorTable) :
    ReadsAs readBlockHeader headerFields s fun nItems b t =>
      nItems = b.values.length + 2 ∧ b.Lawful ∧ t.bz = s.bz.withHeader b ∧ t.ht = s.ht := by
  rw [readBlockHeader, readSymbolMap, headerFields]
  simp only [bind_assoc]
  refine (rd_readsAs_fixed (by decide)).bind fun _ _ t₁ _ post => ?_
  obtain ⟨-, -, h₁⟩ := post
  refine (rd_readsAs_fixed (by decide)).bind fun randomised _ t₂ _ post => .modify ?_
  obtain ⟨rfl, -, h₂⟩ := post
  refine (rd_readsAs_fixed (by decide)).bind fun origPtr _ t₃ _ post => .modify ?_
  obtain ⟨rfl, hptr, h₃⟩ := post
  refine (rd_readsAs (by decide)).bind fun _ used t₄ _ post => ?_
  obtain ⟨rfl, hused, h₄⟩ := post
  rw [← markedFrom_all]
  refine (readDetails_readsAs hused le_rfl t₄).bind fun values _ t₅ _ post => .modify ?_
  obtain ⟨rfl, ascending, h₅⟩ := post
  by_cases hempty : values = []
  · rw [if_pos hempty, if_pos (List.length_eq_zero_iff.2 hempty)]
    exact .raise .header
  rw [if_neg hempty, if_neg (mt List.length_eq_zero_iff.1 hempty)]
  refine (rd_readsAs_fixed (by decide)).bind fun nGroups _ t₆ _ post => .modify ?_
  obtain ⟨rfl, -, h₆⟩ := post
  by_cases hgroups : nGroups < 2 ∨ 6 < nGroups
  · rw [if_pos hgroups, if_pos hgroups]
    exact .raise .header
  rw [if_neg hgroups, if_neg hgroups]
  refine (rd_readsAs_fixed (by decide)).bind fun nSelectors _ t₇ _ post => .modify ?_
  obtain ⟨rfl, -, h₇⟩ := post
  by_cases hzero : nSelectors = 0
  · rw [if_pos hzero, if_pos hzero]
    exact .raise .header
  rw [if_neg hzero, if_neg hzero]
  simp only [State.scratch, Scratch.mk.injEq] at h₁ h₂ h₃ h₄ h₅ h₆ h₇
  have slots : t₇.ht = s.ht := by simp only [h₇, h₆, h₅, h₄, h₃, h₂, h₁]
  refine mtfInit_readsAs (l := .selectors) (by decide) ?_
  refine (readSelectors_readsAs nGroups (front := [0, 1, 2, 3, 4, 5]) (by exact slots ▸ h) (.refl _) rfl).bind
    fun selectors _ t₈ _ post => .modify (.pure ?_)
  obtain ⟨rfl, hselectors, hbz, hht⟩ := post
  have small : nGroups ≤ 6 := by omega
  refine ⟨rfl, ⟨hempty, ascending.nodup, ascending.length_le, small, hselectors, hptr⟩, ?_, hht.trans slots⟩
  simp only [hbz, withMtf, h₇, h₆, h₅, h₄, h₃, h₂, h₁, Bz.withHeader]

/-! ## The block -/

/-- What BZ.BLOCK keeps of a block. -/
structure BlockRead (b : BlockFields) (s t : State) : Prop where
  blk : t.bz.blk = some b.block
  randomised : t.bz.randomised = some b.randomised
  origPtr : t.bz.origPtr = some b.origPtr
  values : t.bz.values = some b.values
  nGroups : t.bz.nGroups = some b.tables.length
  nSelectors : t.bz.nSelectors = some b.nSelectors
  selectors : t.bz.selectors = some b.selectors
  crc : t.bz.crc = s.bz.crc
  blockSize : t.bz.blockSize = s.bz.blockSize
  slots : GroupSlots 0 b.tables s t

theorem slot_of_groupSlots {tables : List (List HufEntry)} {t : State} (h : GroupSlots 0 tables s t)
    (hfew : tables.length ≤ 6) {g : Nat} (hg : g < tables.length) :
    t.ht[groupSlot g] = some (tableOf (tables.getD g [])) := by
  have slot : (groupSlot g).val = g := Nat.mod_eq_of_lt (by omega)
  rw [h, slot, if_neg (Nat.not_lt_zero g), Nat.sub_zero, List.getElem?_eq_getElem hg, List.getD_eq_getElem _ _ hg]
  rfl

/-- A block is read. -/
theorem readBlock_readsAs (hselector : s.ht[selectorSlot] = some selectorTable)
    (hdelta : s.ht[deltaSlot] = some deltaTable) (hsize : s.bz.blockSize = some size) :
    ReadsAs (readBlock c) (blockFields c size) s fun _ b t => BlockRead b s t := by
  rw [blockFields_eq, readBlock]
  refine (readBlockHeader_readsAs hselector).bind fun _ b t _ post => .get ?_
  obtain ⟨rfl, lawful, hbz, hht⟩ := post
  have few := lawful.few
  refine .need (c := b.nGroups) (by rw [hbz]; rfl) ?_
  rw [restFields]
  refine (readGroups_readsAs (by omega) ((Nat.zero_add _).trans_le lawful.groups) (by rw [hht]; exact hdelta)).bind
    fun _ tables u _ post => ?_
  obtain ⟨hlen, hbuilt, hbz', hslots⟩ := post
  have groups := lawful.groups
  replace hbz := hbz'.trans hbz
  have slots : GroupSlots 0 tables s u := fun g => by rw [hslots g, hht]
  refine mtfInit_readsAs (l := .data) few (.get ?_)
  refine .need (c := size) (by rw [withMtf, hbz]; exact hsize) (.modify (.get ?_))
  refine .need (c := b.selectors) (by rw [withMtf, hbz]; rfl) ?_
  rw [← bind_assoc]
  refine (readBody_readsAs (z := s.bz.withHeader b) (ht := u.ht) hsize rfl lawful.nonempty lawful.nodup
    (fun g hg => slot_of_groupSlots slots (by omega) hg)
    (fun g hg => hbuilt _ (List.getD_eq_getElem _ _ hg ▸ List.getElem_mem hg))
    (Nat.lt_succ_of_le (bitStream_length_le _)) (fun g hg => hlen ▸ lawful.selectors g hg) (.inl rfl) (Nat.zero_le _) ?_).bind fun _ block v _ post => .get ?_
  · refine ⟨?_, rfl, _, rfl, frontOf_start _⟩
    show ({ u.bz with blk := some [], runLength := some 0, runWeight := some 1 } : Bz) = _
    rw [hbz]
    rfl
  obtain ⟨hbz', hht'⟩ := post
  refine .need (c := block) (by rw [hbz']; rfl) (.need (c := BitVec.ofNat 24 b.origPtr) (by rw [hbz']; rfl) ?_)
  have pointer : (BitVec.ofNat 24 b.origPtr).toNat = b.origPtr := Nat.mod_eq_of_lt lawful.origPtr
  rw [pointer]
  by_cases hout : block ≠ [] ∧ block.length ≤ b.origPtr
  · rw [if_pos hout, if_pos (by rwa [gt_iff_lt, List.length_pos_iff])]
    exact .raise .index
  · rw [if_neg hout, if_neg (by rwa [gt_iff_lt, List.length_pos_iff])]
    refine .pure ?_
    constructor
    case slots => exact fun g => by rw [hht']; exact slots g
    all_goals rw [hbz']
    case nGroups => exact congrArg some hlen.symm
    all_goals rfl

/-- Behind its marker a block is read. -/
theorem bzBlock_of_marker {bits : List Bool} (hs : Readable s) (hstream : s.bitStream = bitsOf 48 bzBlockMagic ++ bits)
    (hselector : s.ht[selectorSlot] = some selectorTable) (hdelta : s.ht[deltaSlot] = some deltaTable)
    (hsize : s.bz.blockSize = some size) :
    (∀ e, blockFields c size bits = .error e → Raises (bzBlock c) s e) ∧
      ∀ b rest, blockFields c size bits = .ok (b, rest) →
        ∃ t k, bzBlock c s = .ok true t ∧ ReadOn k s t ∧ t.bitStream = rest ∧ BlockRead b s t := by
  have marker : (bitsOf 48 bzBlockMagic).length = 48 := bitsOf_length ..
  have can : s.CanRead .group8 48 := (canRead_group8 hs.isSet).2 (by rw [hstream, List.length_append, marker]; omega)
  have run := bzBlock_marker c can
  rw [hstream, List.take_left' marker, bitsValue_bitsOf, show bzBlockMagic % 2 ^ 48 = bzBlockMagic from rfl,
    markerOn_block] at run
  have on := readOn_afterBits can
  have behind : (s.afterBits .group8 48).bitStream = bits := by rw [on.bitStream, hstream, List.drop_left' marker]
  have scratch := scratch_of_changes (afterBits_changes .group8 48 s)
  have bz : (s.afterBits .group8 48).bz = s.bz := congrArg Scratch.bz scratch
  have ht : (s.afterBits .group8 48).ht = s.ht := congrArg Scratch.ht scratch
  have reads := readBlock_readsAs (c := c) (s := s.afterBits .group8 48) (size := size) (by rw [ht]; exact hselector)
    (by rw [ht]; exact hdelta) (by rw [bz]; exact hsize)
  refine ⟨fun e he => .congr run (.bind (reads.raises (on.readable hs) (behind ▸ he))), fun b rest hb => ?_⟩
  obtain ⟨_, t, k, block, on', hrest, post⟩ := reads.takes (on.readable hs) (behind ▸ hb)
  refine ⟨t, 48 + k, run.trans (bind_of_ok block), on.trans on', hrest,
    { post with crc := ?_, blockSize := ?_, slots := ?_ }⟩
  · exact post.crc.trans (congrArg Bz.crc bz)
  · exact post.blockSize.trans (congrArg Bz.blockSize bz)
  · exact fun g => by rw [post.slots g, ht]

end Block

/-- BZ.BLOCK delivers 1 for a block. -/
theorem exec_bzBlock_of_ok {s t : State} (hs : s.Ready) (h : bzBlock Config.core (beginCommand s) = .ok true t) :
    exec .bzBlock s = .next (endCommand { t with res0 := some 1#32 }) ∧
      Changes [.block, .tables, .lists, .lengths, .reader, .result] s (endCommand { t with res0 := some 1#32 }) :=
  exec_body (i := .bzBlock) hs ((bind_of_ok h).trans rfl)

end Sys2Proof.Machine
end

section
/-! SUPPORT. A block over one byte value (spec/45_bzp2.md R302): what its bit string reads as. -/

namespace Sys2Proof.Machine

/-! ## Fields that stand at the front of a bit string -/

theorem bitsField_append {w : Nat} {bits : List Bool} (h : bits.length = w) (rest : List Bool) :
    bitsField w (bits ++ rest) = .ok (bits, rest) := by
  rw [bitsField, if_neg (by rw [List.length_append]; omega), List.take_left' h, List.drop_left' h]

theorem fixedField_bitsOf {w n : Nat} (h : n < 2 ^ w) (rest : List Bool) :
    fixedField w (bitsOf w n ++ rest) = .ok (n, rest) := by
  rw [fixedField_eq, Reading.bind_of_ok (bitsField_append (bitsOf_length ..) rest), bitsValue_bitsOf,
    Nat.mod_eq_of_lt h]
  rfl

/-- The map in which one place is marked. -/
theorem markedPlaces_bitsOf : ∀ k < 16, markedPlaces (bitsOf 16 (2 ^ (15 - k))) = [k] := by
  decide

theorem truncByte_halves (v : Byte) : truncByte (16 * (v.toNat / 16) + v.toNat % 16) = v := by
  rw [Nat.div_add_mod, truncByte_toNat]

/-! ## The header and the tables -/

/-- The bits of such a block's body. -/
def runBodyBits (digits : List Bool) : List Bool := (digits.flatMap fun d => [false, d]) ++ [true, false]

/-- The bits of such a block behind its header. -/
def runTableBits (digits : List Bool) : List Bool :=
  bitsOf 5 2 ++ [false, false, false] ++ bitsOf 5 2 ++ [false, false, false] ++ runBodyBits digits

/-- The bits of such a block behind its marker. -/
def runFieldBits (crc : Word) (randomised : Bool) (origPtr : BitVec 24) (v : Byte) (digits : List Bool) : List Bool :=
  bitsOf 32 crc.toNat ++ (bitsOf 1 randomised.toNat ++ (bitsOf 24 origPtr.toNat ++
    (bitsOf 16 (2 ^ (15 - v.toNat / 16)) ++ (bitsOf 16 (2 ^ (15 - v.toNat % 16)) ++
      (bitsOf 3 2 ++ (bitsOf 15 1 ++ (false :: runTableBits digits)))))))

theorem runBlockBits_eq (crc : Word) (randomised : Bool) (origPtr : BitVec 24) (v : Byte) (digits : List Bool) :
    runBlockBits crc randomised origPtr v digits =
      bitsOf 48 bzBlockMagic ++ runFieldBits crc randomised origPtr v digits := by
  have flag : bitsOf 1 randomised.toNat = [randomised] := by cases randomised <;> rfl
  simp only [runBlockBits, runFieldBits, runTableBits, runBodyBits, flag, List.append_assoc, List.cons_append,
    List.nil_append]

theorem headerFields_run (crc : Word) (randomised : Bool) (origPtr : BitVec 24) (v : Byte) (digits rest : List Bool) :
    headerFields (runFieldBits crc randomised origPtr v digits ++ rest) =
      .ok (⟨randomised.toNat, origPtr.toNat, [v], 2, 1, [0]⟩, runTableBits digits ++ rest) := by
  have flag : randomised.toNat < 2 ^ 1 := by cases randomised <;> decide
  simp only [runFieldBits, List.append_assoc, List.cons_append]
  rw [headerFields, Reading.bind_of_ok (fixedField_bitsOf crc.isLt _), Reading.bind_of_ok (fixedField_bitsOf flag _),
    Reading.bind_of_ok (fixedField_bitsOf origPtr.isLt _),
    Reading.bind_of_ok (bitsField_append (bitsOf_length 16 _) _), markedPlaces_bitsOf _ (by have := v.isLt; omega)]
  have values (bits : List Bool) :
      detailFields [v.toNat / 16] (bitsOf 16 (2 ^ (15 - v.toNat % 16)) ++ bits) = .ok ([v], bits) := by
    rw [detailFields, Reading.bind_of_ok (bitsField_append (bitsOf_length 16 _) _), markedPlaces_bitsOf _ (by omega)]
    show Except.ok ([truncByte _], bits) = _
    rw [truncByte_halves]
  rw [Reading.bind_of_ok (values _), if_neg (List.cons_ne_nil v []),
    Reading.bind_of_ok (fixedField_bitsOf (by decide) _), if_neg (by decide),
    Reading.bind_of_ok (fixedField_bitsOf (by decide) _), if_neg (by decide)]
  rfl

theorem canonicalCodes_run : canonicalCodes [2, 2, 2] = some runBlockTable := by
  decide

theorem groupField_run (c : Config) (rest : List Bool) :
    groupField c 3 (bitsOf 5 2 ++ (false :: false :: false :: rest)) =
      if tooManyNodes c runBlockTable then .error .capacity else .ok (runBlockTable, rest) := by
  rw [groupField, Reading.bind_of_ok (fixedField_bitsOf (by decide) _)]
  show builtTable c [2, 2, 2] rest = _
  rw [builtTable, canonicalCodes_run]
  dsimp only
  split <;> rfl

theorem fieldsOf_groupField_run (c : Config) (digits rest : List Bool) :
    fieldsOf (groupField c 3) 2 (runTableBits digits ++ rest) =
      if tooManyNodes c runBlockTable then .error .capacity
      else .ok ([runBlockTable, runBlockTable], runBodyBits digits ++ rest) := by
  have table (rest : List Bool) := groupField_run c rest
  simp only [runTableBits, List.append_assoc, List.cons_append, List.nil_append, fieldsOf, bind_assoc, pure_bind]
  split
  · next hmany =>
    simp only [if_pos hmany] at table
    rw [Reading.bind_of_error (table _)]
  · next hfew =>
    simp only [if_neg hfew] at table
    rw [Reading.bind_of_ok (table _), Reading.bind_of_ok (table _)]
    rfl

/-! ## The body -/

/-- A walk whose second bit completes a path. -/
theorem walkBits_second {es : List HufEntry} {a b : Bool} {e : HufEntry} (hne : es ≠ [])
    (first : entryAt es [a] 1 = none) (second : entryAt es [a, b] 2 = some e) (rest : List Bool) :
    walkBits es (a :: b :: rest) = .ok (e.sym, e.len) := by
  rw [walkBits, if_neg (by simpa using hne), List.length_cons, List.length_cons, List.range_succ_eq_map,
    List.range_succ_eq_map, List.findSome?_cons, show entryAt es (a :: b :: rest) (0 + 1) = none from first]
  dsimp only
  rw [List.map_cons, List.findSome?_cons, show entryAt es (a :: b :: rest) (Nat.succ 0 + 1) = some e from second]

/-- A run digit is 00 or 01. -/
theorem symbolField_digit (d : Bool) (rest : List Bool) :
    symbolField runBlockTable (false :: d :: rest) = .ok (BitVec.ofNat 32 d.toNat, rest) := by
  cases d
  · exact symbolField_of_ok (walkBits_second (e := ⟨2, 0b00, 0#32⟩) (by decide) (by decide) (by decide) rest)
  · exact symbolField_of_ok (walkBits_second (e := ⟨2, 0b01, 1#32⟩) (by decide) (by decide) (by decide) rest)

/-- The end symbol is 10. -/
theorem symbolField_end (rest : List Bool) :
    symbolField runBlockTable (true :: false :: rest) = .ok (2#32, rest) :=
  symbolField_of_ok (walkBits_second (e := ⟨2, 0b10, 2#32⟩) (by decide) (by decide) (by decide) rest)

theorem runLengthOf_le_append (digits more : List Bool) : runLengthOf digits ≤ runLengthOf (digits ++ more) := by
  induction digits with
  | nil => exact Nat.zero_le _
  | cons d digits ih =>
    rw [List.cons_append, runLengthOf, runLengthOf]
    omega

/-- The run digits after some, and the end symbol. -/
theorem bodyField_run (size : Nat) (v : Byte) (digits : List Bool) {before : List Bool} {left : Nat}
    (h : digits.length < left) (rest : List Bool) :
    bodyField size 2 (List.replicate left runBlockTable) [v] [] before (runBodyBits digits ++ rest) =
      if size < runLengthOf (before ++ digits) then .error .capacity
      else .ok (List.replicate (runLengthOf (before ++ digits)) v, rest) := by
  induction digits generalizing before left with
  | nil =>
    obtain ⟨left, rfl⟩ := Nat.exists_eq_succ_of_ne_zero (Nat.ne_of_gt h)
    rw [List.replicate_succ, bodyField, List.append_nil,
      show runBodyBits [] ++ rest = true :: false :: rest from rfl, Reading.bind_of_ok (symbolField_end rest)]
    show (if size < ([] ++ List.replicate (runLengthOf before) v).length then failed .capacity
      else pure ([] ++ List.replicate (runLengthOf before) v) : Reading (List Byte)) rest = _
    rw [List.nil_append, List.length_replicate]
    split <;> rfl
  | cons d digits ih =>
    obtain ⟨left, rfl⟩ := Nat.exists_eq_succ_of_ne_zero (Nat.ne_of_gt (Nat.zero_lt_of_lt h))
    have digit : (BitVec.ofNat 32 d.toNat).toNat < 2 ∧ ((BitVec.ofNat 32 d.toNat).toNat == 1) = d := by
      cases d <;> decide
    have next := ih (before := before ++ [d]) (Nat.lt_of_succ_lt_succ h)
    rw [List.append_assoc, List.singleton_append] at next
    have grows := runLengthOf_le_append (before ++ [d]) digits
    rw [List.append_assoc, List.singleton_append] at grows
    rw [List.replicate_succ, bodyField,
      show runBodyBits (d :: digits) ++ rest = false :: d :: (runBodyBits digits ++ rest) from rfl, Reading.bind_of_ok (symbolField_digit d _)]
    dsimp only
    rw [if_pos digit.1, digit.2]
    split
    · next hover => exact (if_pos (hover.trans_le grows)).symm
    · exact next

/-! ## The block -/

/-- What is kept of such a block. -/
def runBlockFields (randomised : Bool) (origPtr : BitVec 24) (v : Byte) (digits : List Bool) : BlockFields where
  randomised := randomised
  origPtr := origPtr
  values := [v]
  nSelectors := 1
  selectors := [0]
  tables := [runBlockTable, runBlockTable]
  block := List.replicate (runLengthOf digits) v

/-- A block over one byte value fills BLK as its digits say. -/
theorem blockFields_run (c : Config) (size : Nat) (crc : Word) (randomised : Bool) {origPtr : BitVec 24} (v : Byte)
    {digits : List Bool} (hfew : digits.length ≤ 49)
    (hptr : runLengthOf digits = 0 ∨ origPtr.toNat < runLengthOf digits) (rest : List Bool) :
    blockFields c size (runFieldBits crc randomised origPtr v digits ++ rest) =
      if tooManyNodes c runBlockTable then .error .capacity
      else if size < runLengthOf digits then .error .capacity
      else .ok (runBlockFields randomised origPtr v digits, rest) := by
  rw [blockFields_eq, Reading.bind_of_ok (headerFields_run ..), restFields]
  have tables := fieldsOf_groupField_run c digits rest
  split
  · next hmany =>
    rw [if_pos hmany] at tables
    exact Reading.bind_of_error tables
  next hsmall =>
  rw [if_neg hsmall] at tables
  have body := bodyField_run size v digits (before := []) (left := 50) (by omega) rest
  rw [Reading.bind_of_ok
    (show fieldsOf (groupField c ([v].length + 2)) 2 (runTableBits digits ++ rest) = _ from tables)]
  split
  · next hover =>
    exact Reading.bind_of_error (body.trans (if_pos hover))
  next hfits =>
  refine (Reading.bind_of_ok (body.trans (if_neg hfits))).trans ?_
  have inside : ¬ (List.replicate (runLengthOf digits) v ≠ [] ∧
      (List.replicate (runLengthOf digits) v).length ≤ origPtr.toNat) := by
    rw [ne_eq, List.replicate_eq_nil_iff, List.length_replicate]
    omega
  dsimp only [List.nil_append]
  rw [if_neg inside, show (randomised.toNat == 1) = randomised by cases randomised <;> rfl, BitVec.ofNat_toNat,
    BitVec.setWidth_eq]
  rfl

theorem tableOf_runBlockTable : tableOf runBlockTable = runBlockTable := by
  decide

/-- What BZ.BLOCK leaves of such a block, `n` bits of which it takes. -/
def RunBlockKept (randomised : Bool) (origPtr : BitVec 24) (v : Byte) (digits : List Bool) (size n : Nat)
    (s t : State) : Prop :=
  Changes [.block, .tables, .lists, .lengths, .reader, .result] s t ∧ t.res0 = some 1#32 ∧
    t.bz.blk = some (List.replicate (runLengthOf digits) v) ∧ t.bz.randomised = some randomised ∧
    t.bz.origPtr = some origPtr ∧ t.bz.values = some [v] ∧ t.bz.nGroups = some 2 ∧ t.bz.nSelectors = some 1 ∧
    t.bz.selectors = some [0] ∧ t.bz.crc = s.bz.crc ∧ t.bz.blockSize = some size ∧
    t.ht[0] = some runBlockTable ∧ t.ht[1] = some runBlockTable ∧
    t.fcur = (s.afterBits .group8 n).fcur ∧ t.bitsCnt = (s.afterBits .group8 n).bitsCnt

section Kept

variable {s : State} {randomised : Bool} {origPtr : BitVec 24} {v : Byte} {digits : List Bool} {size : Nat}

/-- Some state holds this, also where the block is too long for the core. -/
theorem exists_runBlockKept (hsize : s.bz.blockSize = some size) (n : Nat) :
    ∃ t, RunBlockKept randomised origPtr v digits size n s t := by
  refine ⟨{ s.afterBits .group8 n with
    res0 := some 1#32
    ht := (s.ht.set 0 (some runBlockTable)).set 1 (some runBlockTable)
    bz := { s.bz with
      blk := some (List.replicate (runLengthOf digits) v), randomised := some randomised, origPtr := some origPtr,
      values := some [v], nGroups := some 2, nSelectors := some 1, selectors := some [0] } },
    fun p hp => ?_, rfl, rfl, rfl, rfl, rfl, rfl, rfl, rfl, rfl, hsize, ?_, ?_, rfl, rfl⟩
  · have read := afterBits_changes .group8 n s p
    cases p with
    | block | tables | lists | lengths | reader | result => exact absurd (by decide) hp
    | _ => exact read (by decide)
  · exact (slot_set _ 1 0 _).trans ((if_neg (by decide)).trans ((slot_set _ 0 0 _).trans (if_pos rfl)))
  · exact (slot_set _ 1 1 _).trans (if_pos rfl)

theorem runBlockKept_of_read {t : State} {k n : Nat} {rest : List Bool} (hs : s.Ready)
    (hsize : s.bz.blockSize = some size) (run : bzBlock Config.core (beginCommand s) = .ok true t)
    (on : ReadOn k (beginCommand s) t) (hrest : t.bitStream = rest) (hlen : s.bitStream.length = n + rest.length)
    (h : BlockRead (runBlockFields randomised origPtr v digits) (beginCommand s) t) :
    RunBlockKept randomised origPtr v digits size n s (endCommand { t with res0 := some 1#32 }) := by
  have taken : k = n := by
    have long := (canRead_group8 on.can.1).1 on.can
    have left := congrArg List.length on.bitStream
    rw [hrest, List.length_drop] at left
    rw [show (beginCommand s).bitStream = s.bitStream from rfl] at long left
    omega
  have same := on.same
  rw [taken, afterBits_beginCommand] at same
  have slots : ∀ g : Fin 16, g.val < 2 → t.ht[g] = some runBlockTable := fun g hg => by
    have held : (runBlockFields randomised origPtr v digits).tables[g.val]? = some runBlockTable := by
      obtain h0 | h1 : g.val = 0 ∨ g.val = 1 := by omega
      · rw [h0]; rfl
      · rw [h1]; rfl
    rw [h.slots g, if_neg (Nat.not_lt_zero _), Nat.sub_zero, held, Option.map_some, tableOf_runBlockTable]
    rfl
  exact ⟨(exec_bzBlock_of_ok hs run).2, rfl, h.blk, h.randomised, h.origPtr, h.values, h.nGroups, h.nSelectors,
    h.selectors, h.crc, h.blockSize.trans hsize, slots 0 (by decide), slots 1 (by decide), same.fcur, same.bitsCnt⟩

end Kept

end Sys2Proof.Machine

open Sys2Proof Sys2Proof.Machine

/-- Settles O48: BZ.BLOCK reads as the reading of the block does, part by part; for a block over one byte value this reading
is worked out. -/
theorem bzRunBlock : Obligations.BzRunBlock := by
  refine ⟨fun s size bits hs hselector hdelta hsize hset whole hstream => ?_,
    fun s crc randomised origPtr v digits rest size hs hselector hdelta hsize hfew hptr hset whole hstream => ?_⟩
  · obtain ⟨raises, takes⟩ := bzBlock_of_marker (c := Config.core) (s := beginCommand s) ⟨hset, whole⟩ hstream
      hselector hdelta hsize
    split
    · next c hc => exact exec_corrupted hs (.bind (raises c hc))
    · next b rest hb =>
      obtain ⟨t, k, run, on, hrest, post⟩ := takes b rest hb
      obtain ⟨next, changes⟩ := exec_bzBlock_of_ok hs run
      refine ⟨_, next, changes, rfl, hrest, post.blk, post.randomised, post.origPtr, post.values, post.nGroups,
        post.nSelectors, post.selectors, post.crc, post.blockSize.trans hsize, fun g => ?_⟩
      have slot : t.ht[g] = ((b.tables[g.val]?).map tableOf).or s.ht[g] := by
        rw [post.slots g, if_neg (Nat.not_lt_zero _)]
        rfl
      split
      · next es hes =>
        rw [hes] at slot
        exact ⟨tableOf es, slot, fun x => (tableOf_perm es).mem_iff⟩
      · next hnone =>
        rw [hnone] at slot
        exact slot
  · have fields := blockFields_run Config.core size crc randomised v hfew hptr rest
    have hlen := congrArg List.length hstream
    rw [List.length_append] at hlen
    rw [runBlockBits_eq, List.append_assoc] at hstream
    obtain ⟨raises, takes⟩ := bzBlock_of_marker (c := Config.core) (s := beginCommand s) ⟨hset, whole⟩ hstream
      hselector hdelta hsize
    by_cases hmany : tooManyNodes Config.core runBlockTable
    · rw [if_pos hmany] at fields
      obtain ⟨t, kept⟩ := exists_runBlockKept hsize _
      exact ⟨t, by rw [if_pos hmany, exec_corrupted hs (.bind (raises _ fields))], kept⟩
    rw [if_neg hmany] at fields
    by_cases hover : size < runLengthOf digits
    · rw [if_pos hover] at fields
      obtain ⟨t, kept⟩ := exists_runBlockKept hsize _
      exact ⟨t, by rw [if_neg hmany, if_pos hover, exec_corrupted hs (.bind (raises _ fields))], kept⟩
    rw [if_neg hover] at fields
    obtain ⟨t, k, run, on, hrest, post⟩ := takes _ _ fields
    exact ⟨_, by rw [if_neg hmany, if_neg hover, (exec_bzBlock_of_ok hs run).1],
      runBlockKept_of_read hs hsize run on hrest hlen post⟩

end

section
/-! SUPPORT. A turn of DECOMPRESS.MASH (spec/46_lhlb_mash_rake.md R361 to R366): what a body reads from the stream and writes
behind the forward writer while it reads, and the match at the end of a turn. -/

namespace Sys2Proof.Machine

/-! ## Bodies that read and write -/

/-- What reads the stream is decided by the reader and the host. -/
theorem sameStream_of_changes {ps : List Part} {s t : State} (h : Changes ps s t) (hhost : Part.host ∉ ps)
    (hreader : Part.reader ∉ ps) : SameStream s t := by
  obtain ⟨hchunk, hrest⟩ := Prod.mk.inj (h .host hhost)
  obtain ⟨hlen, -⟩ := Prod.mk.inj hrest
  obtain ⟨hcur, hbuf⟩ := Prod.mk.inj (h .reader hreader)
  obtain ⟨hacc, hcnt⟩ := Prod.mk.inj hbuf
  exact ⟨hchunk.symm, hlen.symm, hcur.symm, hacc.symm, hcnt.symm⟩

/-- The stream is read up to `rest`, and these bytes are written inside the writer's span. -/
structure Emitted (f : Fwr) (bytes : List Byte) (rest : List Bool) (s t : State) : Prop where
  changes : Changes [.reader, .writer, .output] s t
  readable : Readable t
  stream : t.bitStream = rest
  room : f.pos.toNat + bytes.length ≤ f.stop.toNat
  wrote : WroteForward f bytes s t

section Emitted

variable {f : Fwr} {xs ys : List Byte} {rest rest' : List Bool} {s t u : State}

theorem Emitted.of_took (hf : s.fwr = some f) (hinside : f.pos.toNat ≤ f.stop.toNat) (took : Took rest s t) :
    Emitted f [] rest s t where
  changes := took.changes.mono (by decide)
  readable := took.readable
  stream := took.stream
  room := hinside
  wrote := by
    have hfwr : s.fwr = t.fwr := took.changes .writer (by decide)
    have hraw : s.raw = t.raw := took.changes .output (by decide)
    obtain ⟨writer, written, other⟩ := WroteForward.nil (hfwr.symm.trans hf)
    exact ⟨writer, written, fun k _ => by rw [hraw]⟩

theorem Emitted.of_wrote (hs : Readable s) (changes : Changes [.writer, .output] s t)
    (room : f.pos.toNat + xs.length ≤ f.stop.toNat) (wrote : WroteForward f xs s t) : Emitted f xs s.bitStream s t where
  changes := changes.mono (by decide)
  readable := (sameStream_of_changes changes (by decide) (by decide)).readable hs
  stream := bitStream_congr changes (by decide) (by decide)
  room := room
  wrote := wrote

theorem Emitted.trans (h : Emitted f xs rest s t) (h' : Emitted (f.after xs) ys rest' t u) :
    Emitted f (xs ++ ys) rest' s u := by
  have total : f.pos.toNat + (xs ++ ys).length ≤ f.stop.toNat := by
    have room := h'.room
    rwa [after_pos h.room, after_stop, Nat.add_assoc, ← List.length_append] at room
  exact ⟨h.changes.trans h'.changes, h'.readable, h'.stream, total, h.wrote.trans h'.wrote total⟩

theorem Emitted.nil_trans (h : Emitted f [] rest s t) (h' : Emitted f ys rest' t u) : Emitted f ys rest' s u := by
  rw [← after_nil f] at h'
  exact h.trans h'

theorem Emitted.trans_nil (h : Emitted f xs rest s t) (h' : Emitted (f.after xs) [] rest' t u) :
    Emitted f xs rest' s u := by
  simpa using h.trans h'

theorem Emitted.writer_of_nil (h : Emitted f [] rest s t) : t.fwr = some f :=
  h.wrote.writer.trans (congrArg some (after_nil f))

/-- What a copy can reach behind the bytes written. -/
theorem Emitted.reach (h : Emitted f xs rest s t) (hstart : f.start.toNat ≤ f.pos.toNat) {reach : List Byte}
    (hreach : memBytes s.raw f.start.toNat (f.pos.toNat - f.start.toNat) = some reach) :
    memBytes t.raw f.start.toNat ((f.after xs).pos.toNat - f.start.toNat) = some (reach ++ xs) := by
  have len := reach_length hreach
  obtain ⟨-, written, other⟩ := h.wrote
  rw [after_pos h.room]
  refine memBytes_eq_some.2 ⟨by rw [List.length_append]; omega, fun i hi => ?_⟩
  rcases Nat.lt_or_ge i reach.length with hlt | hge
  · rw [other _ (.inl (by omega)), memBytes_get hreach (by omega), List.getElem?_append_left hlt]
  · rw [List.getElem?_append_right hge, ← memBytes_get written (by omega)]
    congr 1
    omega

end Emitted

/-- From a state, a body reads what a reading of the stream says and writes meanwhile: it raises the cause of the failure,
or takes exactly those bits, and its answer and the bytes written are to the reading's value as `Q` says. -/
structure Emits {α β : Type} (m : M α) (r : Reading β) (f : Fwr) (s : State) (Q : β → α → List Byte → Prop) : Prop where
  raises : ∀ {c}, r s.bitStream = .error c → Raises m s c
  writes : ∀ {v rest}, r s.bitStream = .ok (v, rest) →
    ∃ a bytes t, m s = .ok a t ∧ Emitted f bytes rest s t ∧ Q v a bytes

section Emits

variable {α β γ δ : Type} {m : M α} {r : Reading β} {f : Fwr} {s t : State} {Q : β → α → List Byte → Prop}

theorem Emits.of_raises {c : Cause} (h : Raises m s c) : Emits m (failed c) f s Q where
  raises hr := by
    cases hr
    exact h
  writes hr := by cases hr

/-- A body that only writes. -/
theorem Emits.of_wrote {a : α} {v : β} {bytes : List Byte} (run : m s = .ok a t)
    (emitted : Emitted f bytes s.bitStream s t) (post : Q v a bytes) : Emits m (pure v) f s Q where
  raises h := by cases h
  writes h := by
    cases h
    exact ⟨a, bytes, t, run, emitted, post⟩

/-- A body that only reads. -/
theorem Emits.of_follows {r : Reading α} (h : Follows m r) (hs : Readable s) (hf : s.fwr = some f)
    (hinside : f.pos.toNat ≤ f.stop.toNat) : Emits m r f s fun v a bytes => a = v ∧ bytes = [] where
  raises hr := h.raises hs hr
  writes {v rest} hr := by
    obtain ⟨t, run, took⟩ := h.takes hs hr
    exact ⟨v, [], t, run, .of_took hf hinside took, rfl, rfl⟩

/-- One body after another: the second one writes behind the bytes of the first. -/
theorem Emits.bind {k : α → M γ} {g : β → Reading δ} {Q' : δ → γ → List Byte → Prop} (h : Emits m r f s Q)
    (hk : ∀ v a xs t, Emitted f xs t.bitStream s t → Q v a xs →
      Emits (k a) (g v) (f.after xs) t fun w b ys => Q' w b (xs ++ ys)) : Emits (m >>= k) (r >>= g) f s Q' where
  raises {c} hbits := by
    cases hr : r s.bitStream with
    | error c' =>
      rw [Reading.bind_of_error hr] at hbits
      cases hbits
      exact .bind (h.raises hr)
    | ok x =>
      rw [Reading.bind_of_ok hr] at hbits
      obtain ⟨a, xs, t, run, emitted, post⟩ := h.writes hr
      exact .after run ((hk _ a xs t (emitted.stream ▸ emitted) post).raises (emitted.stream ▸ hbits))
  writes {w rest} hbits := by
    cases hr : r s.bitStream with
    | error c => rw [Reading.bind_of_error hr] at hbits; cases hbits
    | ok x =>
      rw [Reading.bind_of_ok hr] at hbits
      obtain ⟨a, xs, t, run, emitted, post⟩ := h.writes hr
      obtain ⟨b, ys, u, run', emitted', post'⟩ :=
        (hk _ a xs t (emitted.stream ▸ emitted) post).writes (emitted.stream ▸ hbits)
      exact ⟨b, xs ++ ys, u, (bind_of_ok run).trans run', emitted.trans emitted', post'⟩

/-- The rest of a body behind a part that only reads. -/
theorem Emits.read {r : Reading α} {k : α → M γ} {g : α → Reading δ} {Q : δ → γ → List Byte → Prop} (h : Follows m r)
    (hs : Readable s) (hf : s.fwr = some f) (hinside : f.pos.toNat ≤ f.stop.toNat)
    (hk : ∀ a t, Emitted f [] t.bitStream s t → Emits (k a) (g a) f t Q) : Emits (m >>= k) (r >>= g) f s Q := by
  refine (Emits.of_follows h hs hf hinside).bind fun v a xs t emitted post => ?_
  obtain ⟨rfl, rfl⟩ := post
  rw [after_nil]
  exact hk a t emitted

/-- The same body, of whose reading the value is worked out further. -/
theorem Emits.map {g : β → δ} {Q' : δ → α → List Byte → Prop} (h : Emits m r f s Q)
    (hQ : ∀ v a bytes, Q v a bytes → Q' (g v) a bytes) : Emits m (r >>= fun v => pure (g v)) f s Q' where
  raises hbits := by
    cases hr : r s.bitStream with
    | error c =>
      rw [Reading.bind_of_error hr] at hbits
      cases hbits
      exact h.raises hr
    | ok x => rw [Reading.bind_of_ok hr] at hbits; cases hbits
  writes hbits := by
    cases hr : r s.bitStream with
    | error c => rw [Reading.bind_of_error hr] at hbits; cases hbits
    | ok x =>
      rw [Reading.bind_of_ok hr] at hbits
      cases hbits
      obtain ⟨a, bytes, t, run, emitted, post⟩ := h.writes hr
      exact ⟨a, bytes, t, run, emitted, hQ _ a bytes post⟩

end Emits

/-! ## Literals -/

section Turn

variable {c : Config} {s : State} {f : Fwr} {reach : List Byte}

/-- A byte is written where the output has room for it. -/
theorem fwrWrb_emits {α β : Type} {k : M α} {g : Reading β} {Q : β → α → List Byte → Prop} (hs : Readable s)
    (hf : s.fwr = some f) (b : Byte)
    (hk : ∀ t, Emitted f [b] t.bitStream s t → Emits k g (f.after [b]) t fun w a ys => Q w a (b :: ys)) :
    Emits (fwrWrb b >>= fun _ => k) (if f.stop.toNat - f.pos.toNat = 0 then failed .overrun else g) f s Q := by
  split
  · next hfull =>
    exact .of_raises (.bind (fwrWrb_raises_overrun hf (Nat.le_of_sub_eq_zero hfull) b))
  · next hroom =>
    obtain ⟨t, run, changes, wrote⟩ := wrote_literal hf (by omega) b
    have emitted : Emitted f [b] s.bitStream s t := .of_wrote hs changes (by rw [List.length_singleton]; omega) wrote
    have written : Emits (fwrWrb b) (pure ()) f s fun _ _ xs => xs = [b] := .of_wrote run emitted rfl
    exact written.bind (g := fun _ => g) fun _ _ xs t emitted post => by
      subst post
      exact hk t emitted

/-- The literal run of a turn is not clamped (R361): every literal is read, and then written where there is room for it. -/
theorem mashLiterals_emits (n : Nat) (hs : Readable s) (hf : s.fwr = some f) (hinside : f.pos.toNat ≤ f.stop.toNat) :
    Emits (mashLiterals c n) (writtenFields (treeField c.mashLit) n (f.stop.toNat - f.pos.toNat)) f s
      fun literals _ bytes => bytes = literals := by
  induction n generalizing s f with
  | zero => exact .of_wrote rfl (.of_took hf hinside ⟨Changes.refl _ _, hs, rfl⟩) rfl
  | succ n ih =>
    refine .read (runField_follows _) hs hf hinside fun b t read => ?_
    refine fwrWrb_emits read.readable read.writer_of_nil b fun u written => ?_
    have room : (f.after [b]).stop.toNat - (f.after [b]).pos.toNat = f.stop.toNat - f.pos.toNat - 1 := by
      rw [after_pos written.room, after_stop, List.length_singleton, Nat.sub_add_eq]
    rw [← room]
    exact (ih written.readable written.wrote.writer (after_inside written.room)).map
      fun literals _ bytes same => congrArg (b :: ·) same

/-! ## The match -/

/-- The match of a turn: a distance of 0 ends a full output, and another one is copied as far as there is room. -/
theorem mashMatchEnd_eq (m : MashMatch) (hf : s.fwr = some f) (hinside : f.pos.toNat ≤ f.stop.toNat) :
    mashMatchEnd m s =
      if m.distance = 0 then
        if f.stop.toNat - f.pos.toNat = 0 then .ok false s else .error (.corrupt .zeroDistance) s
      else if f.stop.toNat - f.pos.toNat = 0 then .ok true s
      else (fwrCopy m.distance (min (m.countLess2 + 2) (f.stop.toNat - f.pos.toNat)) >>= fun _ => pure true) s := by
  have full : (f.pos == f.stop) = decide (f.stop.toNat - f.pos.toNat = 0) := by
    rw [Bool.eq_iff_iff, beq_iff_eq, decide_eq_true_eq, ← BitVec.toNat_inj]
    omega
  have eof : fwrEof s = .ok (decide (f.stop.toNat - f.pos.toNat = 0)) s := by rw [fwrEof_eq, hf, ← full]
  have room : fwrRoom s = .ok (f.stop.toNat - f.pos.toNat) s := by rw [fwrRoom_eq, hf]
  rw [mashMatchEnd, bind_of_ok eof]
  generalize f.stop.toNat - f.pos.toNat = left at room
  by_cases hd : m.distance = 0
  · rw [if_pos hd, if_pos hd]
    by_cases hleft : left = 0 <;> simp [hleft]
  · rw [if_neg hd, if_neg hd, bind_of_ok room, mashCount]
    by_cases hleft : left = 0
    · simp [hleft]
    · have some_left : 0 < min (m.countLess2 + 2) left := by omega
      simp [hleft, some_left]

/-- FWR.COPY inside its span: the bytes it reads need hold values only (spec/40_stream_primitives.md R153, R163). -/
theorem fwrCopy_copies {d count : Nat} (hf : s.fwr = some f) (hd : 0 < d) (hnear : f.start.toNat + d ≤ f.pos.toNat)
    (hroom : f.pos.toNat + count ≤ f.stop.toNat)
    (known : ∀ k, f.pos.toNat - d ≤ k → k < f.pos.toNat → ∃ b, storeRead s.raw k = some b) :
    ∃ raw, fwrCopy d count s = .ok () { s with raw := raw, fwr := some { f with pos := f.pos + toWord count } } ∧
      (∀ i, i < count → storeRead raw (f.pos.toNat + i) = storeRead s.raw (f.pos.toNat - d + i % d)) ∧
      ∀ k, k < f.pos.toNat ∨ f.pos.toNat + count ≤ k → storeRead raw k = storeRead s.raw k := by
  have hword := hroom.trans_lt f.stop.isLt
  have reached : Machine.reach [] f = f.pos.toNat - f.start.toNat := by simp [Machine.reach]
  have source (j : Nat) : logicalByte [] f s.raw j = storeRead s.raw (f.start.toNat + j) := by simp [logicalByte]
  obtain ⟨raw, run, copied, rest⟩ := fwrCopyhLoop_copies (history := []) hd hf (by omega) hword (by omega)
    fun j hj hj' => by
      rw [source]
      exact known _ (by omega) (by omega)
  have body : fwrCopy d count s = fwrCopyhLoop [] d count s := by
    rw [fwrCopy_eq, ← fwrCopyLoop_eq_fwrCopyhLoop count hf hword hnear, if_neg hd.ne']
    simp only [hf]
    rw [if_neg (by omega), if_neg (Nat.not_lt.2 hroom)]
  refine ⟨raw, ?_, fun i hi => ?_, rest⟩
  · rw [body, run, ← toWord_toNat_add, toWord_toNat_of_lt (by omega)]
  · rw [copied i hi, source, reached]
    congr 1
    omega

/-- What the match of a turn gives behind its literals, as the reading of the turn states it (R365, R366). -/
def matchBytes (m : MashMatch) (literals reach : List Byte) (room : Nat) : Reading (Bool × List Byte) :=
  if m.distance = 0 then
    if room = 0 then pure (false, literals) else failed .zeroDistance
  else if room ≠ 0 ∧ reach.length < m.distance then failed .distance
  else pure (true, literals ++ (Token.copy (min (m.countLess2 + 2) room) m.distance).bytes reach)

theorem mashBytes_eq (c : Config) (reach : List Byte) (room : Nat) :
    mashBytes c reach room =
      (treeField c.mashLitLen >>= fun n => writtenFields (treeField c.mashLit) n room >>= fun literals =>
        treeField c.mashMatch >>= fun m => matchBytes m literals (reach ++ literals) (room - literals.length)) := rfl

theorem mashMatchEnd_emits (m : MashMatch) (literals : List Byte) (hs : Readable s) (hf : s.fwr = some f)
    (hstart : f.start.toNat ≤ f.pos.toNat) (hinside : f.pos.toNat ≤ f.stop.toNat)
    (hreach : memBytes s.raw f.start.toNat (f.pos.toNat - f.start.toNat) = some reach) :
    Emits (mashMatchEnd m) (matchBytes m literals reach (f.stop.toNat - f.pos.toNat)) f s
      fun w goesOn bytes => w = (goesOn, literals ++ bytes) := by
  have run := mashMatchEnd_eq m hf hinside
  have still : Emitted f [] s.bitStream s s := .of_took hf hinside ⟨Changes.refl _ _, hs, rfl⟩
  unfold matchBytes
  by_cases hd : m.distance = 0
  · rw [if_pos hd] at run ⊢
    by_cases hfull : f.stop.toNat - f.pos.toNat = 0
    · rw [if_pos hfull] at run ⊢
      exact .of_wrote run still (by rw [List.append_nil])
    · rw [if_neg hfull] at run ⊢
      exact .of_raises (.of_eq run)
  rw [if_neg hd] at run ⊢
  by_cases hfull : f.stop.toNat - f.pos.toNat = 0
  · rw [if_pos hfull] at run
    rw [if_neg (by omega), hfull, Nat.min_zero]
    exact .of_wrote run still rfl
  rw [if_neg hfull] at run
  by_cases hfar : reach.length < m.distance
  · rw [if_pos ⟨hfull, hfar⟩]
    have len := reach_length hreach
    have raised : Raises (fwrCopy m.distance (min (m.countLess2 + 2) (f.stop.toNat - f.pos.toNat))) s .distance :=
      .of_eq (t := s) (by rw [fwrCopy_eq, if_neg hd, hf]; exact if_pos (by omega))
    exact .of_raises (.congr run raised.bind)
  · rw [if_neg (by omega)]
    have fits : f.pos.toNat + min (m.countLess2 + 2) (f.stop.toNat - f.pos.toNat) ≤ f.stop.toNat := by omega
    obtain ⟨t, copy, changes, wrote⟩ :=
      wrote_copy hf hstart hreach (Nat.pos_of_ne_zero hd) (Nat.not_lt.1 hfar) fits
    exact .of_wrote (run.trans (bind_of_ok copy))
      (.of_wrote hs changes (by simpa [Token.bytes] using fits) wrote) rfl

/-- A turn of MASH follows its reading: the literals go to the output as they are read, and the match behind them. -/
theorem mashTurn_emits (hs : Readable s) (hf : s.fwr = some f) (hstart : f.start.toNat ≤ f.pos.toNat)
    (hinside : f.pos.toNat ≤ f.stop.toNat)
    (hreach : memBytes s.raw f.start.toNat (f.pos.toNat - f.start.toNat) = some reach) :
    Emits (mashTurn c) (mashBytes c reach (f.stop.toNat - f.pos.toNat)) f s fun w goesOn bytes => w = (goesOn, bytes) := by
  rw [mashBytes_eq]
  refine .read (runField_follows _) hs hf hinside fun n t counted => ?_
  refine (mashLiterals_emits n counted.readable counted.writer_of_nil hinside).bind fun literals _ bytes u run same => ?_
  subst same
  refine .read (runField_follows _) run.readable run.wrote.writer (after_inside run.room) fun m v read => ?_
  have emitted := counted.nil_trans (run.trans_nil read)
  have room : f.stop.toNat - f.pos.toNat - bytes.length = (f.after bytes).stop.toNat - (f.after bytes).pos.toNat := by
    rw [after_pos emitted.room, after_stop, Nat.sub_add_eq]
  have start : (f.after bytes).start.toNat ≤ (f.after bytes).pos.toNat := by
    rw [after_pos emitted.room]
    exact hstart.trans (Nat.le_add_right ..)
  rw [room]
  exact mashMatchEnd_emits m bytes emitted.readable emitted.wrote.writer start (after_inside emitted.room)
    (emitted.reach hstart hreach)

end Turn

end Sys2Proof.Machine

open Sys2Proof Sys2Proof.Machine

/-- Settles O59: the literals are written as they are read, by induction on how many are left, and the match follows them as
far as there is room. -/
theorem mashMatchEnds : Obligations.MashMatchEnds := by
  refine ⟨fun s f reach hf hstart hstop hreach hset hwhole => ?_, fun s f m room hf hstart hstop hroom => ?_⟩
  · have turn := mashTurn_emits (c := Config.core) ⟨hset, hwhole⟩ hf hstart hstop hreach
    split
    · next e hread => exact turn.raises hread
    · next goesOn bytes rest hread =>
      obtain ⟨_, _, t, run, emitted, same⟩ := turn.writes hread
      cases same
      exact ⟨t, run, emitted.changes, emitted.stream, emitted.wrote⟩
  · have run := mashMatchEnd_eq m hf hstop
    rw [← hroom] at run
    refine ⟨fun hd hfull => ?_, fun hd hleft => ?_, fun hd hfull => ?_, fun hd hleft hfar => ?_,
      fun hd hleft hnear known => ?_⟩
    · rw [run, if_pos hd, if_pos hfull]
    · rw [run, if_pos hd, if_neg hleft]
    · rw [run, if_neg hd, if_pos hfull]
    · rw [run, if_neg hd, if_neg hleft, M.bind_apply, fwrCopy_eq, if_neg hd, hf]
      dsimp only
      rw [if_pos (by omega)]
    · obtain ⟨raw, copy, copied, other⟩ := fwrCopy_copies (count := min (m.countLess2 + 2) room) hf
        (Nat.pos_of_ne_zero hd) hnear (by omega) known
      exact ⟨raw, by rw [run, if_neg hd, if_neg hleft, bind_of_ok copy]; rfl, copied, other⟩

end

section
/-! SUPPORT. DECOMPRESS.RAKE (spec/46_lhlb_mash_rake.md R371 to R375): a turn, which reads the forward stream, then a byte of
the backward one, and writes downwards; the setup of its readers and of slot 0. -/

namespace Sys2Proof.Machine

/-! ## Fields -/

/-- A field of `w` bits is read. -/
theorem rd_follows {w : Nat} (hw : w ≤ 32) : Follows (rd w) (fixedField w) where
  raises {s c} hs h := (rd_readsAs_fixed hw).raises hs h
  takes {s v rest} hs h := by
    unfold fixedField at h
    split at h
    · cases h
    · next long =>
      cases h
      have hn := Nat.not_lt.1 long
      exact ⟨_, rd_apply hw ((canRead_group8 hs.isSet).2 hn), took_afterBits hs hn⟩

/-! ## Writing a token downwards -/

/-- The bytes of a token go to the output, the first at the highest offset. -/
def writeTokenBack : Token → M Unit
  | .literal b => bwrWrb b
  | .copy count d => bwrCopy d count

section Token

variable {s : State} {f : Bwr} {reach : List Byte}

/-- A token that is refused raises, the checks in the order of R159. -/
theorem writeTokenBack_raises (hf : s.bwr = some f) (hfloor : f.floor.toNat ≤ f.pos.toNat)
    (hreach : reach.length = f.top.toNat - f.pos.toNat) {token : Token} {c : Cause}
    (h : token.refusal reach (f.pos.toNat - f.floor.toNat) = some c) : Raises (writeTokenBack token) s c := by
  cases token with
  | literal b =>
    obtain ⟨hfull, rfl⟩ : f.pos.toNat - f.floor.toNat = 0 ∧ c = .overrun := by simpa [Token.refusal, eq_comm] using h
    exact bwrWrb_raises_overrun hf (Nat.le_of_sub_eq_zero hfull) b
  | copy count d =>
    refine .of_eq (t := s) ?_
    rw [writeTokenBack, bwrCopy_eq, hf]
    rw [Token.refusal, hreach] at h
    dsimp only
    by_cases hd : d = 0
    · rw [if_pos hd] at h ⊢
      cases h
      rfl
    rw [if_neg hd] at h ⊢
    by_cases hfar : f.top.toNat - f.pos.toNat < d
    · rw [if_pos hfar] at h ⊢
      cases h
      rfl
    rw [if_neg hfar] at h ⊢
    by_cases hfull : f.pos.toNat - f.floor.toNat < count
    · rw [if_pos hfull] at h
      cases h
      rw [if_pos (by omega)]
    · rw [if_neg hfull] at h
      cases h

theorem wroteBack_literal (hf : s.bwr = some f) (hlt : f.floor.toNat < f.pos.toNat) (b : Byte) :
    ∃ t, bwrWrb b s = .ok () t ∧ Changes [.backWriter, .output] s t ∧ WroteBackward f [b] s t := by
  have run := bwrWrb_of_room hf hlt b
  refine ⟨_, run, (bwrWrb_changes b).ok run, rfl, memBytes_eq_some.2 ⟨rfl, fun i hi => ?_⟩, fun k hk => ?_⟩
  · obtain rfl : i = 0 := Nat.lt_one_iff.1 hi
    exact storeRead_write_same ..
  · rw [List.length_singleton] at hk
    exact storeRead_write_other _ _ (by omega)

/-- A range of bytes that holds a list from its top downwards. -/
theorem memBytes_reverse {m : Memory} {a n : Nat} {bytes : List Byte} :
    memBytes m a n = some bytes.reverse ↔ bytes.length = n ∧ ∀ i, i < n → storeRead m (a + n - 1 - i) = bytes[i]? := by
  rw [memBytes_eq_some, List.length_reverse]
  refine and_congr_right fun len => ⟨fun h i hi => ?_, fun h i hi => ?_⟩
  · have mirrored := h (n - 1 - i) (by omega)
    rw [List.getElem?_reverse (by omega), len] at mirrored
    rw [show a + n - 1 - i = a + (n - 1 - i) by omega, mirrored]
    congr 1
    omega
  · rw [List.getElem?_reverse (by omega), len, ← h (n - 1 - i) (by omega)]
    congr 1
    omega

/-- Byte `i` of a copy is byte `i mod d` of the last `d` bytes that can be reached. -/
theorem wroteBack_copy (hf : s.bwr = some f) (htop : f.pos.toNat ≤ f.top.toNat)
    (hreach : memBytes s.raw f.pos.toNat (f.top.toNat - f.pos.toNat) = some reach.reverse) {d count : Nat} (hd : 0 < d)
    (hnear : d ≤ reach.length) (hroom : f.floor.toNat + count ≤ f.pos.toNat) :
    ∃ t, bwrCopy d count s = .ok () t ∧ Changes [.backWriter, .output] s t ∧
      WroteBackward f ((Token.copy count d).bytes reach) s t := by
  obtain ⟨len, source⟩ := memBytes_reverse.1 hreach
  obtain ⟨m, loop, copied, rest⟩ := bwrCopyLoop_copies (c := count) hd hf (by omega) (by omega) fun k hk hk' => by
    have known := source (f.top.toNat - 1 - k) (by omega)
    rw [show f.pos.toNat + (f.top.toNat - f.pos.toNat) - 1 - (f.top.toNat - 1 - k) = k by omega,
      List.getElem?_eq_getElem (by omega)] at known
    exact ⟨_, known⟩
  have run := bwrCopy_eq d count s
  rw [if_neg hd.ne', hf] at run
  dsimp only at run
  rw [if_neg (by omega), if_neg (Nat.not_lt.2 hroom), loop] at run
  have size : ((Token.copy count d).bytes reach).length = count := by simp [Token.bytes]
  have word : (toWord count).toNat = count := toWord_toNat_of_lt (by omega)
  refine ⟨_, run, (bwrCopy_changes d count).ok run, ?_, ?_, ?_⟩
  · rw [size, ← toWord_toNat_sub (by omega), word]
  · rw [size]
    refine memBytes_reverse.2 ⟨size, fun i hi => ?_⟩
    have hmod := Nat.mod_lt i hd
    rw [show f.pos.toNat - count + count - 1 - i = f.pos.toNat - 1 - i by omega, copied i hi, Token.bytes,
      List.getElem?_map, List.getElem?_range hi, Option.map_some,
      List.getD_eq_getElem _ _ (by omega), ← List.getElem?_eq_getElem, ← source _ (by omega)]
    congr 1
    omega
  · rw [size]
    exact rest

/-- A token that is not refused is written. -/
theorem writeTokenBack_wrote (hf : s.bwr = some f) (hfloor : f.floor.toNat ≤ f.pos.toNat)
    (htop : f.pos.toNat ≤ f.top.toNat)
    (hreach : memBytes s.raw f.pos.toNat (f.top.toNat - f.pos.toNat) = some reach.reverse) {token : Token}
    (h : token.refusal reach (f.pos.toNat - f.floor.toNat) = none) :
    ∃ t, writeTokenBack token s = .ok () t ∧ Changes [.backWriter, .output] s t ∧
      WroteBackward f (token.bytes reach) s t := by
  cases token with
  | literal b =>
    have hroom : f.pos.toNat - f.floor.toNat ≠ 0 := by simpa [Token.refusal] using h
    exact wroteBack_literal hf (by omega) b
  | copy count d =>
    rw [Token.refusal] at h
    split at h
    · cases h
    · next hd =>
      split at h
      · cases h
      · next hnear =>
        split at h
        · cases h
        · exact wroteBack_copy hf htop hreach (Nat.pos_of_ne_zero hd) (Nat.not_lt.1 hnear) (by omega)

end Token

/-! ## The byte of the backward stream -/

/-- The state whose backward cursor has delivered a byte. -/
def State.backRead (s : State) : State :=
  { s with bcur := s.bcur.map fun b => { pos := b.pos - 1, floor := b.floor } }

theorem bcurRdb_of_backByte {s : State} {b : Byte} (h : s.backByte = .ok b) : bcurRdb s = .ok b s.backRead := by
  unfold State.backByte at h
  cases hf : s.bcur with
  | none => rw [hf] at h; cases h
  | some f =>
    rw [hf] at h
    dsimp only at h
    split at h
    · cases h
    · next inside =>
      split at h
      · cases h
      · next b' hb =>
        cases h
        rw [bcurRdb_of_byte hf (by omega) (by omega) hb, State.backRead, hf]
        rfl

theorem bcurRdb_raises_of_backByte {s : State} {c : Cause} (h : s.backByte = .error c) : Raises bcurRdb s c := by
  unfold State.backByte at h
  cases hf : s.bcur with
  | none =>
    rw [hf] at h
    cases h
    exact bcurRdb_raises_of_none hf
  | some f =>
    rw [hf] at h
    dsimp only at h
    split at h
    · next outside =>
      cases h
      exact bcurRdb_raises_unexpectedEnd hf outside
    · next inside =>
      split at h
      · next hb =>
        cases h
        exact bcurRdb_raises_unset hf (by omega) (by omega) hb
      · cases h

/-- What the forward reader does not hold decides the byte. -/
theorem backByte_of_reads {s t : State} (h : Changes [.reader] s t) : t.backByte = s.backByte := by
  obtain ⟨hchunk, hrest⟩ := Prod.mk.inj (h .host (by decide))
  obtain ⟨hlen, -⟩ := Prod.mk.inj hrest
  have hcur : s.bcur = t.bcur := h .backCursor (by decide)
  rw [State.backByte, State.backByte, hchunk, hlen, hcur]

/-! ## A turn of RAKE -/

/-- The part of a turn that the forward stream gives: the token, still to be completed by the byte of the backward
stream. -/
def rakeFields (c : Config) (es : List HufEntry) : Reading (Byte → Token) := do
  let bit ← fixedField 1
  if (bit == 1) = c.rakeLiteralBit then pure .literal
  else
    let v ← symbolField es
    let tier ← treeField c.rakeTier
    let bits ← fixedField (rakeTierBits tier)
    pure fun b => .copy (v.toNat + 2) (rakeDistance c.rakeD0Base tier bits b)

/-- That part, read by the core from a table. -/
def readRakeFields (c : Config) (es : List HufEntry) : M (Byte → Token) := do
  let bit ← rd 1
  if (bit == 1) = c.rakeLiteralBit then pure .literal
  else
    let v ← decodeFrom .group8 es
    let tier ← runField c.rakeTier
    let bits ← rd (rakeTierBits tier)
    pure fun b => .copy (v.toNat + 2) (rakeDistance c.rakeD0Base tier bits b)

theorem rakeTierBits_le (tier : Fin 3) : rakeTierBits tier ≤ 32 := by
  fin_cases tier <;> decide

theorem readRakeFields_follows (c : Config) (es : List HufEntry) : Follows (readRakeFields c es) (rakeFields c es) := by
  refine (rd_follows (by decide)).bind fun bit => ?_
  split
  · exact .pure _
  · exact (decodeFrom_follows es).bind fun v => (runField_follows _).bind fun tier =>
      (rd_follows (rakeTierBits_le tier)).bind fun bits => .pure _

/-- The token of a turn is that part and the byte of the backward stream. -/
def completed (back : Except Cause Byte) (token : Byte → Token) : Reading Token :=
  match back with
  | .error e => failed e
  | .ok b => pure (token b)

/-- The bits of a tier and its distance are those of the tables of R375. -/
theorem rakeTier_eq (c : Config) (count : Nat) (tier : Fin 3) (back : Except Cause Byte) :
    (fixedField ([0, 3, 6].getD tier.val 0) >>= fun extra =>
      match back with
      | .error e => failed e
      | .ok b => pure (.copy count ([c.rakeD0Base, 0x101, 0x901].getD tier.val 0 + extra * 256 + b.toNat))) =
    fixedField (rakeTierBits tier) >>= fun bits =>
      completed back fun b => .copy count (rakeDistance c.rakeD0Base tier bits b) := by
  have reads (w : Nat) {g g' : Nat → Reading Token} (h : ∀ n, g n = g' n) :
      (fixedField w >>= g) = (fixedField w >>= g') := congrArg _ (funext h)
  match tier with
  | 0 =>
    have nothing {g : Nat → Reading Token} : (fixedField 0 >>= g) = g 0 := rfl
    refine nothing.trans (Eq.trans ?_ nothing.symm)
    cases back <;> simp [completed, rakeDistance, Nat.add_comm]
  | 1 =>
    refine reads 3 fun bits => ?_
    cases back <;> simp [completed, rakeDistance, Nat.add_comm, Nat.add_assoc]
  | 2 =>
    refine reads 6 fun bits => ?_
    cases back <;> simp [completed, rakeDistance, Nat.add_comm, Nat.add_assoc]

theorem rakeToken_eq (c : Config) (es : List HufEntry) (back : Except Cause Byte) :
    rakeToken c es back = rakeFields c es >>= completed back := by
  unfold rakeToken rakeFields
  rw [bind_assoc]
  congr 1
  funext bit
  split
  · rw [pure_bind]
    rfl
  · simp only [bind_assoc, pure_bind]
    congr 1
    funext v
    congr 1
    funext tier
    exact rakeTier_eq c (v.toNat + 2) tier back

/-- A turn is its fields, the byte of the backward stream, and then the token. -/
theorem rakeTurn_eq (c : Config) {s : State} {es : List HufEntry} (h : s.ht[0] = some es) :
    rakeTurn c s =
      (readRakeFields c es >>= fun token => bcurRdb >>= fun b => writeTokenBack (token b) >>= fun _ => pure true) s := by
  unfold rakeTurn readRakeFields
  rw [bind_assoc]
  cases hbit : rd 1 s with
  | error e t => rw [M.bind_apply, M.bind_apply, hbit]
  | ok bit t =>
    rw [bind_of_ok hbit, bind_of_ok hbit]
    have slots : s.ht = t.ht := (rd_changes 1).ok hbit .tables (by decide)
    split
    · rw [pure_bind]
      rfl
    · have decode := hufDecode_eq (s := t) (k := 0) (slots ▸ h) .group8
      rw [bind_assoc, M.bind_apply, M.bind_apply, decode]
      simp only [rakeReadDistance, bind_assoc, pure_bind]
      rfl

/-- A turn of RAKE up to the token: it raises the cause of the failure of its reading, or it goes on to write the token. -/
def RakeReads (c : Config) (s : State) : Except Cause (Token × List Bool) → Prop
  | .error e => Raises (rakeTurn c) s e
  | .ok (token, rest) =>
    ∃ t, rakeTurn c s = (writeTokenBack token >>= fun _ => pure true) t ∧ Changes [.reader, .backCursor] s t ∧
      t.bitStream = rest ∧ t.bcur = s.backRead.bcur

/-- A turn follows its reading (R373, R375). -/
theorem rakeTurn_reads (c : Config) {s : State} {es : List HufEntry} (hs : Readable s) (h : s.ht[0] = some es) :
    RakeReads c s (rakeToken c es s.backByte s.bitStream) := by
  have run := rakeTurn_eq c h
  rw [rakeToken_eq]
  cases hfields : rakeFields c es s.bitStream with
  | error e =>
    rw [Reading.bind_of_error hfields]
    exact .congr run (.bind ((readRakeFields_follows c es).raises hs hfields))
  | ok x =>
    obtain ⟨token, rest⟩ := x
    rw [Reading.bind_of_ok hfields]
    obtain ⟨t, fields, took⟩ := (readRakeFields_follows c es).takes hs hfields
    have back := backByte_of_reads took.changes
    rw [bind_of_ok fields] at run
    cases hback : s.backByte with
    | error e => exact .congr run (.bind (bcurRdb_raises_of_backByte (back.trans hback)))
    | ok b =>
      have byte := bcurRdb_of_backByte (back.trans hback)
      have moved := bcurRdb_changes.ok byte
      refine ⟨t.backRead, run.trans (bind_of_ok byte), (took.changes.mono (by decide)).trans (moved.mono (by decide)),
        (bitStream_congr moved (by decide) (by decide)).trans took.stream, ?_⟩
      rw [State.backRead, State.backRead, show s.bcur = t.bcur from took.changes .backCursor (by decide)]

section Writes

variable {c : Config} {s : State} {f : Bwr} {reach : List Byte} {token : Token} {rest : List Bool}
  (reads : RakeReads c s (.ok (token, rest))) (hf : s.bwr = some f) (hfloor : f.floor.toNat ≤ f.pos.toNat)
  (hreach : memBytes s.raw f.pos.toNat (f.top.toNat - f.pos.toNat) = some reach.reverse)
include reads hf hfloor hreach

/-- A turn whose token is refused raises. -/
theorem RakeReads.raises {e : Cause} (hrefused : token.refusal reach (f.pos.toNat - f.floor.toNat) = some e) :
    Raises (rakeTurn c) s e := by
  obtain ⟨t, run, changes, -⟩ := reads
  have writer : t.bwr = some f := (changes .backWriter (by decide)).symm.trans hf
  exact .congr run (.bind (writeTokenBack_raises writer hfloor (memBytes_reverse.1 hreach).1 hrefused))

/-- A turn whose token is not refused writes it. -/
theorem RakeReads.writes (htop : f.pos.toNat ≤ f.top.toNat)
    (hrefused : token.refusal reach (f.pos.toNat - f.floor.toNat) = none) :
    ∃ t, rakeTurn c s = .ok true t ∧ Changes [.reader, .backCursor, .backWriter, .output] s t ∧ t.bitStream = rest ∧
      t.bcur = s.backRead.bcur ∧ WroteBackward f (token.bytes reach) s t := by
  obtain ⟨t, run, changes, stream, cursor⟩ := reads
  have writer : t.bwr = some f := (changes .backWriter (by decide)).symm.trans hf
  have output : s.raw = t.raw := changes .output (by decide)
  obtain ⟨u, write, wrote, written, bytes, others⟩ :=
    writeTokenBack_wrote writer hfloor htop (output ▸ hreach) hrefused
  refine ⟨u, run.trans (bind_of_ok write), (changes.mono (by decide)).trans (wrote.mono (by decide)),
    (bitStream_congr wrote (by decide) (by decide)).trans stream,
    (show t.bcur = u.bcur from wrote .backCursor (by decide)).symm.trans cursor, written, bytes, output ▸ others⟩

end Writes

end Sys2Proof.Machine
end

section
/-! SUPPORT. DECOMPRESS.RAKE and DECOMPRESS.SQSH with an empty output (spec/46_lhlb_mash_rake.md R371 to R374,
spec/48_smpl_sqsh.md R441): the readers are placed from the header, RAKE builds slot 0, and the loops end at once. -/

namespace Sys2Proof.Machine

/-! ## The length table of RAKE -/

/-- The lengths of RAKE_LEN_TABLE (R374). -/
def rakeLens (c : Config) : List Nat := (List.finRange 255).map fun k => (c.rakeLenLess1 k).val + 1

theorem rakeLens_length (c : Config) : (rakeLens c).length = 255 := by
  rw [rakeLens, List.length_map, List.length_finRange]

theorem rakeLens_le (c : Config) : ∀ l ∈ rakeLens c, l ≤ 32 := by
  intro l hl
  obtain ⟨k, -, rfl⟩ := List.mem_map.1 hl
  exact (c.rakeLenLess1 k).isLt

/-- LENM after `left` more entries of the table. -/
def withRakeLengths (c : Config) : Nat → Memory → Memory
  | 0, m => m
  | left + 1, m =>
    withRakeLengths c left (storeWrite m (254 - left) (truncByte ((c.rakeLenLess1 (Fin.ofNat 255 (254 - left))).val + 1)))

theorem rakeLengths_eq (c : Config) (left : Nat) (s : State) :
    rakeLengths c left s = .ok () { s with lenm := withRakeLengths c left s.lenm } := by
  induction left generalizing s with
  | zero => rfl
  | succ left ih => exact ih _

theorem storeRead_withRakeLengths (c : Config) {left : Nat} (hleft : left ≤ 255) (m : Memory) (k : Nat) :
    storeRead (withRakeLengths c left m) k =
      if 255 ≤ k + left ∧ k < 255 then some (truncByte ((c.rakeLenLess1 (Fin.ofNat 255 k)).val + 1))
      else storeRead m k := by
  induction left generalizing m with
  | zero => rw [if_neg (by omega)]; rfl
  | succ left ih =>
    rw [withRakeLengths, ih (by omega), storeRead_write]
    by_cases hk : k = 254 - left
    · rw [if_neg (by omega), if_pos hk, if_pos (by omega), hk]
    · rw [if_neg hk]
      exact if_congr (by omega) rfl rfl

theorem memBytes_withRakeLengths (c : Config) (m : Memory) :
    memBytes (withRakeLengths c 255 m) 0 255 = some ((rakeLens c).map truncByte) := by
  refine memBytes_eq_some.2 ⟨by rw [List.length_map, rakeLens_length], fun i hi => ?_⟩
  rw [Nat.zero_add, storeRead_withRakeLengths c le_rfl, if_pos (by omega), rakeLens, List.getElem?_map,
    List.getElem?_map, List.getElem?_eq_getElem (by simpa using hi)]
  simp [Fin.ofNat, Nat.mod_eq_of_lt hi]

theorem map_toNat_truncByte {lens : List Nat} (hl : ∀ l ∈ lens, l < 256) :
    (lens.map truncByte).map BitVec.toNat = lens := by
  rw [List.map_map]
  exact (List.map_congr_left fun l hm => Nat.mod_eq_of_lt (hl l hm)).trans (List.map_id lens)

/-- A build from lengths that lie in LENM. -/
theorem hufBuild_of_lengths {c : Config} {s : State} {lens : List Nat} (k : Fin 16) (hlen : lens.length ≤ 1024)
    (hl : ∀ l ∈ lens, l ≤ 32) (h : memBytes s.lenm 0 lens.length = some (lens.map truncByte)) :
    hufBuild c k lens.length s =
      match canonicalCodes lens with
      | none => .error (.corrupt .table) s
      | some es =>
        if tooManyNodes c (tableOf es) then .error (.corrupt .capacity) s
        else .ok () { s with ht := s.ht.set k (some (tableOf es)) } := by
  have values := map_toNat_truncByte fun l hm => (hl l hm).trans_lt (by decide)
  have small : ¬ (lens.any fun l => decide (l > 32)) = true := by simpa using hl
  have run := hufBuild_eq c k lens.length s
  rw [if_neg (Nat.not_lt.2 hlen), h] at run
  dsimp only at run
  rw [values, if_neg small] at run
  exact run

/-! ## RAKE -/

/-- The readers lie outside the chunk (R372). -/
abbrev RakeOutside (h : RakeHeader) (len : Word) : Prop :=
  h.mid.toNat < 4 ∨ len.toNat < h.mid.toNat ∨ len.toNat < h.fstart.toNat

/-- The state whose readers are placed from the header. -/
def State.rakePlaced (s : State) (h : RakeHeader) : State :=
  { s with
    bcur := some { pos := h.mid, floor := 4#32 }, fcur := some { pos := h.fstart, stop := s.chunkLen },
    bitsAcc := some h.seedBits, bitsCnt := some h.seedCount.val }

theorem rakePlace_raises {s : State} {h : RakeHeader} (out : RakeOutside h s.chunkLen) :
    Raises (rakePlace h) s .range := by
  have back := bcurSet_eq 4#32 h.mid s
  refine .after (M.get_apply s) ?_
  by_cases hback : h.mid.toNat < 4 ∨ s.chunkLen.toNat < h.mid.toNat
  · exact .bind (.of_eq (back.trans (if_pos hback)))
  · have front : s.chunkLen.toNat < h.fstart.toNat := by omega
    exact .after (back.trans (if_neg hback)) (.bind (.of_eq ((fcurSet_eq ..).trans (if_pos (.inl front)))))

theorem rakePlace_of_inside {s : State} {h : RakeHeader} (inside : ¬ RakeOutside h s.chunkLen) :
    rakePlace h s = .ok () (s.rakePlaced h) := by
  have back : ¬ (h.mid.toNat < 4 ∨ s.chunkLen.toNat < h.mid.toNat) := by omega
  have front : ¬ (s.chunkLen.toNat < h.fstart.toNat ∨ s.chunkLen.toNat < s.chunkLen.toNat) := by omega
  exact (bind_of_ok (M.get_apply s)).trans <| (bind_of_ok ((bcurSet_eq ..).trans (if_neg back))).trans
    (bind_of_ok ((fcurSet_eq _ _ { s with bcur := some { pos := h.mid, floor := 4#32 } }).trans (if_neg front)))

/-- The loop of RAKE, and the end of the command. -/
def rakeLoop (c : Config) : M Unit := do
  let room ← bwrRoom
  turnLoop (do return !(← bwrEof)) (rakeTurn c) (room + 1)
  macroEnd

theorem rakeLoop_of_emptyOutput (c : Config) {s : State} (hf : s.bwr = some ⟨0#32, 0#32, 0#32⟩) :
    rakeLoop c s = macroEnd s := by
  have room : bwrRoom s = .ok 0 s := by rw [bwrRoom_eq, hf]; rfl
  have going : (do return !(← bwrEof) : M Bool) s = .ok false s := by simp [bwrEof_eq, hf]
  have loop : turnLoop (do return !(← bwrEof)) (rakeTurn c) 1 s = .ok () s := by rw [turnLoop_succ, going]
  exact (bind_of_ok room).trans (bind_of_ok loop)

/-- RAKE once the header has been read. -/
def rakeRest (c : Config) (h : RakeHeader) : M Unit := do
  rakePlace h
  rakeLengths c 255
  hufBuild c 0 255
  rakeLoop c

/-- What the setup of RAKE leaves where the output is empty. -/
def rakeSetUpEmpty (s : State) : State :=
  { s with
    phase := .running, bwr := some ⟨0#32, 0#32, 0#32⟩, fcur := some { pos := 0#32, stop := s.chunkLen },
    bitsAcc := some 0#32, bitsCnt := some 0, ht := s.ht.set (0 : Fin 16) (some []) }

theorem rakeSequence_of_empty {c : Config} {s : State} {bytes : List Byte} (hraw : s.rawLen = 0#32)
    (hchunk : memBytes s.chunk 0 s.chunkLen.toNat = some bytes) :
    rakeSequence c s = (match c.rakeHeader bytes with
      | none => raise .header
      | some h => rakeRest c h : M Unit) (rakeSetUpEmpty s) := by
  have setup : rakeSetup s = .ok () (rakeSetUpEmpty s) := by rw [rakeSetup_eq, rakeSetUpEmpty, hraw]
  have read : chunkBytes (rakeSetUpEmpty s) = .ok bytes (rakeSetUpEmpty s) := need_apply hchunk _
  exact (bind_of_ok setup).trans (bind_of_ok read)

/-- The state of RAKE whose readers are placed and whose LENM holds the length table. -/
def rakeReady (h : RakeHeader) (lenm : Memory) (s : State) : State :=
  { (rakeSetUpEmpty s).rakePlaced h with lenm := lenm }

theorem rakeRest_of_inside {c : Config} {s : State} {h : RakeHeader} (inside : ¬ RakeOutside h s.chunkLen) :
    rakeRest c h (rakeSetUpEmpty s) =
      (hufBuild c 0 255 >>= fun _ => rakeLoop c) (rakeReady h (withRakeLengths c 255 s.lenm) s) :=
  (bind_of_ok (rakePlace_of_inside (s := rakeSetUpEmpty s) inside)).trans (bind_of_ok (rakeLengths_eq c 255 _))

theorem rakeBuild_eq (c : Config) (h : RakeHeader) {lenm : Memory} (s : State)
    (hlenm : memBytes lenm 0 255 = some ((rakeLens c).map truncByte)) :
    hufBuild c 0 255 (rakeReady h lenm s) =
      match canonicalCodes (rakeLens c) with
      | none => .error (.corrupt .table) (rakeReady h lenm s)
      | some es =>
        if tooManyNodes c (tableOf es) then .error (.corrupt .capacity) (rakeReady h lenm s)
        else .ok () { rakeReady h lenm s with ht := s.ht.set (0 : Fin 16) (some (tableOf es)) } := by
  have build := hufBuild_of_lengths (c := c) (s := rakeReady h lenm s) (lens := rakeLens c) 0
    (by rw [rakeLens_length]; decide) (rakeLens_le c) (by rw [rakeLens_length]; exact hlenm)
  rw [rakeLens_length] at build
  have slot (es : Table) : (rakeReady h lenm s).ht.set (0 : Fin 16) (some es) = s.ht.set (0 : Fin 16) (some es) :=
    Vector.set_set ..
  simpa only [slot] using build

section RakeRest

variable {c : Config} {s : State} {h : RakeHeader} (inside : ¬ RakeOutside h s.chunkLen)
include inside

theorem rakeRest_raises_table (hcodes : canonicalCodes (rakeLens c) = none) :
    Raises (rakeRest c h) (rakeSetUpEmpty s) .table := by
  have build := rakeBuild_eq c h s (memBytes_withRakeLengths c s.lenm)
  rw [hcodes] at build
  exact .congr (rakeRest_of_inside inside) (.bind (.of_eq build))

variable {es : List HufEntry} (hcodes : canonicalCodes (rakeLens c) = some es)
include hcodes

theorem rakeRest_raises_capacity (many : tooManyNodes c (tableOf es) = true) :
    Raises (rakeRest c h) (rakeSetUpEmpty s) .capacity := by
  have build := rakeBuild_eq c h s (memBytes_withRakeLengths c s.lenm)
  rw [hcodes] at build
  exact .congr (rakeRest_of_inside inside) (.bind (.of_eq (build.trans (if_pos many))))

theorem rakeRest_ends (few : ¬ tooManyNodes c (tableOf es) = true) {lenm : Memory}
    (hlenm : withRakeLengths c 255 s.lenm = lenm) :
    rakeRest c h (rakeSetUpEmpty s) = macroEnd
      { rakeReady h lenm s with ht := s.ht.set (0 : Fin 16) (some (tableOf es)) } := by
  subst hlenm
  have build := rakeBuild_eq c h s (memBytes_withRakeLengths c s.lenm)
  rw [hcodes] at build
  exact (rakeRest_of_inside inside).trans
    ((bind_of_ok (build.trans (if_neg few))).trans (rakeLoop_of_emptyOutput c rfl))

end RakeRest

/-- Slot 0 of RAKE: the set of the canonical codes, none where there are none. -/
def rakeSlot (c : Config) : Table := ((canonicalCodes (rakeLens c)).map tableOf).getD []

theorem rakeSlot_of_some {c : Config} {es : List HufEntry} (h : canonicalCodes (rakeLens c) = some es) :
    rakeSlot c = tableOf es := by
  rw [rakeSlot, h]
  rfl

theorem mem_rakeSlot {c : Config} {x : HufEntry} :
    x ∈ rakeSlot c ↔ ∃ cs, canonicalCodes (rakeLens c) = some cs ∧ x ∈ cs := by
  cases h : canonicalCodes (rakeLens c) with
  | none => simp [rakeSlot, h]
  | some es =>
    rw [rakeSlot_of_some h, (tableOf_perm es).mem_iff]
    simp

/-- DECOMPRESS.RAKE on an empty output. -/
theorem exec_rake_of_empty {s : State} {bytes : List Byte} (hs : s.Ready) (hraw : s.rawLen = 0#32)
    (hchunk : memBytes s.chunk 0 s.chunkLen.toNat = some bytes) :
    exec .decompressRake s = .next (match Config.core.rakeHeader bytes with
      | none => s.corrupted .header
      | some h =>
        if h.mid.toNat < 4 ∨ s.chunkLen.toNat < h.mid.toNat ∨ s.chunkLen.toNat < h.fstart.toNat then
          s.corrupted .range
        else if (canonicalCodes (rakeLens Config.core)).isNone then s.corrupted .table
        else if tooManyNodes Config.core (rakeSlot Config.core) then s.corrupted .capacity
        else
          { s.ended with
            bwr := some ⟨0#32, 0#32, 0#32⟩, bcur := some { pos := h.mid, floor := 4#32 },
            fcur := some { pos := h.fstart, stop := s.chunkLen }, bitsAcc := some h.seedBits,
            bitsCnt := some h.seedCount.val, ht := s.ht.set 0 (some (rakeSlot Config.core)),
            lenm := withRakeLengths Config.core 255 s.lenm }) := by
  have body := rakeSequence_of_empty (c := Config.core) (s := beginCommand s) hraw hchunk
  cases hheader : Config.core.rakeHeader bytes with
  | none =>
    rw [hheader] at body
    exact exec_corrupted hs (.of_eq body)
  | some h =>
    rw [hheader] at body
    dsimp only
    by_cases outside : RakeOutside h s.chunkLen
    · rw [if_pos outside]
      exact exec_corrupted hs (.congr body (.bind (rakePlace_raises (by exact outside))))
    rw [if_neg outside]
    cases hcodes : canonicalCodes (rakeLens Config.core) with
    | none => exact exec_corrupted hs (.congr body (rakeRest_raises_table (by exact outside) hcodes))
    | some es =>
      rw [if_neg (by simp), rakeSlot_of_some hcodes]
      by_cases many : tooManyNodes Config.core (tableOf es) = true
      · rw [if_pos many]
        exact exec_corrupted hs (.congr body (rakeRest_raises_capacity (by exact outside) hcodes many))
      · rw [if_neg many]
        generalize hlenm : withRakeLengths Config.core 255 s.lenm = lenm
        have ends := body.trans (rakeRest_ends (s := beginCommand s) (by exact outside) hcodes many hlenm)
        exact run_ok hs ends rfl

/-! ## SQSH -/

/-- SQSH once the header has been read. -/
def sqshRest (c : Config) (fstart : Word) : M Unit := do
  let s ← get
  fcurSet fstart s.chunkLen
  sqshFirstByte c
  modify fun s => { s with sqshQ := some c.sqshQInit }
  let room ← fwrRoom
  whileNotEof (sqshTurn c) (room + 1)
  macroEnd

/-- The slots that SQSH clears. -/
def sqshCleared (ht : Vector (Option Table) 16) : Vector (Option Table) 16 :=
  ((ht.set 0 (some [])).set 1 (some [])).set 2 (some [])

/-- The state of SQSH before its header where the output is empty. -/
def sqshSetUpEmpty (s : State) : State :=
  { setUpEmpty s with ht := sqshCleared s.ht, sqshQ := none, sqshSample := none }

theorem sqshSequence_of_empty {c : Config} {s : State} {bytes : List Byte} (hraw : s.rawLen = 0#32)
    (hchunk : memBytes s.chunk 0 s.chunkLen.toNat = some bytes) :
    sqshSequence c s = (match c.sqshHeader bytes with
      | none => raise .header
      | some fstart => sqshRest c fstart : M Unit) (sqshSetUpEmpty s) := by
  have read : chunkBytes (sqshSetUpEmpty s) = .ok bytes (sqshSetUpEmpty s) := need_apply hchunk _
  exact (bind_of_ok (commonSetup_of_empty hraw)).trans (bind_of_ok read)

/-- A full output takes no first byte. -/
theorem sqshFirstByte_of_full (c : Config) {s : State} {f : Fwr} (hf : s.fwr = some f) (hfull : f.pos = f.stop) :
    sqshFirstByte c s = .ok () s := by
  have eof : fwrEof s = .ok true s := by simp [fwrEof_eq, hf, hfull]
  exact bind_of_ok eof

section SqshRest

variable {c : Config} {s : State} {fstart : Word}

theorem sqshRest_raises (outside : s.chunkLen.toNat < fstart.toNat) : Raises (sqshRest c fstart) s .range :=
  .after (M.get_apply s) (.bind (.of_eq ((fcurSet_eq ..).trans (if_pos (.inl outside)))))

theorem sqshRest_ends (inside : ¬ s.chunkLen.toNat < fstart.toNat) :
    sqshRest c fstart (sqshSetUpEmpty s) = macroEnd
      { sqshSetUpEmpty s with
        fcur := some { pos := fstart, stop := s.chunkLen }, sqshQ := some c.sqshQInit } := by
  have front : ¬ (s.chunkLen.toNat < fstart.toNat ∨ s.chunkLen.toNat < s.chunkLen.toNat) := by omega
  have placed := (fcurSet_eq fstart s.chunkLen (sqshSetUpEmpty s)).trans (if_neg front)
  exact (bind_of_ok (M.get_apply _)).trans <| (bind_of_ok placed).trans <|
    (bind_of_ok (sqshFirstByte_of_full c rfl rfl)).trans <| (bind_of_ok (M.modify_apply ..)).trans
    (loop_of_emptyOutput rfl (sqshTurn c))

end SqshRest

/-- DECOMPRESS.SQSH on an empty output. -/
theorem exec_sqsh_of_empty {s : State} {bytes : List Byte} (hs : s.Ready) (hraw : s.rawLen = 0#32)
    (hchunk : memBytes s.chunk 0 s.chunkLen.toNat = some bytes) :
    exec .decompressSqsh s = .next (match Config.core.sqshHeader bytes with
      | none => s.corrupted .header
      | some fstart =>
        if s.chunkLen.toNat < fstart.toNat then s.corrupted .range
        else
          { s.ended with
            fwr := some ⟨0#32, 0#32, 0#32⟩, fcur := some { pos := fstart, stop := s.chunkLen },
            bitsAcc := some 0#32, bitsCnt := some 0, ht := sqshCleared s.ht,
            sqshQ := some Config.core.sqshQInit, sqshSample := none }) := by
  have body := sqshSequence_of_empty (c := Config.core) (s := beginCommand s) hraw hchunk
  cases hheader : Config.core.sqshHeader bytes with
  | none =>
    rw [hheader] at body
    exact exec_corrupted hs (.of_eq body)
  | some fstart =>
    rw [hheader] at body
    dsimp only
    by_cases outside : s.chunkLen.toNat < fstart.toNat
    · rw [if_pos outside]
      exact exec_corrupted hs (.congr body (sqshRest_raises (by exact outside)))
    · rw [if_neg outside]
      have ends := body.trans (sqshRest_ends (s := beginCommand s) (by exact outside))
      exact run_ok hs ends rfl

end Sys2Proof.Machine

open Sys2Proof Sys2Proof.Machine

/-- Settles O55: a turn of RAKE follows its reading, with the byte of the backward stream behind the fields of the forward
one, and then writes the token or refuses it; with an empty output both commands end before their first turn. -/
theorem rakeSqshEmpty : Obligations.RakeSqshEmpty := by
  refine ⟨fun s f es reach hes hf hfloor htop hreach hset hwhole => ?_, fun s bytes hs hraw hchunk => ⟨?_, ?_⟩⟩
  · have reads := rakeTurn_reads Config.core ⟨hset, hwhole⟩ hes
    split
    · next e hread => rwa [hread] at reads
    · next token rest hread =>
      rw [hread] at reads
      split
      · next e hrefused => exact reads.raises hf hfloor hreach hrefused
      · next hrefused => exact reads.writes hf hfloor hreach htop hrefused
  · refine ⟨withRakeLengths Config.core 255 s.lenm, rakeSlot Config.core, ?_, fun k hk => ?_, fun x => mem_rakeSlot,
      exec_rake_of_empty hs hraw hchunk⟩
    · rw [memBytes_withRakeLengths, rakeLens, List.map_map]
      rfl
    · rw [storeRead_withRakeLengths _ le_rfl, if_neg (by omega)]
  · exact exec_sqsh_of_empty hs hraw hchunk

end
